-- ==== Sys2Proof/Word.lean ====
section
/-! DEFINITION. The word types of the core: bytes, 32-bit words and addresses (`AW = 32`, decision D4 of spec/92),
RGB565 colour words, and tables of bytes. -/

namespace Sys2Proof

/-- A byte: a framebuffer byte, a table entry. -/
abbrev Byte := BitVec 8

/-- A 32-bit word: an address (`AW = 32`, 00_scope R5), a pointer variable, a delay word, a counter. -/
abbrev Word := BitVec 32

/-- A 16-bit RGB565 colour word (30_encoding R91). -/
abbrev Color := BitVec 16

/-- A table of `n` bytes (10_state R26, R27). -/
abbrev Table (n : Nat) := Vector Byte n

/-- The table whose entry `i` is `f i`. -/
def tabulate (n : Nat) (f : Nat → Byte) : Table n := ⟨⟨(List.range n).map f⟩, by simp⟩

@[simp] theorem tabulate_getElem (n : Nat) (f : Nat → Byte) (i : Nat) (h : i < n) : (tabulate n f)[i] = f i := by
  simp [tabulate]

/-- The null pointer value (00_scope R5, decision D7). -/
def nullPtr : Word := 0

end Sys2Proof
end

