-- ==== Sys2Proof/Syntax.lean ====
section
/-! DEFINITION. The operations of the core as syntax: one constructor of `Instr` for each row of spec/opcode_table.json,
and the names of the agents and of the sequencer states the rows speak of. -/

namespace Sys2Proof

/-- The four transfer channels, in index order (10_state section 7: A1 = 0, A2 = 1, B1 = 2, B2 = 3). -/
inductive Chan where
  | a1 | a2 | b1 | b2
  deriving DecidableEq, Repr, Inhabited

/-- The eight agents (00_scope R10). -/
inductive Agent where
  | render
  | chan (c : Chan)
  | dseq | rseq | oseq
  deriving DecidableEq, Repr, Inhabited

/-- The states of the data sequencer (10_state R45, codes in 30_encoding R100). -/
inductive DState where
  | off | loadWidth | shiftColumn | awaitNextRow
  deriving DecidableEq, Repr, Inhabited

/-- The states of the row sequencer (10_state R47, codes in 30_encoding R100). -/
inductive RState where
  | off | loadRowCount | loadPlaneCount | setAddress | awaitData | latch | signalTiming | awaitTimingDone | next
  deriving DecidableEq, Repr, Inhabited

/-- The states of the output-enable sequencer (10_state R49, codes in 30_encoding R100). -/
inductive OState where
  | off | loadDelay | awaitTimingStart | hold | signalDone
  deriving DecidableEq, Repr, Inhabited

/-- The operations: the render-port commands (30_encoding R92, R95), the four reserved `OP` values (R96), the programmed
channel control words (R97), and the sequencer micro-operations (R100). -/
inductive Instr where
  /-- INIT, 41_display_memory R140. -/
  | init
  /-- CONFIGURE, 40_color_correction R126. -/
  | configure (pwmBits : BitVec 4) (gammaEn : Bool) (brightness : Byte) (timing : Word)
  /-- ENGINE_SETUP, 42_transfer_engine R172. -/
  | engineSetup
  /-- ENGINE_START, 42_transfer_engine R174. -/
  | engineStart
  /-- SET_PIXEL, 41_display_memory R145; `x` and `y` are the signed 16-bit fields of 30_encoding R93. -/
  | setPixel (x y : BitVec 16) (color : Color)
  /-- CLEAR, 41_display_memory R150. -/
  | clear
  /-- COMMIT, 41_display_memory R155. -/
  | commit
  /-- GET_ACTIVE_BUFFER_PTR, 41_display_memory R160. -/
  | getActiveBufferPtr
  /-- GET_DELAY_PTR, 41_display_memory R161. -/
  | getDelayPtr
  /-- GET_FB_PTR_ADDR, 41_display_memory R162. -/
  | getFbPtrAddr
  /-- GET_DELAY_PTR_ADDR, 41_display_memory R163. -/
  | getDelayPtrAddr
  /-- GAMMA_CORRECT, 40_color_correction R122. -/
  | gammaCorrect (value : Byte)
  /-- A word with `OP = 0x0`, 30_encoding R96; the payload is its other 60 bits. -/
  | reservedOp0 (payload : BitVec 60)
  /-- A word with `OP = 0xD`, 30_encoding R96. -/
  | reservedOpD (payload : BitVec 60)
  /-- A word with `OP = 0xE`, 30_encoding R96. -/
  | reservedOpE (payload : BitVec 60)
  /-- A word with `OP = 0xF`, 30_encoding R96. -/
  | reservedOpF (payload : BitVec 60)
  /-- One transfer of channel A1 with `W_A = 4`, 42_transfer_engine R180. -/
  | xferA1W4
  /-- One transfer of channel A1 with `W_A = 2`, 42_transfer_engine R180. -/
  | xferA1W2
  /-- One transfer of channel A1 with `W_A = 1`, 42_transfer_engine R180. -/
  | xferA1W1
  /-- The transfer of channel A2, 42_transfer_engine R181. -/
  | xferA2
  /-- One transfer of channel B1, 42_transfer_engine R182. -/
  | xferB1
  /-- The transfer of channel B2, 42_transfer_engine R182. -/
  | xferB2
  /-- D_OFF, 43_sequencers R200. -/
  | dOff
  /-- D_LOAD_WIDTH, 43_sequencers R201. -/
  | dLoadWidth
  /-- D_SHIFT_COLUMN, 43_sequencers R202. -/
  | dShiftColumn
  /-- D_AWAIT_NEXT_ROW, 43_sequencers R203. -/
  | dAwaitNextRow
  /-- R_OFF, 43_sequencers R200. -/
  | rOff
  /-- R_LOAD_ROW_COUNT, 43_sequencers R210. -/
  | rLoadRowCount
  /-- R_LOAD_PLANE_COUNT, 43_sequencers R211. -/
  | rLoadPlaneCount
  /-- R_SET_ADDRESS, 43_sequencers R212. -/
  | rSetAddress
  /-- R_AWAIT_DATA, 43_sequencers R214. -/
  | rAwaitData
  /-- R_LATCH, 43_sequencers R215. -/
  | rLatch
  /-- R_SIGNAL_TIMING, 43_sequencers R216. -/
  | rSignalTiming
  /-- R_AWAIT_TIMING_DONE, 43_sequencers R217. -/
  | rAwaitTimingDone
  /-- R_NEXT, 43_sequencers R218. -/
  | rNext
  /-- O_OFF, 43_sequencers R200. -/
  | oOff
  /-- O_LOAD_DELAY, 43_sequencers R220. -/
  | oLoadDelay
  /-- O_AWAIT_TIMING_START, 43_sequencers R221. -/
  | oAwaitTimingStart
  /-- O_HOLD, 43_sequencers R222. -/
  | oHold
  /-- O_SIGNAL_DONE, 43_sequencers R223. -/
  | oSignalDone
  deriving DecidableEq, Repr, Inhabited

/-- What the environment does next (00_scope R11, 10_state R21): the render domain issues a command word at the render
port, or the schedule picks an agent. -/
inductive Turn where
  | issue (word : BitVec 64)
  | agent (a : Agent)
  deriving DecidableEq, Repr, Inhabited

end Sys2Proof
end

