-- ==== Sys2Proof/WellFormed.lean ====
section
/-! DEFINITION. Which terms of `Instr` are operations the spec gives a word: the one operand with an illegal range is
CONFIGURE's `PWM_BITS` (30_encoding R96). -/

namespace Sys2Proof

/-- `PWM_BITS` is in 1..8 (30_encoding R96, 10_state R24). -/
def pwmBitsLegal (b : BitVec 4) : Bool := 1 ≤ b.toNat && b.toNat ≤ 8

/-- The instruction is one whose operands the encoding admits (30_encoding R92, R96). -/
def Instr.wellFormed : Instr → Bool
  | .configure pwmBits _ _ _ => pwmBitsLegal pwmBits
  | .init | .engineSetup | .engineStart | .setPixel .. | .clear | .commit | .getActiveBufferPtr | .getDelayPtr
  | .getFbPtrAddr | .getDelayPtrAddr | .gammaCorrect _ => true
  | .reservedOp0 _ | .reservedOpD _ | .reservedOpE _ | .reservedOpF _ => true
  | .xferA1W4 | .xferA1W2 | .xferA1W1 | .xferA2 | .xferB1 | .xferB2 => true
  | .dOff | .dLoadWidth | .dShiftColumn | .dAwaitNextRow => true
  | .rOff | .rLoadRowCount | .rLoadPlaneCount | .rSetAddress | .rAwaitData | .rLatch | .rSignalTiming
  | .rAwaitTimingDone | .rNext => true
  | .oOff | .oLoadDelay | .oAwaitTimingStart | .oHold | .oSignalDone => true

end Sys2Proof
end

