-- ==== Sys2Proof/Decode.lean ====
section
/-! DEFINITION. Decoding and encoding: the 64-bit command word `CMD64` (30_encoding R92 to R96), the 16-bit channel
control word `DMACTRL` (10_state R40, 30_encoding R97) and the sequencer state codes (30_encoding R100). The decoder is
total and rejects by name; the encoder is written from the same tables. -/

namespace Sys2Proof

/-- Why a word is no operation. -/
inductive Reject where
  /-- A bit that 30_encoding R92 requires to be 0 is not (R96: refuse(ReservedCommand)). -/
  | reservedBits
  /-- CONFIGURE with `PWM_BITS` outside 1..8 (R96: refuse(ReservedCommand)). -/
  | pwmBits
  /-- A control word with `SIZE = 3`, `PACE = 3` or a non-zero reserved bit (R97: refuse(ReservedCtrl)). -/
  | reservedCtrl
  /-- A legal control word that is none of the words of 30_encoding R97. -/
  | otherCtrl
  /-- A state code that 30_encoding R100 gives no state. -/
  | noState
  /-- A word of a length that 30_encoding R102 does not list. -/
  | noFormat
  deriving DecidableEq, Repr

/-- An encoded operation with its format (30_encoding R102). -/
inductive Code where
  | cmd64 (w : BitVec 64)
  | dmaCtrl (w : BitVec 16)
  | dState (w : BitVec 2)
  | rState (w : BitVec 4)
  | oState (w : BitVec 3)
  deriving DecidableEq, Repr

/-! ### The command word -/

/-- `CMD64` with its operand fields, by `OP` = `w[63:60]` (30_encoding R92, R93, R95, R96). -/
def decodeCmd (w : BitVec 64) : Except Reject Instr :=
  let plain (i : Instr) : Except Reject Instr := if w.extractLsb' 0 60 = 0 then .ok i else .error .reservedBits
  match (w.extractLsb' 60 4).toNat with
  | 0 => .ok (.reservedOp0 (w.extractLsb' 0 60))
  | 1 => plain .init
  | 2 =>
    if w.extractLsb' 45 15 ≠ 0 then .error .reservedBits
    else if pwmBitsLegal (w.extractLsb' 41 4) then
      .ok (.configure (w.extractLsb' 41 4) (w.getLsbD 40) (w.extractLsb' 32 8) (w.extractLsb' 0 32))
    else .error .pwmBits
  | 3 => plain .engineSetup
  | 4 => plain .engineStart
  | 5 =>
    if w.extractLsb' 48 12 ≠ 0 then .error .reservedBits
    else .ok (.setPixel (w.extractLsb' 32 16) (w.extractLsb' 16 16) (w.extractLsb' 0 16))
  | 6 => plain .clear
  | 7 => plain .commit
  | 8 => plain .getActiveBufferPtr
  | 9 => plain .getDelayPtr
  | 10 => plain .getFbPtrAddr
  | 11 => plain .getDelayPtrAddr
  | 12 => if w.extractLsb' 8 52 ≠ 0 then .error .reservedBits else .ok (.gammaCorrect (w.extractLsb' 0 8))
  | 13 => .ok (.reservedOpD (w.extractLsb' 0 60))
  | 14 => .ok (.reservedOpE (w.extractLsb' 0 60))
  | _ => .ok (.reservedOpF (w.extractLsb' 0 60))

/-! ### The channel control word -/

/-- `EN`, bit 0 (10_state R40). -/
def ctrlEn (w : BitVec 16) : Bool := w.getLsbD 0

/-- `SIZE`, bits 2:1. -/
def ctrlSize (w : BitVec 16) : BitVec 2 := w.extractLsb' 1 2

/-- `INCR_READ`, bit 3. -/
def ctrlIncrRead (w : BitVec 16) : Bool := w.getLsbD 3

/-- `INCR_WRITE`, bit 4. -/
def ctrlIncrWrite (w : BitVec 16) : Bool := w.getLsbD 4

/-- `CHAIN_TO`, bits 6:5, a channel index. -/
def ctrlChainTo (w : BitVec 16) : Chan :=
  match (w.extractLsb' 5 2).toNat with
  | 0 => .a1
  | 1 => .a2
  | 2 => .b1
  | _ => .b2

/-- `PACE`, bits 8:7. -/
def ctrlPace (w : BitVec 16) : BitVec 2 := w.extractLsb' 7 2

/-- The reserved encodings of a control word: `SIZE = 3`, `PACE = 3`, a non-zero bit in 15:9 (30_encoding R97). -/
def ctrlReserved (w : BitVec 16) : Bool := ctrlSize w = 3 || ctrlPace w = 3 || w.extractLsb' 9 7 ≠ 0

/-- Bytes per transfer, `1 << SIZE` (42_transfer_engine R171). -/
def ctrlBytes (w : BitVec 16) : Nat := 1 <<< (ctrlSize w).toNat

/-- The words of 30_encoding R97. -/
def ctrlA1W4 : BitVec 16 := 0x00AD
def ctrlA1W2 : BitVec 16 := 0x00AB
def ctrlA1W1 : BitVec 16 := 0x00A9
def ctrlA2 : BitVec 16 := 0x0005
def ctrlB1 : BitVec 16 := 0x016D
def ctrlB2 : BitVec 16 := 0x0045

/-- A channel control word (30_encoding R97). -/
def decodeCtrl (w : BitVec 16) : Except Reject Instr :=
  if w = ctrlA1W4 then .ok .xferA1W4
  else if w = ctrlA1W2 then .ok .xferA1W2
  else if w = ctrlA1W1 then .ok .xferA1W1
  else if w = ctrlA2 then .ok .xferA2
  else if w = ctrlB1 then .ok .xferB1
  else if w = ctrlB2 then .ok .xferB2
  else if ctrlReserved w then .error .reservedCtrl
  else .error .otherCtrl

/-- The channel whose programmed control word an operation is (30_encoding R97). -/
def Instr.chan? : Instr → Option Chan
  | .xferA1W4 | .xferA1W2 | .xferA1W1 => some .a1
  | .xferA2 => some .a2
  | .xferB1 => some .b1
  | .xferB2 => some .b2
  | .init | .configure .. | .engineSetup | .engineStart | .setPixel .. | .clear | .commit | .getActiveBufferPtr
  | .getDelayPtr | .getFbPtrAddr | .getDelayPtrAddr | .gammaCorrect _ | .reservedOp0 _ | .reservedOpD _
  | .reservedOpE _ | .reservedOpF _ | .dOff | .dLoadWidth | .dShiftColumn | .dAwaitNextRow | .rOff | .rLoadRowCount
  | .rLoadPlaneCount | .rSetAddress | .rAwaitData | .rLatch | .rSignalTiming | .rAwaitTimingDone | .rNext | .oOff
  | .oLoadDelay | .oAwaitTimingStart | .oHold | .oSignalDone => none

/-- The operation channel `c` performs while `CTRL[c] = w`, when `w` is a word 30_encoding R97 gives that channel. -/
def chanInstr (c : Chan) (w : BitVec 16) : Option Instr :=
  match decodeCtrl w with
  | .ok i => if i.chan? = some c then some i else none
  | .error _ => none

/-! ### Sequencer state codes -/

/-- The micro-operation of a state of the data sequencer (10_state R23). -/
def DState.instr : DState → Instr
  | .off => .dOff
  | .loadWidth => .dLoadWidth
  | .shiftColumn => .dShiftColumn
  | .awaitNextRow => .dAwaitNextRow

/-- The micro-operation of a state of the row sequencer. -/
def RState.instr : RState → Instr
  | .off => .rOff
  | .loadRowCount => .rLoadRowCount
  | .loadPlaneCount => .rLoadPlaneCount
  | .setAddress => .rSetAddress
  | .awaitData => .rAwaitData
  | .latch => .rLatch
  | .signalTiming => .rSignalTiming
  | .awaitTimingDone => .rAwaitTimingDone
  | .next => .rNext

/-- The micro-operation of a state of the output-enable sequencer. -/
def OState.instr : OState → Instr
  | .off => .oOff
  | .loadDelay => .oLoadDelay
  | .awaitTimingStart => .oAwaitTimingStart
  | .hold => .oHold
  | .signalDone => .oSignalDone

/-- The state with a `DSTATE` code (30_encoding R100). -/
def dStateOf (w : BitVec 2) : DState :=
  match w.toNat with
  | 0 => .off
  | 1 => .loadWidth
  | 2 => .shiftColumn
  | _ => .awaitNextRow

/-- The state with an `RSTATE` code; codes 9 to 15 are no states (30_encoding R100). -/
def rStateOf (w : BitVec 4) : Option RState :=
  match w.toNat with
  | 0 => some .off
  | 1 => some .loadRowCount
  | 2 => some .loadPlaneCount
  | 3 => some .setAddress
  | 4 => some .awaitData
  | 5 => some .latch
  | 6 => some .signalTiming
  | 7 => some .awaitTimingDone
  | 8 => some .next
  | _ => none

/-- The state with an `OSTATE` code; codes 5 to 7 are no states (30_encoding R100). -/
def oStateOf (w : BitVec 3) : Option OState :=
  match w.toNat with
  | 0 => some .off
  | 1 => some .loadDelay
  | 2 => some .awaitTimingStart
  | 3 => some .hold
  | 4 => some .signalDone
  | _ => none

/-! ### All formats -/

/-- The operation an encoded object stands for. -/
def decode : Code → Except Reject Instr
  | .cmd64 w => decodeCmd w
  | .dmaCtrl w => decodeCtrl w
  | .dState w => .ok (dStateOf w).instr
  | .rState w =>
    match rStateOf w with
    | some st => .ok st.instr
    | none => .error .noState
  | .oState w =>
    match oStateOf w with
    | some st => .ok st.instr
    | none => .error .noState

/-- The encoded object with `nbits` bits whose value is `w`, by the lengths of 30_encoding R102 and R100. -/
def codeOf (nbits w : Nat) : Option Code :=
  match nbits with
  | 64 => some (.cmd64 (BitVec.ofNat 64 w))
  | 16 => some (.dmaCtrl (BitVec.ofNat 16 w))
  | 4 => some (.rState (BitVec.ofNat 4 w))
  | 3 => some (.oState (BitVec.ofNat 3 w))
  | 2 => some (.dState (BitVec.ofNat 2 w))
  | _ => none

/-- What the decoder reads from a word numbered as spec/opcode_table.json numbers it. A length of the table's own is
taken as it is; 8 bits, a state code rounded up to whole bytes, names no format (notes/assumptions/13.md). -/
def decodeTableWord (nbits w : Nat) : Option Instr :=
  match codeOf nbits w with
  | some c => (decode c).toOption
  | none => none

/-! ### The encoder -/

/-- A command word from its `OP` and its other 60 bits (30_encoding R92). -/
def cmdWord (op : BitVec 4) (operands : BitVec 60) : BitVec 64 := op ++ operands

/-- The encoded object of an operation (30_encoding R92, R95, R97, R100). -/
def encode : Instr → Code
  | .init => .cmd64 (cmdWord 0x1 0)
  | .configure pwmBits gammaEn brightness timing =>
    .cmd64 (cmdWord 0x2 (0#15 ++ pwmBits ++ BitVec.ofBool gammaEn ++ brightness ++ timing))
  | .engineSetup => .cmd64 (cmdWord 0x3 0)
  | .engineStart => .cmd64 (cmdWord 0x4 0)
  | .setPixel x y color => .cmd64 (cmdWord 0x5 (0#12 ++ x ++ y ++ color))
  | .clear => .cmd64 (cmdWord 0x6 0)
  | .commit => .cmd64 (cmdWord 0x7 0)
  | .getActiveBufferPtr => .cmd64 (cmdWord 0x8 0)
  | .getDelayPtr => .cmd64 (cmdWord 0x9 0)
  | .getFbPtrAddr => .cmd64 (cmdWord 0xA 0)
  | .getDelayPtrAddr => .cmd64 (cmdWord 0xB 0)
  | .gammaCorrect value => .cmd64 (cmdWord 0xC (0#52 ++ value))
  | .reservedOp0 payload => .cmd64 (cmdWord 0x0 payload)
  | .reservedOpD payload => .cmd64 (cmdWord 0xD payload)
  | .reservedOpE payload => .cmd64 (cmdWord 0xE payload)
  | .reservedOpF payload => .cmd64 (cmdWord 0xF payload)
  | .xferA1W4 => .dmaCtrl ctrlA1W4
  | .xferA1W2 => .dmaCtrl ctrlA1W2
  | .xferA1W1 => .dmaCtrl ctrlA1W1
  | .xferA2 => .dmaCtrl ctrlA2
  | .xferB1 => .dmaCtrl ctrlB1
  | .xferB2 => .dmaCtrl ctrlB2
  | .dOff => .dState 0
  | .dLoadWidth => .dState 1
  | .dShiftColumn => .dState 2
  | .dAwaitNextRow => .dState 3
  | .rOff => .rState 0
  | .rLoadRowCount => .rState 1
  | .rLoadPlaneCount => .rState 2
  | .rSetAddress => .rState 3
  | .rAwaitData => .rState 4
  | .rLatch => .rState 5
  | .rSignalTiming => .rState 6
  | .rAwaitTimingDone => .rState 7
  | .rNext => .rState 8
  | .oOff => .oState 0
  | .oLoadDelay => .oState 1
  | .oAwaitTimingStart => .oState 2
  | .oHold => .oState 3
  | .oSignalDone => .oState 4

end Sys2Proof
end

