-- ==== Sys2Proof/Config.lean ====
section
/-! DEFINITION. What is fixed when the core is constructed (00_scope R5), as plain data, with the parameter set
`State.reset` is built from; and the free values of the model. -/

namespace Sys2Proof

/-- The configuration record `CFG` (10_state R24). -/
structure Hub75Config where
  /-- Bit-plane count, 1..8 and equal to `ColorBits`. -/
  pwmBits : BitVec 4
  /-- Global brightness. -/
  brightness : Byte
  /-- Gamma-correction enable flag. -/
  useGamma : Bool
  /-- Stored, without effect on anything modelled (10_state R24, decision D33). -/
  timing : Word
  deriving DecidableEq, Repr, Inhabited

/-- `CHAN_PERM`: the bit position of each colour inside a 3-bit group (30_encoding R90). -/
structure ChanPerm where
  r : Fin 3
  g : Fin 3
  b : Fin 3
  deriving DecidableEq, Repr, Inhabited

/-- The construction parameters (00_scope R5). -/
structure Params where
  /-- `Width`, columns of the canvas. -/
  width : Nat
  /-- `ActiveRows`, rows per scan half. -/
  activeRows : Nat
  /-- `ColorBits`, bit-planes per channel. -/
  colorBits : Nat
  /-- `W_A`, bytes per transfer of channel A1. -/
  wA : Nat
  /-- `QD_DATA`, capacity of `DQ` in words. -/
  qdData : Nat
  /-- `QD_OE`, capacity of `OQ` in words. -/
  qdOe : Nat
  /-- `HOLD_BIAS`, ticks of output enable beyond the delay value. -/
  holdBias : Nat
  /-- `ADDR_INVERT`, row-address polarity. -/
  addrInvert : Bool
  /-- `CHAN_PERM`. -/
  chanPerm : ChanPerm
  /-- `GAMMA[0..255]`. -/
  gamma : Table 256
  /-- `CFG_RESET`. -/
  cfgReset : Hub75Config
  fb0Base : Word
  fb1Base : Word
  delaysBase : Word
  fbPtrAddr : Word
  delayPtrAddr : Word
  dmaBase : Word
  dataTxf : Word
  oeTxf : Word
  deriving DecidableEq, Repr

/-- `FRAME_SIZE = ActiveRows × ColorBits × Width` bytes (00_scope R5). -/
def Params.frameSize (p : Params) : Nat := p.activeRows * p.colorBits * p.width

/-- Canvas rows, `Height = 2 × ActiveRows` (00_scope R5). -/
def Params.height (p : Params) : Nat := 2 * p.activeRows

namespace Config

/-- DESIGN CHOICE (notes/assumptions/1.md): the parameter set `State.reset` is constructed from: that of program P-B of
spec/95_test_vectors.md with its fixtures (identity `GAMMA` and `CHAN_PERM`, `HOLD_BIAS = 1`, `ADDR_INVERT = 0`,
brightness 255, gamma off). Every parameter is OPEN in the spec; `State.initial` takes any set. -/
def resetParams : Params where
  width := 2
  activeRows := 2
  colorBits := 2
  wA := 4
  qdData := 2
  qdOe := 2
  holdBias := 1
  addrInvert := false
  chanPerm := { r := 0, g := 1, b := 2 }
  gamma := tabulate 256 fun v => BitVec.ofNat 8 v
  cfgReset := { pwmBits := 2, brightness := 255, useGamma := false, timing := 0 }
  fb0Base := 0x20000000
  fb1Base := 0x20000008
  delaysBase := 0x20000010
  fbPtrAddr := 0x20000018
  delayPtrAddr := 0x2000001C
  dmaBase := 0x50000000
  dataTxf := 0x50200010
  oeTxf := 0x50200018

/-- FREE VALUE (notes/assumptions/2.md): the turn the environment takes when `env.turns` fixes none, the `n`-th such
turn. No body: the schedule and the commands are unconstrained (00_scope R11, 10_state R21). -/
opaque freeTurn : Nat → Turn

end Config

end Sys2Proof
end

