-- ==== Sys2Proof/Machine/Map.lean ====
section
/-! DEFINITION. The address map (20_memory R63, R66), the reset contents of memory (70_reset R280), and which parameter
sets are legal (00_scope R6). -/

namespace Sys2Proof.Machine

/-- The eight objects of 20_memory R63. -/
inductive Obj where
  | fb0 | fb1 | delays | fbPtr | delayPtr | dmaRegs | dataPort | oePort
  deriving DecidableEq, Repr, Inhabited

/-- An object's place: its first address and its size in bytes. -/
structure Region where
  obj : Obj
  base : Nat
  size : Nat
  deriving DecidableEq, Repr

/-- The addresses `a .. a+n-1` lie wholly inside the region. -/
def Region.holds (r : Region) (a n : Nat) : Bool := r.base ≤ a && a + n ≤ r.base + r.size

/-- Two regions share no address. -/
def Region.disjoint (r q : Region) : Bool := r.base + r.size ≤ q.base || q.base + q.size ≤ r.base

/-- The address map (20_memory R63). -/
def regions (p : Params) : List Region :=
  [ { obj := .fb0, base := p.fb0Base.toNat, size := p.frameSize },
    { obj := .fb1, base := p.fb1Base.toNat, size := p.frameSize },
    { obj := .delays, base := p.delaysBase.toNat, size := 4 * p.colorBits },
    { obj := .fbPtr, base := p.fbPtrAddr.toNat, size := 4 },
    { obj := .delayPtr, base := p.delayPtrAddr.toNat, size := 4 },
    { obj := .dmaRegs, base := p.dmaBase.toNat, size := 64 },
    { obj := .dataPort, base := p.dataTxf.toNat, size := 4 },
    { obj := .oePort, base := p.oeTxf.toNat, size := 4 } ]

/-- The object that wholly holds the `n` bytes at `a`, if one does (20_memory R67). -/
def objAt (p : Params) (a n : Nat) : Option Obj := ((regions p).find? fun r => r.holds a n).map Region.obj

/-- The objects of the memory region (20_memory R63). -/
def Obj.isMemory : Obj → Bool
  | .fb0 | .fb1 | .delays | .fbPtr | .delayPtr => true
  | .dmaRegs | .dataPort | .oePort => false

/-- The delay word of bit-plane `i`, `2^i − 1` (10_state R35, 30_encoding R99). -/
def delayWord (i : Nat) : Nat := 2 ^ i - 1

/-- The byte at address `a` after construction (70_reset R280): the delay table, little-endian, and zeros. -/
def resetByte (p : Params) (a : Nat) : Byte :=
  let o := a - p.delaysBase.toNat
  if p.delaysBase.toNat ≤ a ∧ o < 4 * p.colorBits then BitVec.ofNat 8 (delayWord (o / 4) / 256 ^ (o % 4)) else 0

/-- What 40_color_correction R121 requires of the gamma table. -/
abbrev GammaLegal (g : Table 256) : Prop := g[0] = 0 ∧ g[255] = 255 ∧ ∀ i : Fin 255, g[i.val] ≤ g[i.val + 1]

/-- `CHAN_PERM` is a bijection (00_scope R6). -/
abbrev PermLegal (c : ChanPerm) : Prop := c.r ≠ c.g ∧ c.g ≠ c.b ∧ c.r ≠ c.b

/-- The constraints on the address map (20_memory R66). -/
abbrev MapLegal (p : Params) : Prop :=
  (regions p).Pairwise (fun r q => r.disjoint q = true) ∧
  (∀ r ∈ regions p, 1 ≤ r.base ∧ r.base + r.size ≤ 2 ^ 32) ∧
  p.fb0Base.toNat % p.wA = 0 ∧ p.fb1Base.toNat % p.wA = 0 ∧
  p.delaysBase.toNat % 4 = 0 ∧ p.fbPtrAddr.toNat % 4 = 0 ∧ p.delayPtrAddr.toNat % 4 = 0 ∧
  p.dmaBase.toNat % 4 = 0 ∧ p.dataTxf.toNat % 4 = 0 ∧ p.oeTxf.toNat % 4 = 0

/-- A parameter set construction accepts (00_scope R6). -/
abbrev ParamsLegal (p : Params) : Prop :=
  1 ≤ p.width ∧ (1 ≤ p.activeRows ∧ p.activeRows ≤ 32) ∧ (1 ≤ p.colorBits ∧ p.colorBits ≤ 8) ∧
  (p.wA = 1 ∨ p.wA = 2 ∨ p.wA = 4) ∧ p.frameSize % p.wA = 0 ∧ 1 ≤ p.qdData ∧ 1 ≤ p.qdOe ∧ p.holdBias ≤ 1 ∧
  PermLegal p.chanPerm ∧ GammaLegal p.gamma ∧ p.cfgReset.pwmBits.toNat = p.colorBits ∧ MapLegal p

end Sys2Proof.Machine
end

