-- ==== Sys2Proof/Machine/Rebuild.lean ====
section
/-! DEFINITION. The rebuild of the colour-correction tables (40_color_correction R123, R124, R127). -/

namespace Sys2Proof.Machine

/-- `expand_N(v) = (v · 255) / (2^N − 1)` (R123). -/
def expand (n v : Nat) : Nat := v * 255 / (2 ^ n - 1)

/-- `GAMMA[v]` (R122). -/
def gammaAt (g : Table 256) (v : Byte) : Byte := g[v.toNat]'v.isLt

/-- Stages (a) and (b) of R124: the sample expanded to 8 bits, then scaled by the brightness. -/
def scaled (cfg : Hub75Config) (n v : Nat) : Nat := expand n v * cfg.brightness.toNat / 255

/-- The entry `v` of a channel table with sample width `n` (R124, stages (a) to (d) in that order). -/
def lutEntry (g : Table 256) (cfg : Hub75Config) (n v : Nat) : Byte :=
  let s := BitVec.ofNat 8 (scaled cfg n v)
  let c := if cfg.useGamma then gammaAt g s else s
  c >>> (8 - cfg.pwmBits.toNat)

/-- `LUT_R` and `LUT_B` after `rebuild(cfg)`: 5-bit samples (R124). -/
def rebuild5 (g : Table 256) (cfg : Hub75Config) : Table 32 := tabulate 32 (lutEntry g cfg 5)

/-- `LUT_G` after `rebuild(cfg)`: 6-bit samples (R124). -/
def rebuild6 (g : Table 256) (cfg : Hub75Config) : Table 64 := tabulate 64 (lutEntry g cfg 6)

end Sys2Proof.Machine
end

