-- ==== Sys2Proof/Machine/State.lean ====
section
/-! DEFINITION. The state of the core (10_state R20), the reasons a step can stop (60_exceptions R251), and the state
after construction (70_reset R280). Every piece of state is plain data. -/

namespace Sys2Proof.Machine

/-- Why the machine stops with a fault. -/
inductive Fault where
  /-- `DmaBus` (20_memory R67, R68): a transfer channel's access is misaligned, not wholly inside one object, reads a
  port or a channel register, writes memory, or writes a place inside the register window or a port that is no register
  and no port address (notes/assumptions/8.md). Raised by the channel steps. SAFE: the spec gives such an access no
  effect, and R185 says none is reachable. -/
  | dmaBus
  deriving DecidableEq, Repr

/-- Why the model gives a run no meaning (60_exceptions R251); all SAFE: a refused run proves nothing. -/
inductive Refusal where
  /-- The host's own: an instruction without a meaning yet. Raised by no arm of `exec`. SAFE. -/
  | notModelled (mnemonic : String)
  /-- `BadParameters` (00_scope R6): raised by construction, and by a push on a full queue, which only a channel aimed at
  the wrong queue makes (93 U1, notes/assumptions/9.md). SAFE. -/
  | badParameters
  /-- `ReservedCommand` (30_encoding R96): raised by the render port for a word that is no command. SAFE. -/
  | reservedCommand
  /-- `ReservedCtrl` (30_encoding R97): raised by a channel whose control word, or a control word it writes, has a
  reserved encoding. SAFE. -/
  | reservedCtrl
  /-- `PortSize` (20_memory R65): raised by a channel that writes a port with another size than the port's. SAFE. -/
  | portSize
  /-- `NotAttached` (41_display_memory R141): raised by commands that need a buffer while `FB_PTR = NULL`. SAFE. -/
  | notAttached
  /-- `AlreadyAttached` (41_display_memory R140): raised by a second INIT. SAFE. -/
  | alreadyAttached
  /-- `BitDepthChange` (40_color_correction R126): raised by CONFIGURE with `pwm_bits ≠ ColorBits`. SAFE. -/
  | bitDepthChange
  /-- `EngineAlreadyConfigured` (42_transfer_engine R172): raised by ENGINE_SETUP when `ENGINE ≠ OFF`. SAFE. -/
  | engineAlreadyConfigured
  /-- `EngineNotConfigured` (42_transfer_engine R174): raised by ENGINE_START when `ENGINE ≠ SETUP`. SAFE. -/
  | engineNotConfigured
  /-- `ConcurrentRender` (20_memory R73): raised by a command issued while another is in progress. SAFE. -/
  | concurrentRender
  deriving DecidableEq, Repr

/-- Memory: address and byte pairs, addresses strictly rising, no pair equal to what the address reads as when unlisted
(notes/assumptions/7.md). -/
abbrev Memory := List Host.Cell

/-- `ENGINE` (10_state R42). -/
inductive Engine where
  | off | setup | running
  deriving DecidableEq, Repr, Inhabited

/-- The registers of one transfer channel (10_state R36 to R41). -/
structure ChanRegs where
  readAddr : Word
  writeAddr : Word
  transCount : Word
  remain : Word
  ctrl : BitVec 16
  busy : Bool
  deriving DecidableEq, Repr, Inhabited

/-- The data sequencer (10_state R45, R46). -/
structure DSeq where
  /-- `STATE_D`. -/
  state : DState
  /-- `COL`. -/
  col : Word
  /-- `OSR`, its `8·W_A` bits zero-extended (notes/assumptions/14.md). -/
  osr : Word
  /-- `OSR_LEFT`. -/
  osrLeft : Nat
  deriving DecidableEq, Repr, Inhabited

/-- The row sequencer (10_state R47, R48). -/
structure RSeq where
  /-- `STATE_R`. -/
  state : RState
  /-- `ROWS_M1`. -/
  rowsM1 : Word
  /-- `PLANES_M1`. -/
  planesM1 : Word
  /-- `ROW`. -/
  row : Word
  /-- `PLANE`. -/
  plane : Word
  deriving DecidableEq, Repr, Inhabited

/-- The output-enable sequencer (10_state R49, R50). -/
structure OSeq where
  /-- `STATE_O`. -/
  state : OState
  /-- `CNT`. -/
  cnt : Word
  deriving DecidableEq, Repr, Inhabited

/-- The four event flags (10_state R52). -/
structure EventFlags where
  /-- `RDR`, row-data-ready. -/
  rdr : Bool
  /-- `RAS`, row-address-set. -/
  ras : Bool
  /-- `TS`, timing-start. -/
  ts : Bool
  /-- `TD`, timing-done. -/
  td : Bool
  deriving DecidableEq, Repr, Inhabited

/-- The output pins (10_state R54); `true` is the high level. -/
structure Pins where
  data : BitVec 6
  clk : Bool
  lat : Bool
  addr : BitVec 5
  oeN : Bool
  deriving DecidableEq, Repr, Inhabited

/-- The events of the output trace (00_scope R13). -/
inductive PinEvent where
  | data (v : BitVec 6)
  | clk (level : Bool)
  | lat (level : Bool)
  | addr (a : BitVec 5)
  | oe (level : Bool)
  | tick
  deriving DecidableEq, Repr, Inhabited

/-- A memory event of a render command (20_memory R72), with the private work the command does right after it. -/
inductive MemEvent where
  /-- Read `FB_PTR` and select the draw buffer (41_display_memory R143). -/
  | selectDraw
  /-- Read the byte at `draw_base + offset` (41_display_memory R145, event 2b+2). -/
  | readDraw (offset : Nat)
  /-- Write at `draw_base + offset` the byte just read with `bits` set (41_display_memory R145, event 2b+3). -/
  | orDraw (offset : Nat) (bits : Byte)
  /-- Write 0 at `draw_base + offset` (41_display_memory R150, R155). -/
  | zeroDraw (offset : Nat)
  /-- One atomic store of a pointer variable (41_display_memory R140, R155). -/
  | storePtr (addr value : Word)
  /-- Read a pointer variable and return it (41_display_memory R160, R161). -/
  | returnPtr (addr : Word)
  /-- ENGINE_SETUP's read of `FB_PTR`, with the registers of pair A (42_transfer_engine R172). -/
  | setupPairA
  /-- ENGINE_SETUP's read of `DELAY_PTR`, with the registers of pair B, the control words, the sequencer constants and
  `ENGINE` (42_transfer_engine R172). -/
  | setupPairB
  deriving DecidableEq, Repr, Inhabited

/-- The command in progress and its memory events not yet performed, of which there is at least one (20_memory R72). -/
structure InFlight where
  cmd : Instr
  event : MemEvent
  later : List MemEvent
  deriving DecidableEq, Repr, Inhabited

/-- What a command returned (00_scope R2). -/
inductive Ret where
  | word (v : Word)
  | byte (v : Byte)
  deriving DecidableEq, Repr, Inhabited

/-- The render port. -/
structure RenderPort where
  /-- The command in progress (10_state R20). -/
  inFlight : Option InFlight
  /-- `draw_base` of the command in progress (41_display_memory R143). -/
  drawBase : Word
  /-- `old` of the SET_PIXEL in progress (41_display_memory R145). -/
  old : Byte
  /-- What the last command returned, `none` if it returned nothing. -/
  ret : Option Ret
  deriving DecidableEq, Repr, Inhabited

/-- The environment's choices (notes/assumptions/2.md). -/
structure Env where
  /-- The next turns, first one first. -/
  turns : List Turn
  /-- How many turns were drawn from `Config.freeTurn`. -/
  drawn : Nat
  deriving DecidableEq, Repr, Inhabited

/-- The state of the core (10_state R20). -/
structure State where
  /-- The construction parameters (00_scope R5); no step changes them. -/
  par : Params
  /-- `CFG` (R24). -/
  cfg : Hub75Config
  /-- `LUT_R` (R26). -/
  lutR : Table 32
  /-- `LUT_G` (R26). -/
  lutG : Table 64
  /-- `LUT_B` (R26). -/
  lutB : Table 32
  /-- `ACTIVE` (R28); `true` is 1, fb1 active. -/
  active : Bool
  /-- Shared memory: `fb0`, `fb1`, `DELAYS`, `FB_PTR`, `DELAY_PTR` (R30 to R35). -/
  mem : Memory
  /-- The transfer channels (R36 to R41). -/
  a1 : ChanRegs
  a2 : ChanRegs
  b1 : ChanRegs
  b2 : ChanRegs
  /-- `ENGINE` (R42). -/
  engine : Engine
  /-- `DQ` (R43), oldest word first, each word zero-extended. -/
  dq : List Word
  /-- `OQ` (R43), oldest word first. -/
  oq : List Word
  dseq : DSeq
  rseq : RSeq
  oseq : OSeq
  flags : EventFlags
  pins : Pins
  render : RenderPort
  /-- The output trace so far, oldest event first (00_scope R13); read by no step. -/
  trace : List PinEvent
  env : Env
  deriving DecidableEq, Repr

/-- A channel after reset: disabled and idle (70_reset R280). -/
def ChanRegs.reset : ChanRegs := { readAddr := 0, writeAddr := 0, transCount := 0, remain := 0, ctrl := 0, busy := false }

/-- The state after construction with the parameters `p` (70_reset R280). -/
def State.initial (p : Params) : State where
  par := p
  cfg := p.cfgReset
  lutR := rebuild5 p.gamma p.cfgReset
  lutG := rebuild6 p.gamma p.cfgReset
  lutB := rebuild5 p.gamma p.cfgReset
  active := false
  mem := []
  a1 := ChanRegs.reset
  a2 := ChanRegs.reset
  b1 := ChanRegs.reset
  b2 := ChanRegs.reset
  engine := .off
  dq := []
  oq := []
  dseq := { state := .off, col := 0, osr := 0, osrLeft := 0 }
  rseq := { state := .off, rowsM1 := 0, planesM1 := 0, row := 0, plane := 0 }
  oseq := { state := .off, cnt := 0 }
  flags := { rdr := false, ras := false, ts := false, td := false }
  pins := { data := 0, clk := false, lat := false, addr := 0, oeN := true }
  render := { inFlight := none, drawBase := 0, old := 0, ret := none }
  trace := []
  env := { turns := [], drawn := 0 }

/-- The machine right after reset: `State.initial` of the parameter set `Config.resetParams`. -/
def State.reset : State := State.initial Config.resetParams

end Sys2Proof.Machine
end

