-- ==== Sys2Proof/Machine/Ops.lean ====
section
/-! DEFINITION. The named operations over memory, channel registers, queues and the trace (20_memory R60 to R68). The
core takes no exception and returns from none (60_exceptions R250, R254, R255), so there is no operation for either. -/

namespace Sys2Proof.Machine

/-- An outcome of one step. -/
abbrev Result := Host.Outcome State Fault Refusal

/-- Go on with `f` after a next state; a fault or a refusal stands. -/
def andThen (r : Result) (f : State → Result) : Result :=
  match r with
  | .next s => f s
  | .fault e => .fault e
  | .refused e => .refused e

/-! ### Memory -/

/-- The listed byte at `a`. -/
def lookupCell : Memory → Nat → Option Byte
  | [], _ => none
  | c :: m, a => if c.1 = a then some c.2 else lookupCell m a

/-- List `b` at `a`, keeping the addresses rising. -/
def insertCell : Memory → Nat → Byte → Memory
  | [], a, b => [(a, b)]
  | c :: m, a, b => if a < c.1 then (a, b) :: c :: m else if a = c.1 then (a, b) :: m else c :: insertCell m a b

/-- List nothing at `a`. -/
def eraseCell : Memory → Nat → Memory
  | [], _ => []
  | c :: m, a => if c.1 = a then eraseCell m a else c :: eraseCell m a

/-- The byte at `a`: the one listed, else its reset contents (20_memory R74, notes/assumptions/7.md). -/
def memByte (p : Params) (m : Memory) (a : Nat) : Byte := (lookupCell m a).getD (resetByte p a)

/-- Store one byte. -/
def memSet (p : Params) (m : Memory) (a : Nat) (b : Byte) : Memory :=
  if b = resetByte p a then eraseCell m a else insertCell m a b

/-- The canonical form of a memory. -/
abbrev Memory.wf (p : Params) (m : Memory) : Prop :=
  m.Pairwise (fun c d => c.1 < d.1) ∧ ∀ c ∈ m, c.2 ≠ resetByte p c.1

/-- `MemRead` of `n` bytes, little-endian (20_memory R60, R61). -/
def memNat (p : Params) (m : Memory) (a : Nat) : Nat → Nat
  | 0 => 0
  | n + 1 => (memByte p m a).toNat + 256 * memNat p m (a + 1) n

/-- `MemWrite` of the low `n` bytes of `v`, little-endian (20_memory R60, R62). -/
def memStore (p : Params) (m : Memory) (a : Nat) : Nat → Nat → Memory
  | 0, _ => m
  | n + 1, v => memStore p (memSet p m a (BitVec.ofNat 8 v)) (a + 1) n (v / 256)

/-- The byte at an address. -/
def State.byteAt (s : State) (a : Nat) : Byte := memByte s.par s.mem a

/-- The 4-byte word at an address. -/
def State.wordAt (s : State) (a : Nat) : Word := BitVec.ofNat 32 (memNat s.par s.mem a 4)

/-- Store one byte. -/
def State.setByte (s : State) (a : Nat) (b : Byte) : State := { s with mem := memSet s.par s.mem a b }

/-- Store a 4-byte word in one event (20_memory R70). -/
def State.setWord (s : State) (a : Nat) (v : Word) : State := { s with mem := memStore s.par s.mem a 4 v.toNat }

/-- `FB_PTR` (10_state R32). -/
def State.fbPtr (s : State) : Word := s.wordAt s.par.fbPtrAddr.toNat

/-- `DELAY_PTR` (10_state R33). -/
def State.delayPtr (s : State) : Word := s.wordAt s.par.delayPtrAddr.toNat

/-- `draw_base`: the buffer `FB_PTR` does not name (41_display_memory R143). -/
def State.drawBaseNow (s : State) : Word := if s.fbPtr = s.par.fb0Base then s.par.fb1Base else s.par.fb0Base

/-! ### Channel registers -/

/-- The registers of channel `c`. -/
def State.chan (s : State) : Chan → ChanRegs
  | .a1 => s.a1
  | .a2 => s.a2
  | .b1 => s.b1
  | .b2 => s.b2

/-- Replace the registers of channel `c`. -/
def State.setChan (s : State) (c : Chan) (r : ChanRegs) : State :=
  match c with
  | .a1 => { s with a1 := r }
  | .a2 => { s with a2 := r }
  | .b1 => { s with b1 := r }
  | .b2 => { s with b2 := r }

/-- The index of a channel (10_state section 7). -/
def chanIndex : Chan → Nat
  | .a1 => 0
  | .a2 => 1
  | .b1 => 2
  | .b2 => 3

/-- The address of `READ_ADDR[c]`, `DMA_BASE + 16·c` (20_memory R64). -/
def readAddrAddr (p : Params) (c : Chan) : Word := p.dmaBase + BitVec.ofNat 32 (16 * chanIndex c)

/-- The channel whose registers hold byte `o` of the window (20_memory R64). -/
def chanOfOffset (o : Nat) : Chan := if o < 16 then .a1 else if o < 32 then .a2 else if o < 48 then .b1 else .b2

/-- Write a channel register by its offset in the window: 0 `READ_ADDR`, 4 `WRITE_ADDR`, 8 `TRANS_COUNT`, 12 `CTRL`, of
which the high 16 bits are ignored (20_memory R62, R64); no other offset is a register (notes/assumptions/8.md). -/
def writeChanReg (s : State) (o : Nat) (v : Word) : Result :=
  let c := chanOfOffset o
  let r := s.chan c
  match o % 16 with
  | 0 => .next (s.setChan c { r with readAddr := v })
  | 4 => .next (s.setChan c { r with writeAddr := v })
  | 8 => .next (s.setChan c { r with transCount := v })
  | 12 =>
    if ctrlReserved (v.setWidth 16) then .refused .reservedCtrl
    else .next (s.setChan c { r with ctrl := v.setWidth 16 })
  | _ => .fault .dmaBus

/-! ### Queues -/

/-- `push(DQ, v)`; a push on a full queue is outside the spec (10_state R43, notes/assumptions/9.md). -/
def pushDq (s : State) (v : Word) : Result :=
  if s.dq.length < s.par.qdData then .next { s with dq := s.dq ++ [v] } else .refused .badParameters

/-- `push(OQ, v)`. -/
def pushOq (s : State) (v : Word) : Result :=
  if s.oq.length < s.par.qdOe then .next { s with oq := s.oq ++ [v] } else .refused .badParameters

/-! ### Accesses of a transfer channel -/

/-- `MemRead(addr, n)` by a channel: naturally aligned and inside one memory object, else a bus fault (20_memory R67,
R68). -/
def busRead (s : State) (addr : Word) (n : Nat) : Option Word :=
  if addr.toNat % n = 0 then
    match objAt s.par addr.toNat n with
    | some o => if o.isMemory then some (BitVec.ofNat 32 (memNat s.par s.mem addr.toNat n)) else none
    | none => none
  else none

/-- `MemWrite(addr, n, v)` by a channel: a port push or a channel register; a write of memory is a bus fault
(20_memory R62, R65, R67, R68). The spec gives no order between `fault(DmaBus)` for a misaligned write (R68) and
`refuse(PortSize)` for one of the wrong size inside a port (R65); the model tests the alignment first, then the size, then
that the address is the port's first (DESIGN CHOICE, safe, notes/assumptions/8.md). -/
def busWrite (s : State) (addr : Word) (n : Nat) (v : Word) : Result :=
  if addr.toNat % n = 0 then
    match objAt s.par addr.toNat n with
    | some .dmaRegs => writeChanReg s (addr.toNat - s.par.dmaBase.toNat) v
    | some .dataPort =>
      if n ≠ s.par.wA then .refused .portSize else if addr = s.par.dataTxf then pushDq s v else .fault .dmaBus
    | some .oePort =>
      if n ≠ 4 then .refused .portSize else if addr = s.par.oeTxf then pushOq s v else .fault .dmaBus
    | some .fb0 | some .fb1 | some .delays | some .fbPtr | some .delayPtr | none => .fault .dmaBus
  else .fault .dmaBus

/-! ### The output trace -/

/-- `emit` (00_scope R8, R13). -/
def State.emit (s : State) (es : List PinEvent) : State := { s with trace := s.trace ++ es }

end Sys2Proof.Machine
end

