-- ==== Sys2Proof/Machine/Operands.lean ====
section
/-! DEFINITION. Operands of the commands and of the sequencer steps: colour samples (30_encoding R91, R93), coordinates
(41_display_memory R144), the address and the bits of a pixel (R145), the row address on the pins (43_sequencers R213). -/

namespace Sys2Proof.Machine

/-! ### Colour samples (30_encoding R91, R93) -/

/-- `color[15:11]`. -/
def redSample (c : Color) : BitVec 5 := c.extractLsb' 11 5

/-- `color[10:5]`. -/
def greenSample (c : Color) : BitVec 6 := c.extractLsb' 5 6

/-- `color[4:0]`. -/
def blueSample (c : Color) : BitVec 5 := c.extractLsb' 0 5

/-- The entry of a 32-entry table at a 5-bit sample. -/
def at5 (t : Table 32) (v : BitVec 5) : Byte := t[v.toNat]'v.isLt

/-- The entry of a 64-entry table at a 6-bit sample. -/
def at6 (t : Table 64) (v : BitVec 6) : Byte := t[v.toNat]'v.isLt

/-- The corrected channels of a colour (40_color_correction R129). -/
def correctedR (s : State) (c : Color) : Byte := at5 s.lutR (redSample c)
def correctedG (s : State) (c : Color) : Byte := at6 s.lutG (greenSample c)
def correctedB (s : State) (c : Color) : Byte := at5 s.lutB (blueSample c)

/-! ### Coordinates (41_display_memory R144) -/

/-- `0 <= x < Width` and `0 <= y < 2·ActiveRows`. -/
def inCanvas (p : Params) (x y : Int) : Bool := 0 ≤ x && x < p.width && 0 ≤ y && y < 2 * p.activeRows

/-- The shift of the pixel's group: 0 in the top half, 3 in the bottom half. -/
def halfShift (p : Params) (y : Nat) : Nat := if y < p.activeRows then 0 else 3

/-- The offset of the plane-`b` byte of pixel `(x, y)` in a framebuffer: `base_idx + b · Width` (R145, 10_state R30). -/
def pixelOffset (p : Params) (x y b : Nat) : Nat := x + y % p.activeRows * p.width * p.colorBits + b * p.width

/-- Bit `b` of a corrected channel, at position `k`. -/
def bitAt (c : Byte) (b k : Nat) : Byte := (BitVec.ofBool (c.getLsbD b)).setWidth 8 <<< k

/-- `bits3` of plane `b` (R145). -/
def bits3 (p : Params) (cr cg cb : Byte) (b : Nat) : Byte :=
  bitAt cr b p.chanPerm.r ||| bitAt cg b p.chanPerm.g ||| bitAt cb b p.chanPerm.b

/-- The bits SET_PIXEL sets in the plane-`b` byte of a pixel in row `y`: `bits3 << shift` (R145). -/
def pixelBits (s : State) (y : Nat) (color : Color) (b : Nat) : Byte :=
  bits3 s.par (correctedR s color) (correctedG s color) (correctedB s color) b <<< halfShift s.par y

/-! ### The row address (43_sequencers R212, R213) -/

/-- `addr_encode(r)`. -/
def addrEncode (p : Params) (r : Word) : BitVec 5 :=
  if p.addrInvert then r.setWidth 5 ^^^ 0b11111#5 else r.setWidth 5

/-- The row the row sequencer works on, `ROWS_M1 − ROW` (10_state R48). With `ROW` above `ROWS_M1`, which no run reaches, the
spec does not say what the difference is; the model takes it modulo 2^32 (DESIGN CHOICE, unsafe, notes/assumptions/28.md). -/
def RSeq.rowIndex (q : RSeq) : Word := q.rowsM1 - q.row

/-- The plane the row sequencer works on, `PLANES_M1 − PLANE` (10_state R48); no step reads it. -/
def RSeq.planeIndex (q : RSeq) : Word := q.planesM1 - q.plane

end Sys2Proof.Machine
end

