-- ==== Sys2Proof/Machine/RenderPort.lean ====
section
/-! DEFINITION. The render port: a command is its list of memory events, one performed per step of RENDER, the first in
the step that issues the command (20_memory R72, R73; notes/assumptions/4.md). -/

namespace Sys2Proof.Machine

/-- The control word ENGINE_SETUP gives channel A1 (30_encoding R97). -/
def ctrlA1 (p : Params) : BitVec 16 := if p.wA = 4 then ctrlA1W4 else if p.wA = 2 then ctrlA1W2 else ctrlA1W1

/-- `FRAME_SIZE / W_A`, the transfers of one activation of A1 (10_state R38). -/
def a1Count (p : Params) : Word := BitVec.ofNat 32 (p.frameSize / p.wA)

/-- `ColorBits`, the transfers of one activation of B1. -/
def b1Count (p : Params) : Word := BitVec.ofNat 32 p.colorBits

/-- Program the addresses and counts of a channel (42_transfer_engine R172). -/
def ChanRegs.program (r : ChanRegs) (readAddr writeAddr count : Word) : ChanRegs :=
  { r with readAddr := readAddr, writeAddr := writeAddr, transCount := count, remain := count }

/-- ENGINE_SETUP up to its second memory event (42_transfer_engine R172). -/
def setupPairA (s : State) : State :=
  { s with
    a1 := s.a1.program s.fbPtr s.par.dataTxf (a1Count s.par)
    a2 := s.a2.program s.par.fbPtrAddr (readAddrAddr s.par .a1) 1 }

/-- ENGINE_SETUP from its second memory event on (42_transfer_engine R172, R173). -/
def setupPairB (s : State) : State :=
  { s with
    b1 := { s.b1.program s.delayPtr s.par.oeTxf (b1Count s.par) with ctrl := ctrlB1 }
    b2 := { s.b2.program s.par.delayPtrAddr (readAddrAddr s.par .b1) 1 with ctrl := ctrlB2 }
    a1 := { s.a1 with ctrl := ctrlA1 s.par }
    a2 := { s.a2 with ctrl := ctrlA2 }
    rseq := { s.rseq with
      rowsM1 := BitVec.ofNat 32 (s.par.activeRows - 1), planesM1 := BitVec.ofNat 32 (s.par.colorBits - 1) }
    engine := .setup }

/-- Perform one memory event of the command in progress. -/
def perform (e : MemEvent) (s : State) : State :=
  match e with
  | .selectDraw => { s with render := { s.render with drawBase := s.drawBaseNow } }
  | .readDraw o => { s with render := { s.render with old := s.byteAt (s.render.drawBase.toNat + o) } }
  | .orDraw o bits => s.setByte (s.render.drawBase.toNat + o) (s.render.old ||| bits)
  | .zeroDraw o => s.setByte (s.render.drawBase.toNat + o) 0
  | .storePtr a v => s.setWord a.toNat v
  | .returnPtr a => { s with render := { s.render with ret := some (.word (s.wordAt a.toNat)) } }
  | .setupPairA => setupPairA s
  | .setupPairB => setupPairB s

/-- The command `i` with the events `es` still to perform; no command is in progress once none is left. -/
def inFlightOf (i : Instr) (es : List MemEvent) : Option InFlight :=
  match es with
  | [] => none
  | e :: later => some { cmd := i, event := e, later := later }

/-- The step of RENDER: perform the next event of the command in progress, if there is one (20_memory R72). -/
def renderEvent (s : State) : State :=
  match s.render.inFlight with
  | none => s
  | some f => perform f.event { s with render := { s.render with inFlight := inFlightOf f.cmd f.later } }

/-- Accept the command `i` with its memory events and perform the first of them. -/
def beginCommand (i : Instr) (es : List MemEvent) (s : State) : State :=
  renderEvent { s with render := { s.render with inFlight := inFlightOf i es, ret := none } }

/-- A command without memory events completes at once and returns `r`. -/
def completeCommand (r : Option Ret) (s : State) : State := { s with render := { s.render with ret := r } }

/-- The second check of 60_exceptions R253: no command is in progress (20_memory R73). -/
def whenIdle (s : State) (r : Result) : Result :=
  if s.render.inFlight.isSome then .refused .concurrentRender else r

/-- The life-cycle check of 41_display_memory R141. -/
def whenAttached (s : State) (r : Result) : Result := if s.fbPtr = nullPtr then .refused .notAttached else r

/-- All events of the command in progress, one after another, with no step of another agent between them. -/
def finishCommand (s : State) : State :=
  match s.render.inFlight with
  | none => s
  | some f => (f.event :: f.later).foldl (fun t e => perform e t) { s with render := { s.render with inFlight := none } }

/-- The memory events a command has yet to perform. -/
def State.pending (s : State) : List MemEvent :=
  match s.render.inFlight with
  | none => []
  | some f => f.event :: f.later

end Sys2Proof.Machine
end

