-- ==== Sys2Proof/Machine/ColorCorrection.lean ====
section
/-! DEFINITION. The Color Correction Tables family: GAMMA_CORRECT and CONFIGURE (40_color_correction R122, R126). -/

namespace Sys2Proof.Machine

/-- `rebuild(CFG)`: all 128 entries from `GAMMA` and the current `CFG` (R124). -/
def rebuildTables (s : State) : State :=
  { s with lutR := rebuild5 s.par.gamma s.cfg, lutG := rebuild6 s.par.gamma s.cfg, lutB := rebuild5 s.par.gamma s.cfg }

/-- GAMMA_CORRECT (R122): returns `GAMMA[value]`; legal in every life-cycle state. -/
def execGammaCorrect (value : Byte) (s : State) : Result :=
  whenIdle s (.next (completeCommand (some (.byte (gammaAt s.par.gamma value))) s))

/-- CONFIGURE (R126): checks in the order of 60_exceptions R253, then `CFG` and the tables; no memory event. -/
def execConfigure (pwmBits : BitVec 4) (gammaEn : Bool) (brightness : Byte) (timing : Word) (s : State) : Result :=
  if pwmBitsLegal pwmBits then
    whenIdle s
      (if pwmBits.toNat ≠ s.par.colorBits then .refused .bitDepthChange
       else
         let cfg : Hub75Config := { pwmBits := pwmBits, brightness := brightness, useGamma := gammaEn, timing := timing }
         .next (completeCommand none (rebuildTables { s with cfg := cfg })))
  else .refused .reservedCommand

end Sys2Proof.Machine
end

