-- ==== Sys2Proof/Machine/DisplayMemory.lean ====
section
/-! DEFINITION. The Display Memory family: INIT, SET_PIXEL, CLEAR, COMMIT and the four pointer accessors
(41_display_memory R140 to R163). -/

namespace Sys2Proof.Machine

/-- INIT (R140): binds the pointers with two atomic word stores; the draw buffer after it is fb1. -/
def execInit (s : State) : Result :=
  whenIdle s
    (if s.fbPtr ≠ nullPtr ∨ s.delayPtr ≠ nullPtr then .refused .alreadyAttached
     else
       .next (beginCommand .init
         [.storePtr s.par.fbPtrAddr s.par.fb0Base, .storePtr s.par.delayPtrAddr s.par.delaysBase]
         { s with active := false }))

/-- The memory events of an in-range SET_PIXEL (R145): the pointer read, then a read and a write for each plane. -/
def pixelEvents (s : State) (x y : Nat) (color : Color) : List MemEvent :=
  .selectDraw :: (List.range s.par.colorBits).flatMap fun b =>
    [.readDraw (pixelOffset s.par x y b), .orDraw (pixelOffset s.par x y b) (pixelBits s y color b)]

/-- SET_PIXEL (R145): the life-cycle check precedes the range check (60_exceptions R253); out of range it is ignored. -/
def execSetPixel (x y : BitVec 16) (color : Color) (s : State) : Result :=
  whenIdle s
    (whenAttached s
      (if inCanvas s.par x.toInt y.toInt then
         .next (beginCommand (.setPixel x y color) (pixelEvents s x.toInt.toNat y.toInt.toNat color) s)
       else .next (completeCommand none s)))

/-- The zero-fill of the draw buffer, in ascending address order (R150, R155). -/
def zeroFill (p : Params) : List MemEvent := (List.range p.frameSize).map .zeroDraw

/-- CLEAR (R150). -/
def execClear (s : State) : Result :=
  whenIdle s (whenAttached s (.next (beginCommand .clear (.selectDraw :: zeroFill s.par) s)))

/-- The base of the buffer that is active when `ACTIVE = v` (10_state R28). -/
def activeBase (p : Params) (v : Bool) : Word := if v then p.fb1Base else p.fb0Base

/-- The base of the draw buffer when `ACTIVE = v`. -/
def drawBaseOf (p : Params) (v : Bool) : Word := if v then p.fb0Base else p.fb1Base

/-- COMMIT (R155): flips `ACTIVE`, stores the pointer, then zero-fills the new draw buffer. -/
def execCommit (s : State) : Result :=
  whenIdle s
    (whenAttached s
      (let v := !s.active
       .next (beginCommand .commit (.storePtr s.par.fbPtrAddr (activeBase s.par v) :: zeroFill s.par)
         { s with active := v, render := { s.render with drawBase := drawBaseOf s.par v } })))

/-- GET_ACTIVE_BUFFER_PTR (R160): one memory event. -/
def execGetActiveBufferPtr (s : State) : Result :=
  whenIdle s (whenAttached s (.next (beginCommand .getActiveBufferPtr [.returnPtr s.par.fbPtrAddr] s)))

/-- GET_DELAY_PTR (R161): one memory event. -/
def execGetDelayPtr (s : State) : Result :=
  whenIdle s (whenAttached s (.next (beginCommand .getDelayPtr [.returnPtr s.par.delayPtrAddr] s)))

/-- GET_FB_PTR_ADDR (R162): a constant, no memory event. -/
def execGetFbPtrAddr (s : State) : Result :=
  whenIdle s (.next (completeCommand (some (.word s.par.fbPtrAddr)) s))

/-- GET_DELAY_PTR_ADDR (R163): a constant, no memory event. -/
def execGetDelayPtrAddr (s : State) : Result :=
  whenIdle s (.next (completeCommand (some (.word s.par.delayPtrAddr)) s))

end Sys2Proof.Machine
end

