-- ==== Sys2Proof/Machine/Reserved.lean ====
section
/-! DEFINITION. The reserved `OP` values (30_encoding R96): words the spec gives no meaning, "not a command: outcome
refuse(ReservedCommand)"; the encoding check precedes every other (60_exceptions R253). -/

namespace Sys2Proof.Machine

/-- `OP = 0x0`. -/
def execReservedOp0 (_payload : BitVec 60) (_s : State) : Result := .refused .reservedCommand

/-- `OP = 0xD`. -/
def execReservedOpD (_payload : BitVec 60) (_s : State) : Result := .refused .reservedCommand

/-- `OP = 0xE`. -/
def execReservedOpE (_payload : BitVec 60) (_s : State) : Result := .refused .reservedCommand

/-- `OP = 0xF`. -/
def execReservedOpF (_payload : BitVec 60) (_s : State) : Result := .refused .reservedCommand

end Sys2Proof.Machine
end

