-- ==== Sys2Proof/Machine/Flags.lean ====
section
/-! DEFINITION. The event flags (10_state R52, 43_sequencers R204) and the derived queue status bits (10_state R53). The
core has no condition codes: no arithmetic operation sets a flag. -/

namespace Sys2Proof.Machine

/-- `RDR <- v`: raised with `true`, cleared by the awaiting step with `false`. -/
def State.setRdr (s : State) (v : Bool) : State := { s with flags := { s.flags with rdr := v } }

/-- `RAS <- v`. -/
def State.setRas (s : State) (v : Bool) : State := { s with flags := { s.flags with ras := v } }

/-- `TS <- v`. -/
def State.setTs (s : State) (v : Bool) : State := { s with flags := { s.flags with ts := v } }

/-- `TD <- v`. -/
def State.setTd (s : State) (v : Bool) : State := { s with flags := { s.flags with td := v } }

/-- `len(DQ) < QD_DATA`, the pacing condition of `PACE = 1` (10_state R53, 42_transfer_engine R171). -/
def State.dqHasRoom (s : State) : Bool := s.dq.length < s.par.qdData

/-- `len(OQ) < QD_OE`, the pacing condition of `PACE = 2`. -/
def State.oqHasRoom (s : State) : Bool := s.oq.length < s.par.qdOe

/-- The pacing condition of a control word (42_transfer_engine R171). -/
def paced (s : State) (w : BitVec 16) : Bool :=
  match (ctrlPace w).toNat with
  | 0 => true
  | 1 => s.dqHasRoom
  | 2 => s.oqHasRoom
  | _ => false

end Sys2Proof.Machine
end

