-- ==== Sys2Proof/Machine/Sequencers.lean ====
section
/-! DEFINITION. The Hardware Sequencers family (43_sequencers R200 to R223). A micro-operation whose step is disabled
changes nothing: the sequencer waits (R204, notes/assumptions/3.md). -/

namespace Sys2Proof.Machine

/-! ### Data sequencer -/

/-- Go to a state of the data sequencer. -/
def State.dGoto (s : State) (st : DState) : State := { s with dseq := { s.dseq with state := st } }

/-- D_OFF (R200): no enabled step. -/
def execDOff (s : State) : Result := .next s

/-- D_LOAD_WIDTH (R201). -/
def execDLoadWidth (s : State) : Result :=
  .next { s with dseq := { s.dseq with col := BitVec.ofNat 32 (s.par.width - 1), state := .shiftColumn } }

/-- Refill `OSR` from `DQ` when no byte is left; `none` when the step is disabled (R202). -/
def refill (s : State) : Option State :=
  if s.dseq.osrLeft = 0 then
    match s.dq with
    | [] => none
    | w :: q => some { s with dq := q, dseq := { s.dseq with osr := w, osrLeft := s.par.wA } }
  else some s

/-- Put the lowest byte of `OSR` on the data lines and pulse the clock (R202). -/
def shiftByte (s : State) : State :=
  let v := s.dseq.osr.extractLsb' 0 6
  { s with
    dseq := { s.dseq with osr := s.dseq.osr >>> 8, osrLeft := s.dseq.osrLeft - 1 }
    pins := { s.pins with data := v, clk := false }
    trace := s.trace ++ [.data v, .clk true, .clk false] }

/-- Count the column: the last one of a line raises `RDR` (R202). -/
def countColumn (s : State) : State :=
  if s.dseq.col = 0 then (s.setRdr true).dGoto .awaitNextRow
  else { s with dseq := { s.dseq with col := s.dseq.col - 1 } }

/-- D_SHIFT_COLUMN (R202). -/
def execDShiftColumn (s : State) : Result :=
  match refill s with
  | none => .next s
  | some t => .next (countColumn (shiftByte t))

/-- D_AWAIT_NEXT_ROW (R203). -/
def execDAwaitNextRow (s : State) : Result :=
  if s.flags.ras then .next ((s.setRas false).dGoto .loadWidth) else .next s

/-! ### Row sequencer -/

/-- Go to a state of the row sequencer. -/
def State.rGoto (s : State) (st : RState) : State := { s with rseq := { s.rseq with state := st } }

/-- R_OFF (R200): no enabled step. -/
def execROff (s : State) : Result := .next s

/-- R_LOAD_ROW_COUNT (R210). -/
def execRLoadRowCount (s : State) : Result :=
  .next { s with rseq := { s.rseq with row := s.rseq.rowsM1, state := .loadPlaneCount } }

/-- R_LOAD_PLANE_COUNT (R211). -/
def execRLoadPlaneCount (s : State) : Result :=
  .next { s with rseq := { s.rseq with plane := s.rseq.planesM1, state := .setAddress } }

/-- R_SET_ADDRESS (R212). -/
def execRSetAddress (s : State) : Result :=
  let a := addrEncode s.par s.rseq.rowIndex
  .next ((({ s with pins := { s.pins with addr := a } }).emit [.addr a]).rGoto .awaitData)

/-- R_AWAIT_DATA (R214). -/
def execRAwaitData (s : State) : Result :=
  if s.flags.rdr then .next ((s.setRdr false).rGoto .latch) else .next s

/-- R_LATCH (R215). -/
def execRLatch (s : State) : Result :=
  .next ((({ s with pins := { s.pins with lat := false } }).emit [.lat true, .lat false]).rGoto .signalTiming)

/-- R_SIGNAL_TIMING (R216). -/
def execRSignalTiming (s : State) : Result := .next (((s.setTs true).setRas true).rGoto .awaitTimingDone)

/-- R_AWAIT_TIMING_DONE (R217). -/
def execRAwaitTimingDone (s : State) : Result :=
  if s.flags.td then .next ((s.setTd false).rGoto .next) else .next s

/-- R_NEXT (R218). -/
def execRNext (s : State) : Result :=
  if s.rseq.plane ≠ 0 then
    .next { s with rseq := { s.rseq with plane := s.rseq.plane - 1, state := .setAddress } }
  else if s.rseq.row ≠ 0 then
    .next { s with rseq := { s.rseq with row := s.rseq.row - 1, state := .loadPlaneCount } }
  else .next (s.rGoto .loadRowCount)

/-! ### Output-enable sequencer -/

/-- Go to a state of the output-enable sequencer. -/
def State.oGoto (s : State) (st : OState) : State := { s with oseq := { s.oseq with state := st } }

/-- O_OFF (R200): no enabled step. -/
def execOOff (s : State) : Result := .next s

/-- O_LOAD_DELAY (R220). -/
def execOLoadDelay (s : State) : Result :=
  match s.oq with
  | [] => .next s
  | d :: q => .next { s with oq := q, oseq := { s.oseq with cnt := d, state := .awaitTimingStart } }

/-- O_AWAIT_TIMING_START (R221). -/
def execOAwaitTimingStart (s : State) : Result :=
  if s.flags.ts then .next ((s.setTs false).oGoto .hold) else .next s

/-- `if OE_N = 1 then OE_N <- 0 ; emit OE(0)` (R222). -/
def assertOe (s : State) : State :=
  if s.pins.oeN then ({ s with pins := { s.pins with oeN := false } }).emit [.oe false] else s

/-- `if OE_N = 0 then OE_N <- 1 ; emit OE(1)` (R223). -/
def deassertOe (s : State) : State :=
  if s.pins.oeN then s else ({ s with pins := { s.pins with oeN := true } }).emit [.oe true]

/-- `CNT <- CNT − 1`. -/
def countDown (s : State) : State := { s with oseq := { s.oseq with cnt := s.oseq.cnt - 1 } }

/-- O_HOLD (R222), both values of `HOLD_BIAS`. -/
def execOHold (s : State) : Result :=
  if s.par.holdBias = 0 then
    if s.oseq.cnt = 0 then .next (s.oGoto .signalDone) else .next (countDown ((assertOe s).emit [.tick]))
  else
    let t := (assertOe s).emit [.tick]
    if s.oseq.cnt = 0 then .next (t.oGoto .signalDone) else .next (countDown t)

/-- O_SIGNAL_DONE (R223). -/
def execOSignalDone (s : State) : Result := .next (((deassertOe s).setTd true).oGoto .loadDelay)

end Sys2Proof.Machine
end

