-- ==== Sys2Proof/Machine/TransferEngine.lean ====
section
/-! DEFINITION. The Transfer Engine family: ENGINE_SETUP, ENGINE_START and the channel step XFER
(42_transfer_engine R171 to R182). -/

namespace Sys2Proof.Machine

/-- ENGINE_SETUP (R172): its two memory events program the channels and the sequencer constants. -/
def execEngineSetup (s : State) : Result :=
  whenIdle s
    (whenAttached s
      (if s.engine ≠ .off then .refused .engineAlreadyConfigured
       else .next (beginCommand .engineSetup [.setupPairA, .setupPairB] s)))

/-- What ENGINE_START does: A1 and B1 busy, the sequencers in their first states, the engine running (R174). -/
def startEngine (s : State) : State :=
  { s with
    a1 := { s.a1 with busy := true }
    b1 := { s.b1 with busy := true }
    dseq := { s.dseq with state := .loadWidth }
    rseq := { s.rseq with state := .loadRowCount }
    oseq := { s.oseq with state := .loadDelay }
    engine := .running }

/-- ENGINE_START (R174): one atomic step. Before INIT the spec leaves the refusal open: the table of 60_exceptions R250
and 93 U8 give NotAttached to every command before INIT, R174 and 93 U9 EngineNotConfigured to this one; the model answers
EngineNotConfigured (DESIGN CHOICE, unsafe, notes/assumptions/26.md). -/
def execEngineStart (s : State) : Result :=
  whenIdle s
    (if s.engine ≠ .setup then .refused .engineNotConfigured else .next (completeCommand none (startEngine s)))

/-- The chain trigger: channel `t` becomes busy if it is enabled and idle, else the trigger is dropped (R171). -/
def trigger (t : Chan) (s : State) : State :=
  let r := s.chan t
  if ctrlEn r.ctrl && !r.busy then s.setChan t { r with busy := true } else s

/-- The registers of a channel after one transfer of `n` bytes under the control word `w`, before completion (R171). For a
busy channel with `REMAIN = 0` (none under R184) the spec does not say what `REMAIN − 1` is; the model takes it modulo 2^32,
so the activation goes on (DESIGN CHOICE, unsafe, notes/assumptions/28.md). -/
def ChanRegs.advance (r : ChanRegs) (w : BitVec 16) (n : Nat) : ChanRegs :=
  { r with
    readAddr := if ctrlIncrRead w then r.readAddr + BitVec.ofNat 32 n else r.readAddr
    writeAddr := if ctrlIncrWrite w then r.writeAddr + BitVec.ofNat 32 n else r.writeAddr
    remain := r.remain - 1 }

/-- The part of the channel step after the write: addresses, `REMAIN`, and completion with the chain trigger (R171). `w` is
the control word the step began with. Where the write of the step has landed on the channel's own `CTRL` the spec leaves
open which word ends the step: the pseudocode of R171 names `CTRL[c]` after the write, 20_memory R62 gives a transfer's
write no register but `READ_ADDR`, and 10_state R22 says no agent writes another; the model ends it with `w` (DESIGN
CHOICE, unsafe, notes/assumptions/27.md). -/
def retire (c : Chan) (w : BitVec 16) (s : State) : State :=
  let r := (s.chan c).advance w (ctrlBytes w)
  if r.remain = 0 then trigger (ctrlChainTo w) (s.setChan c { r with remain := r.transCount, busy := false })
  else s.setChan c r

/-- XFER (R171): the step of channel `c` under the control word `w`. A channel that is idle or paced out has no enabled
step and its turn changes nothing (notes/assumptions/3.md). -/
def transfer (c : Chan) (w : BitVec 16) (s : State) : Result :=
  if (s.chan c).busy then
    if ctrlReserved w then .refused .reservedCtrl
    else if paced s w then
      match busRead s (s.chan c).readAddr (ctrlBytes w) with
      | none => .fault .dmaBus
      | some v => andThen (busWrite s (s.chan c).writeAddr (ctrlBytes w) v) fun t => .next (retire c w t)
    else .next s
  else .next s

/-- Channel A1 with 4-byte words (R180). -/
def execXferA1W4 (s : State) : Result := transfer .a1 ctrlA1W4 s

/-- Channel A1 with 2-byte words (R180). -/
def execXferA1W2 (s : State) : Result := transfer .a1 ctrlA1W2 s

/-- Channel A1 with 1-byte words (R180). -/
def execXferA1W1 (s : State) : Result := transfer .a1 ctrlA1W1 s

/-- Channel A2 (R181). -/
def execXferA2 (s : State) : Result := transfer .a2 ctrlA2 s

/-- Channel B1 (R182). -/
def execXferB1 (s : State) : Result := transfer .b1 ctrlB1 s

/-- Channel B2 (R182). -/
def execXferB2 (s : State) : Result := transfer .b2 ctrlB2 s

end Sys2Proof.Machine
end

