-- ==== Sys2Proof/Machine/Dispatch.lean ====
section
/-! DEFINITION. One arm per operation of spec/opcode_table.json: the operation's meaning. -/

namespace Sys2Proof.Machine

def exec (i : Instr) (s : State) : Host.Outcome State Fault Refusal :=
  match i with
  | .init => Sys2Proof.Machine.execInit s
  | .configure pwmBits gammaEn brightness timing => Sys2Proof.Machine.execConfigure pwmBits gammaEn brightness timing s
  | .engineSetup => Sys2Proof.Machine.execEngineSetup s
  | .engineStart => Sys2Proof.Machine.execEngineStart s
  | .setPixel x y color => Sys2Proof.Machine.execSetPixel x y color s
  | .clear => Sys2Proof.Machine.execClear s
  | .commit => Sys2Proof.Machine.execCommit s
  | .getActiveBufferPtr => Sys2Proof.Machine.execGetActiveBufferPtr s
  | .getDelayPtr => Sys2Proof.Machine.execGetDelayPtr s
  | .getFbPtrAddr => Sys2Proof.Machine.execGetFbPtrAddr s
  | .getDelayPtrAddr => Sys2Proof.Machine.execGetDelayPtrAddr s
  | .gammaCorrect value => Sys2Proof.Machine.execGammaCorrect value s
  | .reservedOp0 payload => Sys2Proof.Machine.execReservedOp0 payload s
  | .reservedOpD payload => Sys2Proof.Machine.execReservedOpD payload s
  | .reservedOpE payload => Sys2Proof.Machine.execReservedOpE payload s
  | .reservedOpF payload => Sys2Proof.Machine.execReservedOpF payload s
  | .xferA1W4 => Sys2Proof.Machine.execXferA1W4 s
  | .xferA1W2 => Sys2Proof.Machine.execXferA1W2 s
  | .xferA1W1 => Sys2Proof.Machine.execXferA1W1 s
  | .xferA2 => Sys2Proof.Machine.execXferA2 s
  | .xferB1 => Sys2Proof.Machine.execXferB1 s
  | .xferB2 => Sys2Proof.Machine.execXferB2 s
  | .dOff => Sys2Proof.Machine.execDOff s
  | .dLoadWidth => Sys2Proof.Machine.execDLoadWidth s
  | .dShiftColumn => Sys2Proof.Machine.execDShiftColumn s
  | .dAwaitNextRow => Sys2Proof.Machine.execDAwaitNextRow s
  | .rOff => Sys2Proof.Machine.execROff s
  | .rLoadRowCount => Sys2Proof.Machine.execRLoadRowCount s
  | .rLoadPlaneCount => Sys2Proof.Machine.execRLoadPlaneCount s
  | .rSetAddress => Sys2Proof.Machine.execRSetAddress s
  | .rAwaitData => Sys2Proof.Machine.execRAwaitData s
  | .rLatch => Sys2Proof.Machine.execRLatch s
  | .rSignalTiming => Sys2Proof.Machine.execRSignalTiming s
  | .rAwaitTimingDone => Sys2Proof.Machine.execRAwaitTimingDone s
  | .rNext => Sys2Proof.Machine.execRNext s
  | .oOff => Sys2Proof.Machine.execOOff s
  | .oLoadDelay => Sys2Proof.Machine.execOLoadDelay s
  | .oAwaitTimingStart => Sys2Proof.Machine.execOAwaitTimingStart s
  | .oHold => Sys2Proof.Machine.execOHold s
  | .oSignalDone => Sys2Proof.Machine.execOSignalDone s

end Sys2Proof.Machine
end

