-- ==== Sys2Proof/Machine/Turns.lean ====
section
/-! DEFINITION. What one turn does (00_scope R10, R11): the render domain issues a command word, or one agent takes its
step; how each agent finds the operation it performs (10_state R23); and construction (00_scope R6). -/

namespace Sys2Proof.Machine

/-- The turn taken next and the state once it is taken from the environment (notes/assumptions/2.md). -/
def nextTurn (s : State) : Turn × State :=
  match s.env.turns with
  | t :: ts => (t, { s with env := { s.env with turns := ts } })
  | [] => (Config.freeTurn s.env.drawn, { s with env := { s.env with drawn := s.env.drawn + 1 } })

/-- The render port receives a word: one that is no command is refused before anything else (30_encoding R96,
60_exceptions R253). -/
def portStep (w : BitVec 64) (s : State) : Result :=
  match decodeCmd w with
  | .ok i => exec i s
  | .error _ => .refused .reservedCommand

/-- A channel performs the operation its control word names; a control word that is none of the channel's words of
30_encoding R97 is run by the generic step of 42_transfer_engine R171 (notes/assumptions/10.md). -/
def channelStep (c : Chan) (s : State) : Result :=
  match chanInstr c (s.chan c).ctrl with
  | some i => exec i s
  | none => transfer c (s.chan c).ctrl s

/-- The step of an agent (00_scope R10). -/
def agentStep (a : Agent) (s : State) : Result :=
  match a with
  | .render => .next (renderEvent s)
  | .chan c => channelStep c s
  | .dseq => exec s.dseq.state.instr s
  | .rseq => exec s.rseq.state.instr s
  | .oseq => exec s.oseq.state.instr s

/-- What a turn does. -/
def runTurn (t : Turn) (s : State) : Result :=
  match t with
  | .issue w => portStep w s
  | .agent a => agentStep a s

/-- Construction: a legal parameter set gives the reset state, any other is refused (00_scope R6, 70_reset R280). -/
def construct (p : Params) : Result := if ParamsLegal p then .next (State.initial p) else .refused .badParameters

/-! ### Placing one operation where the next step performs it (notes/assumptions/12.md) -/

/-- Put a turn first. -/
def withTurn (s : State) (t : Turn) : State := { s with env := { s.env with turns := t :: s.env.turns } }

/-- The registers ENGINE_SETUP gives channel `c`, fb0 being active (42_transfer_engine R173), with the control word `w`
and the channel in an activation. -/
def placedRegs (p : Params) (c : Chan) (w : BitVec 16) : ChanRegs :=
  match c with
  | .a1 => { ChanRegs.reset.program p.fb0Base p.dataTxf (a1Count p) with ctrl := w, busy := true }
  | .a2 => { ChanRegs.reset.program p.fbPtrAddr (readAddrAddr p .a1) 1 with ctrl := w, busy := true }
  | .b1 => { ChanRegs.reset.program p.delaysBase p.oeTxf (b1Count p) with ctrl := w, busy := true }
  | .b2 => { ChanRegs.reset.program p.delayPtrAddr (readAddrAddr p .b1) 1 with ctrl := w, busy := true }

/-- Channel `c` programmed with the control word `w`; `W_A` is the word's own transfer size for A1 (30_encoding R97). -/
def placeChannel (s : State) (c : Chan) (w : BitVec 16) : State :=
  let p := if c = .a1 then { s.par with wA := ctrlBytes w } else s.par
  ({ s with par := p }).setChan c (placedRegs p c w)

/-- The state with an encoded operation placed where the next step performs it. -/
def placeCode (s : State) (c : Code) : State :=
  match c with
  | .cmd64 w => withTurn s (.issue w)
  | .dmaCtrl w =>
    match (decodeCtrl w).toOption.bind Instr.chan? with
    | some ch => withTurn (placeChannel s ch w) (.agent (.chan ch))
    | none => s
  | .dState w => withTurn (s.dGoto (dStateOf w)) (.agent .dseq)
  | .rState w =>
    match rStateOf w with
    | some st => withTurn (s.rGoto st) (.agent .rseq)
    | none => s
  | .oState w =>
    match oStateOf w with
    | some st => withTurn (s.oGoto st) (.agent .oseq)
    | none => s

end Sys2Proof.Machine
end

