-- ==== Sys2Proof/Machine/Step.lean ====
section
/-! DEFINITION. One step of the machine: the next turn is taken and done. -/

namespace Sys2Proof.Machine

/-- One step: exactly one turn (00_scope R11, 60_exceptions R253). -/
def step (s : State) : Host.Outcome State Fault Refusal := runTurn (nextTurn s).1 (nextTurn s).2

/-- `s` with the operation of a table word placed where `step` performs it next (notes/assumptions/12.md). -/
def State.withFetchWord (s : State) (nbits w : Nat) : State :=
  match codeOf nbits w with
  | some c => placeCode s c
  | none => s

end Sys2Proof.Machine
end

