-- ==== Sys2Proof/Machine/Panel.lean ====
section
/-! DEFINITION. The optional panel observer of 43_sequencers R236: general knowledge, outside the core, read by no step
(PRESUMED, notes/assumptions/19.md). A claim about what is seen names it as an assumption. -/

namespace Sys2Proof.Machine

/-! ### Colours (30_encoding R101) -/

/-- The three channels of a pixel. -/
inductive Colour where
  | red | green | blue
  deriving DecidableEq, Repr, Inhabited

/-- `CHAN_PERM(c)`: the position of colour `c` in a group of three bits (30_encoding R101). -/
def groupPos (m : ChanPerm) : Colour → Nat
  | .red => m.r.val
  | .green => m.g.val
  | .blue => m.b.val

/-- `CHAN_PERM⁻¹(k)`: the colour at position `k` of a group (R236). -/
def groupColour (m : ChanPerm) (k : Nat) : Colour :=
  if k = m.r.val then .red else if k = m.g.val then .green else .blue

/-- The corrected value of one channel of a colour (40_color_correction R129). -/
def corrected (s : State) (color : Color) : Colour → Byte
  | .red => correctedR s color
  | .green => correctedG s color
  | .blue => correctedB s color

/-! ### What the panel holds -/

/-- The data lines, the shift register `SR` and the latch `LATCHED` (the oldest byte of a line first), `ADDR`. -/
structure Panel where
  data : BitVec 6
  shift : List (BitVec 6)
  latched : List (BitVec 6)
  addr : BitVec 5
  deriving DecidableEq, Repr, Inhabited

/-- The panel before any event. -/
def Panel.dark : Panel := { data := 0, shift := [], latched := [], addr := 0 }

/-- One pin event reaches a panel of `width` columns (R236). -/
def Panel.see (width : Nat) (q : Panel) (e : PinEvent) : Panel :=
  match e with
  | .data v => { q with data := v }
  | .clk true => { q with shift := (q.shift ++ [q.data]).drop (q.shift.length + 1 - width) }
  | .lat true => { q with latched := q.shift }
  | .addr a => { q with addr := a }
  | .clk false | .lat false | .oe _ | .tick => q

/-- The panel after the events of a trace, the first of them reaching it dark. -/
def panelAfter (width : Nat) (es : List PinEvent) : Panel := es.foldl (Panel.see width) Panel.dark

/-- At a tick the LED of colour `c` of canvas pixel `(x, y)` is lit: its row is one of the two the address selects
(R213), and some bit `q` of its latched column is 1 whose half is `q / 3` and whose colour is `CHAN_PERM⁻¹(q mod 3)`
(R236). -/
def Panel.lit (p : Params) (q : Panel) (x y : Nat) (c : Colour) : Bool :=
  decide (x < p.width) && decide (y < 2 * p.activeRows) &&
  decide (q.addr = addrEncode p (BitVec.ofNat 32 (y % p.activeRows))) &&
  (List.range 6).any fun k =>
    (q.latched.getD x 0).getLsbD k && decide (k / 3 = y / p.activeRows) && decide (groupColour p.chanPerm (k % 3) = c)

/-! ### Light (R236) -/

/-- The light of that LED over the interval `es` for a panel in state `q`: the ticks at which it was lit. -/
def lightFrom (p : Params) (x y : Nat) (c : Colour) : Panel → List PinEvent → Nat
  | _, [] => 0
  | q, e :: es =>
    (if e = .tick ∧ q.lit p x y c = true then 1 else 0) + lightFrom p x y c (q.see p.width e) es

/-- The light of channel `c` of pixel `(x, y)` over a trace that begins at reset. -/
def light (p : Params) (x y : Nat) (c : Colour) (es : List PinEvent) : Nat := lightFrom p x y c Panel.dark es

/-! ### Lines and scan passes on a trace (R230, R231)

Line `k` is shown from its latch pulse, the `k`-th of the trace counted from 0, to the one after it. -/

/-- The latch pulses of a trace. -/
def latches (es : List PinEvent) : Nat := es.count (.lat true)

/-- The events before latch pulse `k`, the pulses counted from 0; the whole trace if there are no more than `k`. -/
def beforeLatch : Nat → List PinEvent → List PinEvent
  | _, [] => []
  | 0, .lat true :: _ => []
  | k + 1, .lat true :: es => .lat true :: beforeLatch k es
  | k, e :: es => e :: beforeLatch k es

/-- The events from latch pulse `j` on, up to latch pulse `k`. -/
def betweenLatches (j k : Nat) (es : List PinEvent) : List PinEvent :=
  (beforeLatch k es).drop (beforeLatch j es).length

/-- The light of channel `c` of pixel `(x, y)` while the lines `j, …, k − 1` are shown. -/
def lightOfLines (p : Params) (x y : Nat) (c : Colour) (j k : Nat) (es : List PinEvent) : Nat :=
  lightFrom p x y c (panelAfter p.width (beforeLatch j es)) (betweenLatches j k es)

/-- The lines of one scan pass, `ActiveRows · ColorBits` (R231). -/
def passLines (p : Params) : Nat := p.activeRows * p.colorBits

/-- The light of channel `c` of pixel `(x, y)` over scan pass `n`, the lines `n · passLines, …` up to the next pass. -/
def lightOfPass (p : Params) (x y : Nat) (c : Colour) (n : Nat) (es : List PinEvent) : Nat :=
  lightOfLines p x y c (n * passLines p) ((n + 1) * passLines p) es

end Sys2Proof.Machine
end

