-- ==== Sys2Proof/Safety.lean ====
section
/-! DEFINITION. What a good state is, in the terms the statements use: the invariants the spec names for the render port
(41_display_memory R165), the channels (42_transfer_engine R184), the handshake (43_sequencers R232), the pins (R235) and
the alignment of the two streams (R231); when an agent has an enabled step, and runs under a weakly fair schedule
(00_scope R11); what a framebuffer encodes, and what the panel observer sees of it (R236, R237). -/

namespace Sys2Proof.Machine

/-! ### Enabled steps -/

/-- The step of a channel is enabled (42_transfer_engine R171). -/
def chanEnabled (c : Chan) (s : State) : Bool := (s.chan c).busy && paced s (s.chan c).ctrl

/-- The step of the data sequencer is enabled (43_sequencers R200 to R203). -/
def dEnabled (s : State) : Bool :=
  match s.dseq.state with
  | .off => false
  | .loadWidth => true
  | .shiftColumn => decide (0 < s.dseq.osrLeft) || !s.dq.isEmpty
  | .awaitNextRow => s.flags.ras

/-- The step of the row sequencer is enabled (43_sequencers R200, R210 to R218). -/
def rEnabled (s : State) : Bool :=
  match s.rseq.state with
  | .off => false
  | .awaitData => s.flags.rdr
  | .awaitTimingDone => s.flags.td
  | .loadRowCount | .loadPlaneCount | .setAddress | .latch | .signalTiming | .next => true

/-- The step of the output-enable sequencer is enabled (43_sequencers R200, R220 to R223). -/
def oEnabled (s : State) : Bool :=
  match s.oseq.state with
  | .off => false
  | .loadDelay => !s.oq.isEmpty
  | .awaitTimingStart => s.flags.ts
  | .hold | .signalDone => true

/-- An agent has an enabled step (00_scope R10). -/
def enabled (a : Agent) (s : State) : Bool :=
  match a with
  | .render => s.render.inFlight.isSome
  | .chan c => chanEnabled c s
  | .dseq => dEnabled s
  | .rseq => rEnabled s
  | .oseq => oEnabled s

/-! ### The handshake (43_sequencers R232) -/

/-- The output-enable sequencer is inside an activation. -/
abbrev holding (s : State) : Prop := s.oseq.state = .hold ∨ s.oseq.state = .signalDone

/-- The output-enable sequencer is between activations. -/
abbrev resting (s : State) : Prop := s.oseq.state = .loadDelay ∨ s.oseq.state = .awaitTimingStart

/-- The row sequencer owns a line that is shifted and not yet released. -/
abbrev latching (s : State) : Prop := s.rseq.state = .latch ∨ s.rseq.state = .signalTiming

/-- Where the one line token and the one timing token are while the engine runs. -/
abbrev Tokens (s : State) : Prop :=
  (s.dseq.state ≠ .off ∧ s.rseq.state ≠ .off ∧ s.oseq.state ≠ .off) ∧
  (latching s ↔ s.dseq.state = .awaitNextRow ∧ s.flags.rdr = false ∧ s.flags.ras = false) ∧
  ¬(s.flags.rdr = true ∧ s.flags.ras = true) ∧
  (s.flags.rdr = true ∨ s.flags.ras = true → s.dseq.state = .awaitNextRow) ∧
  (s.rseq.state = .awaitTimingDone ↔ s.flags.ts = true ∨ holding s ∨ s.flags.td = true) ∧
  ¬(s.flags.ts = true ∧ s.flags.td = true) ∧
  (s.flags.ts = true ∨ s.flags.td = true → resting s)

/-- Nothing of the output side has moved yet. -/
abbrev Inert (s : State) : Prop :=
  s.dseq.state = .off ∧ s.rseq.state = .off ∧ s.oseq.state = .off ∧
  s.flags = { rdr := false, ras := false, ts := false, td := false } ∧ s.pins.oeN = true

/-- The handshake invariant (43_sequencers R232, R235). -/
structure HandshakeInv (s : State) : Prop where
  inert : s.engine ≠ .running → Inert s
  tokens : s.engine = .running → Tokens s
  dark : s.pins.oeN = false → holding s
  idle : s.pins.clk = false ∧ s.pins.lat = false
  setup : MemEvent.setupPairB ∈ s.pending → s.pending = [.setupPairB] ∧ s.engine = .off

/-- The address pins show the row being worked on (43_sequencers R212, R231 (b)). -/
abbrev AddressShown (s : State) : Prop :=
  match s.rseq.state with
  | .off | .loadRowCount | .loadPlaneCount | .setAddress => True
  | .awaitData | .latch | .signalTiming | .awaitTimingDone | .next =>
    s.pins.addr = addrEncode s.par s.rseq.rowIndex

/-! ### The render port and Display Memory (41_display_memory R165) -/

/-- A framebuffer byte with bits 7:6 zero (30_encoding R90). -/
abbrev topClear (b : Byte) : Prop := b.extractLsb' 6 2 = 0

/-- A memory event a drawing command still has to perform stays inside the draw buffer. -/
abbrev drawEventOk (p : Params) (e : MemEvent) : Prop :=
  match e with
  | .readDraw o | .zeroDraw o => o < p.frameSize
  | .orDraw o bits => o < p.frameSize ∧ topClear bits
  | .selectDraw | .storePtr _ _ | .returnPtr _ | .setupPairA | .setupPairB => False

/-- INIT is between its two memory events. -/
abbrev Attaching (s : State) : Prop :=
  s.pending = [.storePtr s.par.delayPtrAddr s.par.delaysBase] ∧ s.engine = .off ∧ s.fbPtr = s.par.fb0Base

/-- ENGINE_SETUP is between its two memory events. -/
abbrev SettingUp (s : State) : Prop :=
  s.pending = [.setupPairB] ∧ s.engine = .off ∧ s.fbPtr ≠ nullPtr ∧ s.delayPtr = s.par.delaysBase

/-- SET_PIXEL, CLEAR or COMMIT is in progress, past its first memory event. -/
abbrev Drawing (s : State) : Prop :=
  s.render.drawBase = s.drawBaseNow ∧ s.fbPtr ≠ nullPtr ∧ s.delayPtr = s.par.delaysBase ∧
  ∀ e ∈ s.pending, drawEventOk s.par e

/-- The invariant of Display Memory and of the command in progress (41_display_memory R165). -/
structure RenderInv (s : State) : Prop where
  legal : ParamsLegal s.par
  depth : s.cfg.pwmBits.toNat = s.par.colorBits
  tables : s.lutR = rebuild5 s.par.gamma s.cfg ∧ s.lutG = rebuild6 s.par.gamma s.cfg ∧ s.lutB = rebuild5 s.par.gamma s.cfg
  unbound : s.fbPtr = nullPtr → s.active = false ∧ s.delayPtr = nullPtr ∧ s.engine = .off
  bound : s.fbPtr ≠ nullPtr → s.fbPtr = activeBase s.par s.active
  delayBound : s.fbPtr ≠ nullPtr → s.delayPtr = s.par.delaysBase ∨ Attaching s
  delays : ∀ i < s.par.colorBits, s.wordAt (s.par.delaysBase.toNat + 4 * i) = BitVec.ofNat 32 (delayWord i)
  top0 : ∀ o < s.par.frameSize, topClear (s.byteAt (s.par.fb0Base.toNat + o))
  top1 : ∀ o < s.par.frameSize, topClear (s.byteAt (s.par.fb1Base.toNat + o))
  old : topClear s.render.old
  command : s.pending = [] ∨ Attaching s ∨ SettingUp s ∨ Drawing s

/-! ### The channels (42_transfer_engine R184) -/

/-- A streaming channel is `k` transfers into an activation of `count` transfers of `n` bytes from `base`. -/
abbrev Streaming (r : ChanRegs) (base : Word) (n count k : Nat) : Prop :=
  k < count ∧ r.remain.toNat + k = count ∧ r.readAddr.toNat = base.toNat + k * n

/-- A1 is somewhere inside a pass over one of the two framebuffers. -/
abbrev InPass (s : State) : Prop :=
  ∃ k < s.par.frameSize / s.par.wA,
    Streaming s.a1 s.par.fb0Base s.par.wA (s.par.frameSize / s.par.wA) k ∨
    Streaming s.a1 s.par.fb1Base s.par.wA (s.par.frameSize / s.par.wA) k

/-- B1 is somewhere inside a pass over the delay table. -/
abbrev InDelays (s : State) : Prop := ∃ k < s.par.colorBits, Streaming s.b1 s.par.delaysBase 4 s.par.colorBits k

/-- The registers of pair A that ENGINE_SETUP fixes before its second memory event (42_transfer_engine R172, R184). -/
abbrev FixedA (s : State) : Prop :=
  s.a1.writeAddr = s.par.dataTxf ∧ s.a1.transCount = a1Count s.par ∧
  s.a2.readAddr = s.par.fbPtrAddr ∧ s.a2.writeAddr = readAddrAddr s.par .a1 ∧ s.a2.transCount = 1 ∧ s.a2.remain = 1

/-- The rest of what ENGINE_SETUP fixes (42_transfer_engine R172, R184). -/
abbrev FixedB (s : State) : Prop :=
  s.a1.ctrl = ctrlA1 s.par ∧ s.a2.ctrl = ctrlA2 ∧ s.b1.ctrl = ctrlB1 ∧ s.b2.ctrl = ctrlB2 ∧
  s.b1.writeAddr = s.par.oeTxf ∧ s.b1.transCount = b1Count s.par ∧
  s.b2.readAddr = s.par.delayPtrAddr ∧ s.b2.writeAddr = readAddrAddr s.par .b1 ∧ s.b2.transCount = 1 ∧ s.b2.remain = 1 ∧
  s.rseq.rowsM1 = BitVec.ofNat 32 (s.par.activeRows - 1) ∧ s.rseq.planesM1 = BitVec.ofNat 32 (s.par.colorBits - 1)

/-- The invariant of the transfer engine (42_transfer_engine R184, R185). -/
structure ChannelInv (s : State) : Prop where
  idle : s.engine ≠ .running → s.a1.busy = false ∧ s.a2.busy = false ∧ s.b1.busy = false ∧ s.b2.busy = false
  preparing : s.pending = [.setupPairB] → FixedA s ∧ InPass s
  fixed : s.engine ≠ .off → FixedA s ∧ FixedB s
  pairs : s.engine = .running → s.a1.busy = !s.a2.busy ∧ s.b1.busy = !s.b2.busy
  passA : s.engine ≠ .off → s.a2.busy = false → InPass s
  passB : s.engine ≠ .off → s.b2.busy = false → InDelays s
  armed : s.engine ≠ .running → s.a1.remain = s.a1.transCount ∧ s.b1.remain = s.b1.transCount
  rearmA : s.a2.busy = true → s.a1.remain = s.a1.transCount
  rearmB : s.b2.busy = true → s.b1.remain = s.b1.transCount

/-! ### Queues and counters -/

/-- The bounds of the queues, their words, `OSR` and the sequencer counters (10_state R43, R46, R48). -/
structure CounterInv (s : State) : Prop where
  wordSize : s.par.wA ≤ 4
  dqBound : s.dq.length ≤ s.par.qdData
  oqBound : s.oq.length ≤ s.par.qdOe
  dqWords : ∀ w ∈ s.dq, w.toNat < 256 ^ s.par.wA
  osrLeft : s.dseq.osrLeft ≤ s.par.wA
  osr : s.dseq.osr.toNat < 256 ^ s.dseq.osrLeft

/-! ### The streams (43_sequencers R231) -/

/-- Row and plane of the line the row sequencer works on, counted from 0 within a pass (43_sequencers R230). -/
def rowLine (s : State) : Nat :=
  match s.rseq.state with
  | .off | .loadRowCount => 0
  | .loadPlaneCount => s.rseq.rowIndex.toNat * s.par.colorBits
  | .setAddress | .awaitData | .latch | .signalTiming | .awaitTimingDone | .next =>
    s.rseq.rowIndex.toNat * s.par.colorBits + s.rseq.planeIndex.toNat

/-- The line the data sequencer works on: the row sequencer's, or the one after it once that is latched. -/
def dataLine (s : State) : Nat :=
  match s.rseq.state with
  | .signalTiming | .awaitTimingDone | .next => rowLine s + 1
  | .off | .loadRowCount | .loadPlaneCount | .setAddress | .awaitData | .latch => rowLine s

/-- The columns of that line already shifted. -/
def columnsDone (s : State) : Nat :=
  match s.dseq.state with
  | .off | .loadWidth => 0
  | .shiftColumn => s.par.width - 1 - s.dseq.col.toNat
  | .awaitNextRow => if s.flags.ras = true ∨ s.rseq.state = .signalTiming then 0 else s.par.width

/-- Bytes of the current pass A1 has read. -/
def bytesRead (s : State) : Nat :=
  if s.a2.busy then 0 else (s.par.frameSize / s.par.wA - s.a1.remain.toNat) * s.par.wA

/-- A clock pulse counts one, a latch pulse starts the count anew. -/
def countClock (n : Nat) (e : PinEvent) : Nat :=
  match e with
  | .clk true => n + 1
  | .lat true => 0
  | .clk false | .lat false | .data _ | .addr _ | .oe _ | .tick => n

/-- Clock pulses on the trace since the last latch pulse. -/
def clocksSinceLatch (es : List PinEvent) : Nat := es.foldl countClock 0

/-- The loop counters of the row sequencer are in range from where they are loaded (10_state R48). -/
abbrev LoopCounters (s : State) : Prop :=
  match s.rseq.state with
  | .off | .loadRowCount => True
  | .loadPlaneCount => s.rseq.row.toNat ≤ s.rseq.rowsM1.toNat
  | .setAddress | .awaitData | .latch | .signalTiming | .awaitTimingDone | .next =>
    s.rseq.row.toNat ≤ s.rseq.rowsM1.toNat ∧ s.rseq.plane.toNat ≤ s.rseq.planesM1.toNat

/-- The pixel stream is aligned (43_sequencers R231 (a), (d)). -/
structure StreamInv (s : State) : Prop where
  start : s.engine ≠ .running → s.dseq.osrLeft = 0 ∧ s.dq = []
  column : s.dseq.state = .shiftColumn → s.dseq.col.toNat < s.par.width
  counters : LoopCounters s
  aligned : s.engine = .running → bytesRead s % s.par.frameSize =
    (dataLine s * s.par.width + columnsDone s + s.dseq.osrLeft + s.par.wA * s.dq.length) % s.par.frameSize
  clocks : clocksSinceLatch s.trace = columnsDone s

/-- Activations of the output-enable sequencer finished in the current row. -/
def holdsDone (s : State) : Nat :=
  match s.rseq.state with
  | .off | .loadRowCount | .loadPlaneCount => 0
  | .setAddress | .awaitData | .latch | .signalTiming => s.rseq.planeIndex.toNat
  | .awaitTimingDone => if s.flags.td then s.rseq.planeIndex.toNat + 1 else s.rseq.planeIndex.toNat
  | .next => s.rseq.planeIndex.toNat + 1

/-- Delay words popped for the current row. -/
def delaysTaken (s : State) : Nat :=
  match s.oseq.state with
  | .off | .loadDelay => holdsDone s
  | .awaitTimingStart | .hold | .signalDone => holdsDone s + 1

/-- Delay words of the current activation B1 has read. -/
def delaysRead (s : State) : Nat := if s.b2.busy then 0 else s.par.colorBits - s.b1.remain.toNat

/-- The delay stream is aligned with the planes (43_sequencers R231 (c)). -/
structure DelayInv (s : State) : Prop where
  start : s.engine ≠ .running → s.oq = []
  aligned : s.engine = .running → delaysRead s % s.par.colorBits = (delaysTaken s + s.oq.length) % s.par.colorBits
  queued : s.engine = .running → ∀ j < s.oq.length,
    s.oq[j]? = some (BitVec.ofNat 32 (delayWord ((delaysTaken s + j) % s.par.colorBits)))
  loaded : s.oseq.state = .awaitTimingStart →
    s.oseq.cnt = BitVec.ofNat 32 (delayWord (holdsDone s % s.par.colorBits))
  counting : s.oseq.state = .hold → s.oseq.cnt.toNat ≤ delayWord s.rseq.planeIndex.toNat

/-- All invariants of the running core together. -/
structure CoreInv (s : State) : Prop where
  render : RenderInv s
  handshake : HandshakeInv s
  channels : ChannelInv s
  counters : CounterInv s
  stream : StreamInv s
  delays : DelayInv s

/-! ### What a framebuffer encodes (30_encoding R98) -/

/-- The bit of the channel at group position `k` in the plane-`b` byte of pixel `(x, y)` of the buffer at `base`. -/
def planeBit (s : State) (base : Word) (x y k b : Nat) : Bool :=
  (s.byteAt (base.toNat + pixelOffset s.par x y b)).getLsbD (k + halfShift s.par y)

/-- The value a buffer stores for that channel of the pixel: `Σ_b bit_b · 2^b`. -/
def storedValue (s : State) (base : Word) (x y k : Nat) : Nat :=
  ((List.range s.par.colorBits).map fun b => (planeBit s base x y k b).toNat * 2 ^ b).sum

/-- The value a buffer stores for channel `c` of the pixel (30_encoding R98, R101). -/
def storedChannel (s : State) (base : Word) (x y : Nat) (c : Colour) : Nat :=
  storedValue s base x y (groupPos s.par.chanPerm c)

/-- The light of that channel over a pass with `HOLD_BIAS = 0`: `Σ_b bit_b · (2^b − 1)` (43_sequencers R237). -/
def unbiasedLight (s : State) (base : Word) (x y : Nat) (c : Colour) : Nat :=
  ((List.range s.par.colorBits).map fun b =>
    (planeBit s base x y (groupPos s.par.chanPerm c) b).toNat * (2 ^ b - 1)).sum

/-! ### What the panel has been shown (43_sequencers R230, R231, R236)

The lines of a run are numbered from 0 in the order they are latched, so line `k` is the one latch pulse `k` latches. -/

/-- Bytes the data sequencer has shifted: the latched lines and the columns of the line after them. -/
def bytesShifted (s : State) : Nat := latches s.trace * s.par.width + columnsDone s

/-- Ticks of the hold that shows line `k`, `2^(k mod ColorBits) − 1 + HOLD_BIAS` (43_sequencers R224, R231 (c)). -/
def holdTicks (p : Params) (k : Nat) : Nat := delayWord (k % p.colorBits) + p.holdBias

/-- The line latched last is shown to its end: its hold has ended. -/
def lastLineDone (s : State) : Bool :=
  match s.rseq.state with
  | .signalTiming => false
  | .awaitTimingDone => s.flags.td
  | .off | .loadRowCount | .loadPlaneCount | .setAddress | .awaitData | .latch | .next => true

/-- Lines shown to their end. -/
def linesDone (s : State) : Nat := if lastLineDone s then latches s.trace else latches s.trace - 1

/-- Ticks of line `k`, latched last, so far. -/
def ticksSoFar (s : State) (k : Nat) : Nat :=
  if lastLineDone s then holdTicks s.par k
  else
    match s.oseq.state with
    | .hold => delayWord (k % s.par.colorBits) - s.oseq.cnt.toNat
    | .signalDone => holdTicks s.par k
    | .off | .loadDelay | .awaitTimingStart => 0

/-- Ticks of the latched line `k` so far. -/
def ticksOfLine (s : State) (k : Nat) : Nat :=
  if k + 1 < latches s.trace then holdTicks s.par k else ticksSoFar s k

/-- The bit of byte `b` that drives the LED of colour `c` in canvas row `y` (30_encoding R101, 41_display_memory R144). -/
def ledBit (p : Params) (y : Nat) (c : Colour) (b : Byte) : Bool := b.getLsbD (groupPos p.chanPerm c + halfShift p y)

/-- The pins, the panel and the light over the trace are those of the bytes `h` A1 has read since construction, in
order: byte `k · Width + x` is column `x` of line `k` (42_transfer_engine R183, 43_sequencers R231, R236). -/
structure ScanHistory (s : State) (h : List Byte) : Prop where
  lines : latches s.trace % passLines s.par = dataLine s % passLines s.par
  length : h.length = bytesShifted s + s.dseq.osrLeft + s.par.wA * s.dq.length
  register : ∀ j < s.dseq.osrLeft, s.dseq.osr.extractLsb' (8 * j) 8 = h.getD (bytesShifted s + j) 0
  queue : ∀ i < s.dq.length, ∀ j < s.par.wA,
    (s.dq.getD i 0).extractLsb' (8 * j) 8 = h.getD (bytesShifted s + s.dseq.osrLeft + s.par.wA * i + j) 0
  pinsShown : (panelAfter s.par.width s.trace).data = s.pins.data ∧ (panelAfter s.par.width s.trace).addr = s.pins.addr
  shift : (panelAfter s.par.width s.trace).shift =
    ((h.take (bytesShifted s)).drop (bytesShifted s - s.par.width)).map (BitVec.extractLsb' 0 6)
  latched : 1 ≤ latches s.trace → (panelAfter s.par.width s.trace).latched =
    ((h.drop ((latches s.trace - 1) * s.par.width)).take s.par.width).map (BitVec.extractLsb' 0 6)
  light : ∀ k < latches s.trace, ∀ x < s.par.width, ∀ y < 2 * s.par.activeRows, ∀ c,
    lightOfLines s.par x y c k (k + 1) s.trace =
      if k / s.par.colorBits % s.par.activeRows = y % s.par.activeRows ∧
          ledBit s.par y c (h.getD (k * s.par.width + x) 0) = true then ticksOfLine s k else 0

/-- The bytes a turn makes A1 read: the word of an enabled transfer, lowest address first (42_transfer_engine R180). -/
def bytesTaken (t : Turn) (s : State) : List Byte :=
  match t with
  | .agent (.chan .a1) =>
    if chanEnabled .a1 s then (List.range s.par.wA).map fun j => s.byteAt (s.a1.readAddr.toNat + j) else []
  | .agent (.chan .a2) | .agent (.chan .b1) | .agent (.chan .b2) | .agent .dseq | .agent .rseq | .agent .oseq
  | .agent .render | .issue _ => []

/-- A1 is `k` transfers into a pass over the buffer at `base`, and the last bytes of `h` are the first `k` words of the
frame `f` (42_transfer_engine R183). -/
abbrev PassSoFar (s : State) (h : List Byte) (base : Word) (f : Nat → Byte) (k : Nat) : Prop :=
  s.a2.busy = false ∧ Streaming s.a1 base s.par.wA (s.par.frameSize / s.par.wA) k ∧ k * s.par.wA ≤ h.length ∧
  ∀ o < k * s.par.wA, h.getD (h.length - k * s.par.wA + o) 0 = f o

/-- A1 has ended a pass, and the last bytes of `h` are the frame `f`. -/
abbrev PassRead (s : State) (h : List Byte) (f : Nat → Byte) : Prop :=
  s.a2.busy = true ∧ s.par.frameSize ≤ h.length ∧ ∀ o < s.par.frameSize, h.getD (h.length - s.par.frameSize + o) 0 = f o

/-! ### Runs under a schedule (00_scope R10, R11) -/

/-- State `n` of the run from `s` that takes the turns of `σ`. A command that is refused has changed nothing (60_exceptions
R254), so the run goes on from the same state. -/
def runUnder (σ : Nat → Turn) (s : State) : Nat → State
  | 0 => s
  | n + 1 =>
    match step (withTurn (runUnder σ s n) (σ n)) with
    | .next t => t
    | .fault _ | .refused _ => runUnder σ s n

/-- Weak fairness: no agent's step stays enabled for ever without being scheduled (R11). -/
abbrev WeaklyFair (σ : Nat → Turn) (s : State) : Prop :=
  ∀ (a : Agent) (n : Nat), ∃ m, n ≤ m ∧ (σ m = .agent a ∨ enabled a (runUnder σ s m) = false)

/-- Agent `a` takes infinitely many enabled steps. -/
abbrev StepsForever (σ : Nat → Turn) (s : State) (a : Agent) : Prop :=
  ∀ n, ∃ m, n ≤ m ∧ σ m = .agent a ∧ enabled a (runUnder σ s m) = true

/-! ### Relations between two states -/

/-- What the render domain owns (60_exceptions R260): equal in two states. -/
abbrev SameDisplay (s t : State) : Prop :=
  s.par = t.par ∧ s.cfg = t.cfg ∧ s.lutR = t.lutR ∧ s.lutG = t.lutG ∧ s.lutB = t.lutB ∧ s.active = t.active ∧
  s.mem = t.mem ∧ s.render = t.render

/-- `n` steps of the output-enable sequencer in its hold state (43_sequencers R222). -/
def holdSteps : Nat → State → Result
  | 0, s => .next s
  | n + 1, s => andThen (execOHold s) (holdSteps n)

/-! ### Words of the statements -/

/-- Every byte of memory is as before. -/
abbrev SameMemory (s t : State) : Prop := ∀ a, t.byteAt a = s.byteAt a

/-- `a` is none of the `n` addresses from `base`. -/
abbrev Outside (base : Word) (n a : Nat) : Prop := a < base.toNat ∨ base.toNat + n ≤ a

/-- The words 30_encoding R96 calls "not a command". -/
abbrev ReservedWord (w : BitVec 64) : Prop :=
  match (w.extractLsb' 60 4).toNat with
  | 0 | 13 | 14 | 15 => True
  | 2 => w.extractLsb' 45 15 ≠ 0 ∨ (w.extractLsb' 41 4).toNat < 1 ∨ 8 < (w.extractLsb' 41 4).toNat
  | 5 => w.extractLsb' 48 12 ≠ 0
  | 12 => w.extractLsb' 8 52 ≠ 0
  | _ => w.extractLsb' 0 60 ≠ 0

/-- The pixel is on the canvas (41_display_memory R144). -/
abbrev InRange (p : Params) (x y : Int) : Prop := (0 ≤ x ∧ x < p.width) ∧ 0 ≤ y ∧ y < 2 * p.activeRows

/-- The address of the plane-`b` byte of pixel `(x, y)` in the draw buffer (30_encoding R94). -/
abbrev pixelAddr (s : State) (x y : BitVec 16) (b : Nat) : Nat :=
  s.drawBaseNow.toNat + pixelOffset s.par x.toInt.toNat y.toInt.toNat b

/-- A read of `n` bytes a channel may make: aligned and wholly inside one object of memory (20_memory R67, R68). -/
abbrev Readable (p : Params) (a : Word) (n : Nat) : Prop :=
  a.toNat % n = 0 ∧ ∃ r ∈ regions p, r.obj.isMemory = true ∧ r.holds a.toNat n = true

/-- The count of a channel after one transfer: the last one of an activation reloads it and ends the activation
(42_transfer_engine R171). -/
abbrev counted (r : ChanRegs) : ChanRegs :=
  { r with remain := if r.remain = 1 then r.transCount else r.remain - 1, busy := decide (r.remain ≠ 1) }

/-- A streaming channel after one transfer of `n` bytes (42_transfer_engine R171). -/
abbrev streamed (r : ChanRegs) (n : Nat) : ChanRegs :=
  { counted r with readAddr := r.readAddr + BitVec.ofNat 32 n }

/-- A channel after another has completed an activation chained to it, or not completed one (42_transfer_engine R171). -/
abbrev triggeredBy (completed : Bool) (r : ChanRegs) : ChanRegs := { r with busy := r.busy || (completed && ctrlEn r.ctrl) }

/-- `w` is the little-endian word of the `n` bytes at `a` (20_memory R60). -/
abbrev WordOf (s : State) (a n : Nat) (w : Word) : Prop :=
  w.toNat < 256 ^ n ∧ ∀ j < n, w.extractLsb' (8 * j) 8 = s.byteAt (a + j)

end Sys2Proof.Machine
end

