-- ==== Sys2Proof/Certificates/Slice0/Obligations.lean ====
section
/-! DEFINITION. The statements for the provers. Each docstring says which rules of spec/ the statement formalises; a clause
that is the model's choice names its log entry. -/

open Sys2Proof Sys2Proof.Machine

/-- O1 (R92, R93, R95, R97, R100). For every operation whose operands the encoding admits, with every operand at
every value, decoding its encoded object gives the same operation with the same operands. -/
def Obligations.EncodeDecodeRoundTrip : Prop :=
  ∀ i : Instr, i.wellFormed = true → decode (encode i) = .ok i

/-- O2 (R92, R93, R95, R96, R97, R100). Whenever an encoded object decodes to an operation, that operation is well
formed and its encoding is the same object: each operation has one word, and no bit of a word is ignored. -/
def Obligations.DecodeEncodeRoundTrip : Prop :=
  ∀ (c : Code) (i : Instr), decode c = .ok i → i.wellFormed = true ∧ encode i = c

/-- O3 (R96). The render port answers refuse(ReservedCommand) for a word exactly when its OP is 0x0, 0xD, 0xE or
0xF, or a bit R92 requires to be 0 is not, or it is a CONFIGURE word with PWM_BITS outside 1..8. RESERVED_OP_0,
RESERVED_OP_D, RESERVED_OP_E and RESERVED_OP_F are refused as ReservedCommand for every payload in every state.
A CONFIGURE word with PWM_BITS in 1..8 but different from ColorBits, issued while no command is in progress, is
refused as BitDepthChange. (These refusals are decisions D16 and D8 of spec/92.) -/
def Obligations.ReservedWordsAreRefused : Prop :=
  (∀ (w : BitVec 64) (s : State), portStep w s = .refused .reservedCommand ↔ ReservedWord w) ∧
  (∀ (p : BitVec 60) (s : State),
    exec (.reservedOp0 p) s = .refused .reservedCommand ∧ exec (.reservedOpD p) s = .refused .reservedCommand ∧
    exec (.reservedOpE p) s = .refused .reservedCommand ∧ exec (.reservedOpF p) s = .refused .reservedCommand) ∧
  ∀ (s : State) (b : BitVec 4) (g : Bool) (br : Byte) (tm : Word), 1 ≤ b.toNat → b.toNat ≤ 8 →
    b.toNat ≠ s.par.colorBits → s.pending = [] →
    ∃ w, encode (.configure b g br tm) = .cmd64 w ∧ portStep w s = .refused .bitDepthChange

/-- O4 (R92, R93, R95, R97, R100). A command word with operands of each shape, a control word of each channel and a
state code of each sequencer, written out from the tables of 30_encoding, decode to the operations the tables
name. -/
def Obligations.SpecWordsDecode : Prop :=
  decodeCmd 0x200011FF000003E8 = .ok (.configure 8 true 255 1000) ∧
  decodeCmd 0x5000FFFF0003001F = .ok (.setPixel 0xFFFF 3 0x001F) ∧
  decodeCmd 0xC0000000000000FF = .ok (.gammaCorrect 255) ∧
  decodeCmd 0x3000000000000000 = .ok .engineSetup ∧
  decodeCtrl 0x00AB = .ok .xferA1W2 ∧ decodeCtrl 0x0005 = .ok .xferA2 ∧ decodeCtrl 0x016D = .ok .xferB1 ∧
  decode (.dState 2) = .ok .dShiftColumn ∧ decode (.rState 8) = .ok .rNext ∧ decode (.oState 3) = .ok .oHold

/-- O5 (R10, R11, R21, R23, R92). With a turn fixed by env.turns a step takes it; with none it takes the free turn
numbered env.drawn (the model's choice, log entry 2). A turn that issues a word that decodes to an operation is
exec of that operation, and a turn that issues a word that decodes to none is refused as ReservedCommand; the
turn of a channel whose control word is one of its words of R97 is exec of that transfer; the turn of a
sequencer is exec of the micro-operation its state register names; the turn of RENDER performs the next memory
event. Nothing else happens in the step. -/
def Obligations.StepRunsTheDecodedOperation : Prop :=
  ∀ (s : State) (ts : List Turn), let u : State := { s with env := { s.env with turns := ts } }
  (∀ w i, s.env.turns = .issue w :: ts → decodeCmd w = .ok i → step s = exec i u) ∧
  (∀ w r, s.env.turns = .issue w :: ts → decodeCmd w = .error r → step s = .refused .reservedCommand) ∧
  (∀ c i, s.env.turns = .agent (.chan c) :: ts → chanInstr c (s.chan c).ctrl = some i → step s = exec i u) ∧
  (∀ c, s.env.turns = .agent .dseq :: ts → decode (.dState c) = .ok s.dseq.state.instr →
    step s = exec s.dseq.state.instr u) ∧
  (∀ c, s.env.turns = .agent .rseq :: ts → decode (.rState c) = .ok s.rseq.state.instr →
    step s = exec s.rseq.state.instr u) ∧
  (∀ c, s.env.turns = .agent .oseq :: ts → decode (.oState c) = .ok s.oseq.state.instr →
    step s = exec s.oseq.state.instr u) ∧
  (s.env.turns = .agent .render :: ts → step s = .next (renderEvent u)) ∧
  (s.env.turns = [] → step s =
    runTurn (Config.freeTurn s.env.drawn) { s with env := { s.env with drawn := s.env.drawn + 1 } })

/-- O6 (R232, R11, R256). From every state that meets the invariants of the running core, with ENGINE = RUNNING, in
the run under any schedule of turns (commands included) that is weakly fair, so that no agent's step stays
enabled for ever without being scheduled, each of the four channels and three sequencers is scheduled with its
step enabled infinitely often. (That a run goes on unchanged after a refused command is the model's choice, log
entry 24; a schedule without a refused command is a special case.) -/
def Obligations.EveryAgentStepsForever : Prop :=
  ∀ (σ : Nat → Turn) (s : State), CoreInv s → s.engine = .running → WeaklyFair σ s →
    ∀ a, a ≠ .render → StepsForever σ s a

/-- O7 (R73, R253). For every word that is a command, the render port answers refuse(ConcurrentRender) if and only
if a memory event of the previous command has not been performed yet; the check comes after the encoding and
before every other. -/
def Obligations.ConcurrentCommandIsRefused : Prop :=
  ∀ (w : BitVec 64) (s : State), ¬ReservedWord w → (portStep w s = .refused .concurrentRender ↔ s.pending ≠ [])

/-- O8 (R141, R250, R174). With FB_PTR = NULL and no command in progress, SET_PIXEL (also out of range), CLEAR,
COMMIT, GET_ACTIVE_BUFFER_PTR, GET_DELAY_PTR and ENGINE_SETUP are refused as NotAttached; INIT, CONFIGURE,
GAMMA_CORRECT, the two address accessors and ENGINE_START are not. (The refusal is decision D38 of spec/92. That
ENGINE_START is not: the table of R250 and 93 U8 would have NotAttached, R174 and 93 U9 EngineNotConfigured; the
model's choice is the latter, log entry 26.) -/
def Obligations.UnattachedCommandsAreRefused : Prop :=
  ∀ s : State, s.pending = [] → s.fbPtr = nullPtr →
    (∀ x y c, exec (.setPixel x y c) s = .refused .notAttached) ∧
    exec .clear s = .refused .notAttached ∧ exec .commit s = .refused .notAttached ∧
    exec .getActiveBufferPtr s = .refused .notAttached ∧ exec .getDelayPtr s = .refused .notAttached ∧
    exec .engineSetup s = .refused .notAttached ∧
    exec .init s ≠ .refused .notAttached ∧ exec .getFbPtrAddr s ≠ .refused .notAttached ∧
    exec .getDelayPtrAddr s ≠ .refused .notAttached ∧
    (∀ b g br tm, exec (.configure b g br tm) s ≠ .refused .notAttached) ∧
    (∀ v, exec (.gammaCorrect v) s ≠ .refused .notAttached) ∧ exec .engineStart s ≠ .refused .notAttached

/-- O9 (R140, R172, R174, R126). With no command in progress: INIT while either pointer is bound is refused as
AlreadyAttached; ENGINE_SETUP while attached and ENGINE is not OFF as EngineAlreadyConfigured; ENGINE_START
while ENGINE is not SETUP as EngineNotConfigured, before INIT too (the model's choice there, log entry 26);
CONFIGURE with a legal PWM_BITS other than ColorBits as BitDepthChange. -/
def Obligations.LifeCycleRefusals : Prop :=
  ∀ s : State, s.pending = [] →
    (s.fbPtr ≠ nullPtr ∨ s.delayPtr ≠ nullPtr → exec .init s = .refused .alreadyAttached) ∧
    (s.fbPtr ≠ nullPtr → s.engine ≠ .off → exec .engineSetup s = .refused .engineAlreadyConfigured) ∧
    (s.engine ≠ .setup → exec .engineStart s = .refused .engineNotConfigured) ∧
    (∀ b g br tm, 1 ≤ b.toNat → b.toNat ≤ 8 → b.toNat ≠ s.par.colorBits →
      exec (.configure b g br tm) s = .refused .bitDepthChange)

/-- O10 (R72). Each step of RENDER performs the first pending memory event and leaves the others pending in their
order; after as many steps as events were pending no command is in progress, and the state is finishCommand's,
the one the results of the commands are stated with. -/
def Obligations.RenderStepsFinishTheCommand : Prop :=
  ∀ s : State, (renderEvent s).pending = s.pending.tail ∧
    (∀ e es, s.pending = e :: es → SameMemory (perform e s) (renderEvent s)) ∧
    renderEvent^[s.pending.length] s = finishCommand s ∧ (finishCommand s).pending = []

/-- O11 (R72, R140, R145, R150, R155, R160, R161, R162, R163, R172). An accepted command leads to the state after
one step of RENDER (the model's choice, log entry 4) from a state with the bytes of before in which exactly the
memory events of its rule are pending, in order: INIT the stores of the two pointers; an in-range SET_PIXEL the
pointer read and a read and a write for each plane; CLEAR the pointer read and FRAME_SIZE zero writes in
ascending order; COMMIT the pointer store and FRAME_SIZE zero writes; ENGINE_SETUP its two pointer reads; the
two pointer accessors their read; an ignored SET_PIXEL, CONFIGURE, ENGINE_START, GAMMA_CORRECT and the address
accessors none. The other operations leave none pending. -/
def Obligations.CommandsMakeTheirMemoryEvents : Prop :=
  ∀ (i : Instr) (s t : State), s.pending = [] → exec i s = .next t →
    ∃ u, t = renderEvent u ∧ SameMemory s u ∧ t.pending = u.pending.tail ∧ u.pending =
      match i with
      | .init => [.storePtr s.par.fbPtrAddr s.par.fb0Base, .storePtr s.par.delayPtrAddr s.par.delaysBase]
      | .setPixel x y c =>
        if InRange s.par x.toInt y.toInt then
          .selectDraw :: (List.range s.par.colorBits).flatMap fun b =>
            [.readDraw (pixelOffset s.par x.toInt.toNat y.toInt.toNat b),
             .orDraw (pixelOffset s.par x.toInt.toNat y.toInt.toNat b) (pixelBits s y.toInt.toNat c b)]
        else []
      | .clear => .selectDraw :: (List.range s.par.frameSize).map .zeroDraw
      | .commit => .storePtr s.par.fbPtrAddr (if s.active then s.par.fb0Base else s.par.fb1Base) ::
          (List.range s.par.frameSize).map .zeroDraw
      | .engineSetup => [.setupPairA, .setupPairB]
      | .getActiveBufferPtr => [.returnPtr s.par.fbPtrAddr]
      | .getDelayPtr => [.returnPtr s.par.delayPtrAddr]
      | _ => []

/-- O12 (R140). In a legal map with both pointers NULL and no command in progress INIT answers a next state in which
FB_PTR is FB0_BASE and the store of DELAY_PTR is pending (that the first store is made in the issuing step is
the model's choice, log entry 4); once that is performed FB_PTR = FB0_BASE, DELAY_PTR = DELAYS_BASE, ACTIVE = 0,
the draw buffer is fb1, nothing is returned, and every byte outside the two pointer variables and every other
part of the state is as before. -/
def Obligations.InitBindsThePointers : Prop :=
  ∀ s : State, ParamsLegal s.par → s.pending = [] → s.fbPtr = nullPtr → s.delayPtr = nullPtr →
    ∃ t, exec .init s = .next t ∧ t.fbPtr = s.par.fb0Base ∧ t.delayPtr = nullPtr ∧
      t.pending = [.storePtr s.par.delayPtrAddr s.par.delaysBase] ∧
      (finishCommand t).fbPtr = s.par.fb0Base ∧ (finishCommand t).delayPtr = s.par.delaysBase ∧
      (finishCommand t).active = false ∧ (finishCommand t).drawBaseNow = s.par.fb1Base ∧
      (finishCommand t).pending = [] ∧
      (∀ a, Outside s.par.fbPtrAddr 4 a → Outside s.par.delayPtrAddr 4 a →
        (finishCommand t).byteAt a = s.byteAt a) ∧
      finishCommand t = { s with
        active := false, mem := (finishCommand t).mem, render := { s.render with ret := none } }

/-- O13 (R126, R124, R25). With no command in progress and PWM_BITS equal to ColorBits and in 1..8, CONFIGURE
answers a next state whose CFG has the four operands, whose every table entry is the rebuild of that CFG, and
which is otherwise the same (ret is cleared, log entry 6); no byte of memory changes and no memory event is
pending. -/
def Obligations.ConfigureRebuildsTheTables : Prop :=
  ∀ (s : State) (b : BitVec 4) (g : Bool) (br : Byte) (tm : Word), s.pending = [] → 1 ≤ b.toNat → b.toNat ≤ 8 →
    b.toNat = s.par.colorBits →
    ∃ t, exec (.configure b g br tm) s = .next t ∧
      t.cfg = { pwmBits := b, brightness := br, useGamma := g, timing := tm } ∧
      (∀ v : Fin 32, t.lutR[v] = lutEntry s.par.gamma t.cfg 5 v ∧ t.lutB[v] = lutEntry s.par.gamma t.cfg 5 v) ∧
      (∀ v : Fin 64, t.lutG[v] = lutEntry s.par.gamma t.cfg 6 v) ∧ SameMemory s t ∧
      t = { s with
        cfg := t.cfg, lutR := t.lutR, lutG := t.lutG, lutB := t.lutB, render := { s.render with ret := none } }

/-- O14 (R124, R123, R127). For every gamma table and configuration with pwm_bits in 1..8, the entry of a 5-bit
sample v is ((GAMMA or identity) of (v·255/31 · brightness)/255) shifted right by 8 − pwm_bits, and that of a
6-bit sample the same with 63; the scaled value is at most 255, so no step wraps; the rebuilt tables of 32 and
64 entries hold these entries. (The expansion v·255/(2^N − 1) is R123's, whose use for every sample and for 6
bits the spec marks as its own decision D9; that no step wraps is R127.) -/
def Obligations.TableEntryFormula : Prop :=
  ∀ (g : Table 256) (cfg : Hub75Config), 1 ≤ cfg.pwmBits.toNat → cfg.pwmBits.toNat ≤ 8 →
    (∀ v : Fin 32, (rebuild5 g cfg)[v] = lutEntry g cfg 5 v) ∧ (∀ v : Fin 64, (rebuild6 g cfg)[v] = lutEntry g cfg 6 v) ∧
    ∀ n v, (n = 5 ∧ v < 32) ∨ (n = 6 ∧ v < 64) →
      ∃ k : Fin 256, k.val = v * 255 / (2 ^ n - 1) * cfg.brightness.toNat / 255 ∧
        (lutEntry g cfg n v).toNat = (if cfg.useGamma = true then g[k].toNat else k.val) / 2 ^ (8 - cfg.pwmBits.toNat)

/-- O15 (R125). For every legal gamma table and pwm_bits in 1..8, each entry of a table of 5- or 6-bit samples is at
most 2^pwm_bits − 1; entry 0 is 0; entries never decrease; at brightness 255 the last entry is 2^pwm_bits − 1;
at brightness 0 every entry is 0; at brightness 255 with gamma off and pwm_bits 8 each entry is the expanded
sample. (The spec marks these as derived from R121, R123 and R124.) -/
def Obligations.RebuiltTableProperties : Prop :=
  ∀ (g : Table 256) (cfg : Hub75Config), GammaLegal g → 1 ≤ cfg.pwmBits.toNat → cfg.pwmBits.toNat ≤ 8 →
    ∀ n, n = 5 ∨ n = 6 →
      (∀ v < 2 ^ n, (lutEntry g cfg n v).toNat ≤ 2 ^ cfg.pwmBits.toNat - 1) ∧
      lutEntry g cfg n 0 = 0 ∧
      (∀ v w, v ≤ w → w < 2 ^ n → (lutEntry g cfg n v).toNat ≤ (lutEntry g cfg n w).toNat) ∧
      (cfg.brightness = 255 → (lutEntry g cfg n (2 ^ n - 1)).toNat = 2 ^ cfg.pwmBits.toNat - 1) ∧
      (cfg.brightness = 0 → ∀ v < 2 ^ n, lutEntry g cfg n v = 0) ∧
      (cfg.brightness = 255 → cfg.useGamma = false → cfg.pwmBits = 8 →
        ∀ v < 2 ^ n, (lutEntry g cfg n v).toNat = expand n v)

/-- O16 (R122, R121). With no command in progress GAMMA_CORRECT answers a next state that returns GAMMA[value] and
is otherwise the same, before INIT too; for every legal gamma table the returned values start at 0, end at 255
and never decrease (what R121 requires of the table). -/
def Obligations.GammaCorrectReturnsTheEntry : Prop :=
  (∀ (s : State) (v : Byte), s.pending = [] →
    exec (.gammaCorrect v) s = .next { s with
      render := { s.render with ret := some (.byte (s.par.gamma[v.toNat]'v.isLt)) } }) ∧
  ∀ g : Table 256, GammaLegal g → gammaAt g 0 = 0 ∧ gammaAt g 255 = 255 ∧
    ∀ a b : Byte, a.toNat ≤ b.toNat → (gammaAt g a).toNat ≤ (gammaAt g b).toNat

/-- O17 (R162, R163). With no command in progress, before INIT too, GET_FB_PTR_ADDR returns FB_PTR_ADDR and
GET_DELAY_PTR_ADDR returns DELAY_PTR_ADDR; neither has a memory event and nothing but the returned value
changes. -/
def Obligations.PointerAddressAccessors : Prop :=
  ∀ s : State, s.pending = [] →
    exec .getFbPtrAddr s = .next { s with render := { s.render with ret := some (.word s.par.fbPtrAddr) } } ∧
    exec .getDelayPtrAddr s = .next { s with render := { s.render with ret := some (.word s.par.delayPtrAddr) } }

/-- O18 (R160, R161, R165). While attached and idle, GET_ACTIVE_BUFFER_PTR returns FB_PTR and GET_DELAY_PTR returns
DELAY_PTR in the step that issues them (log entry 4), and nothing but the returned value changes; where the
render invariant holds FB_PTR is FB0_BASE or FB1_BASE and DELAY_PTR is DELAYS_BASE. -/
def Obligations.PointerAccessors : Prop :=
  ∀ s : State, s.pending = [] → s.fbPtr ≠ nullPtr →
    exec .getActiveBufferPtr s = .next { s with render := { s.render with ret := some (.word s.fbPtr) } } ∧
    exec .getDelayPtr s = .next { s with render := { s.render with ret := some (.word s.delayPtr) } } ∧
    (RenderInv s → (s.fbPtr = s.par.fb0Base ∨ s.fbPtr = s.par.fb1Base) ∧ s.delayPtr = s.par.delaysBase)

/-- O19 (R105, R145, R146). While attached and idle, a SET_PIXEL whose coordinates are out of range answers a next
state that differs from the state before in the cleared return value only (log entries 6 and 18): no byte of
memory changes, no event is pending. -/
def Obligations.OutOfRangePixelIsIgnored : Prop :=
  ∀ (s : State) (x y : BitVec 16) (c : Color), s.pending = [] → s.fbPtr ≠ nullPtr → ¬InRange s.par x.toInt y.toInt →
    exec (.setPixel x y c) s = .next { s with render := { s.render with ret := none } }

/-- O20 (R145, R94, R129). While attached and idle, an in-range SET_PIXEL answers a next state; once its memory
events are performed the byte of each plane b at draw_base + x + (y mod ActiveRows)·Width·ColorBits + b·Width is
the old byte OR the pixel's bits of that plane (which samples of the color they come from, O22 says), every
other byte of memory is as before, nothing is returned, and nothing outside memory and the render port has
changed. -/
def Obligations.SetPixelOrsThePlaneBytes : Prop :=
  ∀ (s : State) (x y : BitVec 16) (c : Color), s.pending = [] → s.fbPtr ≠ nullPtr → InRange s.par x.toInt y.toInt →
    ∃ t, exec (.setPixel x y c) s = .next t ∧
      (∀ b < s.par.colorBits, (finishCommand t).byteAt (pixelAddr s x y b) =
        s.byteAt (pixelAddr s x y b) ||| pixelBits s y.toInt.toNat c b) ∧
      (∀ a, (∀ b < s.par.colorBits, a ≠ pixelAddr s x y b) → (finishCommand t).byteAt a = s.byteAt a) ∧
      (finishCommand t).pending = [] ∧ (finishCommand t).render.ret = none ∧
      finishCommand t = { s with mem := (finishCommand t).mem, render := (finishCommand t).render }

/-- O21 (R146, R147, R90). While attached and idle, once an in-range SET_PIXEL is complete, for every address: every
bit that was 1 is still 1; for a pixel of the top half bits 7:3 are as before; for a pixel of the bottom half
bits 2:0 and 7:6 are as before. -/
def Obligations.SetPixelNibbleIsolation : Prop :=
  ∀ (s : State) (x y : BitVec 16) (c : Color), s.pending = [] → s.fbPtr ≠ nullPtr → InRange s.par x.toInt y.toInt →
    ∃ t, exec (.setPixel x y c) s = .next t ∧ ∀ a,
      s.byteAt a &&& (finishCommand t).byteAt a = s.byteAt a ∧
      (y.toInt < s.par.activeRows → (finishCommand t).byteAt a >>> 3 = s.byteAt a >>> 3) ∧
      (s.par.activeRows ≤ y.toInt → ((finishCommand t).byteAt a).extractLsb' 0 3 = (s.byteAt a).extractLsb' 0 3 ∧
        ((finishCommand t).byteAt a).extractLsb' 6 2 = (s.byteAt a).extractLsb' 6 2)

/-- O22 (R91, R93, R98, R129, R145, R146, R165). Where the render invariant holds, while attached and idle, once an
in-range SET_PIXEL is complete the value the draw buffer stores for each channel of that pixel, the sum of bit_b
· 2^b over its planes, is the bitwise OR of the value stored before and the corrected channel value: LUT_R at
color[15:11], LUT_G at color[10:5], LUT_B at color[4:0] (the places of these fields are general knowledge, log
entry 15); on a pixel that stored 0 it is that corrected value. -/
def Obligations.PixelRoundTrip : Prop :=
  ∀ (s : State) (x y : BitVec 16) (c : Color), RenderInv s → s.pending = [] → s.fbPtr ≠ nullPtr →
    InRange s.par x.toInt y.toInt →
    ∃ t, exec (.setPixel x y c) s = .next t ∧
      ∀ k v, (k = s.par.chanPerm.r.val ∧ v = s.lutR[(c.extractLsb' 11 5).toNat]'(BitVec.isLt _)) ∨
          (k = s.par.chanPerm.g.val ∧ v = s.lutG[(c.extractLsb' 5 6).toNat]'(BitVec.isLt _)) ∨
          (k = s.par.chanPerm.b.val ∧ v = s.lutB[(c.extractLsb' 0 5).toNat]'(BitVec.isLt _)) →
        storedValue (finishCommand t) s.drawBaseNow x.toInt.toNat y.toInt.toNat k =
          storedValue s s.drawBaseNow x.toInt.toNat y.toInt.toNat k ||| v.toNat

/-- O23 (R30, R94, R146). For every in-range pixel and plane the offset is r·ColorBits·Width + b·Width + x with r =
y mod ActiveRows and is below FRAME_SIZE; x = Width − 1, y = 2·ActiveRows − 1, b = ColorBits − 1 gives
FRAME_SIZE − 1; two pixels have a byte in common only if they have the same column, plane and row address. -/
def Obligations.PixelOffsetsFillTheFrame : Prop :=
  ∀ p : Params, 1 ≤ p.width → 1 ≤ p.activeRows → 1 ≤ p.colorBits →
    (∀ x y b, x < p.width → y < 2 * p.activeRows → b < p.colorBits →
      pixelOffset p x y b = y % p.activeRows * p.colorBits * p.width + b * p.width + x ∧
      pixelOffset p x y b < p.frameSize) ∧
    pixelOffset p (p.width - 1) (2 * p.activeRows - 1) (p.colorBits - 1) = p.frameSize - 1 ∧
    (∀ x y b x' y' b', x < p.width → b < p.colorBits → x' < p.width → b' < p.colorBits →
      pixelOffset p x y b = pixelOffset p x' y' b' →
      x = x' ∧ b = b' ∧ y % p.activeRows = y' % p.activeRows)

/-- O24 (R150, R143). While attached and idle CLEAR answers a next state; once its memory events are performed every
byte of the draw buffer is 0, every byte outside it is as before, nothing is returned, and nothing outside
memory and the render port has changed. Where the render invariant holds, a second CLEAR leaves every byte as
the first left it. -/
def Obligations.ClearZeroesTheDrawBuffer : Prop :=
  ∀ s : State, s.pending = [] → s.fbPtr ≠ nullPtr →
    ∃ t, exec .clear s = .next t ∧
      (∀ o < s.par.frameSize, (finishCommand t).byteAt (s.drawBaseNow.toNat + o) = 0) ∧
      (∀ a, Outside s.drawBaseNow s.par.frameSize a → (finishCommand t).byteAt a = s.byteAt a) ∧
      (finishCommand t).pending = [] ∧ (finishCommand t).render.ret = none ∧
      finishCommand t = { s with mem := (finishCommand t).mem, render := (finishCommand t).render } ∧
      (RenderInv s → ∃ v, exec .clear (finishCommand t) = .next v ∧ SameMemory (finishCommand t) (finishCommand v))

/-- O25 (R155, R156, R70). Where the render invariant holds, while attached and idle, COMMIT answers a next state in
which FB_PTR already names the old draw buffer and no other byte has changed (that the store is made in the
issuing step is the model's choice, log entry 4); once its memory events are performed the old draw buffer is
active and byte for byte as before, the old active buffer is the draw buffer and all zero, every byte outside it
and FB_PTR is as before, and nothing outside memory, ACTIVE and the render port has changed. -/
def Obligations.CommitSwapsTheBuffers : Prop :=
  ∀ s : State, RenderInv s → s.pending = [] → s.fbPtr ≠ nullPtr →
    ∃ t, exec .commit s = .next t ∧ t.fbPtr = s.drawBaseNow ∧
      (∀ a, Outside s.par.fbPtrAddr 4 a → t.byteAt a = s.byteAt a) ∧
      (finishCommand t).active = !s.active ∧ (finishCommand t).fbPtr = s.drawBaseNow ∧
      (finishCommand t).drawBaseNow = s.fbPtr ∧ (finishCommand t).delayPtr = s.delayPtr ∧
      (∀ o < s.par.frameSize, (finishCommand t).byteAt (s.drawBaseNow.toNat + o) = s.byteAt (s.drawBaseNow.toNat + o)) ∧
      (∀ o < s.par.frameSize, (finishCommand t).byteAt (s.fbPtr.toNat + o) = 0) ∧
      (∀ a, Outside s.fbPtr s.par.frameSize a → Outside s.par.fbPtrAddr 4 a → (finishCommand t).byteAt a = s.byteAt a) ∧
      (finishCommand t).pending = [] ∧ (finishCommand t).render.ret = none ∧
      finishCommand t = { s with
        active := !s.active, mem := (finishCommand t).mem, render := (finishCommand t).render }

/-- O26 (R172, R173, R97, R47). While attached and idle with ENGINE = OFF and W_A in {1, 2, 4}, ENGINE_SETUP answers
a next state; once its two pointer reads are performed every register of the four channels but BUSY, the two
sequencer constants and ENGINE hold the values of R172 and R173, no byte of memory has changed, and every other
part of the state is as before (the split of the register writes over the two reads is log entry 5). -/
def Obligations.EngineSetupPrograms : Prop :=
  ∀ s : State, s.pending = [] → s.fbPtr ≠ nullPtr → s.engine = .off → (s.par.wA = 1 ∨ s.par.wA = 2 ∨ s.par.wA = 4) →
    ∃ t, exec .engineSetup s = .next t ∧ SameMemory s (finishCommand t) ∧ (finishCommand t).pending = [] ∧
      finishCommand t = { s with
        a1 := { readAddr := s.fbPtr, writeAddr := s.par.dataTxf
                transCount := BitVec.ofNat 32 (s.par.frameSize / s.par.wA)
                remain := BitVec.ofNat 32 (s.par.frameSize / s.par.wA)
                ctrl := if s.par.wA = 4 then 0x00AD else if s.par.wA = 2 then 0x00AB else 0x00A9
                busy := s.a1.busy }
        a2 := { readAddr := s.par.fbPtrAddr, writeAddr := s.par.dmaBase + 0, transCount := 1, remain := 1
                ctrl := 0x0005, busy := s.a2.busy }
        b1 := { readAddr := s.delayPtr, writeAddr := s.par.oeTxf
                transCount := BitVec.ofNat 32 s.par.colorBits, remain := BitVec.ofNat 32 s.par.colorBits
                ctrl := 0x016D, busy := s.b1.busy }
        b2 := { readAddr := s.par.delayPtrAddr, writeAddr := s.par.dmaBase + 32, transCount := 1, remain := 1
                ctrl := 0x0045, busy := s.b2.busy }
        rseq := { s.rseq with
          rowsM1 := BitVec.ofNat 32 (s.par.activeRows - 1), planesM1 := BitVec.ofNat 32 (s.par.colorBits - 1) }
        engine := .setup
        render := { s.render with ret := none } }

/-- O27 (R174). With no command in progress and ENGINE = SETUP, ENGINE_START answers a next state with BUSY[A1] =
BUSY[B1] = 1, STATE_D, STATE_R and STATE_O at D_LOAD_WIDTH, R_LOAD_ROW_COUNT and O_LOAD_DELAY, ENGINE = RUNNING,
and everything else as before, the flags and every byte of memory included (ret is cleared, log entry 6); in any
other ENGINE it is refused as EngineNotConfigured, before INIT too (that the reason is this one there, and not
NotAttached, is the model's choice, log entry 26). -/
def Obligations.EngineStartRuns : Prop :=
  ∀ s : State, s.pending = [] →
    (s.engine = .setup →
      ∃ t, exec .engineStart s = .next t ∧ SameMemory s t ∧
        t = { s with
          a1 := { s.a1 with busy := true }
          b1 := { s.b1 with busy := true }
          dseq := { s.dseq with state := .loadWidth }
          rseq := { s.rseq with state := .loadRowCount }
          oseq := { s.oseq with state := .loadDelay }
          engine := .running
          render := { s.render with ret := none } }) ∧
    (s.engine ≠ .setup → exec .engineStart s = .refused .engineNotConfigured)

/-- O28 (R171, R180, R60, R62, R65). For each of the three words of A1 with its own W_A, in a legal map, busy, with
room in DQ, reading aligned inside an object of memory and writing DATA_TXF: the step answers a next state in
which DQ has gained at its end the little-endian word of the W_A bytes at READ_ADDR, READ_ADDR has advanced by
W_A, REMAIN is one less (modulo 2^32: that a REMAIN of 0 wraps is the model's choice, log entry 28); on the last
transfer REMAIN is reloaded, BUSY[A1] cleared and A2 made busy if enabled; no byte of memory and no other part
of the state changes. -/
def Obligations.A1StreamsAWord : Prop :=
  ∀ (i : Instr) (n : Nat) (s : State), (i = .xferA1W4 ∧ n = 4) ∨ (i = .xferA1W2 ∧ n = 2) ∨ (i = .xferA1W1 ∧ n = 1) →
    MapLegal s.par → s.par.wA = n → s.a1.busy = true → s.dq.length < s.par.qdData →
    Readable s.par s.a1.readAddr n → s.a1.writeAddr = s.par.dataTxf →
    ∃ t v, exec i s = .next t ∧ WordOf s s.a1.readAddr.toNat n v ∧ SameMemory s t ∧
      t = { s with
        dq := s.dq ++ [v], a1 := streamed s.a1 n, a2 := triggeredBy (decide (s.a1.remain = 1)) s.a2 }

/-- O29 (R171, R182, R60, R62, R65). In a legal map, B1 busy, with room in OQ, reading aligned inside an object of
memory and writing OE_TXF: the step answers a next state in which OQ has gained at its end the little-endian
word of the 4 bytes at READ_ADDR, READ_ADDR has advanced by 4, REMAIN is one less (modulo 2^32: that a REMAIN of
0 wraps is the model's choice, log entry 28); on the last transfer REMAIN is reloaded, BUSY[B1] cleared and B2
made busy if enabled; no byte of memory and no other part of the state changes. -/
def Obligations.B1StreamsADelay : Prop :=
  ∀ s : State, MapLegal s.par → s.b1.busy = true → s.oq.length < s.par.qdOe →
    Readable s.par s.b1.readAddr 4 → s.b1.writeAddr = s.par.oeTxf →
    ∃ t v, exec .xferB1 s = .next t ∧ WordOf s s.b1.readAddr.toNat 4 v ∧ SameMemory s t ∧
      t = { s with
        oq := s.oq ++ [v], b1 := streamed s.b1 4, b2 := triggeredBy (decide (s.b1.remain = 1)) s.b2 }

/-- O30 (R171, R181, R182, R64, R70). In a legal map, A2 busy, reading 4 aligned bytes inside an object of memory
and writing the address of READ_ADDR[A1]: the step answers a next state in which READ_ADDR[A1] is that word,
read whole; when it was the last transfer of the activation A2 is idle with REMAIN reloaded and A1 is busy if
enabled; when it was not, REMAIN[A2] is one less and A2 stays busy (modulo 2^32: that a REMAIN of 0 wraps is the
model's choice, log entry 28); A2's addresses, every byte of memory and every other part of the state are as
before. The same for B2 and B1. -/
def Obligations.RearmChannelsCopyThePointer : Prop :=
  ∀ s : State, MapLegal s.par →
    (s.a2.busy = true → Readable s.par s.a2.readAddr 4 → s.a2.writeAddr = s.par.dmaBase →
      ∃ t v, exec .xferA2 s = .next t ∧ WordOf s s.a2.readAddr.toNat 4 v ∧ SameMemory s t ∧
        t = { s with
          a1 := triggeredBy (decide (s.a2.remain = 1)) { s.a1 with readAddr := v }
          a2 := counted s.a2 }) ∧
    (s.b2.busy = true → Readable s.par s.b2.readAddr 4 → s.b2.writeAddr = s.par.dmaBase + 32 →
      ∃ t v, exec .xferB2 s = .next t ∧ WordOf s s.b2.readAddr.toNat 4 v ∧ SameMemory s t ∧
        t = { s with
          b1 := triggeredBy (decide (s.b2.remain = 1)) { s.b1 with readAddr := v }
          b2 := counted s.b2 })

/-- O31 (R10, R171, R177, R204, R256). An agent without an enabled step (no command in progress; a channel that is
idle or paced out; a sequencer that is off, at an await whose flag is 0, or in need of a word from an empty
queue) keeps the whole state as it is when it is scheduled; each of the four awaits keeps it in every state in
which its flag is 0. That such a turn is a step that changes nothing, and not a turn that cannot be taken, is
the model's choice (log entry 3). Channels with a reserved control word are excluded: they are refused. -/
def Obligations.DisabledAgentsWait : Prop :=
  (∀ (a : Agent) (s : State), enabled a s = false → (∀ c, a = .chan c → ctrlReserved (s.chan c).ctrl = false) →
    agentStep a s = .next s) ∧
  ∀ s : State, (s.flags.ras = false → exec .dAwaitNextRow s = .next s) ∧
    (s.flags.rdr = false → exec .rAwaitData s = .next s) ∧
    (s.flags.td = false → exec .rAwaitTimingDone s = .next s) ∧
    (s.flags.ts = false → exec .oAwaitTimingStart s = .next s)

/-- O32 (R65, R67, R68, R97). In a legal map, for a busy channel: a reserved control word is refused as ReservedCtrl
(at the transfer, log entry 10). With a legal control word and its pacing condition true: a misaligned read or
one not inside one object of memory faults as DmaBus; with a legal read, a misaligned write (inside a port of
the wrong size too: the model's choice, log entry 8), a write that lies in no object or in an object of memory
faults as DmaBus, and an aligned write inside DATA_TXF of another size than W_A or inside OE_TXF of another size
than 4 is refused as PortSize. -/
def Obligations.ChannelFaultsAndRefusals : Prop :=
  ∀ (c : Chan) (s : State), MapLegal s.par → (s.chan c).busy = true → let n := ctrlBytes (s.chan c).ctrl
    (ctrlReserved (s.chan c).ctrl = true → agentStep (.chan c) s = .refused .reservedCtrl) ∧
    (ctrlReserved (s.chan c).ctrl = false → paced s (s.chan c).ctrl = true →
      (¬Readable s.par (s.chan c).readAddr n → agentStep (.chan c) s = .fault .dmaBus) ∧
      (Readable s.par (s.chan c).readAddr n →
        ((s.chan c).writeAddr.toNat % n ≠ 0 ∨
            (∀ r ∈ regions s.par, r.holds (s.chan c).writeAddr.toNat n = true → r.obj.isMemory = true) →
          agentStep (.chan c) s = .fault .dmaBus) ∧
        ((s.chan c).writeAddr.toNat % n = 0 →
          objAt s.par (s.chan c).writeAddr.toNat n = some .dataPort ∧ n ≠ s.par.wA ∨
            objAt s.par (s.chan c).writeAddr.toNat n = some .oePort ∧ n ≠ 4 →
          agentStep (.chan c) s = .refused .portSize)))

/-- O33 (R200, R42). D_OFF, R_OFF and O_OFF keep the whole state (R200 gives them no enabled step; that their turn
is a step that changes nothing is the model's choice, log entry 3). In a step of the machine no sequencer enters
its off state, and one that leaves it does so in the step that takes ENGINE from SETUP to RUNNING. Where the
handshake invariant holds a step keeps ENGINE or takes it from OFF to SETUP or from SETUP to RUNNING. -/
def Obligations.OffStatesLeaveByEngineStart : Prop :=
  ∀ s : State, (exec .dOff s = .next s ∧ exec .rOff s = .next s ∧ exec .oOff s = .next s) ∧
    ∀ t, step s = .next t →
      (t.dseq.state = .off → s.dseq.state = .off) ∧ (t.rseq.state = .off → s.rseq.state = .off) ∧
      (t.oseq.state = .off → s.oseq.state = .off) ∧
      (s.dseq.state = .off ∧ t.dseq.state ≠ .off ∨ s.rseq.state = .off ∧ t.rseq.state ≠ .off ∨
        s.oseq.state = .off ∧ t.oseq.state ≠ .off → s.engine = .setup ∧ t.engine = .running) ∧
      (HandshakeInv s → t.engine = s.engine ∨ s.engine = .off ∧ t.engine = .setup ∨
        s.engine = .setup ∧ t.engine = .running)

/-- O34 (R201, R210, R211). D_LOAD_WIDTH sets COL to Width − 1 and goes to D_SHIFT_COLUMN; R_LOAD_ROW_COUNT sets ROW
to ROWS_M1 and goes to R_LOAD_PLANE_COUNT; R_LOAD_PLANE_COUNT sets PLANE to PLANES_M1 and goes to R_SET_ADDRESS;
each always, with every other part of the state and every byte of memory as before. COL counts columns left
minus one: in a legal set it is Width − 1 as a number. -/
def Obligations.CounterLoads : Prop :=
  ∀ s : State,
    (∃ t, exec .dLoadWidth s = .next t ∧ SameMemory s t ∧ (ParamsLegal s.par → t.dseq.col.toNat = s.par.width - 1) ∧
      t = { s with dseq := { s.dseq with col := BitVec.ofNat 32 (s.par.width - 1), state := .shiftColumn } }) ∧
    (∃ t, exec .rLoadRowCount s = .next t ∧ SameMemory s t ∧
      t = { s with rseq := { s.rseq with row := s.rseq.rowsM1, state := .loadPlaneCount } }) ∧
    (∃ t, exec .rLoadPlaneCount s = .next t ∧ SameMemory s t ∧
      t = { s with rseq := { s.rseq with plane := s.rseq.planesM1, state := .setAddress } })

/-- O35 (R202, R60, R101). With word the head of DQ and left = W_A when OSR_LEFT = 0, else OSR and OSR_LEFT: the
step answers a next state in which that word is shifted right by 8 with one byte fewer left, DATA carries bits
5:0 of its lowest byte, CLK is 0, the trace has gained DATA, CLK(1), CLK(0); at COL = 0 RDR is raised and the
state is D_AWAIT_NEXT_ROW with COL kept, else COL is one less; no byte of memory and no other part of the state
changes. -/
def Obligations.ShiftColumnMakesThreePinEvents : Prop :=
  ∀ (s : State) (word : Word) (left : Nat) (q : List Word),
    (s.dseq.osrLeft = 0 ∧ s.dq = word :: q ∧ left = s.par.wA) ∨
      (s.dseq.osrLeft ≠ 0 ∧ s.dq = q ∧ word = s.dseq.osr ∧ left = s.dseq.osrLeft) →
    ∃ t, exec .dShiftColumn s = .next t ∧ SameMemory s t ∧
      t.dseq.osr.toNat = word.toNat / 256 ∧ t.dseq.osrLeft = left - 1 ∧ t.dq = q ∧
      t.pins = { s.pins with data := word.extractLsb' 0 6, clk := false } ∧
      t.trace = s.trace ++ [.data (word.extractLsb' 0 6), .clk true, .clk false] ∧
      (s.dseq.col = 0 → t.dseq.col = 0 ∧ t.dseq.state = .awaitNextRow ∧ t.flags = { s.flags with rdr := true }) ∧
      (s.dseq.col ≠ 0 → t.dseq.col.toNat + 1 = s.dseq.col.toNat ∧ t.dseq.state = s.dseq.state ∧ t.flags = s.flags) ∧
      t = { s with dseq := t.dseq, dq := t.dq, pins := t.pins, trace := t.trace, flags := t.flags }

/-- O36 (R203, R216, R217, R221). D_AWAIT_NEXT_ROW awaits RAS and goes to D_LOAD_WIDTH, R_AWAIT_TIMING_DONE TD and
to R_NEXT, O_AWAIT_TIMING_START TS and to O_HOLD: each is enabled exactly while its flag is 1, and then clears
it. R_SIGNAL_TIMING is always enabled, raises TS and RAS and goes to R_AWAIT_TIMING_DONE. In each such step
everything else, the pins and every byte of memory included, is as before. Beside these, of R214: R_AWAIT_DATA
awaits RDR and goes to R_LATCH; and of R223: O_SIGNAL_DONE, always enabled, drives OE_N to 1, emitting OE(1)
only if it was 0, raises TD and goes to O_LOAD_DELAY. -/
def Obligations.AwaitsAndSignals : Prop :=
  ∀ s : State,
    (s.dseq.state = .awaitNextRow → enabled .dseq s = s.flags.ras) ∧
    (s.rseq.state = .awaitData → enabled .rseq s = s.flags.rdr) ∧
    (s.rseq.state = .awaitTimingDone → enabled .rseq s = s.flags.td) ∧
    (s.oseq.state = .awaitTimingStart → enabled .oseq s = s.flags.ts) ∧
    (s.rseq.state = .signalTiming → enabled .rseq s = true) ∧
    (s.oseq.state = .signalDone → enabled .oseq s = true) ∧
    (s.flags.ras = true → exec .dAwaitNextRow s = .next { s with
      flags := { s.flags with ras := false }, dseq := { s.dseq with state := .loadWidth } }) ∧
    (s.flags.rdr = true → exec .rAwaitData s = .next { s with
      flags := { s.flags with rdr := false }, rseq := { s.rseq with state := .latch } }) ∧
    (s.flags.td = true → exec .rAwaitTimingDone s = .next { s with
      flags := { s.flags with td := false }, rseq := { s.rseq with state := .next } }) ∧
    (s.flags.ts = true → exec .oAwaitTimingStart s = .next { s with
      flags := { s.flags with ts := false }, oseq := { s.oseq with state := .hold } }) ∧
    exec .rSignalTiming s = .next { s with
      flags := { s.flags with ts := true, ras := true }, rseq := { s.rseq with state := .awaitTimingDone } } ∧
    exec .oSignalDone s = .next { s with
      pins := { s.pins with oeN := true }
      trace := if s.pins.oeN = true then s.trace else s.trace ++ [.oe true]
      flags := { s.flags with td := true }
      oseq := { s.oseq with state := .loadDelay } } ∧
    ∀ i raised, (i, raised) ∈ [(Instr.dAwaitNextRow, s.flags.ras), (.rAwaitData, s.flags.rdr),
        (.rAwaitTimingDone, s.flags.td), (.oAwaitTimingStart, s.flags.ts), (.rSignalTiming, true), (.oSignalDone, true)] →
      raised = true → ∃ t, exec i s = .next t ∧ SameMemory s t

/-- O37 (R212, R213, R215). R_SET_ADDRESS puts bits 4:0 of ROWS_M1 − ROW (modulo 2^32: that it wraps where ROW is
above ROWS_M1 is the model's choice, log entry 28), each inverted when ADDR_INVERT = 1, on ADDR, emits ADDR of
that value and goes to R_AWAIT_DATA; R_LATCH emits LAT(1), LAT(0), leaves LAT at 0 and goes to R_SIGNAL_TIMING;
both always, with everything else and every byte of memory as before. -/
def Obligations.SetAddressAndLatch : Prop :=
  ∀ s : State,
    (∃ t, exec .rSetAddress s = .next t ∧ SameMemory s t ∧
      (∀ k < 5, t.pins.addr.getLsbD k = xor s.par.addrInvert ((s.rseq.rowsM1 - s.rseq.row).getLsbD k)) ∧
      t = { s with
        pins := { s.pins with addr := t.pins.addr }
        trace := s.trace ++ [.addr t.pins.addr]
        rseq := { s.rseq with state := .awaitData } }) ∧
    (∃ t, exec .rLatch s = .next t ∧ SameMemory s t ∧
      t = { s with
        pins := { s.pins with lat := false }
        trace := s.trace ++ [.lat true, .lat false]
        rseq := { s.rseq with state := .signalTiming } })

/-- O38 (R218). With PLANE ≠ 0 R_NEXT counts PLANE down and goes to R_SET_ADDRESS; with PLANE = 0 and ROW ≠ 0 it
counts ROW down and goes to R_LOAD_PLANE_COUNT; with both 0 it goes to R_LOAD_ROW_COUNT; a counter that counts
down is one less as a number; everything else and every byte of memory is as before. -/
def Obligations.RNextCountsDown : Prop :=
  ∀ s : State, ∃ t, exec .rNext s = .next t ∧ SameMemory s t ∧ t = { s with rseq := t.rseq } ∧
    t.rseq.rowsM1 = s.rseq.rowsM1 ∧ t.rseq.planesM1 = s.rseq.planesM1 ∧
    (s.rseq.plane ≠ 0 → t.rseq.plane.toNat + 1 = s.rseq.plane.toNat ∧ t.rseq.row = s.rseq.row ∧
      t.rseq.state = .setAddress) ∧
    (s.rseq.plane = 0 → s.rseq.row ≠ 0 → t.rseq.row.toNat + 1 = s.rseq.row.toNat ∧ t.rseq.plane = s.rseq.plane ∧
      t.rseq.state = .loadPlaneCount) ∧
    (s.rseq.plane = 0 → s.rseq.row = 0 → t.rseq = { s.rseq with state := .loadRowCount })

/-- O39 (R220). With d at the head of OQ, O_LOAD_DELAY removes it, sets CNT to d and goes to O_AWAIT_TIMING_START;
OE_N, everything else and every byte of memory is as before; with OQ empty nothing changes (log entry 3). -/
def Obligations.LoadDelayPopsOneWord : Prop :=
  ∀ s : State,
    (∀ d q, s.oq = d :: q → ∃ t, exec .oLoadDelay s = .next t ∧ SameMemory s t ∧
      t = { s with oq := q, oseq := { cnt := d, state := .awaitTimingStart } }) ∧
    (s.oq = [] → exec .oLoadDelay s = .next s)

/-- O40 (R222). With HOLD_BIAS = 1, and with HOLD_BIAS = 0 while CNT ≠ 0, O_HOLD drives OE_N to 0, emitting OE(0)
only if it was 1, then emits TICK; CNT = 0 goes to O_SIGNAL_DONE, else CNT is one less and the state stays; with
HOLD_BIAS = 0 and CNT = 0 it only goes to O_SIGNAL_DONE. Everything else and every byte of memory is as before. -/
def Obligations.HoldIsOneTick : Prop :=
  ∀ s : State,
    (s.par.holdBias = 1 ∨ (s.par.holdBias = 0 ∧ s.oseq.cnt ≠ 0) →
      ∃ t, exec .oHold s = .next t ∧ SameMemory s t ∧
        t.trace = s.trace ++ (if s.pins.oeN = true then [.oe false, .tick] else [.tick]) ∧
        (s.oseq.cnt = 0 → t.oseq = { s.oseq with state := .signalDone }) ∧
        (s.oseq.cnt ≠ 0 → t.oseq.cnt.toNat + 1 = s.oseq.cnt.toNat ∧ t.oseq.state = s.oseq.state) ∧
        t = { s with oseq := t.oseq, pins := { s.pins with oeN := false }, trace := t.trace }) ∧
    (s.par.holdBias = 0 → s.oseq.cnt = 0 →
      ∃ t, exec .oHold s = .next t ∧ SameMemory s t ∧ t = { s with oseq := { s.oseq with state := .signalDone } })

/-- O41 (R222, R224). From the hold state with CNT = d, for HOLD_BIAS 0 or 1, d + 1 steps of O_HOLD end in
O_SIGNAL_DONE with CNT = 0; they emit OE(0) first if the line was high and there is a tick, then d + HOLD_BIAS
TICKs and nothing else; the line is low afterwards if there was a tick, and everything else is as before. -/
def Obligations.HoldTickCount : Prop :=
  ∀ s : State, s.oseq.state = .hold → s.par.holdBias ≤ 1 →
    ∃ t, holdSteps (s.oseq.cnt.toNat + 1) s = .next t ∧ t.oseq = { state := .signalDone, cnt := 0 } ∧
      t.trace = s.trace ++
        (if s.pins.oeN = true ∧ 0 < s.oseq.cnt.toNat + s.par.holdBias then [.oe false] else []) ++
        List.replicate (s.oseq.cnt.toNat + s.par.holdBias) .tick ∧
      (t.pins.oeN = false ↔ s.pins.oeN = false ∨ 0 < s.oseq.cnt.toNat + s.par.holdBias) ∧
      t = { s with oseq := t.oseq, pins := { s.pins with oeN := t.pins.oeN }, trace := t.trace }

/-- O42 (R6, R280, R142). A parameter set that breaks a constraint of R6 is refused as BadParameters; a legal one
gives the state in which CFG is CFG_RESET and the tables its rebuild, ACTIVE is 0, both pointers NULL, DELAYS[i]
= 2^i − 1, both framebuffers zero, every channel register 0, ENGINE OFF, the queues empty, the sequencers off
with zero registers, the flags 0, the pins 0 but OE_N = 1, and no command in progress. (R280 calls all but the
delay table, the null pointers and the rebuild its own decisions D7, D8, D14, D22, D26, D28.) -/
def Obligations.ConstructionGivesTheResetState : Prop :=
  ∀ p : Params, (¬ParamsLegal p → construct p = .refused .badParameters) ∧
    (ParamsLegal p → ∃ s, construct p = .next s ∧ s.par = p ∧ s.cfg = p.cfgReset ∧
      (∀ v : Fin 32, s.lutR[v] = lutEntry p.gamma p.cfgReset 5 v ∧ s.lutB[v] = lutEntry p.gamma p.cfgReset 5 v) ∧
      (∀ v : Fin 64, s.lutG[v] = lutEntry p.gamma p.cfgReset 6 v) ∧
      s.active = false ∧ s.fbPtr = nullPtr ∧ s.delayPtr = nullPtr ∧
      (∀ i < p.colorBits, (s.wordAt (p.delaysBase.toNat + 4 * i)).toNat = 2 ^ i - 1) ∧
      (∀ o < p.frameSize, s.byteAt (p.fb0Base.toNat + o) = 0 ∧ s.byteAt (p.fb1Base.toNat + o) = 0) ∧
      (∀ c, s.chan c = { readAddr := 0, writeAddr := 0, transCount := 0, remain := 0, ctrl := 0, busy := false }) ∧
      s.engine = .off ∧ s.dq = [] ∧ s.oq = [] ∧ s.dseq = { state := .off, col := 0, osr := 0, osrLeft := 0 } ∧
      s.rseq = { state := .off, rowsM1 := 0, planesM1 := 0, row := 0, plane := 0 } ∧ s.oseq = { state := .off, cnt := 0 } ∧
      s.flags = { rdr := false, ras := false, ts := false, td := false } ∧
      s.pins = { data := 0, clk := false, lat := false, addr := 0, oeN := true } ∧ s.pending = [])

/-- O43 (R280, R281, R165, R184, R232). State.reset (built from the parameter set of log entry 1) has its memory in
canonical form and meets the invariants of the render port, the handshake, the channels, the counters, the
address pins and the two streams, and the panel has been shown nothing; no agent has an enabled step until a
command arrives. -/
def Obligations.ResetMeetsTheInvariants : Prop :=
  Memory.wf State.reset.par State.reset.mem ∧ CoreInv State.reset ∧ AddressShown State.reset ∧ ScanHistory State.reset [] ∧
    ∀ a, enabled a State.reset = false

/-- O44 (R5, R35, R74). From every state whose memory is in canonical form (addresses rising, no entry equal to what
an unlisted address reads as; log entry 7), a step that goes on leaves memory in that form and the construction
parameters as they were. -/
def Obligations.StepKeepsMemoryForm : Prop :=
  ∀ s t : State, Memory.wf s.par s.mem → step s = .next t → Memory.wf t.par t.mem ∧ t.par = s.par

/-- O45 (R200, R230, R232, R235). From every state in which the four flags and three sequencer states hold exactly
one line token and one timing token (and nothing has moved before ENGINE_START), CLK and LAT are 0 and OE_N is 0
only inside an activation, a step that goes on leads to such a state. -/
def Obligations.StepKeepsHandshake : Prop :=
  ∀ s t : State, HandshakeInv s → step s = .next t → HandshakeInv t

/-- O46 (R232, R204). In every state that meets the handshake invariant: when the step of an agent raises a flag,
that flag was 0; so no event is lost. -/
def Obligations.NoEventIsLost : Prop :=
  ∀ (a : Agent) (s t : State), HandshakeInv s → agentStep a s = .next t →
    (a = .dseq ∧ s.dseq.state = .shiftColumn → s.flags.rdr = false) ∧
    (a = .rseq ∧ s.rseq.state = .signalTiming → s.flags.ts = false ∧ s.flags.ras = false) ∧
    (a = .oseq ∧ s.oseq.state = .signalDone → s.flags.td = false) ∧
    (s.flags.rdr = false ∧ t.flags.rdr = true → a = .dseq ∧ s.dseq.state = .shiftColumn) ∧
    (s.flags.ras = false ∧ t.flags.ras = true ∨ s.flags.ts = false ∧ t.flags.ts = true →
      a = .rseq ∧ s.rseq.state = .signalTiming) ∧
    (s.flags.td = false ∧ t.flags.td = true → a = .oseq ∧ s.oseq.state = .signalDone)

/-- O47 (R235, R230). From every state that meets the handshake invariant, in a step that goes on: CLK and LAT are 0
afterwards; if ADDR changes, OE_N is 1 before and after; the trace grows by some events; if they hold a LAT
pulse, OE_N is 1 and the data sequencer awaits the next row; if they hold a CLK pulse, the row sequencer is not
between its await of the line and its release; if OE_N is 0 afterwards the output-enable sequencer is in an
activation. -/
def Obligations.PinDiscipline : Prop :=
  ∀ s t : State, HandshakeInv s → step s = .next t →
    t.pins.clk = false ∧ t.pins.lat = false ∧
    (t.pins.addr ≠ s.pins.addr → s.pins.oeN = true ∧ t.pins.oeN = true) ∧
    (∃ es, t.trace = s.trace ++ es ∧
      (.lat true ∈ es → s.pins.oeN = true ∧ t.pins.oeN = true ∧ s.dseq.state = .awaitNextRow) ∧
      (.clk true ∈ es → s.dseq.state = .shiftColumn ∧ s.flags.rdr = false ∧ ¬latching s)) ∧
    (t.pins.oeN = false → holding t)

/-- O48 (R212, R213, R231). Where the handshake invariant holds, a step that goes on keeps the invariant that in
R_AWAIT_DATA, R_LATCH, R_SIGNAL_TIMING, R_AWAIT_TIMING_DONE and R_NEXT the pins ADDR carry the encoded row index
ROWS_M1 − ROW; and in a state that meets both, while OE_N is 0 the pins ADDR carry it. -/
def Obligations.AddressPinsShowTheRow : Prop :=
  ∀ s : State, HandshakeInv s → AddressShown s →
    (s.pins.oeN = false → s.pins.addr = addrEncode s.par s.rseq.rowIndex) ∧
    ∀ t, step s = .next t → AddressShown t

/-- O49 (R165, R34, R26, R90). From every state in which the parameters are legal, the tables are the rebuild of CFG
at depth ColorBits, FB_PTR is NULL or the buffer ACTIVE names, DELAY_PTR is DELAYS_BASE once attached, DELAYS[i]
= 2^i − 1, bits 7:6 of every framebuffer byte are 0 and the pending events of a drawing command stay inside the
draw buffer, a step that goes on leads to such a state. -/
def Obligations.StepKeepsRenderInv : Prop :=
  ∀ s t : State, RenderInv s → step s = .next t → RenderInv t

/-- O50 (R31, R165, R75, R260). From every state that meets the render invariant, in a step that goes on every byte
of the buffer FB_PTR names afterwards is as it was before the step: drawing writes only the draw buffer, and a
commit promotes its buffer unchanged. -/
def Obligations.ActiveBufferNeverWritten : Prop :=
  ∀ s t : State, RenderInv s → step s = .next t → t.fbPtr ≠ nullPtr →
    ∀ o < s.par.frameSize, t.byteAt (t.fbPtr.toNat + o) = s.byteAt (t.fbPtr.toNat + o)

/-- O51 (R184, R36, R37, R38, R39). Where the render invariant holds: from every state in which the programmed
registers keep their ENGINE_SETUP values, exactly one channel of each pair is busy while the engine runs and
none before, and each streaming channel is a whole number of transfers into a pass over one framebuffer, or over
the delay table, a step that goes on leads to such a state. -/
def Obligations.StepKeepsChannelInv : Prop :=
  ∀ s t : State, RenderInv s → ChannelInv s → step s = .next t → ChannelInv t

/-- O52 (R185, R67, R68). In every state that meets the render and channel invariants the turn of every agent goes
on (no fault and no refusal; that the turn of an agent without an enabled step is a step that changes nothing is
the model's choice, log entry 3), and no step of the machine, whatever word is issued, ends in a fault. -/
def Obligations.EngineNeverFaults : Prop :=
  ∀ s : State, RenderInv s → ChannelInv s →
    (∀ a, ∃ t, agentStep a s = .next t) ∧ ∀ f, step s ≠ .fault f

/-- O53 (R43, R46, R177). From every state in which W_A is at most 4, DQ and OQ hold at most QD_DATA and QD_OE
words, each word of DQ is below 256^W_A, OSR_LEFT is at most W_A and OSR is below 256^OSR_LEFT (log entry 14), a
step that goes on leads to such a state, whatever the control words of the channels are. -/
def Obligations.StepKeepsCounterInv : Prop :=
  ∀ s t : State, CounterInv s → step s = .next t → CounterInv t

/-- O54 (R166, R31, R260, R76). A step of a channel or sequencer leaves CFG, the tables, ACTIVE, every byte of
memory, the render port and ENGINE as they are. In two states that agree on these, a word that is accepted in
one is accepted in the other and leads to states that agree on them again, and so does a step of RENDER. -/
def Obligations.DisplayIndependentOfTheEngine : Prop :=
  (∀ (a : Agent) (s t : State), a ≠ .render → agentStep a s = .next t →
    SameDisplay s t ∧ SameMemory s t ∧ t.engine = s.engine) ∧
  ∀ s s' : State, SameDisplay s s' → s.engine = s'.engine →
    (∀ w t, portStep w s = .next t → ∃ t', portStep w s' = .next t' ∧ SameDisplay t t' ∧ t.engine = t'.engine) ∧
    SameDisplay (renderEvent s) (renderEvent s') ∧ (renderEvent s).engine = (renderEvent s').engine

/-- O55 (R232, R256, R177). In every state that meets the invariants of the running core, with ENGINE = RUNNING, at
least one of the four channels and three sequencers has an enabled step: no stuck state is reachable. (That
under weak fairness each of them then steps infinitely often is O6.) -/
def Obligations.DeadlockFree : Prop :=
  ∀ s : State, CoreInv s → s.engine = .running → ∃ a, a ≠ .render ∧ enabled a s = true

/-- O56 (R183, R231). From every state that meets the invariants of the core, a step that goes on keeps the
invariant that the bytes A1 has read of the current pass are, modulo FRAME_SIZE, the bytes of the lines already
shifted plus those still in OSR and DQ, and that the clock pulses since the last latch are the columns shifted
of the current line. -/
def Obligations.StepKeepsStreamInv : Prop :=
  ∀ s t : State, CoreInv s → step s = .next t → StreamInv t

/-- O57 (R182, R220, R231). From every state that meets the invariants of the core, a step that goes on keeps the
invariant that the delay words B1 has read are, modulo ColorBits, those popped plus those in OQ, that OQ holds
consecutive delays of the table in order, and that the delay loaded for a hold is the one of the plane the row
sequencer is at. -/
def Obligations.StepKeepsDelayInv : Prop :=
  ∀ s t : State, CoreInv s → step s = .next t → DelayInv t

/-- O58 (R231, R224, R202, R214). In every state that meets the invariants of the core: when the row sequencer is
about to latch, exactly Width clock pulses lie on the trace since the last latch pulse and the data sequencer
awaits the next row; when a hold is about to begin, CNT is 2^p − 1 for the plane index p the row sequencer works
on. -/
def Obligations.LinesAndDelaysStayAligned : Prop :=
  ∀ s : State, CoreInv s →
    (s.rseq.state = .latch → clocksSinceLatch s.trace = s.par.width ∧ s.dseq.state = .awaitNextRow) ∧
    (s.oseq.state = .awaitTimingStart → s.flags.ts = true →
      s.rseq.planeIndex.toNat < s.par.colorBits ∧ s.oseq.cnt.toNat = 2 ^ s.rseq.planeIndex.toNat - 1)

/-- O59 (R183, R231, R224, R236). Under the panel observer of R236 (general knowledge, log entry 19): from every
state that meets the invariants of the core and in which h lists the bytes A1 has read since construction, in
order, so that OSR and DQ hold the last of them, the shift register the last Width shifted, the latch the line
latched last, and each line k latched so far has shed on each LED of row (k / ColorBits) mod ActiveRows, as far
as the bit of byte k·Width + x of h is 1, the ticks of its hold, 2^(k mod ColorBits) − 1 + HOLD_BIAS, or those
so far, and none on other rows, a step that goes on leads to such a state for h and the bytes an A1 transfer of
that step reads. -/
def Obligations.StepKeepsScanHistory : Prop :=
  ∀ (s t : State) (h : List Byte), CoreInv s → AddressShown s → ScanHistory s h → step s = .next t →
    ScanHistory t (h ++ bytesTaken (nextTurn s).1 s)

/-- O60 (R237, R236, R224, R231, R183, R98). Under the panel observer of R236 (general knowledge, log entry 19),
with h the bytes A1 has read. (1) If the lines of scan pass n have been shown to their end and the bytes
n·FRAME_SIZE .. of h are the frame of a buffer, then the light of each channel of each pixel over the pass is
the value that buffer stores for it, the sum of bit_b · 2^b, when HOLD_BIAS = 1, and the sum of bit_b · (2^b −
1) when HOLD_BIAS = 0. (2) While the engine runs the number of bytes read is, modulo FRAME_SIZE, what A1 has
read of its current pass, so pass n reads the bytes n·FRAME_SIZE .. of h. (3) While A1 is inside a pass over a
buffer whose bytes are the frame f before the step, a step that goes on leaves the bytes read in the pass the
first ones of f, or ends the pass with the whole of f read: so in a pass during which no byte of the scan buffer
is written, the bytes of (1) are that buffer. -/
def Obligations.LightOfAPass : Prop :=
  (∀ (s u : State) (h : List Byte) (base : Word) (n : Nat), ParamsLegal s.par → ScanHistory s h →
    (n + 1) * passLines s.par ≤ linesDone s → u.par = s.par →
    (∀ o < s.par.frameSize, h.getD (n * s.par.frameSize + o) 0 = u.byteAt (base.toNat + o)) →
    ∀ x < s.par.width, ∀ y < 2 * s.par.activeRows, ∀ c,
      (s.par.holdBias = 1 → lightOfPass s.par x y c n s.trace = storedChannel u base x y c) ∧
      (s.par.holdBias = 0 → lightOfPass s.par x y c n s.trace = unbiasedLight u base x y c)) ∧
  (∀ (s : State) (h : List Byte), CoreInv s → ScanHistory s h → s.engine = .running →
    h.length % s.par.frameSize = bytesRead s % s.par.frameSize) ∧
  ∀ (s t : State) (h : List Byte) (base : Word) (f : Nat → Byte) (k : Nat), CoreInv s → s.engine = .running →
    PassSoFar s h base f k → (∀ o < s.par.frameSize, s.byteAt (base.toNat + o) = f o) → step s = .next t →
    (∃ j, PassSoFar t (h ++ bytesTaken (nextTurn s).1 s) base f j) ∨ PassRead t (h ++ bytesTaken (nextTurn s).1 s) f
end

