-- ==== Sys2Proof/Laws/State.lean ====
section
/-! SUPPORT. One lemma per field for each named update of the state, so that no later proof unfolds an update. -/

namespace Sys2Proof.Machine

variable (s : State)

/-! ### emit -/

@[simp] theorem emit_par (es : List PinEvent) : (s.emit es).par = s.par := rfl
@[simp] theorem emit_cfg (es : List PinEvent) : (s.emit es).cfg = s.cfg := rfl
@[simp] theorem emit_lutR (es : List PinEvent) : (s.emit es).lutR = s.lutR := rfl
@[simp] theorem emit_lutG (es : List PinEvent) : (s.emit es).lutG = s.lutG := rfl
@[simp] theorem emit_lutB (es : List PinEvent) : (s.emit es).lutB = s.lutB := rfl
@[simp] theorem emit_active (es : List PinEvent) : (s.emit es).active = s.active := rfl
@[simp] theorem emit_mem (es : List PinEvent) : (s.emit es).mem = s.mem := rfl
@[simp] theorem emit_a1 (es : List PinEvent) : (s.emit es).a1 = s.a1 := rfl
@[simp] theorem emit_a2 (es : List PinEvent) : (s.emit es).a2 = s.a2 := rfl
@[simp] theorem emit_b1 (es : List PinEvent) : (s.emit es).b1 = s.b1 := rfl
@[simp] theorem emit_b2 (es : List PinEvent) : (s.emit es).b2 = s.b2 := rfl
@[simp] theorem emit_engine (es : List PinEvent) : (s.emit es).engine = s.engine := rfl
@[simp] theorem emit_dq (es : List PinEvent) : (s.emit es).dq = s.dq := rfl
@[simp] theorem emit_oq (es : List PinEvent) : (s.emit es).oq = s.oq := rfl
@[simp] theorem emit_dseq (es : List PinEvent) : (s.emit es).dseq = s.dseq := rfl
@[simp] theorem emit_rseq (es : List PinEvent) : (s.emit es).rseq = s.rseq := rfl
@[simp] theorem emit_oseq (es : List PinEvent) : (s.emit es).oseq = s.oseq := rfl
@[simp] theorem emit_flags (es : List PinEvent) : (s.emit es).flags = s.flags := rfl
@[simp] theorem emit_pins (es : List PinEvent) : (s.emit es).pins = s.pins := rfl
@[simp] theorem emit_render (es : List PinEvent) : (s.emit es).render = s.render := rfl
@[simp] theorem emit_trace (es : List PinEvent) : (s.emit es).trace = s.trace ++ es := rfl
@[simp] theorem emit_env (es : List PinEvent) : (s.emit es).env = s.env := rfl

/-! ### setByte -/

@[simp] theorem setByte_par (a : Nat) (b : Byte) : (s.setByte a b).par = s.par := rfl
@[simp] theorem setByte_cfg (a : Nat) (b : Byte) : (s.setByte a b).cfg = s.cfg := rfl
@[simp] theorem setByte_lutR (a : Nat) (b : Byte) : (s.setByte a b).lutR = s.lutR := rfl
@[simp] theorem setByte_lutG (a : Nat) (b : Byte) : (s.setByte a b).lutG = s.lutG := rfl
@[simp] theorem setByte_lutB (a : Nat) (b : Byte) : (s.setByte a b).lutB = s.lutB := rfl
@[simp] theorem setByte_active (a : Nat) (b : Byte) : (s.setByte a b).active = s.active := rfl
@[simp] theorem setByte_mem (a : Nat) (b : Byte) : (s.setByte a b).mem = memSet s.par s.mem a b := rfl
@[simp] theorem setByte_a1 (a : Nat) (b : Byte) : (s.setByte a b).a1 = s.a1 := rfl
@[simp] theorem setByte_a2 (a : Nat) (b : Byte) : (s.setByte a b).a2 = s.a2 := rfl
@[simp] theorem setByte_b1 (a : Nat) (b : Byte) : (s.setByte a b).b1 = s.b1 := rfl
@[simp] theorem setByte_b2 (a : Nat) (b : Byte) : (s.setByte a b).b2 = s.b2 := rfl
@[simp] theorem setByte_engine (a : Nat) (b : Byte) : (s.setByte a b).engine = s.engine := rfl
@[simp] theorem setByte_dq (a : Nat) (b : Byte) : (s.setByte a b).dq = s.dq := rfl
@[simp] theorem setByte_oq (a : Nat) (b : Byte) : (s.setByte a b).oq = s.oq := rfl
@[simp] theorem setByte_dseq (a : Nat) (b : Byte) : (s.setByte a b).dseq = s.dseq := rfl
@[simp] theorem setByte_rseq (a : Nat) (b : Byte) : (s.setByte a b).rseq = s.rseq := rfl
@[simp] theorem setByte_oseq (a : Nat) (b : Byte) : (s.setByte a b).oseq = s.oseq := rfl
@[simp] theorem setByte_flags (a : Nat) (b : Byte) : (s.setByte a b).flags = s.flags := rfl
@[simp] theorem setByte_pins (a : Nat) (b : Byte) : (s.setByte a b).pins = s.pins := rfl
@[simp] theorem setByte_render (a : Nat) (b : Byte) : (s.setByte a b).render = s.render := rfl
@[simp] theorem setByte_trace (a : Nat) (b : Byte) : (s.setByte a b).trace = s.trace := rfl
@[simp] theorem setByte_env (a : Nat) (b : Byte) : (s.setByte a b).env = s.env := rfl

/-! ### setWord -/

@[simp] theorem setWord_par (a : Nat) (v : Word) : (s.setWord a v).par = s.par := rfl
@[simp] theorem setWord_cfg (a : Nat) (v : Word) : (s.setWord a v).cfg = s.cfg := rfl
@[simp] theorem setWord_lutR (a : Nat) (v : Word) : (s.setWord a v).lutR = s.lutR := rfl
@[simp] theorem setWord_lutG (a : Nat) (v : Word) : (s.setWord a v).lutG = s.lutG := rfl
@[simp] theorem setWord_lutB (a : Nat) (v : Word) : (s.setWord a v).lutB = s.lutB := rfl
@[simp] theorem setWord_active (a : Nat) (v : Word) : (s.setWord a v).active = s.active := rfl
@[simp] theorem setWord_mem (a : Nat) (v : Word) : (s.setWord a v).mem = memStore s.par s.mem a 4 v.toNat := rfl
@[simp] theorem setWord_a1 (a : Nat) (v : Word) : (s.setWord a v).a1 = s.a1 := rfl
@[simp] theorem setWord_a2 (a : Nat) (v : Word) : (s.setWord a v).a2 = s.a2 := rfl
@[simp] theorem setWord_b1 (a : Nat) (v : Word) : (s.setWord a v).b1 = s.b1 := rfl
@[simp] theorem setWord_b2 (a : Nat) (v : Word) : (s.setWord a v).b2 = s.b2 := rfl
@[simp] theorem setWord_engine (a : Nat) (v : Word) : (s.setWord a v).engine = s.engine := rfl
@[simp] theorem setWord_dq (a : Nat) (v : Word) : (s.setWord a v).dq = s.dq := rfl
@[simp] theorem setWord_oq (a : Nat) (v : Word) : (s.setWord a v).oq = s.oq := rfl
@[simp] theorem setWord_dseq (a : Nat) (v : Word) : (s.setWord a v).dseq = s.dseq := rfl
@[simp] theorem setWord_rseq (a : Nat) (v : Word) : (s.setWord a v).rseq = s.rseq := rfl
@[simp] theorem setWord_oseq (a : Nat) (v : Word) : (s.setWord a v).oseq = s.oseq := rfl
@[simp] theorem setWord_flags (a : Nat) (v : Word) : (s.setWord a v).flags = s.flags := rfl
@[simp] theorem setWord_pins (a : Nat) (v : Word) : (s.setWord a v).pins = s.pins := rfl
@[simp] theorem setWord_render (a : Nat) (v : Word) : (s.setWord a v).render = s.render := rfl
@[simp] theorem setWord_trace (a : Nat) (v : Word) : (s.setWord a v).trace = s.trace := rfl
@[simp] theorem setWord_env (a : Nat) (v : Word) : (s.setWord a v).env = s.env := rfl

/-! ### setRdr -/

@[simp] theorem setRdr_par (v : Bool) : (s.setRdr v).par = s.par := rfl
@[simp] theorem setRdr_cfg (v : Bool) : (s.setRdr v).cfg = s.cfg := rfl
@[simp] theorem setRdr_lutR (v : Bool) : (s.setRdr v).lutR = s.lutR := rfl
@[simp] theorem setRdr_lutG (v : Bool) : (s.setRdr v).lutG = s.lutG := rfl
@[simp] theorem setRdr_lutB (v : Bool) : (s.setRdr v).lutB = s.lutB := rfl
@[simp] theorem setRdr_active (v : Bool) : (s.setRdr v).active = s.active := rfl
@[simp] theorem setRdr_mem (v : Bool) : (s.setRdr v).mem = s.mem := rfl
@[simp] theorem setRdr_a1 (v : Bool) : (s.setRdr v).a1 = s.a1 := rfl
@[simp] theorem setRdr_a2 (v : Bool) : (s.setRdr v).a2 = s.a2 := rfl
@[simp] theorem setRdr_b1 (v : Bool) : (s.setRdr v).b1 = s.b1 := rfl
@[simp] theorem setRdr_b2 (v : Bool) : (s.setRdr v).b2 = s.b2 := rfl
@[simp] theorem setRdr_engine (v : Bool) : (s.setRdr v).engine = s.engine := rfl
@[simp] theorem setRdr_dq (v : Bool) : (s.setRdr v).dq = s.dq := rfl
@[simp] theorem setRdr_oq (v : Bool) : (s.setRdr v).oq = s.oq := rfl
@[simp] theorem setRdr_dseq (v : Bool) : (s.setRdr v).dseq = s.dseq := rfl
@[simp] theorem setRdr_rseq (v : Bool) : (s.setRdr v).rseq = s.rseq := rfl
@[simp] theorem setRdr_oseq (v : Bool) : (s.setRdr v).oseq = s.oseq := rfl
@[simp] theorem setRdr_flags (v : Bool) : (s.setRdr v).flags = { s.flags with rdr := v } := rfl
@[simp] theorem setRdr_pins (v : Bool) : (s.setRdr v).pins = s.pins := rfl
@[simp] theorem setRdr_render (v : Bool) : (s.setRdr v).render = s.render := rfl
@[simp] theorem setRdr_trace (v : Bool) : (s.setRdr v).trace = s.trace := rfl
@[simp] theorem setRdr_env (v : Bool) : (s.setRdr v).env = s.env := rfl

/-! ### setRas -/

@[simp] theorem setRas_par (v : Bool) : (s.setRas v).par = s.par := rfl
@[simp] theorem setRas_cfg (v : Bool) : (s.setRas v).cfg = s.cfg := rfl
@[simp] theorem setRas_lutR (v : Bool) : (s.setRas v).lutR = s.lutR := rfl
@[simp] theorem setRas_lutG (v : Bool) : (s.setRas v).lutG = s.lutG := rfl
@[simp] theorem setRas_lutB (v : Bool) : (s.setRas v).lutB = s.lutB := rfl
@[simp] theorem setRas_active (v : Bool) : (s.setRas v).active = s.active := rfl
@[simp] theorem setRas_mem (v : Bool) : (s.setRas v).mem = s.mem := rfl
@[simp] theorem setRas_a1 (v : Bool) : (s.setRas v).a1 = s.a1 := rfl
@[simp] theorem setRas_a2 (v : Bool) : (s.setRas v).a2 = s.a2 := rfl
@[simp] theorem setRas_b1 (v : Bool) : (s.setRas v).b1 = s.b1 := rfl
@[simp] theorem setRas_b2 (v : Bool) : (s.setRas v).b2 = s.b2 := rfl
@[simp] theorem setRas_engine (v : Bool) : (s.setRas v).engine = s.engine := rfl
@[simp] theorem setRas_dq (v : Bool) : (s.setRas v).dq = s.dq := rfl
@[simp] theorem setRas_oq (v : Bool) : (s.setRas v).oq = s.oq := rfl
@[simp] theorem setRas_dseq (v : Bool) : (s.setRas v).dseq = s.dseq := rfl
@[simp] theorem setRas_rseq (v : Bool) : (s.setRas v).rseq = s.rseq := rfl
@[simp] theorem setRas_oseq (v : Bool) : (s.setRas v).oseq = s.oseq := rfl
@[simp] theorem setRas_flags (v : Bool) : (s.setRas v).flags = { s.flags with ras := v } := rfl
@[simp] theorem setRas_pins (v : Bool) : (s.setRas v).pins = s.pins := rfl
@[simp] theorem setRas_render (v : Bool) : (s.setRas v).render = s.render := rfl
@[simp] theorem setRas_trace (v : Bool) : (s.setRas v).trace = s.trace := rfl
@[simp] theorem setRas_env (v : Bool) : (s.setRas v).env = s.env := rfl

/-! ### setTs -/

@[simp] theorem setTs_par (v : Bool) : (s.setTs v).par = s.par := rfl
@[simp] theorem setTs_cfg (v : Bool) : (s.setTs v).cfg = s.cfg := rfl
@[simp] theorem setTs_lutR (v : Bool) : (s.setTs v).lutR = s.lutR := rfl
@[simp] theorem setTs_lutG (v : Bool) : (s.setTs v).lutG = s.lutG := rfl
@[simp] theorem setTs_lutB (v : Bool) : (s.setTs v).lutB = s.lutB := rfl
@[simp] theorem setTs_active (v : Bool) : (s.setTs v).active = s.active := rfl
@[simp] theorem setTs_mem (v : Bool) : (s.setTs v).mem = s.mem := rfl
@[simp] theorem setTs_a1 (v : Bool) : (s.setTs v).a1 = s.a1 := rfl
@[simp] theorem setTs_a2 (v : Bool) : (s.setTs v).a2 = s.a2 := rfl
@[simp] theorem setTs_b1 (v : Bool) : (s.setTs v).b1 = s.b1 := rfl
@[simp] theorem setTs_b2 (v : Bool) : (s.setTs v).b2 = s.b2 := rfl
@[simp] theorem setTs_engine (v : Bool) : (s.setTs v).engine = s.engine := rfl
@[simp] theorem setTs_dq (v : Bool) : (s.setTs v).dq = s.dq := rfl
@[simp] theorem setTs_oq (v : Bool) : (s.setTs v).oq = s.oq := rfl
@[simp] theorem setTs_dseq (v : Bool) : (s.setTs v).dseq = s.dseq := rfl
@[simp] theorem setTs_rseq (v : Bool) : (s.setTs v).rseq = s.rseq := rfl
@[simp] theorem setTs_oseq (v : Bool) : (s.setTs v).oseq = s.oseq := rfl
@[simp] theorem setTs_flags (v : Bool) : (s.setTs v).flags = { s.flags with ts := v } := rfl
@[simp] theorem setTs_pins (v : Bool) : (s.setTs v).pins = s.pins := rfl
@[simp] theorem setTs_render (v : Bool) : (s.setTs v).render = s.render := rfl
@[simp] theorem setTs_trace (v : Bool) : (s.setTs v).trace = s.trace := rfl
@[simp] theorem setTs_env (v : Bool) : (s.setTs v).env = s.env := rfl

/-! ### setTd -/

@[simp] theorem setTd_par (v : Bool) : (s.setTd v).par = s.par := rfl
@[simp] theorem setTd_cfg (v : Bool) : (s.setTd v).cfg = s.cfg := rfl
@[simp] theorem setTd_lutR (v : Bool) : (s.setTd v).lutR = s.lutR := rfl
@[simp] theorem setTd_lutG (v : Bool) : (s.setTd v).lutG = s.lutG := rfl
@[simp] theorem setTd_lutB (v : Bool) : (s.setTd v).lutB = s.lutB := rfl
@[simp] theorem setTd_active (v : Bool) : (s.setTd v).active = s.active := rfl
@[simp] theorem setTd_mem (v : Bool) : (s.setTd v).mem = s.mem := rfl
@[simp] theorem setTd_a1 (v : Bool) : (s.setTd v).a1 = s.a1 := rfl
@[simp] theorem setTd_a2 (v : Bool) : (s.setTd v).a2 = s.a2 := rfl
@[simp] theorem setTd_b1 (v : Bool) : (s.setTd v).b1 = s.b1 := rfl
@[simp] theorem setTd_b2 (v : Bool) : (s.setTd v).b2 = s.b2 := rfl
@[simp] theorem setTd_engine (v : Bool) : (s.setTd v).engine = s.engine := rfl
@[simp] theorem setTd_dq (v : Bool) : (s.setTd v).dq = s.dq := rfl
@[simp] theorem setTd_oq (v : Bool) : (s.setTd v).oq = s.oq := rfl
@[simp] theorem setTd_dseq (v : Bool) : (s.setTd v).dseq = s.dseq := rfl
@[simp] theorem setTd_rseq (v : Bool) : (s.setTd v).rseq = s.rseq := rfl
@[simp] theorem setTd_oseq (v : Bool) : (s.setTd v).oseq = s.oseq := rfl
@[simp] theorem setTd_flags (v : Bool) : (s.setTd v).flags = { s.flags with td := v } := rfl
@[simp] theorem setTd_pins (v : Bool) : (s.setTd v).pins = s.pins := rfl
@[simp] theorem setTd_render (v : Bool) : (s.setTd v).render = s.render := rfl
@[simp] theorem setTd_trace (v : Bool) : (s.setTd v).trace = s.trace := rfl
@[simp] theorem setTd_env (v : Bool) : (s.setTd v).env = s.env := rfl

/-! ### dGoto -/

@[simp] theorem dGoto_par (st : DState) : (s.dGoto st).par = s.par := rfl
@[simp] theorem dGoto_cfg (st : DState) : (s.dGoto st).cfg = s.cfg := rfl
@[simp] theorem dGoto_lutR (st : DState) : (s.dGoto st).lutR = s.lutR := rfl
@[simp] theorem dGoto_lutG (st : DState) : (s.dGoto st).lutG = s.lutG := rfl
@[simp] theorem dGoto_lutB (st : DState) : (s.dGoto st).lutB = s.lutB := rfl
@[simp] theorem dGoto_active (st : DState) : (s.dGoto st).active = s.active := rfl
@[simp] theorem dGoto_mem (st : DState) : (s.dGoto st).mem = s.mem := rfl
@[simp] theorem dGoto_a1 (st : DState) : (s.dGoto st).a1 = s.a1 := rfl
@[simp] theorem dGoto_a2 (st : DState) : (s.dGoto st).a2 = s.a2 := rfl
@[simp] theorem dGoto_b1 (st : DState) : (s.dGoto st).b1 = s.b1 := rfl
@[simp] theorem dGoto_b2 (st : DState) : (s.dGoto st).b2 = s.b2 := rfl
@[simp] theorem dGoto_engine (st : DState) : (s.dGoto st).engine = s.engine := rfl
@[simp] theorem dGoto_dq (st : DState) : (s.dGoto st).dq = s.dq := rfl
@[simp] theorem dGoto_oq (st : DState) : (s.dGoto st).oq = s.oq := rfl
@[simp] theorem dGoto_dseq (st : DState) : (s.dGoto st).dseq = { s.dseq with state := st } := rfl
@[simp] theorem dGoto_rseq (st : DState) : (s.dGoto st).rseq = s.rseq := rfl
@[simp] theorem dGoto_oseq (st : DState) : (s.dGoto st).oseq = s.oseq := rfl
@[simp] theorem dGoto_flags (st : DState) : (s.dGoto st).flags = s.flags := rfl
@[simp] theorem dGoto_pins (st : DState) : (s.dGoto st).pins = s.pins := rfl
@[simp] theorem dGoto_render (st : DState) : (s.dGoto st).render = s.render := rfl
@[simp] theorem dGoto_trace (st : DState) : (s.dGoto st).trace = s.trace := rfl
@[simp] theorem dGoto_env (st : DState) : (s.dGoto st).env = s.env := rfl

/-! ### rGoto -/

@[simp] theorem rGoto_par (st : RState) : (s.rGoto st).par = s.par := rfl
@[simp] theorem rGoto_cfg (st : RState) : (s.rGoto st).cfg = s.cfg := rfl
@[simp] theorem rGoto_lutR (st : RState) : (s.rGoto st).lutR = s.lutR := rfl
@[simp] theorem rGoto_lutG (st : RState) : (s.rGoto st).lutG = s.lutG := rfl
@[simp] theorem rGoto_lutB (st : RState) : (s.rGoto st).lutB = s.lutB := rfl
@[simp] theorem rGoto_active (st : RState) : (s.rGoto st).active = s.active := rfl
@[simp] theorem rGoto_mem (st : RState) : (s.rGoto st).mem = s.mem := rfl
@[simp] theorem rGoto_a1 (st : RState) : (s.rGoto st).a1 = s.a1 := rfl
@[simp] theorem rGoto_a2 (st : RState) : (s.rGoto st).a2 = s.a2 := rfl
@[simp] theorem rGoto_b1 (st : RState) : (s.rGoto st).b1 = s.b1 := rfl
@[simp] theorem rGoto_b2 (st : RState) : (s.rGoto st).b2 = s.b2 := rfl
@[simp] theorem rGoto_engine (st : RState) : (s.rGoto st).engine = s.engine := rfl
@[simp] theorem rGoto_dq (st : RState) : (s.rGoto st).dq = s.dq := rfl
@[simp] theorem rGoto_oq (st : RState) : (s.rGoto st).oq = s.oq := rfl
@[simp] theorem rGoto_dseq (st : RState) : (s.rGoto st).dseq = s.dseq := rfl
@[simp] theorem rGoto_rseq (st : RState) : (s.rGoto st).rseq = { s.rseq with state := st } := rfl
@[simp] theorem rGoto_oseq (st : RState) : (s.rGoto st).oseq = s.oseq := rfl
@[simp] theorem rGoto_flags (st : RState) : (s.rGoto st).flags = s.flags := rfl
@[simp] theorem rGoto_pins (st : RState) : (s.rGoto st).pins = s.pins := rfl
@[simp] theorem rGoto_render (st : RState) : (s.rGoto st).render = s.render := rfl
@[simp] theorem rGoto_trace (st : RState) : (s.rGoto st).trace = s.trace := rfl
@[simp] theorem rGoto_env (st : RState) : (s.rGoto st).env = s.env := rfl

/-! ### oGoto -/

@[simp] theorem oGoto_par (st : OState) : (s.oGoto st).par = s.par := rfl
@[simp] theorem oGoto_cfg (st : OState) : (s.oGoto st).cfg = s.cfg := rfl
@[simp] theorem oGoto_lutR (st : OState) : (s.oGoto st).lutR = s.lutR := rfl
@[simp] theorem oGoto_lutG (st : OState) : (s.oGoto st).lutG = s.lutG := rfl
@[simp] theorem oGoto_lutB (st : OState) : (s.oGoto st).lutB = s.lutB := rfl
@[simp] theorem oGoto_active (st : OState) : (s.oGoto st).active = s.active := rfl
@[simp] theorem oGoto_mem (st : OState) : (s.oGoto st).mem = s.mem := rfl
@[simp] theorem oGoto_a1 (st : OState) : (s.oGoto st).a1 = s.a1 := rfl
@[simp] theorem oGoto_a2 (st : OState) : (s.oGoto st).a2 = s.a2 := rfl
@[simp] theorem oGoto_b1 (st : OState) : (s.oGoto st).b1 = s.b1 := rfl
@[simp] theorem oGoto_b2 (st : OState) : (s.oGoto st).b2 = s.b2 := rfl
@[simp] theorem oGoto_engine (st : OState) : (s.oGoto st).engine = s.engine := rfl
@[simp] theorem oGoto_dq (st : OState) : (s.oGoto st).dq = s.dq := rfl
@[simp] theorem oGoto_oq (st : OState) : (s.oGoto st).oq = s.oq := rfl
@[simp] theorem oGoto_dseq (st : OState) : (s.oGoto st).dseq = s.dseq := rfl
@[simp] theorem oGoto_rseq (st : OState) : (s.oGoto st).rseq = s.rseq := rfl
@[simp] theorem oGoto_oseq (st : OState) : (s.oGoto st).oseq = { s.oseq with state := st } := rfl
@[simp] theorem oGoto_flags (st : OState) : (s.oGoto st).flags = s.flags := rfl
@[simp] theorem oGoto_pins (st : OState) : (s.oGoto st).pins = s.pins := rfl
@[simp] theorem oGoto_render (st : OState) : (s.oGoto st).render = s.render := rfl
@[simp] theorem oGoto_trace (st : OState) : (s.oGoto st).trace = s.trace := rfl
@[simp] theorem oGoto_env (st : OState) : (s.oGoto st).env = s.env := rfl

/-! ### countDown -/

@[simp] theorem countDown_par : (countDown s).par = s.par := rfl
@[simp] theorem countDown_cfg : (countDown s).cfg = s.cfg := rfl
@[simp] theorem countDown_lutR : (countDown s).lutR = s.lutR := rfl
@[simp] theorem countDown_lutG : (countDown s).lutG = s.lutG := rfl
@[simp] theorem countDown_lutB : (countDown s).lutB = s.lutB := rfl
@[simp] theorem countDown_active : (countDown s).active = s.active := rfl
@[simp] theorem countDown_mem : (countDown s).mem = s.mem := rfl
@[simp] theorem countDown_a1 : (countDown s).a1 = s.a1 := rfl
@[simp] theorem countDown_a2 : (countDown s).a2 = s.a2 := rfl
@[simp] theorem countDown_b1 : (countDown s).b1 = s.b1 := rfl
@[simp] theorem countDown_b2 : (countDown s).b2 = s.b2 := rfl
@[simp] theorem countDown_engine : (countDown s).engine = s.engine := rfl
@[simp] theorem countDown_dq : (countDown s).dq = s.dq := rfl
@[simp] theorem countDown_oq : (countDown s).oq = s.oq := rfl
@[simp] theorem countDown_dseq : (countDown s).dseq = s.dseq := rfl
@[simp] theorem countDown_rseq : (countDown s).rseq = s.rseq := rfl
@[simp] theorem countDown_oseq : (countDown s).oseq = { s.oseq with cnt := s.oseq.cnt - 1 } := rfl
@[simp] theorem countDown_flags : (countDown s).flags = s.flags := rfl
@[simp] theorem countDown_pins : (countDown s).pins = s.pins := rfl
@[simp] theorem countDown_render : (countDown s).render = s.render := rfl
@[simp] theorem countDown_trace : (countDown s).trace = s.trace := rfl
@[simp] theorem countDown_env : (countDown s).env = s.env := rfl

/-! ### completeCommand -/

@[simp] theorem completeCommand_par (r : Option Ret) : (completeCommand r s).par = s.par := rfl
@[simp] theorem completeCommand_cfg (r : Option Ret) : (completeCommand r s).cfg = s.cfg := rfl
@[simp] theorem completeCommand_lutR (r : Option Ret) : (completeCommand r s).lutR = s.lutR := rfl
@[simp] theorem completeCommand_lutG (r : Option Ret) : (completeCommand r s).lutG = s.lutG := rfl
@[simp] theorem completeCommand_lutB (r : Option Ret) : (completeCommand r s).lutB = s.lutB := rfl
@[simp] theorem completeCommand_active (r : Option Ret) : (completeCommand r s).active = s.active := rfl
@[simp] theorem completeCommand_mem (r : Option Ret) : (completeCommand r s).mem = s.mem := rfl
@[simp] theorem completeCommand_a1 (r : Option Ret) : (completeCommand r s).a1 = s.a1 := rfl
@[simp] theorem completeCommand_a2 (r : Option Ret) : (completeCommand r s).a2 = s.a2 := rfl
@[simp] theorem completeCommand_b1 (r : Option Ret) : (completeCommand r s).b1 = s.b1 := rfl
@[simp] theorem completeCommand_b2 (r : Option Ret) : (completeCommand r s).b2 = s.b2 := rfl
@[simp] theorem completeCommand_engine (r : Option Ret) : (completeCommand r s).engine = s.engine := rfl
@[simp] theorem completeCommand_dq (r : Option Ret) : (completeCommand r s).dq = s.dq := rfl
@[simp] theorem completeCommand_oq (r : Option Ret) : (completeCommand r s).oq = s.oq := rfl
@[simp] theorem completeCommand_dseq (r : Option Ret) : (completeCommand r s).dseq = s.dseq := rfl
@[simp] theorem completeCommand_rseq (r : Option Ret) : (completeCommand r s).rseq = s.rseq := rfl
@[simp] theorem completeCommand_oseq (r : Option Ret) : (completeCommand r s).oseq = s.oseq := rfl
@[simp] theorem completeCommand_flags (r : Option Ret) : (completeCommand r s).flags = s.flags := rfl
@[simp] theorem completeCommand_pins (r : Option Ret) : (completeCommand r s).pins = s.pins := rfl
@[simp] theorem completeCommand_render (r : Option Ret) : (completeCommand r s).render = { s.render with ret := r } := rfl
@[simp] theorem completeCommand_trace (r : Option Ret) : (completeCommand r s).trace = s.trace := rfl
@[simp] theorem completeCommand_env (r : Option Ret) : (completeCommand r s).env = s.env := rfl

/-! ### rebuildTables -/

@[simp] theorem rebuildTables_par : (rebuildTables s).par = s.par := rfl
@[simp] theorem rebuildTables_cfg : (rebuildTables s).cfg = s.cfg := rfl
@[simp] theorem rebuildTables_lutR : (rebuildTables s).lutR = rebuild5 s.par.gamma s.cfg := rfl
@[simp] theorem rebuildTables_lutG : (rebuildTables s).lutG = rebuild6 s.par.gamma s.cfg := rfl
@[simp] theorem rebuildTables_lutB : (rebuildTables s).lutB = rebuild5 s.par.gamma s.cfg := rfl
@[simp] theorem rebuildTables_active : (rebuildTables s).active = s.active := rfl
@[simp] theorem rebuildTables_mem : (rebuildTables s).mem = s.mem := rfl
@[simp] theorem rebuildTables_a1 : (rebuildTables s).a1 = s.a1 := rfl
@[simp] theorem rebuildTables_a2 : (rebuildTables s).a2 = s.a2 := rfl
@[simp] theorem rebuildTables_b1 : (rebuildTables s).b1 = s.b1 := rfl
@[simp] theorem rebuildTables_b2 : (rebuildTables s).b2 = s.b2 := rfl
@[simp] theorem rebuildTables_engine : (rebuildTables s).engine = s.engine := rfl
@[simp] theorem rebuildTables_dq : (rebuildTables s).dq = s.dq := rfl
@[simp] theorem rebuildTables_oq : (rebuildTables s).oq = s.oq := rfl
@[simp] theorem rebuildTables_dseq : (rebuildTables s).dseq = s.dseq := rfl
@[simp] theorem rebuildTables_rseq : (rebuildTables s).rseq = s.rseq := rfl
@[simp] theorem rebuildTables_oseq : (rebuildTables s).oseq = s.oseq := rfl
@[simp] theorem rebuildTables_flags : (rebuildTables s).flags = s.flags := rfl
@[simp] theorem rebuildTables_pins : (rebuildTables s).pins = s.pins := rfl
@[simp] theorem rebuildTables_render : (rebuildTables s).render = s.render := rfl
@[simp] theorem rebuildTables_trace : (rebuildTables s).trace = s.trace := rfl
@[simp] theorem rebuildTables_env : (rebuildTables s).env = s.env := rfl

/-! ### setChan -/

@[simp] theorem setChan_par (c : Chan) (r : ChanRegs) : (s.setChan c r).par = s.par := by cases c <;> rfl
@[simp] theorem setChan_cfg (c : Chan) (r : ChanRegs) : (s.setChan c r).cfg = s.cfg := by cases c <;> rfl
@[simp] theorem setChan_lutR (c : Chan) (r : ChanRegs) : (s.setChan c r).lutR = s.lutR := by cases c <;> rfl
@[simp] theorem setChan_lutG (c : Chan) (r : ChanRegs) : (s.setChan c r).lutG = s.lutG := by cases c <;> rfl
@[simp] theorem setChan_lutB (c : Chan) (r : ChanRegs) : (s.setChan c r).lutB = s.lutB := by cases c <;> rfl
@[simp] theorem setChan_active (c : Chan) (r : ChanRegs) : (s.setChan c r).active = s.active := by cases c <;> rfl
@[simp] theorem setChan_mem (c : Chan) (r : ChanRegs) : (s.setChan c r).mem = s.mem := by cases c <;> rfl
@[simp] theorem setChan_engine (c : Chan) (r : ChanRegs) : (s.setChan c r).engine = s.engine := by cases c <;> rfl
@[simp] theorem setChan_dq (c : Chan) (r : ChanRegs) : (s.setChan c r).dq = s.dq := by cases c <;> rfl
@[simp] theorem setChan_oq (c : Chan) (r : ChanRegs) : (s.setChan c r).oq = s.oq := by cases c <;> rfl
@[simp] theorem setChan_dseq (c : Chan) (r : ChanRegs) : (s.setChan c r).dseq = s.dseq := by cases c <;> rfl
@[simp] theorem setChan_rseq (c : Chan) (r : ChanRegs) : (s.setChan c r).rseq = s.rseq := by cases c <;> rfl
@[simp] theorem setChan_oseq (c : Chan) (r : ChanRegs) : (s.setChan c r).oseq = s.oseq := by cases c <;> rfl
@[simp] theorem setChan_flags (c : Chan) (r : ChanRegs) : (s.setChan c r).flags = s.flags := by cases c <;> rfl
@[simp] theorem setChan_pins (c : Chan) (r : ChanRegs) : (s.setChan c r).pins = s.pins := by cases c <;> rfl
@[simp] theorem setChan_render (c : Chan) (r : ChanRegs) : (s.setChan c r).render = s.render := by cases c <;> rfl
@[simp] theorem setChan_trace (c : Chan) (r : ChanRegs) : (s.setChan c r).trace = s.trace := by cases c <;> rfl
@[simp] theorem setChan_env (c : Chan) (r : ChanRegs) : (s.setChan c r).env = s.env := by cases c <;> rfl

@[simp] theorem setChan_chan_same (c : Chan) (r : ChanRegs) : (s.setChan c r).chan c = r := by cases c <;> rfl

theorem setChan_chan_other (c d : Chan) (r : ChanRegs) (h : c ≠ d) : (s.setChan c r).chan d = s.chan d := by
  cases c <;> cases d <;> first | rfl | exact absurd rfl h

@[simp] theorem chan_a1 : s.chan .a1 = s.a1 := rfl
@[simp] theorem setChan_a1_a1 (r : ChanRegs) : (s.setChan .a1 r).a1 = r := rfl
@[simp] theorem setChan_a1_a2 (r : ChanRegs) : (s.setChan .a1 r).a2 = s.a2 := rfl
@[simp] theorem setChan_a1_b1 (r : ChanRegs) : (s.setChan .a1 r).b1 = s.b1 := rfl
@[simp] theorem setChan_a1_b2 (r : ChanRegs) : (s.setChan .a1 r).b2 = s.b2 := rfl
@[simp] theorem chan_a2 : s.chan .a2 = s.a2 := rfl
@[simp] theorem setChan_a2_a1 (r : ChanRegs) : (s.setChan .a2 r).a1 = s.a1 := rfl
@[simp] theorem setChan_a2_a2 (r : ChanRegs) : (s.setChan .a2 r).a2 = r := rfl
@[simp] theorem setChan_a2_b1 (r : ChanRegs) : (s.setChan .a2 r).b1 = s.b1 := rfl
@[simp] theorem setChan_a2_b2 (r : ChanRegs) : (s.setChan .a2 r).b2 = s.b2 := rfl
@[simp] theorem chan_b1 : s.chan .b1 = s.b1 := rfl
@[simp] theorem setChan_b1_a1 (r : ChanRegs) : (s.setChan .b1 r).a1 = s.a1 := rfl
@[simp] theorem setChan_b1_a2 (r : ChanRegs) : (s.setChan .b1 r).a2 = s.a2 := rfl
@[simp] theorem setChan_b1_b1 (r : ChanRegs) : (s.setChan .b1 r).b1 = r := rfl
@[simp] theorem setChan_b1_b2 (r : ChanRegs) : (s.setChan .b1 r).b2 = s.b2 := rfl
@[simp] theorem chan_b2 : s.chan .b2 = s.b2 := rfl
@[simp] theorem setChan_b2_a1 (r : ChanRegs) : (s.setChan .b2 r).a1 = s.a1 := rfl
@[simp] theorem setChan_b2_a2 (r : ChanRegs) : (s.setChan .b2 r).a2 = s.a2 := rfl
@[simp] theorem setChan_b2_b1 (r : ChanRegs) : (s.setChan .b2 r).b1 = s.b1 := rfl
@[simp] theorem setChan_b2_b2 (r : ChanRegs) : (s.setChan .b2 r).b2 = r := rfl

/-! ### The environment -/

@[simp] theorem withTurn_env (t : Turn) : (withTurn s t).env = { s.env with turns := t :: s.env.turns } := rfl

end Sys2Proof.Machine
end

