-- ==== Sys2Proof/Laws/Memory.lean ====
section
/-! SUPPORT. Memory: reading what was written, writing nothing else, the canonical form, little-endian words. -/

namespace Sys2Proof.Machine

/-! ### Cells -/

theorem lookup_insert_same (m : Memory) (a : Nat) (b : Byte) : lookupCell (insertCell m a b) a = some b := by
  induction m with
  | nil => simp [insertCell, lookupCell]
  | cons c m ih =>
    simp only [insertCell]
    split
    · simp [lookupCell]
    · split
      · simp [lookupCell]
      · next h => simp [lookupCell, Ne.symm h, ih]

theorem lookup_insert_other (m : Memory) (a k : Nat) (b : Byte) (h : k ≠ a) :
    lookupCell (insertCell m a b) k = lookupCell m k := by
  induction m with
  | nil => simp [insertCell, lookupCell, Ne.symm h]
  | cons c m ih =>
    simp only [insertCell]
    split
    · simp [lookupCell, Ne.symm h]
    · split
      · next e => simp [lookupCell, ← e, Ne.symm h]
      · simp [lookupCell, ih]

theorem lookup_erase_same (m : Memory) (a : Nat) : lookupCell (eraseCell m a) a = none := by
  induction m with
  | nil => rfl
  | cons c m ih =>
    simp only [eraseCell]
    split
    · exact ih
    · next h => simp [lookupCell, h, ih]

theorem lookup_erase_other (m : Memory) (a k : Nat) (h : k ≠ a) : lookupCell (eraseCell m a) k = lookupCell m k := by
  induction m with
  | nil => rfl
  | cons c m ih =>
    simp only [eraseCell]
    split
    · next e => simp [lookupCell, e, Ne.symm h, ih]
    · simp [lookupCell, ih]

/-! ### Bytes -/

@[simp] theorem memByte_memSet_same (p : Params) (m : Memory) (a : Nat) (b : Byte) : memByte p (memSet p m a b) a = b := by
  unfold memByte memSet
  split
  · next h => simp [lookup_erase_same, h]
  · simp [lookup_insert_same]

theorem memByte_memSet_other (p : Params) (m : Memory) (a k : Nat) (b : Byte) (h : k ≠ a) :
    memByte p (memSet p m a b) k = memByte p m k := by
  unfold memByte memSet
  split
  · simp [lookup_erase_other _ _ _ h]
  · simp [lookup_insert_other _ _ _ _ h]

/-- A write changes one byte. -/
theorem memByte_memSet (p : Params) (m : Memory) (a k : Nat) (b : Byte) :
    memByte p (memSet p m a b) k = if k = a then b else memByte p m k := by
  split
  · next h => subst h; simp
  · next h => exact memByte_memSet_other p m a k b h

/-! ### The canonical form -/

theorem mem_eraseCell {m : Memory} {a : Nat} {c : Host.Cell} (h : c ∈ eraseCell m a) : c ∈ m := by
  induction m with
  | nil => simp [eraseCell] at h
  | cons d m ih =>
    simp only [eraseCell] at h
    split at h
    · exact List.mem_cons_of_mem _ (ih h)
    · rcases List.mem_cons.1 h with rfl | h
      · exact List.mem_cons_self
      · exact List.mem_cons_of_mem _ (ih h)

theorem mem_insertCell {m : Memory} {a : Nat} {b : Byte} {c : Host.Cell} (h : c ∈ insertCell m a b) :
    c = (a, b) ∨ c ∈ m := by
  induction m with
  | nil => simpa [insertCell] using h
  | cons d m ih =>
    simp only [insertCell] at h
    split at h
    · simpa using h
    · split at h
      · rcases List.mem_cons.1 h with h | h
        · exact .inl h
        · exact .inr (List.mem_cons_of_mem _ h)
      · rcases List.mem_cons.1 h with h | h
        · exact .inr (h ▸ List.mem_cons_self)
        · rcases ih h with h | h
          · exact .inl h
          · exact .inr (List.mem_cons_of_mem _ h)

theorem eraseCell_rising {m : Memory} (a : Nat) (h : m.Pairwise fun c d => c.1 < d.1) :
    (eraseCell m a).Pairwise fun c d => c.1 < d.1 := by
  induction m with
  | nil => simp [eraseCell]
  | cons c m ih =>
    rw [List.pairwise_cons] at h
    simp only [eraseCell]
    split
    · exact ih h.2
    · exact List.pairwise_cons.2 ⟨fun d hd => h.1 d (mem_eraseCell hd), ih h.2⟩

theorem insertCell_rising {m : Memory} (a : Nat) (b : Byte) (h : m.Pairwise fun c d => c.1 < d.1) :
    (insertCell m a b).Pairwise fun c d => c.1 < d.1 := by
  induction m with
  | nil => simp [insertCell]
  | cons c m ih =>
    have hc := List.pairwise_cons.1 h
    simp only [insertCell]
    split
    · next lt =>
      refine List.pairwise_cons.2 ⟨fun d hd => ?_, h⟩
      rcases List.mem_cons.1 hd with rfl | hd
      · exact lt
      · exact Nat.lt_trans lt (hc.1 d hd)
    · split
      · next e => exact List.pairwise_cons.2 ⟨fun d hd => by simpa [e] using hc.1 d hd, hc.2⟩
      · next nlt ne =>
        refine List.pairwise_cons.2 ⟨fun d hd => ?_, ih hc.2⟩
        rcases mem_insertCell hd with rfl | hd
        · have : c.1 < a := by omega
          exact this
        · exact hc.1 d hd

/-- A write keeps the canonical form. -/
theorem memSet_wf {p : Params} {m : Memory} (a : Nat) (b : Byte) (h : Memory.wf p m) : Memory.wf p (memSet p m a b) := by
  unfold memSet
  split
  · exact ⟨eraseCell_rising a h.1, fun c hc => h.2 c (mem_eraseCell hc)⟩
  · next hb =>
    refine ⟨insertCell_rising a b h.1, fun c hc => ?_⟩
    rcases mem_insertCell hc with rfl | hc
    · exact hb
    · exact h.2 c hc

theorem memStore_wf {p : Params} {m : Memory} (a n v : Nat) (h : Memory.wf p m) : Memory.wf p (memStore p m a n v) := by
  induction n generalizing m a v with
  | zero => exact h
  | succ n ih => exact ih _ _ (memSet_wf _ _ h)

theorem empty_wf (p : Params) : Memory.wf p [] := ⟨List.Pairwise.nil, fun _ h => absurd h List.not_mem_nil⟩

/-! ### Words -/

/-- A store of `n` bytes changes exactly those, little-endian. -/
theorem memByte_memStore (p : Params) (m : Memory) (a n v k : Nat) :
    memByte p (memStore p m a n v) k =
      if a ≤ k ∧ k < a + n then BitVec.ofNat 8 (v / 256 ^ (k - a)) else memByte p m k := by
  induction n generalizing m a v with
  | zero => simp [memStore]
  | succ n ih =>
    rw [memStore, ih]
    by_cases h1 : a + 1 ≤ k ∧ k < a + 1 + n
    · have h2 : a ≤ k ∧ k < a + (n + 1) := by omega
      have h3 : k - a = (k - (a + 1)) + 1 := by omega
      rw [if_pos h1, if_pos h2, h3, Nat.pow_succ, Nat.mul_comm, Nat.div_div_eq_div_mul]
    · rw [if_neg h1, memByte_memSet]
      by_cases h2 : k = a
      · subst h2
        have h3 : k ≤ k ∧ k < k + (n + 1) := by omega
        rw [if_pos rfl, if_pos h3]
        simp
      · have h3 : ¬(a ≤ k ∧ k < a + (n + 1)) := by omega
        rw [if_neg h2, if_neg h3]

theorem memNat_congr (p : Params) (m m' : Memory) (a n : Nat)
    (h : ∀ k, a ≤ k → k < a + n → memByte p m' k = memByte p m k) : memNat p m' a n = memNat p m a n := by
  induction n generalizing a with
  | zero => rfl
  | succ n ih =>
    rw [memNat, memNat, h a (Nat.le_refl a) (by omega), ih (a + 1) fun k hk hk' => h k (by omega) (by omega)]

theorem memNat_lt (p : Params) (m : Memory) (a n : Nat) : memNat p m a n < 256 ^ n := by
  induction n generalizing a with
  | zero => simp [memNat]
  | succ n ih =>
    have h1 := ih (a + 1)
    have h2 := (memByte p m a).isLt
    rw [memNat, Nat.pow_succ]
    omega

/-- The number read back from a store is the low `n` bytes of what was stored. -/
theorem memNat_memStore_same (p : Params) (m : Memory) (a n v : Nat) : memNat p (memStore p m a n v) a n = v % 256 ^ n := by
  induction n generalizing m a v with
  | zero => simp [memNat, Nat.mod_one]
  | succ n ih =>
    have h0 : memByte p (memStore p m a (n + 1) v) a = BitVec.ofNat 8 v := by
      rw [memByte_memStore, if_pos ⟨Nat.le_refl a, by omega⟩]
      simp
    rw [memNat, h0, memStore, ih, Nat.pow_succ, Nat.mul_comm (256 ^ n) 256, Nat.mod_mul]
    simp

/-! ### Through the state -/

@[simp] theorem byteAt_setByte (s : State) (a k : Nat) (b : Byte) :
    (s.setByte a b).byteAt k = if k = a then b else s.byteAt k := memByte_memSet _ _ _ _ _

theorem byteAt_setWord (s : State) (a k : Nat) (v : Word) :
    (s.setWord a v).byteAt k =
      if a ≤ k ∧ k < a + 4 then BitVec.ofNat 8 (v.toNat / 256 ^ (k - a)) else s.byteAt k :=
  memByte_memStore _ _ _ _ _ _

theorem byteAt_setWord_outside (s : State) (a k : Nat) (v : Word) (h : k < a ∨ a + 4 ≤ k) :
    (s.setWord a v).byteAt k = s.byteAt k := by
  rw [byteAt_setWord, if_neg (by omega)]

@[simp] theorem wordAt_setWord_same (s : State) (a : Nat) (v : Word) : (s.setWord a v).wordAt a = v := by
  have h := memNat_memStore_same s.par s.mem a 4 v.toNat
  have hv : v.toNat % 256 ^ 4 = v.toNat := Nat.mod_eq_of_lt v.isLt
  simp only [State.wordAt, setWord_par, setWord_mem, h, hv]
  simp

theorem wordAt_congr (s t : State) (a : Nat) (hp : t.par = s.par)
    (h : ∀ k, a ≤ k → k < a + 4 → t.byteAt k = s.byteAt k) : t.wordAt a = s.wordAt a := by
  unfold State.wordAt
  rw [hp, memNat_congr s.par s.mem t.mem a 4]
  intro k h1 h2
  have := h k h1 h2
  simpa [State.byteAt, hp] using this

theorem wordAt_setWord_outside (s : State) (a k : Nat) (v : Word) (h : k + 4 ≤ a ∨ a + 4 ≤ k) :
    (s.setWord a v).wordAt k = s.wordAt k :=
  wordAt_congr _ _ _ rfl fun j h1 h2 => byteAt_setWord_outside _ _ _ _ (by omega)

theorem wordAt_setByte_outside (s : State) (a k : Nat) (b : Byte) (h : a < k ∨ k + 4 ≤ a) :
    (s.setByte a b).wordAt k = s.wordAt k :=
  wordAt_congr _ _ _ rfl fun j h1 h2 => by rw [byteAt_setByte, if_neg (by omega)]

theorem setByte_wf {s : State} (a : Nat) (b : Byte) (h : Memory.wf s.par s.mem) :
    Memory.wf (s.setByte a b).par (s.setByte a b).mem := memSet_wf _ _ h

theorem setWord_wf {s : State} (a : Nat) (v : Word) (h : Memory.wf s.par s.mem) :
    Memory.wf (s.setWord a v).par (s.setWord a v).mem := memStore_wf _ _ _ h

/-! ### Words by their bytes -/

/-- Byte `j` of a little-endian word. -/
theorem memNat_byte (p : Params) (m : Memory) (a n j : Nat) (h : j < n) :
    memNat p m a n / 256 ^ j % 256 = (memByte p m (a + j)).toNat := by
  induction n generalizing a j with
  | zero => omega
  | succ n ih =>
    have hb := (memByte p m a).isLt
    cases j with
    | zero => simp only [memNat, Nat.pow_zero, Nat.div_one, Nat.add_zero]; omega
    | succ j =>
      rw [memNat, Nat.pow_succ', ← Nat.div_div_eq_div_mul]
      have : ((memByte p m a).toNat + 256 * memNat p m (a + 1) n) / 256 = memNat p m (a + 1) n := by omega
      rw [this, ih (a + 1) j (by omega)]
      congr 2; omega

/-- A read of up to 4 bytes is the little-endian word of those bytes (20_memory R60). -/
theorem memNat_wordOf (s : State) (a : Nat) {n : Nat} (h : n ≤ 4) : WordOf s a n (BitVec.ofNat 32 (memNat s.par s.mem a n)) := by
  have h1 := memNat_lt s.par s.mem a n
  have h2 : 256 ^ n ≤ 2 ^ 32 := Nat.le_trans (Nat.pow_le_pow_right (by decide) h) (by decide)
  have h3 : (BitVec.ofNat 32 (memNat s.par s.mem a n)).toNat = memNat s.par s.mem a n := by
    rw [BitVec.toNat_ofNat]; exact Nat.mod_eq_of_lt (by omega)
  refine ⟨by rw [h3]; exact h1, fun j hj => ?_⟩
  refine BitVec.eq_of_toNat_eq ?_
  rw [BitVec.extractLsb'_toNat, h3, Nat.shiftRight_eq_div_pow, Nat.pow_mul]
  exact memNat_byte _ _ _ _ _ hj

end Sys2Proof.Machine
end

