-- ==== Sys2Proof/Laws/Map.lean ====
section
/-! SUPPORT. The address map of a legal parameter set: which object holds an access, and how far apart objects are. -/

namespace Sys2Proof.Machine

/-- Two disjoint regions do not both hold a non-empty access. -/
theorem not_both_hold {r q : Region} {a n : Nat} (hn : 1 ≤ n) (h : r.disjoint q = true) (hr : r.holds a n = true)
    (hq : q.holds a n = true) : False := by
  simp only [Region.disjoint, Region.holds, Bool.or_eq_true, Bool.and_eq_true, decide_eq_true_eq] at h hr hq
  omega

theorem find_holds {l : List Region} (hp : l.Pairwise fun r q => r.disjoint q = true) {r : Region} (hr : r ∈ l)
    {a n : Nat} (hn : 1 ≤ n) (hh : r.holds a n = true) : l.find? (fun q => q.holds a n) = some r := by
  induction l with
  | nil => exact absurd hr List.not_mem_nil
  | cons q l ih =>
    have hq := List.pairwise_cons.1 hp
    rcases List.mem_cons.1 hr with rfl | hr
    · simp [hh]
    · cases e : q.holds a n with
      | true => exact (not_both_hold hn (hq.1 r hr) e hh).elim
      | false => simp [e, ih hq.2 hr]

/-- In a legal map the object that holds an access is the one `objAt` finds. -/
theorem objAt_of_holds {p : Params} (hm : MapLegal p) {r : Region} (hr : r ∈ regions p) {a n : Nat} (hn : 1 ≤ n)
    (hh : r.holds a n = true) : objAt p a n = some r.obj := by
  simp [objAt, find_holds hm.1 hr hn hh]

/-- What `objAt` finds holds the access. -/
theorem holds_of_objAt {p : Params} {a n : Nat} {o : Obj} (h : objAt p a n = some o) :
    ∃ r ∈ regions p, r.obj = o ∧ r.holds a n = true := by
  simp only [objAt, Option.map_eq_some_iff] at h
  obtain ⟨r, hr, ho⟩ := h
  exact ⟨r, List.mem_of_find?_eq_some hr, ho, by simpa using List.find?_some hr⟩

/-- The places of the objects as numbers: no object holds address 0 or wraps, and no two meet (20_memory R66). -/
theorem map_facts {p : Params} (hm : MapLegal p) :
    (1 ≤ p.fb0Base.toNat ∧ p.fb0Base.toNat + p.frameSize ≤ 2 ^ 32) ∧
    (1 ≤ p.fb1Base.toNat ∧ p.fb1Base.toNat + p.frameSize ≤ 2 ^ 32) ∧
    (1 ≤ p.delaysBase.toNat ∧ p.delaysBase.toNat + 4 * p.colorBits ≤ 2 ^ 32) ∧
    (1 ≤ p.fbPtrAddr.toNat ∧ p.fbPtrAddr.toNat + 4 ≤ 2 ^ 32) ∧
    (1 ≤ p.delayPtrAddr.toNat ∧ p.delayPtrAddr.toNat + 4 ≤ 2 ^ 32) ∧
    (1 ≤ p.dmaBase.toNat ∧ p.dmaBase.toNat + 64 ≤ 2 ^ 32) ∧
    (1 ≤ p.dataTxf.toNat ∧ p.dataTxf.toNat + 4 ≤ 2 ^ 32) ∧
    (1 ≤ p.oeTxf.toNat ∧ p.oeTxf.toNat + 4 ≤ 2 ^ 32) := by
  have h := hm.2.1
  simp only [regions, List.forall_mem_cons] at h
  simpa using h

/-- The memory objects a render command writes do not meet each other or the delay table (20_memory R66). -/
theorem map_apart {p : Params} (hm : MapLegal p) :
    (p.fb0Base.toNat + p.frameSize ≤ p.fb1Base.toNat ∨ p.fb1Base.toNat + p.frameSize ≤ p.fb0Base.toNat) ∧
    (p.fb0Base.toNat + p.frameSize ≤ p.delaysBase.toNat ∨ p.delaysBase.toNat + 4 * p.colorBits ≤ p.fb0Base.toNat) ∧
    (p.fb0Base.toNat + p.frameSize ≤ p.fbPtrAddr.toNat ∨ p.fbPtrAddr.toNat + 4 ≤ p.fb0Base.toNat) ∧
    (p.fb0Base.toNat + p.frameSize ≤ p.delayPtrAddr.toNat ∨ p.delayPtrAddr.toNat + 4 ≤ p.fb0Base.toNat) ∧
    (p.fb1Base.toNat + p.frameSize ≤ p.delaysBase.toNat ∨ p.delaysBase.toNat + 4 * p.colorBits ≤ p.fb1Base.toNat) ∧
    (p.fb1Base.toNat + p.frameSize ≤ p.fbPtrAddr.toNat ∨ p.fbPtrAddr.toNat + 4 ≤ p.fb1Base.toNat) ∧
    (p.fb1Base.toNat + p.frameSize ≤ p.delayPtrAddr.toNat ∨ p.delayPtrAddr.toNat + 4 ≤ p.fb1Base.toNat) ∧
    (p.delaysBase.toNat + 4 * p.colorBits ≤ p.fbPtrAddr.toNat ∨ p.fbPtrAddr.toNat + 4 ≤ p.delaysBase.toNat) ∧
    (p.delaysBase.toNat + 4 * p.colorBits ≤ p.delayPtrAddr.toNat ∨ p.delayPtrAddr.toNat + 4 ≤ p.delaysBase.toNat) ∧
    (p.fbPtrAddr.toNat + 4 ≤ p.delayPtrAddr.toNat ∨ p.delayPtrAddr.toNat + 4 ≤ p.fbPtrAddr.toNat) := by
  have h := hm.1
  simp only [regions, List.pairwise_cons, List.forall_mem_cons, Region.disjoint, Bool.or_eq_true, decide_eq_true_eq] at h
  obtain ⟨⟨h1, h2, h3, h4, -⟩, ⟨h5, h6, h7, -⟩, ⟨h8, h9, -⟩, ⟨h10, -⟩, -⟩ := h
  exact ⟨h1, h2, h3, h4, h5, h6, h7, h8, h9, h10⟩

/-- An offset of a legal pixel is inside the framebuffer (41_display_memory R146 (d)). -/
theorem offset_bound {ar cb w x r b : Nat} (hx : x < w) (hr : r < ar) (hb : b < cb) :
    x + r * w * cb + b * w < ar * cb * w := by
  have h1 : r * w * cb + w * cb ≤ ar * cb * w := by
    have : (r + 1) * (w * cb) ≤ ar * (w * cb) := Nat.mul_le_mul_right _ hr
    nlinarith
  have h2 : x + b * w < w * cb := by
    have : (b + 1) * w ≤ cb * w := Nat.mul_le_mul_right _ hb
    nlinarith
  omega

/-- The bases of the two framebuffers differ and are not null (20_memory R66). -/
theorem bases_ne {p : Params} (hm : MapLegal p) (hf : 1 ≤ p.frameSize) :
    p.fb0Base ≠ p.fb1Base ∧ p.fb0Base ≠ nullPtr ∧ p.fb1Base ≠ nullPtr ∧ p.delaysBase ≠ nullPtr := by
  have h1 := map_facts hm
  have h2 := (map_apart hm).1
  refine ⟨fun e => ?_, fun e => ?_, fun e => ?_, fun e => ?_⟩
  · rw [e] at h2; omega
  · rw [e] at h1; simp [nullPtr] at h1
  · rw [e] at h1; simp [nullPtr] at h1
  · rw [e] at h1; simp [nullPtr] at h1

/-- A legal frame is not empty. -/
theorem frameSize_pos {p : Params} (h : ParamsLegal p) : 1 ≤ p.frameSize := by
  have h1 := h.1
  have h2 := h.2.1.1
  have h3 := h.2.2.1.1
  exact Nat.mul_pos (Nat.mul_pos h2 h3) h1

theorem mapLegal_of_legal {p : Params} (h : ParamsLegal p) : MapLegal p := h.2.2.2.2.2.2.2.2.2.2.2

theorem gammaLegal_of_legal {p : Params} (h : ParamsLegal p) : GammaLegal p.gamma := h.2.2.2.2.2.2.2.2.2.1

theorem transferSize_of_legal {p : Params} (h : ParamsLegal p) : p.wA = 1 ∨ p.wA = 2 ∨ p.wA = 4 := h.2.2.2.1

end Sys2Proof.Machine
end

