-- ==== Sys2Proof/Laws/Bus.lean ====
section
/-! SUPPORT. The channel step: what it can do, said once for each shared operation. -/

namespace Sys2Proof.Machine

/-! ### The programmed control words (30_encoding R97) -/

@[simp] theorem ctrlBytes_words :
    ctrlBytes ctrlA1W4 = 4 ∧ ctrlBytes ctrlA1W2 = 2 ∧ ctrlBytes ctrlA1W1 = 1 ∧ ctrlBytes ctrlA2 = 4 ∧
    ctrlBytes ctrlB1 = 4 ∧ ctrlBytes ctrlB2 = 4 := by decide

@[simp] theorem ctrlReserved_words :
    ctrlReserved ctrlA1W4 = false ∧ ctrlReserved ctrlA1W2 = false ∧ ctrlReserved ctrlA1W1 = false ∧
    ctrlReserved ctrlA2 = false ∧ ctrlReserved ctrlB1 = false ∧ ctrlReserved ctrlB2 = false := by decide

@[simp] theorem ctrlIncr_words :
    ctrlIncrRead ctrlA1W4 = true ∧ ctrlIncrRead ctrlA1W2 = true ∧ ctrlIncrRead ctrlA1W1 = true ∧
    ctrlIncrRead ctrlA2 = false ∧ ctrlIncrRead ctrlB1 = true ∧ ctrlIncrRead ctrlB2 = false ∧
    ctrlIncrWrite ctrlA1W4 = false ∧ ctrlIncrWrite ctrlA1W2 = false ∧ ctrlIncrWrite ctrlA1W1 = false ∧
    ctrlIncrWrite ctrlA2 = false ∧ ctrlIncrWrite ctrlB1 = false ∧ ctrlIncrWrite ctrlB2 = false := by decide

@[simp] theorem ctrlChain_words :
    ctrlChainTo ctrlA1W4 = .a2 ∧ ctrlChainTo ctrlA1W2 = .a2 ∧ ctrlChainTo ctrlA1W1 = .a2 ∧ ctrlChainTo ctrlA2 = .a1 ∧
    ctrlChainTo ctrlB1 = .b2 ∧ ctrlChainTo ctrlB2 = .b1 := by decide

@[simp] theorem ctrlEn_words :
    ctrlEn ctrlA1W4 = true ∧ ctrlEn ctrlA1W2 = true ∧ ctrlEn ctrlA1W1 = true ∧ ctrlEn ctrlA2 = true ∧
    ctrlEn ctrlB1 = true ∧ ctrlEn ctrlB2 = true := by decide

@[simp] theorem paced_words (s : State) :
    paced s ctrlA1W4 = s.dqHasRoom ∧ paced s ctrlA1W2 = s.dqHasRoom ∧ paced s ctrlA1W1 = s.dqHasRoom ∧
    paced s ctrlA2 = true ∧ paced s ctrlB1 = s.oqHasRoom ∧ paced s ctrlB2 = true := ⟨rfl, rfl, rfl, rfl, rfl, rfl⟩

/-- The transfer size of A1's control word is `W_A`. -/
theorem ctrlBytes_ctrlA1 {p : Params} (h : ParamsLegal p) : ctrlBytes (ctrlA1 p) = p.wA := by
  unfold ctrlA1
  rcases transferSize_of_legal h with h | h | h <;> simp [h]

/-- A1's control word is one of three. -/
theorem ctrlA1_cases (p : Params) : ctrlA1 p = ctrlA1W4 ∨ ctrlA1 p = ctrlA1W2 ∨ ctrlA1 p = ctrlA1W1 := by
  unfold ctrlA1
  split
  · exact .inl rfl
  · split
    · exact .inr (.inl rfl)
    · exact .inr (.inr rfl)

/-! ### Results -/

theorem andThen_next {r : Result} {f : State → Result} {t : State} (h : andThen r f = .next t) :
    ∃ s, r = .next s ∧ f s = .next t := by
  cases r with
  | next s => exact ⟨s, rfl, h⟩
  | fault e => exact absurd h (by simp [andThen])
  | refused e => exact absurd h (by simp [andThen])

/-! ### Accesses -/

/-- A channel read that succeeds returns the `n` bytes at the address. -/
theorem busRead_some {s : State} {a : Word} {n : Nat} {v : Word} (h : busRead s a n = some v) :
    v = BitVec.ofNat 32 (memNat s.par s.mem a.toNat n) := by
  unfold busRead at h
  split at h
  · split at h
    · split at h
      · exact (Option.some.inj h).symm
      · cases h
    · cases h
  · cases h

/-- An aligned read inside a memory object of a legal map succeeds (20_memory R61). -/
theorem busRead_inside {s : State} (hm : MapLegal s.par) {r : Region} (hr : r ∈ regions s.par) {a : Word} {n : Nat}
    (hn : 1 ≤ n) (hal : a.toNat % n = 0) (hh : r.holds a.toNat n = true) (hmem : r.obj.isMemory = true) :
    busRead s a n = some (BitVec.ofNat 32 (memNat s.par s.mem a.toNat n)) := by
  simp [busRead, hal, objAt_of_holds hm hr hn hh, hmem]

/-- What a channel write that succeeds has done: one push, or one register of one channel. -/
theorem busWrite_next {s t : State} {a : Word} {n : Nat} {v : Word} (h : busWrite s a n v = .next t) :
    (t = { s with dq := s.dq ++ [v] } ∧ s.dq.length < s.par.qdData ∧ n = s.par.wA) ∨
    (t = { s with oq := s.oq ++ [v] } ∧ s.oq.length < s.par.qdOe ∧ n = 4) ∨
    ∃ c r, t = s.setChan c r ∧ r.busy = (s.chan c).busy ∧ r.remain = (s.chan c).remain := by
  unfold busWrite at h
  split at h
  · split at h
    · unfold writeChanReg at h
      dsimp only at h
      split at h
      · exact .inr (.inr ⟨_, _, (Host.Outcome.next.inj h).symm, rfl, rfl⟩)
      · exact .inr (.inr ⟨_, _, (Host.Outcome.next.inj h).symm, rfl, rfl⟩)
      · exact .inr (.inr ⟨_, _, (Host.Outcome.next.inj h).symm, rfl, rfl⟩)
      · split at h
        · cases h
        · exact .inr (.inr ⟨_, _, (Host.Outcome.next.inj h).symm, rfl, rfl⟩)
      · cases h
    · split at h
      · cases h
      · next hn =>
        split at h
        · unfold pushDq at h
          split at h
          · next hl => exact .inl ⟨(Host.Outcome.next.inj h).symm, hl, by simpa using hn⟩
          · cases h
        · cases h
    · split at h
      · cases h
      · next hn =>
        split at h
        · unfold pushOq at h
          split at h
          · next hl => exact .inr (.inl ⟨(Host.Outcome.next.inj h).symm, hl, by simpa using hn⟩)
          · cases h
        · cases h
    all_goals cases h
  · cases h

/-! ### The channel step (42_transfer_engine R171) -/

/-- What a channel step that succeeds has done: nothing, or one read, one write, and the bookkeeping. -/
theorem transfer_next {c : Chan} {w : BitVec 16} {s t : State} (h : transfer c w s = .next t) :
    t = s ∨
    ((s.chan c).busy = true ∧ ctrlReserved w = false ∧ paced s w = true ∧
      ∃ u, busWrite s (s.chan c).writeAddr (ctrlBytes w)
          (BitVec.ofNat 32 (memNat s.par s.mem (s.chan c).readAddr.toNat (ctrlBytes w))) = .next u ∧
        t = retire c w u) := by
  unfold transfer at h
  split at h
  · next hb =>
    split at h
    · cases h
    · next hr =>
      split at h
      · next hp =>
        split at h
        · cases h
        · next v hv =>
          obtain ⟨u, hu, ht⟩ := andThen_next h
          rw [busRead_some hv] at hu
          exact .inr ⟨hb, by simpa using hr, hp, u, hu, (Host.Outcome.next.inj ht).symm⟩
      · exact .inl (Host.Outcome.next.inj h).symm
  · exact .inl (Host.Outcome.next.inj h).symm

/-- The bookkeeping touches channel registers only. -/
theorem retire_frame (c : Chan) (w : BitVec 16) (s : State) :
    ∃ x1 x2 y1 y2, retire c w s = { s with a1 := x1, a2 := x2, b1 := y1, b2 := y2 } := by
  have hset : ∀ (s : State) (d : Chan) (r : ChanRegs),
      ∃ x1 x2 y1 y2, s.setChan d r = { s with a1 := x1, a2 := x2, b1 := y1, b2 := y2 } := by
    intro s d r
    cases d
    · exact ⟨r, s.a2, s.b1, s.b2, rfl⟩
    · exact ⟨s.a1, r, s.b1, s.b2, rfl⟩
    · exact ⟨s.a1, s.a2, r, s.b2, rfl⟩
    · exact ⟨s.a1, s.a2, s.b1, r, rfl⟩
  unfold retire trigger
  dsimp only
  split
  · split
    · obtain ⟨x1, x2, y1, y2, h⟩ := hset s c { (s.chan c).advance w (ctrlBytes w) with
        remain := ((s.chan c).advance w (ctrlBytes w)).transCount, busy := false }
      rw [h]
      obtain ⟨z1, z2, w1, w2, h'⟩ := hset { s with a1 := x1, a2 := x2, b1 := y1, b2 := y2 } (ctrlChainTo w)
        { State.chan { s with a1 := x1, a2 := x2, b1 := y1, b2 := y2 } (ctrlChainTo w) with busy := true }
      exact ⟨z1, z2, w1, w2, h'⟩
    · exact hset _ _ _
  · exact hset _ _ _

/-- A channel step touches channel registers and the two queues only (20_memory R67, 42_transfer_engine R170). -/
theorem transfer_frame {c : Chan} {w : BitVec 16} {s t : State} (h : transfer c w s = .next t) :
    ∃ x1 x2 y1 y2 q1 q2, t = { s with a1 := x1, a2 := x2, b1 := y1, b2 := y2, dq := q1, oq := q2 } := by
  rcases transfer_next h with rfl | ⟨-, -, -, u, hu, rfl⟩
  · exact ⟨t.a1, t.a2, t.b1, t.b2, t.dq, t.oq, rfl⟩
  · obtain ⟨x1, x2, y1, y2, hr⟩ := retire_frame c w u
    rw [hr]
    rcases busWrite_next hu with ⟨rfl, -⟩ | ⟨rfl, -⟩ | ⟨d, r, rfl, -⟩
    · exact ⟨x1, x2, y1, y2, _, _, rfl⟩
    · exact ⟨x1, x2, y1, y2, _, _, rfl⟩
    · refine ⟨x1, x2, y1, y2, s.dq, s.oq, ?_⟩
      cases d <;> rfl

/-- Whatever its control word, the step of a channel is the one step of 42_transfer_engine R171 under that word. -/
theorem channelStep_eq (c : Chan) (s : State) : channelStep c s = transfer c (s.chan c).ctrl s := by
  unfold channelStep chanInstr decodeCtrl
  split
  · next i hi =>
    split at hi
    · next j hj =>
      split at hi
      · next hc =>
        cases hi
        split at hj
        · next hw => cases hj; cases hc; rw [hw]; rfl
        · split at hj
          · next hw => cases hj; cases hc; rw [hw]; rfl
          · split at hj
            · next hw => cases hj; cases hc; rw [hw]; rfl
            · split at hj
              · next hw => cases hj; cases hc; rw [hw]; rfl
              · split at hj
                · next hw => cases hj; cases hc; rw [hw]; rfl
                · split at hj
                  · next hw => cases hj; cases hc; rw [hw]; rfl
                  · split at hj <;> cases hj
      · cases hi
    · cases hi
  · rfl

end Sys2Proof.Machine
end

