-- ==== Sys2Proof/Laws/Render.lean ====
section
/-! SUPPORT. The render port: what a memory event can change, what a command can do, and that the events of a command
do not depend on which command they belong to. -/

namespace Sys2Proof.Machine

/-! ### Memory events -/

@[simp] theorem perform_par (e : MemEvent) (s : State) : (perform e s).par = s.par := by cases e <;> rfl

@[simp] theorem perform_inFlight (e : MemEvent) (s : State) : (perform e s).render.inFlight = s.render.inFlight := by
  cases e <;> rfl

/-- An event that is not ENGINE_SETUP's touches memory and the render port only. -/
theorem perform_frame {e : MemEvent} {s : State} (ha : e ≠ .setupPairA) (hb : e ≠ .setupPairB) :
    ∃ m r, perform e s = { s with mem := m, render := r } := by
  cases e with
  | setupPairA => exact absurd rfl ha
  | setupPairB => exact absurd rfl hb
  | selectDraw => exact ⟨_, _, rfl⟩
  | readDraw o => exact ⟨_, _, rfl⟩
  | orDraw o bits => exact ⟨_, _, rfl⟩
  | zeroDraw o => exact ⟨_, _, rfl⟩
  | storePtr a v => exact ⟨_, _, rfl⟩
  | returnPtr a => exact ⟨_, _, rfl⟩

/-- No event moves a sequencer, a queue, a flag or a pin, or writes the trace (10_state R52, 60_exceptions R260). -/
theorem perform_engine (e : MemEvent) (s : State) :
    (perform e s).dseq = s.dseq ∧ (perform e s).oseq = s.oseq ∧ (perform e s).flags = s.flags ∧
    (perform e s).pins = s.pins ∧ (perform e s).dq = s.dq ∧ (perform e s).oq = s.oq ∧ (perform e s).trace = s.trace ∧
    (perform e s).env = s.env := by
  cases e <;> exact ⟨rfl, rfl, rfl, rfl, rfl, rfl, rfl, rfl⟩

/-- No event writes `CFG`, the tables or `ACTIVE` (20_memory R72). -/
theorem perform_private (e : MemEvent) (s : State) :
    (perform e s).cfg = s.cfg ∧ (perform e s).lutR = s.lutR ∧ (perform e s).lutG = s.lutG ∧
    (perform e s).lutB = s.lutB ∧ (perform e s).active = s.active := by
  cases e <;> exact ⟨rfl, rfl, rfl, rfl, rfl⟩

/-- Every event keeps the canonical form of memory. -/
theorem perform_wf {s : State} (e : MemEvent) (h : Memory.wf s.par s.mem) :
    Memory.wf (perform e s).par (perform e s).mem := by
  cases e with
  | orDraw o bits => exact setByte_wf _ _ h
  | zeroDraw o => exact setByte_wf _ _ h
  | storePtr a v => exact setWord_wf _ _ h
  | selectDraw => exact h
  | readDraw o => exact h
  | returnPtr a => exact h
  | setupPairA => exact h
  | setupPairB => exact h

/-- Performing an event and recording which command is in progress commute. -/
theorem perform_record (e : MemEvent) (s : State) (f : Option InFlight) :
    perform e { s with render := { s.render with inFlight := f } } =
      { perform e s with render := { (perform e s).render with inFlight := f } } := by
  cases e <;> rfl

/-! ### The command in progress -/

@[simp] theorem inFlightOf_nil (i : Instr) : inFlightOf i [] = none := rfl

@[simp] theorem inFlightOf_cons (i : Instr) (e : MemEvent) (es : List MemEvent) :
    inFlightOf i (e :: es) = some { cmd := i, event := e, later := es } := rfl

/-- The events still to perform, of a state whose command in progress was just recorded. -/
theorem pending_record (s : State) (i : Instr) (es : List MemEvent) :
    State.pending { s with render := { s.render with inFlight := inFlightOf i es } } = es := by
  cases es <;> rfl

theorem pending_eq_nil {s : State} : s.pending = [] ↔ s.render.inFlight = none := by
  unfold State.pending
  split
  · next h => simp [h]
  · next f h => simp [h]

theorem pending_of_inFlight {s t : State} (h : t.render.inFlight = s.render.inFlight) : t.pending = s.pending := by
  unfold State.pending
  rw [h]

/-- With no command in progress the step of RENDER changes nothing. -/
theorem renderEvent_idle {s : State} (h : s.render.inFlight = none) : renderEvent s = s := by
  unfold renderEvent
  rw [h]

/-- With a command in progress the step of RENDER performs its first pending event. -/
theorem renderEvent_busy {s : State} {f : InFlight} (h : s.render.inFlight = some f) :
    renderEvent s = perform f.event { s with render := { s.render with inFlight := inFlightOf f.cmd f.later } } := by
  unfold renderEvent
  rw [h]

/-- Each step of RENDER uses up one pending event (20_memory R72). -/
theorem pending_renderEvent (s : State) : (renderEvent s).pending = s.pending.tail := by
  cases h : s.render.inFlight with
  | none => rw [renderEvent_idle h, pending_eq_nil.2 h]; rfl
  | some f =>
    rw [renderEvent_busy h, pending_of_inFlight (perform_inFlight _ _), pending_record]
    simp [State.pending, h]

/-- A command that begins with `e :: es` has performed `e` and has `es` pending. -/
theorem beginCommand_cons (i : Instr) (e : MemEvent) (es : List MemEvent) (s : State) :
    beginCommand i (e :: es) s =
      perform e { s with render := { s.render with inFlight := inFlightOf i es, ret := none } } := rfl

theorem pending_beginCommand (i : Instr) (e : MemEvent) (es : List MemEvent) (s : State) :
    (beginCommand i (e :: es) s).pending = es := by
  rw [beginCommand_cons, pending_of_inFlight (perform_inFlight _ _)]
  cases es <;> rfl

/-- Performing all pending events one after another. -/
theorem finishCommand_eq (s : State) :
    finishCommand s = s.pending.foldl (fun t e => perform e t) { s with render := { s.render with inFlight := none } } := by
  unfold finishCommand State.pending
  split
  · next h =>
    show s = { s with render := { s.render with inFlight := none } }
    rw [← h]
  · rfl

theorem perform_clear (e : MemEvent) (g : Option InFlight) (s : State) :
    { perform e { s with render := { s.render with inFlight := g } } with
        render := { (perform e { s with render := { s.render with inFlight := g } }).render with inFlight := none } } =
      perform e { s with render := { s.render with inFlight := none } } := by
  cases e <;> rfl

/-- One step of RENDER does not change what the command comes to. -/
theorem finishCommand_renderEvent (s : State) : finishCommand (renderEvent s) = finishCommand s := by
  cases h : s.render.inFlight with
  | none => rw [renderEvent_idle h]
  | some f =>
    have hp : s.pending = f.event :: f.later := by simp [State.pending, h]
    rw [finishCommand_eq, finishCommand_eq, pending_renderEvent, renderEvent_busy h, hp, List.tail_cons,
      List.foldl_cons, perform_clear]

/-- Finishing a command that has just begun performs all of its events. -/
theorem finishCommand_beginCommand (i : Instr) (es : List MemEvent) (s : State) :
    finishCommand (beginCommand i es s) =
      es.foldl (fun t e => perform e t) { s with render := { s.render with inFlight := none, ret := none } } := by
  have h : beginCommand i es s = renderEvent { s with render := { s.render with inFlight := inFlightOf i es, ret := none } } := rfl
  rw [h, finishCommand_renderEvent, finishCommand_eq]
  have hp : State.pending { s with render := { s.render with inFlight := inFlightOf i es, ret := none } } = es :=
    pending_record { s with render := { s.render with ret := none } } i es
  rw [hp]

/-! ### Commands -/

/-- The operations of the render port. -/
def isCommand : Instr → Bool
  | .init | .configure .. | .engineSetup | .engineStart | .setPixel .. | .clear | .commit | .getActiveBufferPtr
  | .getDelayPtr | .getFbPtrAddr | .getDelayPtrAddr | .gammaCorrect _ | .reservedOp0 _ | .reservedOpD _
  | .reservedOpE _ | .reservedOpF _ => true
  | .xferA1W4 | .xferA1W2 | .xferA1W1 | .xferA2 | .xferB1 | .xferB2 | .dOff | .dLoadWidth | .dShiftColumn
  | .dAwaitNextRow | .rOff | .rLoadRowCount | .rLoadPlaneCount | .rSetAddress | .rAwaitData | .rLatch | .rSignalTiming
  | .rAwaitTimingDone | .rNext | .oOff | .oLoadDelay | .oAwaitTimingStart | .oHold | .oSignalDone => false

/-- A command word decodes to a well-formed operation of the render port. -/
theorem decodeCmd_isCommand {w : BitVec 64} {i : Instr} (h : decodeCmd w = .ok i) :
    isCommand i = true ∧ i.wellFormed = true := by
  unfold decodeCmd at h
  dsimp only at h
  split at h
  all_goals first
    | (cases h; exact ⟨rfl, rfl⟩)
    | (split at h
       · first | (cases h; exact ⟨rfl, rfl⟩) | cases h
       · first
         | (cases h; exact ⟨rfl, rfl⟩)
         | cases h
         | (split at h
            · next hp => cases h; exact ⟨rfl, hp⟩
            · cases h))

theorem whenIdle_next {s t : State} {r : Result} (h : whenIdle s r = .next t) : s.render.inFlight = none ∧ r = .next t := by
  unfold whenIdle at h
  split at h
  · cases h
  · next hn => exact ⟨by simpa using hn, h⟩

theorem whenAttached_next {s t : State} {r : Result} (h : whenAttached s r = .next t) : s.fbPtr ≠ nullPtr ∧ r = .next t := by
  unfold whenAttached at h
  split at h
  · cases h
  · next hn => exact ⟨hn, h⟩

theorem whenIdle_idle {s : State} {r : Result} (h : s.render.inFlight = none) : whenIdle s r = r := by
  simp [whenIdle, h]

theorem whenAttached_attached {s : State} {r : Result} (h : s.fbPtr ≠ nullPtr) : whenAttached s r = r := by
  simp [whenAttached, h]

/-- What a command that is accepted does: it begins with its memory events, or it completes at once. -/
theorem command_next {i : Instr} {s t : State} (hc : isCommand i = true) (h : exec i s = .next t) :
    s.render.inFlight = none ∧
    ((∃ r, t = completeCommand r s) ∨
     (∃ c : Hub75Config, c.pwmBits.toNat = s.par.colorBits ∧ t = completeCommand none (rebuildTables { s with cfg := c })) ∨
     (s.engine = .setup ∧ t = completeCommand none (startEngine s)) ∨
     (s.fbPtr = nullPtr ∧ s.delayPtr = nullPtr ∧
       t = beginCommand .init [.storePtr s.par.fbPtrAddr s.par.fb0Base, .storePtr s.par.delayPtrAddr s.par.delaysBase]
         { s with active := false }) ∨
     (s.fbPtr ≠ nullPtr ∧
       ((∃ x y color, i = .setPixel x y color ∧ inCanvas s.par x.toInt y.toInt = true ∧
          t = beginCommand i (pixelEvents s x.toInt.toNat y.toInt.toNat color) s) ∨
        t = beginCommand .clear (.selectDraw :: zeroFill s.par) s ∨
        t = beginCommand .commit (.storePtr s.par.fbPtrAddr (activeBase s.par (!s.active)) :: zeroFill s.par)
          { s with active := !s.active, render := { s.render with drawBase := drawBaseOf s.par (!s.active) } } ∨
        (∃ a, t = beginCommand i [.returnPtr a] s) ∨
        (s.engine = .off ∧ t = beginCommand .engineSetup [.setupPairA, .setupPairB] s)))) := by
  cases i
  case init =>
    obtain ⟨h1, h⟩ := whenIdle_next h
    split at h
    · cases h
    · next hn =>
      cases h
      exact ⟨h1, .inr (.inr (.inr (.inl ⟨by tauto, by tauto, rfl⟩)))⟩
  case configure b g br tm =>
    simp only [exec, execConfigure] at h
    split at h
    · obtain ⟨h1, h⟩ := whenIdle_next h
      split at h
      · cases h
      · next hn =>
        cases h
        exact ⟨h1, .inr (.inl ⟨_, by simpa using hn, rfl⟩)⟩
    · cases h
  case engineSetup =>
    obtain ⟨h1, h⟩ := whenIdle_next h
    obtain ⟨h2, h⟩ := whenAttached_next h
    split at h
    · cases h
    · next hn =>
      cases h
      exact ⟨h1, .inr (.inr (.inr (.inr ⟨h2, .inr (.inr (.inr (.inr ⟨by simpa using hn, rfl⟩)))⟩)))⟩
  case engineStart =>
    obtain ⟨h1, h⟩ := whenIdle_next h
    split at h
    · cases h
    · next hn =>
      cases h
      exact ⟨h1, .inr (.inr (.inl ⟨by simpa using hn, rfl⟩))⟩
  case setPixel x y color =>
    obtain ⟨h1, h⟩ := whenIdle_next h
    obtain ⟨h2, h⟩ := whenAttached_next h
    split at h
    · next hin =>
      cases h
      exact ⟨h1, .inr (.inr (.inr (.inr ⟨h2, .inl ⟨x, y, color, rfl, hin, rfl⟩⟩)))⟩
    · cases h
      exact ⟨h1, .inl ⟨_, rfl⟩⟩
  case clear =>
    obtain ⟨h1, h⟩ := whenIdle_next h
    obtain ⟨h2, h⟩ := whenAttached_next h
    cases h
    exact ⟨h1, .inr (.inr (.inr (.inr ⟨h2, .inr (.inl rfl)⟩)))⟩
  case commit =>
    obtain ⟨h1, h⟩ := whenIdle_next h
    obtain ⟨h2, h⟩ := whenAttached_next h
    cases h
    exact ⟨h1, .inr (.inr (.inr (.inr ⟨h2, .inr (.inr (.inl rfl))⟩)))⟩
  case getActiveBufferPtr =>
    obtain ⟨h1, h⟩ := whenIdle_next h
    obtain ⟨h2, h⟩ := whenAttached_next h
    cases h
    exact ⟨h1, .inr (.inr (.inr (.inr ⟨h2, .inr (.inr (.inr (.inl ⟨_, rfl⟩)))⟩)))⟩
  case getDelayPtr =>
    obtain ⟨h1, h⟩ := whenIdle_next h
    obtain ⟨h2, h⟩ := whenAttached_next h
    cases h
    exact ⟨h1, .inr (.inr (.inr (.inr ⟨h2, .inr (.inr (.inr (.inl ⟨_, rfl⟩)))⟩)))⟩
  case getFbPtrAddr =>
    obtain ⟨h1, h⟩ := whenIdle_next h
    cases h
    exact ⟨h1, .inl ⟨_, rfl⟩⟩
  case getDelayPtrAddr =>
    obtain ⟨h1, h⟩ := whenIdle_next h
    cases h
    exact ⟨h1, .inl ⟨_, rfl⟩⟩
  case gammaCorrect v =>
    obtain ⟨h1, h⟩ := whenIdle_next h
    cases h
    exact ⟨h1, .inl ⟨_, rfl⟩⟩
  all_goals first | (cases h; done) | exact absurd hc (by simp [isCommand])

end Sys2Proof.Machine
end

