-- ==== Sys2Proof/Laws/Display.lean ====
section
/-! SUPPORT. What the memory events of the drawing commands come to when they are performed one after another: a
zero-fill, and the OR of a pixel into its plane bytes. -/

namespace Sys2Proof.Machine

/-- The state of a fold of events that only write memory and the private `old`. -/
abbrev DrawnFrom (s t : State) : Prop :=
  t = { s with mem := t.mem, render := { s.render with old := t.render.old } }

theorem DrawnFrom.refl (s : State) : DrawnFrom s s := rfl

theorem DrawnFrom.trans {s t u : State} (h1 : DrawnFrom s t) (h2 : DrawnFrom t u) : DrawnFrom s u := by
  unfold DrawnFrom at *
  rw [h2, h1]

/-- A zero-fill clears the bytes at its offsets from the draw base and no other byte (41_display_memory R150, R155). -/
theorem fold_zeroDraw (l : List Nat) (s : State) :
    DrawnFrom s ((l.map MemEvent.zeroDraw).foldl (fun t e => perform e t) s) ∧
    ∀ a, ((l.map MemEvent.zeroDraw).foldl (fun t e => perform e t) s).byteAt a =
      if ∃ o ∈ l, a = s.render.drawBase.toNat + o then 0 else s.byteAt a := by
  induction l generalizing s with
  | nil => exact ⟨rfl, fun a => by simp⟩
  | cons o l ih =>
    obtain ⟨h1, h2⟩ := ih (perform (.zeroDraw o) s)
    refine ⟨DrawnFrom.trans (t := perform (.zeroDraw o) s) rfl h1, fun a => ?_⟩
    simp only [List.map_cons, List.foldl_cons, h2]
    simp only [perform, setByte_render, byteAt_setByte, List.exists_mem_cons_iff]
    by_cases ha : a = s.render.drawBase.toNat + o <;> simp [ha]

/-- The plane events of a pixel OR its bits into one byte for each plane and change no other byte, when the bytes of the
planes are different ones (41_display_memory R145). -/
theorem fold_orDraw (f : Nat → Nat) (g : Nat → Byte) (l : List Nat) (s : State)
    (hl : l.Pairwise fun b c => f b ≠ f c) :
    DrawnFrom s ((l.flatMap fun b => [.readDraw (f b), .orDraw (f b) (g b)]).foldl (fun t e => perform e t) s) ∧
    (∀ b ∈ l, ((l.flatMap fun b => [.readDraw (f b), .orDraw (f b) (g b)]).foldl (fun t e => perform e t) s).byteAt
      (s.render.drawBase.toNat + f b) = s.byteAt (s.render.drawBase.toNat + f b) ||| g b) ∧
    ∀ a, (∀ b ∈ l, a ≠ s.render.drawBase.toNat + f b) →
      ((l.flatMap fun b => [.readDraw (f b), .orDraw (f b) (g b)]).foldl (fun t e => perform e t) s).byteAt a =
        s.byteAt a := by
  induction l generalizing s with
  | nil => exact ⟨rfl, fun b h => absurd h List.not_mem_nil, fun a _ => rfl⟩
  | cons b l ih =>
    obtain ⟨hb, hl⟩ := List.pairwise_cons.1 hl
    obtain ⟨h1, h2, h3⟩ := ih (perform (.orDraw (f b) (g b)) (perform (.readDraw (f b)) s)) hl
    have hw : ∀ a, (perform (.orDraw (f b) (g b)) (perform (.readDraw (f b)) s)).byteAt a =
        if a = s.render.drawBase.toNat + f b then s.byteAt (s.render.drawBase.toNat + f b) ||| g b else s.byteAt a :=
      fun a => byteAt_setByte _ _ _ _
    have hd : (perform (.orDraw (f b) (g b)) (perform (.readDraw (f b)) s)).render.drawBase = s.render.drawBase := rfl
    rw [hd] at h2 h3
    simp only [List.flatMap_cons, List.foldl_append, List.foldl_cons, List.foldl_nil]
    refine ⟨DrawnFrom.trans rfl h1, fun c hc => ?_, fun a ha => ?_⟩
    · rcases List.mem_cons.1 hc with rfl | hc
      · rw [h3 _ fun d hd e => hb d hd (by omega), hw, if_pos rfl]
      · rw [h2 c hc, hw, if_neg fun e => hb c hc (by omega)]
    · rw [h3 a fun c hc => ha c (List.mem_cons_of_mem _ hc), hw, if_neg (ha b List.mem_cons_self)]

/-- The plane bytes of one pixel are different bytes. -/
theorem pixelOffset_ne {p : Params} {x y : Nat} (hw : 1 ≤ p.width) {b c : Nat} (h : b ≠ c) :
    pixelOffset p x y b ≠ pixelOffset p x y c := by
  unfold pixelOffset
  intro e
  have : b * p.width = c * p.width := by omega
  exact h (Nat.eq_of_mul_eq_mul_right hw this)

theorem inCanvas_iff (p : Params) (x y : Int) : inCanvas p x y = true ↔ InRange p x y := by
  simp [inCanvas, and_assoc]

/-- One bit of a colour stays inside its half of a byte. -/
theorem bit_inside : ∀ (v : Bool) (k : Fin 3),
    let w : Byte := (BitVec.ofBool v).setWidth 8 <<< k.val
    w <<< 0 >>> 3 = 0 ∧ (w <<< 3).extractLsb' 0 3 = 0 ∧ (w <<< 3).extractLsb' 6 2 = 0 := by decide

/-- SET_PIXEL sets only bits of the pixel's half (41_display_memory R146 (a)). -/
theorem pixelBits_inside (s : State) (y : Nat) (c : Color) (b : Nat) :
    (y < s.par.activeRows → pixelBits s y c b >>> 3 = 0) ∧
    (s.par.activeRows ≤ y → (pixelBits s y c b).extractLsb' 0 3 = 0 ∧ (pixelBits s y c b).extractLsb' 6 2 = 0) := by
  have h : ∀ (v : Byte) (k : Fin 3), bitAt v b k.val <<< 0 >>> 3 = 0 ∧ (bitAt v b k.val <<< 3).extractLsb' 0 3 = 0 ∧
      (bitAt v b k.val <<< 3).extractLsb' 6 2 = 0 := fun v k => bit_inside (v.getLsbD b) k
  refine ⟨fun hy => ?_, fun hy => ⟨?_, ?_⟩⟩
  · simp only [pixelBits, bits3, halfShift, if_pos hy, BitVec.shiftLeft_or_distrib, BitVec.ushiftRight_or_distrib, (h _ _).1]
    decide
  · simp only [pixelBits, bits3, halfShift, if_neg (Nat.not_lt.2 hy), BitVec.shiftLeft_or_distrib,
      BitVec.extractLsb'_or, (h _ _).2.1]
    decide
  · simp only [pixelBits, bits3, halfShift, if_neg (Nat.not_lt.2 hy), BitVec.shiftLeft_or_distrib,
      BitVec.extractLsb'_or, (h _ _).2.2]
    decide

/-- Bits 7:6 of what SET_PIXEL sets are 0 (30_encoding R90). -/
theorem pixelBits_top (s : State) (y : Nat) (c : Color) (b : Nat) : topClear (pixelBits s y c b) := by
  rcases Nat.lt_or_ge y s.par.activeRows with hy | hy
  · have h := (pixelBits_inside s y c b).1 hy
    show (pixelBits s y c b).extractLsb' 6 2 = 0
    refine BitVec.eq_of_getLsbD_eq fun i hi => ?_
    have hb := congrArg (fun w : Byte => w.getLsbD (3 + i)) h
    simp only [BitVec.getLsbD_ushiftRight] at hb
    rw [BitVec.getLsbD_extractLsb']
    have e : 3 + (3 + i) = 6 + i := by omega
    rw [e] at hb
    rw [hb]
    simp
  · exact ((pixelBits_inside s y c b).2 hy).2

/-- What an accepted in-range SET_PIXEL comes to. -/
theorem setPixel_finish {s : State} {x y : BitVec 16} {c : Color} (hp : s.pending = []) (hf : s.fbPtr ≠ nullPtr)
    (hr : InRange s.par x.toInt y.toInt) :
    ∃ t, exec (.setPixel x y c) s = .next t ∧
      (∃ m o, finishCommand t = { s with
        mem := m, render := { inFlight := none, drawBase := s.drawBaseNow, old := o, ret := none } }) ∧
      (∀ b < s.par.colorBits, (finishCommand t).byteAt (pixelAddr s x y b) =
        s.byteAt (pixelAddr s x y b) ||| pixelBits s y.toInt.toNat c b) ∧
      ∀ a, (∀ b < s.par.colorBits, a ≠ pixelAddr s x y b) → (finishCommand t).byteAt a = s.byteAt a := by
  have hi := pending_eq_nil.1 hp
  have hw : 1 ≤ s.par.width := by have := hr.1; omega
  refine ⟨beginCommand (.setPixel x y c) (pixelEvents s x.toInt.toNat y.toInt.toNat c) s,
    by simp [exec, execSetPixel, whenIdle_idle hi, whenAttached_attached hf, (inCanvas_iff _ _ _).2 hr], ?_⟩
  rw [finishCommand_beginCommand, pixelEvents, List.foldl_cons]
  obtain ⟨h1, h2, h3⟩ := fold_orDraw (pixelOffset s.par x.toInt.toNat y.toInt.toNat) (pixelBits s y.toInt.toNat c)
    (List.range s.par.colorBits) (perform .selectDraw
      { s with render := { s.render with inFlight := none, ret := none } })
    (List.pairwise_lt_range.imp fun h => pixelOffset_ne hw (by omega))
  refine ⟨⟨_, _, h1⟩, fun b hb => h2 b (List.mem_range.2 hb), fun a ha => h3 a fun b hb => ha b (List.mem_range.1 hb)⟩

/-- What an accepted CLEAR comes to. -/
theorem clear_finish {s : State} (hp : s.pending = []) (hf : s.fbPtr ≠ nullPtr) :
    ∃ t, exec .clear s = .next t ∧
      (∃ m o, finishCommand t = { s with
        mem := m, render := { inFlight := none, drawBase := s.drawBaseNow, old := o, ret := none } }) ∧
      ∀ a, (finishCommand t).byteAt a =
        if ∃ o ∈ List.range s.par.frameSize, a = s.drawBaseNow.toNat + o then 0 else s.byteAt a := by
  have hi := pending_eq_nil.1 hp
  refine ⟨_, by simp only [exec, execClear, whenIdle_idle hi, whenAttached_attached hf]; rfl, ?_⟩
  rw [finishCommand_beginCommand, zeroFill, List.foldl_cons]
  obtain ⟨h1, h2⟩ := fold_zeroDraw (List.range s.par.frameSize) (perform .selectDraw
      { s with render := { s.render with inFlight := none, ret := none } })
  exact ⟨⟨_, _, h1⟩, h2⟩

/-- What an accepted COMMIT comes to. -/
theorem commit_finish {s : State} (hp : s.pending = []) (hf : s.fbPtr ≠ nullPtr) :
    ∃ t, exec .commit s = .next t ∧
      t.mem = (s.setWord s.par.fbPtrAddr.toNat (activeBase s.par (!s.active))).mem ∧ t.par = s.par ∧
      (∃ m o, finishCommand t = { s with
        active := !s.active, mem := m
        render := { inFlight := none, drawBase := drawBaseOf s.par (!s.active), old := o, ret := none } }) ∧
      ∀ a, (finishCommand t).byteAt a =
        if ∃ o ∈ List.range s.par.frameSize, a = (drawBaseOf s.par (!s.active)).toNat + o then 0
        else (s.setWord s.par.fbPtrAddr.toNat (activeBase s.par (!s.active))).byteAt a := by
  have hi := pending_eq_nil.1 hp
  refine ⟨_, by simp only [exec, execCommit, whenIdle_idle hi, whenAttached_attached hf]; rfl, ?_, ?_, ?_⟩
  · rw [beginCommand_cons]; rfl
  · rw [beginCommand_cons]; rfl
  rw [finishCommand_beginCommand, zeroFill, List.foldl_cons]
  obtain ⟨h1, h2⟩ := fold_zeroDraw (List.range s.par.frameSize)
    (perform (.storePtr s.par.fbPtrAddr (activeBase s.par (!s.active)))
      { s with
        active := !s.active
        render := { s.render with drawBase := drawBaseOf s.par (!s.active), inFlight := none, ret := none } })
  exact ⟨⟨_, _, h1⟩, h2⟩

end Sys2Proof.Machine
end

