-- ==== Sys2Proof/Laws/Step.lean ====
section
/-! SUPPORT. One step: the turn is taken, and one of five agents or the render port acts. -/

namespace Sys2Proof.Machine

/-- Taking a turn changes the environment only. -/
theorem nextTurn_state (s : State) : ∃ e, (nextTurn s).2 = { s with env := e } := by
  unfold nextTurn
  split
  · exact ⟨_, rfl⟩
  · exact ⟨_, rfl⟩

/-- With a fixed turn the step is what that turn does. -/
theorem step_of_turn {s : State} {t : Turn} {ts : List Turn} (h : s.env.turns = t :: ts) :
    step s = runTurn t { s with env := { s.env with turns := ts } } := by
  simp [step, nextTurn, h]

/-- With no turn fixed the step is what the free turn does. -/
theorem step_of_free {s : State} (h : s.env.turns = []) :
    step s = runTurn (Config.freeTurn s.env.drawn) { s with env := { s.env with drawn := s.env.drawn + 1 } } := by
  simp [step, nextTurn, h]

/-- A step that goes on is one turn of the render port, of RENDER, of a channel or of a sequencer, on the state with the
turn taken. -/
theorem step_next {s t : State} (h : step s = .next t) :
    ∃ e u, u = { s with env := e } ∧
      ((∃ i, isCommand i = true ∧ i.wellFormed = true ∧ exec i u = .next t) ∨
       t = renderEvent u ∨
       (∃ c, transfer c (u.chan c).ctrl u = .next t) ∨
       exec u.dseq.state.instr u = .next t ∨
       exec u.rseq.state.instr u = .next t ∨
       exec u.oseq.state.instr u = .next t) := by
  obtain ⟨e, he⟩ := nextTurn_state s
  refine ⟨e, _, rfl, ?_⟩
  unfold step at h
  rw [he] at h
  unfold runTurn at h
  split at h
  · next w =>
    unfold portStep at h
    split at h
    · next i hi => exact .inl ⟨i, (decodeCmd_isCommand hi).1, (decodeCmd_isCommand hi).2, h⟩
    · cases h
  · next a =>
    unfold agentStep at h
    split at h
    · exact .inr (.inl (Host.Outcome.next.inj h).symm)
    · next c => exact .inr (.inr (.inl ⟨c, by rwa [channelStep_eq] at h⟩))
    · exact .inr (.inr (.inr (.inl h)))
    · exact .inr (.inr (.inr (.inr (.inl h))))
    · exact .inr (.inr (.inr (.inr (.inr h))))

end Sys2Proof.Machine
end

