-- ==== Sys2Proof/Laws/Sequencers.lean ====
section
/-! SUPPORT. What a step of each sequencer can do, said once: it waits, or it makes one of the moves listed. -/

namespace Sys2Proof.Machine

/-- The word a D_SHIFT_COLUMN step takes its byte from, the bytes left in it, and the queue after it (43_sequencers
R202). -/
abbrev Fetched (s : State) (word : Word) (left : Nat) (q : List Word) : Prop :=
  (s.dseq.osrLeft = 0 ∧ s.dq = word :: q ∧ left = s.par.wA) ∨
    (s.dseq.osrLeft ≠ 0 ∧ s.dq = q ∧ word = s.dseq.osr ∧ left = s.dseq.osrLeft)

theorem refill_some {s t : State} (h : refill s = some t) :
    ∃ word left q, Fetched s word left q ∧ t = { s with dq := q, dseq := { s.dseq with osr := word, osrLeft := left } } := by
  unfold refill at h
  split at h
  · next h0 =>
    split at h
    · cases h
    · next w q hq =>
      cases h
      exact ⟨w, s.par.wA, q, .inl ⟨h0, hq, rfl⟩, rfl⟩
  · next h0 =>
    cases h
    exact ⟨_, _, _, .inr ⟨h0, rfl, rfl, rfl⟩, rfl⟩

theorem refill_fetched {s : State} {word : Word} {left : Nat} {q : List Word} (h : Fetched s word left q) :
    refill s = some { s with dq := q, dseq := { s.dseq with osr := word, osrLeft := left } } := by
  rcases h with ⟨h1, h2, h3⟩ | ⟨h1, h2, h3, h4⟩
  · simp [refill, h1, h2, h3]
  · subst h2 h3 h4
    simp [refill, h1]

/-- The moves of the data sequencer (43_sequencers R201 to R203). -/
theorem dseq_next {s t : State} (h : exec s.dseq.state.instr s = .next t) :
    t = s ∨
    (s.dseq.state = .loadWidth ∧
      t = { s with dseq := { s.dseq with col := BitVec.ofNat 32 (s.par.width - 1), state := .shiftColumn } }) ∨
    (s.dseq.state = .shiftColumn ∧ ∃ word left q, Fetched s word left q ∧
      ((s.dseq.col = 0 ∧
        t = { s with
          dq := q
          dseq := { state := .awaitNextRow, col := s.dseq.col, osr := word >>> 8, osrLeft := left - 1 }
          flags := { s.flags with rdr := true }
          pins := { s.pins with data := word.extractLsb' 0 6, clk := false }
          trace := s.trace ++ [.data (word.extractLsb' 0 6), .clk true, .clk false] }) ∨
       (s.dseq.col ≠ 0 ∧
        t = { s with
          dq := q
          dseq := { state := s.dseq.state, col := s.dseq.col - 1, osr := word >>> 8, osrLeft := left - 1 }
          pins := { s.pins with data := word.extractLsb' 0 6, clk := false }
          trace := s.trace ++ [.data (word.extractLsb' 0 6), .clk true, .clk false] }))) ∨
    (s.dseq.state = .awaitNextRow ∧ s.flags.ras = true ∧
      t = { s with flags := { s.flags with ras := false }, dseq := { s.dseq with state := .loadWidth } }) := by
  cases hs : s.dseq.state <;> rw [hs] at h
  · cases h
    exact .inl rfl
  · cases h
    exact .inr (.inl ⟨rfl, rfl⟩)
  · simp only [DState.instr, exec, execDShiftColumn] at h
    split at h
    · cases h
      exact .inl rfl
    · next u hu =>
      obtain ⟨word, left, q, hf, rfl⟩ := refill_some hu
      refine .inr (.inr (.inl ⟨rfl, word, left, q, hf, ?_⟩))
      unfold countColumn at h
      split at h
      · next hc =>
        cases h
        exact .inl ⟨hc, rfl⟩
      · next hc =>
        cases h
        exact .inr ⟨hc, by simp only [shiftByte, hs]⟩
  · simp only [DState.instr, exec, execDAwaitNextRow] at h
    split at h
    · next hr =>
      cases h
      exact .inr (.inr (.inr ⟨rfl, hr, rfl⟩))
    · cases h
      exact .inl rfl

/-- The moves of the row sequencer (43_sequencers R210 to R218). -/
theorem rseq_next {s t : State} (h : exec s.rseq.state.instr s = .next t) :
    t = s ∨
    (s.rseq.state = .loadRowCount ∧ t = { s with rseq := { s.rseq with row := s.rseq.rowsM1, state := .loadPlaneCount } }) ∨
    (s.rseq.state = .loadPlaneCount ∧
      t = { s with rseq := { s.rseq with plane := s.rseq.planesM1, state := .setAddress } }) ∨
    (s.rseq.state = .setAddress ∧
      t = { s with
        pins := { s.pins with addr := addrEncode s.par s.rseq.rowIndex }
        trace := s.trace ++ [.addr (addrEncode s.par s.rseq.rowIndex)]
        rseq := { s.rseq with state := .awaitData } }) ∨
    (s.rseq.state = .awaitData ∧ s.flags.rdr = true ∧
      t = { s with flags := { s.flags with rdr := false }, rseq := { s.rseq with state := .latch } }) ∨
    (s.rseq.state = .latch ∧
      t = { s with
        pins := { s.pins with lat := false }
        trace := s.trace ++ [.lat true, .lat false]
        rseq := { s.rseq with state := .signalTiming } }) ∨
    (s.rseq.state = .signalTiming ∧
      t = { s with
        flags := { s.flags with ts := true, ras := true }
        rseq := { s.rseq with state := .awaitTimingDone } }) ∨
    (s.rseq.state = .awaitTimingDone ∧ s.flags.td = true ∧
      t = { s with flags := { s.flags with td := false }, rseq := { s.rseq with state := .next } }) ∨
    (s.rseq.state = .next ∧ s.rseq.plane ≠ 0 ∧
      t = { s with rseq := { s.rseq with plane := s.rseq.plane - 1, state := .setAddress } }) ∨
    (s.rseq.state = .next ∧ s.rseq.plane = 0 ∧ s.rseq.row ≠ 0 ∧
      t = { s with rseq := { s.rseq with row := s.rseq.row - 1, state := .loadPlaneCount } }) ∨
    (s.rseq.state = .next ∧ s.rseq.plane = 0 ∧ s.rseq.row = 0 ∧
      t = { s with rseq := { s.rseq with state := .loadRowCount } }) := by
  cases hs : s.rseq.state <;> rw [hs] at h <;>
    simp only [RState.instr, exec, execROff, execRLoadRowCount, execRLoadPlaneCount, execRSetAddress, execRAwaitData,
      execRLatch, execRSignalTiming, execRAwaitTimingDone, execRNext] at h
  case off => cases h; exact .inl rfl
  case loadRowCount => cases h; exact .inr (.inl ⟨rfl, rfl⟩)
  case loadPlaneCount => cases h; exact .inr (.inr (.inl ⟨rfl, rfl⟩))
  case setAddress => cases h; exact .inr (.inr (.inr (.inl ⟨rfl, rfl⟩)))
  case awaitData =>
    split at h
    · next hf => cases h; exact .inr (.inr (.inr (.inr (.inl ⟨rfl, hf, rfl⟩))))
    · cases h; exact .inl rfl
  case latch => cases h; exact .inr (.inr (.inr (.inr (.inr (.inl ⟨rfl, rfl⟩)))))
  case signalTiming => cases h; exact .inr (.inr (.inr (.inr (.inr (.inr (.inl ⟨rfl, rfl⟩))))))
  case awaitTimingDone =>
    split at h
    · next hf => cases h; exact .inr (.inr (.inr (.inr (.inr (.inr (.inr (.inl ⟨rfl, hf, rfl⟩)))))))
    · cases h; exact .inl rfl
  case next =>
    split at h
    · next hp => cases h; exact .inr (.inr (.inr (.inr (.inr (.inr (.inr (.inr (.inl ⟨rfl, hp, rfl⟩))))))))
    · next hp =>
      have hp : s.rseq.plane = 0 := Decidable.not_not.1 hp
      split at h
      · next hr => cases h; exact .inr (.inr (.inr (.inr (.inr (.inr (.inr (.inr (.inr (.inl ⟨rfl, hp, hr, rfl⟩)))))))))
      · next hr =>
        have hr : s.rseq.row = 0 := Decidable.not_not.1 hr
        cases h
        exact .inr (.inr (.inr (.inr (.inr (.inr (.inr (.inr (.inr (.inr ⟨rfl, hp, hr, rfl⟩)))))))))

/-- The moves of the output-enable sequencer (43_sequencers R220 to R223). -/
theorem oseq_next {s t : State} (h : exec s.oseq.state.instr s = .next t) :
    t = s ∨
    (s.oseq.state = .loadDelay ∧ ∃ d q, s.oq = d :: q ∧ t = { s with oq := q, oseq := { cnt := d, state := .awaitTimingStart } }) ∨
    (s.oseq.state = .awaitTimingStart ∧ s.flags.ts = true ∧
      t = { s with flags := { s.flags with ts := false }, oseq := { s.oseq with state := .hold } }) ∨
    (s.oseq.state = .hold ∧ s.oseq.cnt = 0 ∧ s.par.holdBias = 0 ∧
      t = { s with oseq := { s.oseq with state := .signalDone } }) ∨
    (s.oseq.state = .hold ∧ s.oseq.cnt = 0 ∧ s.par.holdBias ≠ 0 ∧ ∃ es, (∀ e ∈ es, e = .oe false ∨ e = .tick) ∧
      t = { s with
        oseq := { s.oseq with state := .signalDone }, pins := { s.pins with oeN := false }, trace := s.trace ++ es }) ∨
    (s.oseq.state = .hold ∧ s.oseq.cnt ≠ 0 ∧ ∃ es, (∀ e ∈ es, e = .oe false ∨ e = .tick) ∧
      t = { s with
        oseq := { s.oseq with cnt := s.oseq.cnt - 1 }, pins := { s.pins with oeN := false }, trace := s.trace ++ es }) ∨
    (s.oseq.state = .signalDone ∧ ∃ es, (∀ e ∈ es, e = .oe true) ∧
      t = { s with
        oseq := { s.oseq with state := .loadDelay }, pins := { s.pins with oeN := true }
        flags := { s.flags with td := true }, trace := s.trace ++ es }) := by
  have ho : ∀ u : State, u = s → ∃ es, (∀ e ∈ es, e = .oe false ∨ e = .tick) ∧
      (assertOe u).emit [.tick] = { s with pins := { s.pins with oeN := false }, trace := s.trace ++ es } := by
    rintro u rfl
    cases hp : u.pins.oeN
    · refine ⟨[.tick], by simp, ?_⟩
      have e : u.pins = { u.pins with oeN := false } := by rw [← hp]
      rw [← e]
      simp [assertOe, hp, State.emit]
    · refine ⟨[.oe false, .tick], by simp, ?_⟩
      simp [assertOe, hp, State.emit]
  cases hs : s.oseq.state <;> rw [hs] at h <;>
    simp only [OState.instr, exec, execOOff, execOLoadDelay, execOAwaitTimingStart, execOHold, execOSignalDone] at h
  case off => cases h; exact .inl rfl
  case loadDelay =>
    split at h
    · cases h; exact .inl rfl
    · next d q hq => cases h; exact .inr (.inl ⟨rfl, d, q, hq, rfl⟩)
  case awaitTimingStart =>
    split at h
    · next hf => cases h; exact .inr (.inr (.inl ⟨rfl, hf, rfl⟩))
    · cases h; exact .inl rfl
  case hold =>
    obtain ⟨es, h1, h2⟩ := ho s rfl
    split at h
    · next hb =>
      split at h
      · next hc =>
        cases h
        exact .inr (.inr (.inr (.inl ⟨rfl, hc, hb, rfl⟩)))
      · next hc =>
        rw [h2] at h
        cases h
        exact .inr (.inr (.inr (.inr (.inr (.inl ⟨rfl, hc, es, h1, by simp only [countDown, hs]⟩)))))
    · next hb =>
      rw [h2] at h
      split at h
      · next hc =>
        cases h
        exact .inr (.inr (.inr (.inr (.inl ⟨rfl, hc, hb, es, h1, rfl⟩))))
      · next hc =>
        cases h
        exact .inr (.inr (.inr (.inr (.inr (.inl ⟨rfl, hc, es, h1, by simp only [countDown, hs]⟩)))))
  case signalDone =>
    refine .inr (.inr (.inr (.inr (.inr (.inr ⟨rfl, ?_⟩)))))
    unfold deassertOe at h
    split at h
    · next hp =>
      cases h
      refine ⟨[], by simp, ?_⟩
      rw [← hp]
      simp [State.setTd, State.oGoto]
    · cases h
      exact ⟨[.oe true], by simp, rfl⟩

/-- What the output-enable sequencer puts on the trace: its line's edges, and one tick in a hold step that has one
(43_sequencers R222, R223). -/
theorem oseq_trace {s t : State} (h : exec s.oseq.state.instr s = .next t) :
    ∃ es, t.trace = s.trace ++ es ∧ (∀ e ∈ es, e = .tick ∨ ∃ b, e = .oe b) ∧
      es.count .tick = if s.oseq.state = .hold ∧ (s.par.holdBias ≠ 0 ∨ s.oseq.cnt ≠ 0) then 1 else 0 := by
  cases hs : s.oseq.state <;> rw [hs] at h
  case off => cases h; exact ⟨[], by simp⟩
  case loadDelay =>
    simp only [OState.instr, exec, execOLoadDelay] at h
    split at h <;> cases h <;> exact ⟨[], by simp⟩
  case awaitTimingStart =>
    simp only [OState.instr, exec, execOAwaitTimingStart] at h
    split at h <;> cases h <;> exact ⟨[], by simp [State.setTs, State.oGoto]⟩
  case signalDone =>
    simp only [OState.instr, exec, execOSignalDone] at h
    cases h
    by_cases ho : s.pins.oeN = true
    · exact ⟨[], by simp [deassertOe, ho]⟩
    · exact ⟨[.oe true], by simp [deassertOe, ho]⟩
  case hold =>
    have ht : ∃ es, ((assertOe s).emit [.tick]).trace = s.trace ++ es ∧ (∀ e ∈ es, e = .tick ∨ ∃ b, e = .oe b) ∧
        es.count .tick = 1 := by
      by_cases ho : s.pins.oeN = true
      · exact ⟨[.oe false, .tick], by simp [assertOe, ho]⟩
      · exact ⟨[.tick], by simp [assertOe, ho]⟩
    obtain ⟨es, e1, e2, e3⟩ := ht
    simp only [OState.instr, exec, execOHold] at h
    split at h
    · next hb =>
      split at h
      · next hc => cases h; exact ⟨[], by simp [hb, hc]⟩
      · next hc => cases h; exact ⟨es, e1, e2, by rw [e3, if_pos ⟨rfl, .inr hc⟩]⟩
    · next hb => split at h <;> cases h <;> exact ⟨es, e1, e2, by rw [e3, if_pos ⟨rfl, .inl hb⟩]⟩

/-! ### The sequencers touch their own state, the flags, the pins, the trace and their queue (43_sequencers R200) -/

theorem dseq_frame {s t : State} (h : exec s.dseq.state.instr s = .next t) :
    ∃ q d f p r, t = { s with dq := q, dseq := d, flags := f, pins := p, trace := r } := by
  rcases dseq_next h with rfl | ⟨-, rfl⟩ | ⟨-, w, l, q, -, ⟨-, rfl⟩ | ⟨-, rfl⟩⟩ | ⟨-, -, rfl⟩ <;>
    exact ⟨_, _, _, _, _, rfl⟩

theorem rseq_frame {s t : State} (h : exec s.rseq.state.instr s = .next t) :
    ∃ q f p r, t = { s with rseq := q, flags := f, pins := p, trace := r } := by
  rcases rseq_next h with rfl | ⟨-, rfl⟩ | ⟨-, rfl⟩ | ⟨-, rfl⟩ | ⟨-, -, rfl⟩ | ⟨-, rfl⟩ | ⟨-, rfl⟩ | ⟨-, -, rfl⟩ |
    ⟨-, -, rfl⟩ | ⟨-, -, -, rfl⟩ | ⟨-, -, -, rfl⟩ <;> exact ⟨_, _, _, _, rfl⟩

theorem oseq_frame {s t : State} (h : exec s.oseq.state.instr s = .next t) :
    ∃ q o f p r, t = { s with oq := q, oseq := o, flags := f, pins := p, trace := r } := by
  rcases oseq_next h with rfl | ⟨-, d, q, -, rfl⟩ | ⟨-, -, rfl⟩ | ⟨-, -, -, rfl⟩ | ⟨-, -, -, es, -, rfl⟩ |
    ⟨-, -, es, -, rfl⟩ | ⟨-, es, -, rfl⟩ <;> exact ⟨_, _, _, _, _, rfl⟩

end Sys2Proof.Machine
end

