-- ==== Sys2Proof/Laws/RenderInvariant.lean ====
section
/-! SUPPORT. The invariant of Display Memory under a step of RENDER, under the commands, and under everything that does not
touch what it speaks of (41_display_memory R165). -/

namespace Sys2Proof.Machine

/-- RenderInv reads these parts only -/
theorem RenderInv.congr {s t : State} (h : RenderInv s) (h0 : t.par = s.par) (h1 : t.cfg = s.cfg) (h2 : t.lutR = s.lutR)
   (h3 : t.lutG = s.lutG) (h4 : t.lutB = s.lutB) (h5 : t.active = s.active) (h6 : t.mem = s.mem) (h7 : t.render = s.render)
   (h8 : t.engine = s.engine) : RenderInv t := by
  have hb : ∀ a, t.byteAt a = s.byteAt a := fun a => by simp [State.byteAt, h0, h6]
  have hw : ∀ a, t.wordAt a = s.wordAt a := fun a => by simp [State.wordAt, h0, h6]
  have hf : t.fbPtr = s.fbPtr := by simp [State.fbPtr, hw, h0]
  have hd : t.delayPtr = s.delayPtr := by simp [State.delayPtr, hw, h0]
  have hp : t.pending = s.pending := pending_of_inFlight (by rw [h7])
  have hdb : t.drawBaseNow = s.drawBaseNow := by simp [State.drawBaseNow, hf, h0]
  obtain ⟨a1, a2, a3, a4, a5, a6, a7, a8, a9, a10, a11⟩ := h
  refine ⟨?_, ?_, ?_, ?_, ?_, ?_, ?_, ?_, ?_, ?_, ?_⟩
  · simpa only [h0] using a1
  · simpa only [h0, h1] using a2
  · simpa only [h0, h1, h2, h3, h4] using a3
  · simpa only [hf, hd, h5, h8] using a4
  · simpa only [hf, h0, h5] using a5
  · simpa only [hf, hd, h0, Attaching, hp, h8] using a6
  · simpa only [h0, hw] using a7
  · simpa only [h0, hb] using a8
  · simpa only [h0, hb] using a9
  · simpa only [h7] using a10
  · simpa only [Attaching, SettingUp, Drawing, h0, hf, hd, hp, h7, h8, hdb] using a11

theorem seq_renderInv {s : State} (h : RenderInv s) {dq oq d r o f p tr x1 x2 y1 y2 e} :
  RenderInv { s with dq := dq, oq := oq, dseq := d, rseq := r, oseq := o, flags := f, pins := p, trace := tr, a1 := x1, a2 := x2, b1 := y1, b2 := y2, env := e } :=
  h.congr rfl rfl rfl rfl rfl rfl rfl rfl rfl

/-- a drawing event keeps it -/
theorem draw_renderInv {s : State} {e : MemEvent} {es : List MemEvent} {c : Instr} (h : RenderInv s) (hd : Drawing s) (hp : s.pending = e :: es)
   (he : drawEventOk s.par e) : RenderInv (perform e { s with render := { s.render with inFlight := inFlightOf c es } }) := by
  obtain ⟨a1, a2, a3, a4, a5, a6, a7, a8, a9, a10, a11⟩ := h
  have hm := mapLegal_of_legal a1
  have ap := map_apart hm
  have mf := map_facts hm
  obtain ⟨d1, d2, d3, d4⟩ := hd
  have hdb : s.render.drawBase = s.par.fb0Base ∨ s.render.drawBase = s.par.fb1Base := by
    rw [d1]; unfold State.drawBaseNow; split <;> simp
  -- general facts on a memory that differs inside the draw buffer
  suffices H : ∀ t : State, t.par = s.par → t.cfg = s.cfg → t.lutR = s.lutR → t.lutG = s.lutG → t.lutB = s.lutB → t.active = s.active →
      t.engine = s.engine → t.render.drawBase = s.render.drawBase → t.pending = es → topClear t.render.old →
      (∀ a, t.byteAt a = s.byteAt a ∨ ((∃ o < s.par.frameSize, a = s.render.drawBase.toNat + o) ∧ topClear (t.byteAt a))) → RenderInv t by
    have hpend : ∀ u : State, u.render.inFlight = inFlightOf c es → u.pending = es := by
      intro u hu; unfold State.pending; rw [hu]; cases es <;> rfl
    cases e with
    | readDraw o =>
      refine H _ rfl rfl rfl rfl rfl rfl rfl rfl (hpend _ rfl) ?_ (fun a => .inl rfl)
      rcases hdb with e | e
      · show topClear (s.byteAt (s.render.drawBase.toNat + o)); rw [e]; exact a8 o he
      · show topClear (s.byteAt (s.render.drawBase.toNat + o)); rw [e]; exact a9 o he
    | orDraw o bits =>
      refine H _ rfl rfl rfl rfl rfl rfl rfl rfl (hpend _ rfl) a10 fun a => ?_
      simp only [perform]
      rw [byteAt_setByte]
      split
      · next e =>
        refine .inr ⟨⟨o, he.1, e⟩, ?_⟩
        have := he.2
        have h2 : topClear s.render.old := a10
        simp only [topClear] at *
        show BitVec.extractLsb' 6 2 (s.render.old ||| bits) = 0
        rw [BitVec.extractLsb'_or, this, h2]; rfl
      · exact .inl rfl
    | zeroDraw o =>
      refine H _ rfl rfl rfl rfl rfl rfl rfl rfl (hpend _ rfl) a10 fun a => ?_
      simp only [perform]
      rw [byteAt_setByte]
      split
      · next e => exact .inr ⟨⟨o, he, e⟩, by decide⟩
      · exact .inl rfl
    | _ => exact absurd he (by simp [drawEventOk])
  intro t h0 h1 h2 h3 h4 h5 h8 hdbt hpt hot hb
  have hw : ∀ a, (∀ o < s.par.frameSize, s.render.drawBase.toNat + o < a ∨ a + 4 ≤ s.render.drawBase.toNat + o) → t.wordAt a = s.wordAt a := by
    intro a ha
    refine wordAt_congr _ _ _ h0 fun k k1 k2 => ?_
    rcases hb k with h | ⟨⟨o, ho, e⟩, -⟩
    · exact h
    · have := ha o ho; omega
  have hf : t.fbPtr = s.fbPtr := by
    simp only [State.fbPtr, h0]
    refine hw _ fun o ho => ?_
    rcases hdb with e | e <;> rw [e] <;> omega
  have hd : t.delayPtr = s.delayPtr := by
    simp only [State.delayPtr, h0]
    refine hw _ fun o ho => ?_
    rcases hdb with e | e <;> rw [e] <;> omega
  have hdl : ∀ i < s.par.colorBits, t.wordAt (s.par.delaysBase.toNat + 4 * i) = s.wordAt (s.par.delaysBase.toNat + 4 * i) := by
    intro i hi
    refine hw _ fun o ho => ?_
    rcases hdb with e | e <;> rw [e] <;> omega
  have hdbn : t.drawBaseNow = s.drawBaseNow := by simp [State.drawBaseNow, hf, h0]
  refine ⟨?_, ?_, ?_, ?_, ?_, ?_, ?_, ?_, ?_, ?_, ?_⟩
  · simpa only [h0] using a1
  · simpa only [h0, h1] using a2
  · simpa only [h0, h1, h2, h3, h4] using a3
  · simpa only [hf, hd, h5, h8] using a4
  · simpa only [hf, h0, h5] using a5
  · intro h; left; rw [hd, h0]; exact d3
  · intro i hi; rw [h0] at hi ⊢; rw [hdl i hi]; exact a7 i hi
  · intro o ho; rw [h0] at ho ⊢
    rcases hb (s.par.fb0Base.toNat + o) with h | ⟨-, h⟩
    · rw [h]; exact a8 o ho
    · exact h
  · intro o ho; rw [h0] at ho ⊢
    rcases hb (s.par.fb1Base.toNat + o) with h | ⟨-, h⟩
    · rw [h]; exact a9 o ho
    · exact h
  · exact hot
  · refine .inr (.inr (.inr ⟨?_, ?_, ?_, ?_⟩))
    · rw [hdbt, hdbn]; exact d1
    · rw [hf]; exact d2
    · rw [hd, h0]; exact d3
    · intro e he; rw [hpt] at he; rw [h0]; exact d4 e (by rw [hp]; exact List.mem_cons_of_mem _ he)

theorem fb_outside {s : State} (hm : MapLegal s.par) {a : Word} (ha : a = s.par.fbPtrAddr ∨ a = s.par.delayPtrAddr) (v : Word) :
    (∀ o < s.par.frameSize, (s.setWord a.toNat v).byteAt (s.par.fb0Base.toNat + o) = s.byteAt (s.par.fb0Base.toNat + o)) ∧
    (∀ o < s.par.frameSize, (s.setWord a.toNat v).byteAt (s.par.fb1Base.toNat + o) = s.byteAt (s.par.fb1Base.toNat + o)) ∧
    (∀ i < s.par.colorBits, (s.setWord a.toNat v).wordAt (s.par.delaysBase.toNat + 4 * i) = s.wordAt (s.par.delaysBase.toNat + 4 * i)) := by
  have ap := map_apart hm
  rcases ha with rfl | rfl
  · exact ⟨fun o ho => byteAt_setWord_outside _ _ _ _ (by omega), fun o ho => byteAt_setWord_outside _ _ _ _ (by omega),
      fun i hi => wordAt_setWord_outside _ _ _ _ (by omega)⟩
  · exact ⟨fun o ho => byteAt_setWord_outside _ _ _ _ (by omega), fun o ho => byteAt_setWord_outside _ _ _ _ (by omega),
      fun i hi => wordAt_setWord_outside _ _ _ _ (by omega)⟩

theorem render_renderInv {s : State} (h : RenderInv s) : RenderInv (renderEvent s) := by
  have h' := h
  obtain ⟨a1, a2, a3, a4, a5, a6, a7, a8, a9, a10, a11⟩ := h
  have hm := mapLegal_of_legal a1
  have ap := map_apart hm
  have bn := bases_ne hm (frameSize_pos a1)
  cases hi : s.render.inFlight with
  | none => rw [renderEvent_idle hi]; exact h'
  | some f =>
    have hp : s.pending = f.event :: f.later := by simp [State.pending, hi]
    rw [renderEvent_busy hi]
    rcases a11 with h | ⟨h1, h2, h3⟩ | ⟨h1, h2, h3, h4⟩ | hd
    · rw [hp] at h; cases h
    · -- INIT's second store
      rw [hp] at h1; obtain ⟨e1, e2⟩ := List.cons.inj h1
      rw [e1, e2]
      obtain ⟨b1, b2, b3⟩ := fb_outside hm (.inr rfl) s.par.delaysBase
      have hf : (s.setWord s.par.delayPtrAddr.toNat s.par.delaysBase).fbPtr = s.fbPtr :=
        wordAt_setWord_outside s s.par.delayPtrAddr.toNat s.par.fbPtrAddr.toNat _ (by omega)
      have hd : (s.setWord s.par.delayPtrAddr.toNat s.par.delaysBase).delayPtr = s.par.delaysBase := wordAt_setWord_same _ _ _
      have hn : s.fbPtr ≠ nullPtr := by rw [h3]; exact bn.2.1
      refine ⟨a1, a2, a3, ?_, ?_, ?_, ?_, ?_, ?_, a10, .inl rfl⟩
      · intro h; exact absurd (hf ▸ h) hn
      · intro h; exact (hf.trans (a5 hn))
      · intro h; exact .inl hd
      · intro i hi; exact (b3 i hi).trans (a7 i hi)
      · intro o ho; exact (congrArg topClear (b1 o ho)).mpr (a8 o ho)
      · intro o ho; exact (congrArg topClear (b2 o ho)).mpr (a9 o ho)
    · rw [hp] at h1; obtain ⟨e1, e2⟩ := List.cons.inj h1
      rw [e1, e2]
      refine ⟨a1, a2, a3, ?_, a5, ?_, a7, a8, a9, a10, .inl rfl⟩
      · intro h; exact absurd h h3
      · intro h; exact .inl h4
    · exact draw_renderInv h' hd hp (hd.2.2.2 _ (by rw [hp]; exact List.mem_cons_self))

theorem offset_lt {s : State} (hl : ParamsLegal s.par) {x y : Int} (hr : InRange s.par x y) {b : Nat} (hb : b < s.par.colorBits) :
    pixelOffset s.par x.toNat y.toNat b < s.par.frameSize := by
  have h1 := hl.2.1.1
  exact offset_bound (by have := hr.1; omega) (Nat.mod_lt _ (by omega)) hb

theorem command_renderInv {i : Instr} {s t : State} (hc : isCommand i = true) (h : RenderInv s) (hx : exec i s = .next t) : RenderInv t := by
  obtain ⟨hn, hx⟩ := command_next hc hx
  have h' := h
  obtain ⟨a1, a2, a3, a4, a5, a6, a7, a8, a9, a10, a11⟩ := h
  have hm := mapLegal_of_legal a1
  have ap := map_apart hm
  have mf := map_facts hm
  have bn := bases_ne hm (frameSize_pos a1)
  have hpe : s.pending = [] := pending_eq_nil.2 hn
  have hdel : s.fbPtr ≠ nullPtr → s.delayPtr = s.par.delaysBase := by
    intro h; rcases a6 h with h | h
    · exact h
    · have := h.1; rw [hpe] at this; cases this
  have hret : ∀ u : State, ∀ r, RenderInv u → u.render.inFlight = none → RenderInv (completeCommand r u) := by
    intro u r hu hn
    have hpu : State.pending (completeCommand r u) = [] := pending_eq_nil.2 hn
    have hpu' : u.pending = [] := pending_eq_nil.2 hn
    obtain ⟨b1, b2, b3, b4, b5, b6, b7, b8, b9, b10, b11⟩ := hu
    refine ⟨b1, b2, b3, b4, b5, ?_, b7, b8, b9, b10, .inl hpu⟩
    intro hf; rcases b6 hf with h | h
    · exact .inl h
    · have := h.1; rw [hpu'] at this; cases this
  rcases hx with ⟨r, rfl⟩ | ⟨c, hcb, rfl⟩ | ⟨he, rfl⟩ | ⟨hf0, hd0, rfl⟩ | ⟨hf, hx⟩
  · exact hret s r h' hn
  · refine hret _ none ?_ hn
    exact ⟨a1, hcb, ⟨rfl, rfl, rfl⟩, a4, a5, a6, a7, a8, a9, a10, a11⟩
  · refine hret _ none ?_ hn
    have hf : s.fbPtr ≠ nullPtr := fun h => by have := (a4 h).2.2; rw [he] at this; cases this
    refine ⟨a1, a2, a3, ?_, a5, ?_, a7, a8, a9, a10, .inl hpe⟩
    · intro h; exact absurd h hf
    · intro h; exact .inl (hdel hf)
  · rw [beginCommand_cons]
    obtain ⟨-, -, heo⟩ := a4 hf0
    obtain ⟨b1, b2, b3⟩ := fb_outside hm (.inl rfl) s.par.fb0Base
    have hf : (s.setWord s.par.fbPtrAddr.toNat s.par.fb0Base).fbPtr = s.par.fb0Base := wordAt_setWord_same _ _ _
    refine ⟨a1, a2, a3, ?_, ?_, ?_, ?_, ?_, ?_, a10, .inr (.inl ⟨rfl, heo, hf⟩)⟩
    · intro h; exact absurd (hf ▸ h) bn.2.1
    · intro h; exact hf
    · intro h; exact .inr ⟨rfl, heo, hf⟩
    · intro i hi; exact (b3 i hi).trans (a7 i hi)
    · intro o ho; exact (congrArg topClear (b1 o ho)).mpr (a8 o ho)
    · intro o ho; exact (congrArg topClear (b2 o ho)).mpr (a9 o ho)
  · -- a drawing command's state right after its first event
    have hpend : ∀ (c : Instr) (es : List MemEvent) (u : State), u.render.inFlight = inFlightOf c es → u.pending = es := by
      intro c es u hu; unfold State.pending; rw [hu]; cases es <;> rfl
    rcases hx with ⟨x, y, c, -, hin, rfl⟩ | rfl | rfl | ⟨a, rfl⟩ | ⟨he, rfl⟩
    · unfold pixelEvents
      rw [beginCommand_cons]
      refine ⟨a1, a2, a3, fun h => absurd h hf, a5, fun h => .inl (hdel hf), a7, a8, a9, a10, .inr (.inr (.inr ⟨rfl, hf, hdel hf, ?_⟩))⟩
      intro e he
      rw [hpend i _ _ rfl] at he
      simp only [List.mem_flatMap, List.mem_range, List.mem_cons, List.not_mem_nil, or_false] at he
      obtain ⟨b, hb, rfl | rfl⟩ := he
      · exact offset_lt a1 ((inCanvas_iff _ _ _).1 hin) hb
      · exact ⟨offset_lt a1 ((inCanvas_iff _ _ _).1 hin) hb, pixelBits_top _ _ _ _⟩
    · rw [beginCommand_cons]
      refine ⟨a1, a2, a3, fun h => absurd h hf, a5, fun h => .inl (hdel hf), a7, a8, a9, a10, .inr (.inr (.inr ⟨rfl, hf, hdel hf, ?_⟩))⟩
      intro e he
      rw [hpend .clear _ _ rfl] at he
      simp only [zeroFill, List.mem_map, List.mem_range] at he
      obtain ⟨o, ho, rfl⟩ := he
      exact ho
    · rw [beginCommand_cons]
      obtain ⟨b1, b2, b3⟩ := fb_outside hm (.inl rfl) (activeBase s.par (!s.active))
      have hf' : (s.setWord s.par.fbPtrAddr.toNat (activeBase s.par (!s.active))).fbPtr = activeBase s.par (!s.active) := wordAt_setWord_same _ _ _
      have hd' : (s.setWord s.par.fbPtrAddr.toNat (activeBase s.par (!s.active))).delayPtr = s.delayPtr :=
        wordAt_setWord_outside s s.par.fbPtrAddr.toNat s.par.delayPtrAddr.toNat _ (by omega)
      have hnn : activeBase s.par (!s.active) ≠ nullPtr := by unfold activeBase; split; exact bn.2.2.1; exact bn.2.1
      refine ⟨a1, a2, a3, ?_, ?_, ?_, ?_, ?_, ?_, a10, .inr (.inr (.inr ⟨?_, ?_, ?_, ?_⟩))⟩
      · intro h; exact absurd (hf' ▸ h) hnn
      · intro h; exact hf'
      · intro h; exact .inl (hd'.trans (hdel hf))
      · intro i hi; exact (b3 i hi).trans (a7 i hi)
      · intro o ho; exact (congrArg topClear (b1 o ho)).mpr (a8 o ho)
      · intro o ho; exact (congrArg topClear (b2 o ho)).mpr (a9 o ho)
      · show drawBaseOf s.par (!s.active) = State.drawBaseNow (s.setWord s.par.fbPtrAddr.toNat (activeBase s.par (!s.active)))
        unfold State.drawBaseNow
        rw [hf']
        cases s.active <;> simp [drawBaseOf, activeBase, bn.1.symm]
      · exact hf'.symm ▸ hnn
      · exact hd'.trans (hdel hf)
      · intro e he
        rw [hpend .commit _ _ rfl] at he
        simp only [zeroFill, List.mem_map, List.mem_range] at he
        obtain ⟨o, ho, rfl⟩ := he
        exact ho
    · rw [beginCommand_cons]
      exact ⟨a1, a2, a3, a4, a5, fun h => .inl (hdel hf), a7, a8, a9, a10, .inl rfl⟩
    · rw [beginCommand_cons]
      exact ⟨a1, a2, a3, a4, a5, fun h => .inl (hdel hf), a7, a8, a9, a10, .inr (.inr (.inl ⟨rfl, he, hf, hdel hf⟩))⟩

end Sys2Proof.Machine
end

