-- ==== Sys2Proof/Laws/Transfers.lean ====
section
/-! SUPPORT. The transfers of the four channels with the targets ENGINE_SETUP gives them: the whole next state, said once
for each kind of channel. -/

namespace Sys2Proof.Machine

/-- Reading a channel's registers after replacing them. -/
theorem chan_setChan (s : State) (c : Chan) (r : ChanRegs) : (s.setChan c r).chan c = r := by cases c <;> rfl

/-- A write of A1 or B1 to its own port pushes. -/
theorem busWrite_data {s : State} (hm : MapLegal s.par) (hw : s.par.wA = 1 ∨ s.par.wA = 2 ∨ s.par.wA = 4)
    (hroom : s.dq.length < s.par.qdData) (v : Word) :
    busWrite s s.par.dataTxf s.par.wA v = .next { s with dq := s.dq ++ [v] } := by
  have h4 : s.par.dataTxf.toNat % 4 = 0 := hm.2.2.2.2.2.2.2.2.1
  have ho : objAt s.par s.par.dataTxf.toNat s.par.wA = some .dataPort := by
    refine objAt_of_holds hm (r := { obj := .dataPort, base := s.par.dataTxf.toNat, size := 4 }) (by simp [regions]) (by omega) ?_
    simp [Region.holds]; omega
  have hal : s.par.dataTxf.toNat % s.par.wA = 0 := by rcases hw with h | h | h <;> rw [h] <;> omega
  simp [busWrite, hal, ho, pushDq, hroom]

/-- A write of B1 to its port pushes. -/
theorem busWrite_oe {s : State} (hm : MapLegal s.par) (hroom : s.oq.length < s.par.qdOe) (v : Word) :
    busWrite s s.par.oeTxf 4 v = .next { s with oq := s.oq ++ [v] } := by
  have h4 : s.par.oeTxf.toNat % 4 = 0 := hm.2.2.2.2.2.2.2.2.2
  have ho : objAt s.par s.par.oeTxf.toNat 4 = some .oePort := by
    refine objAt_of_holds hm (r := { obj := .oePort, base := s.par.oeTxf.toNat, size := 4 }) (by simp [regions]) (by omega) ?_
    simp [Region.holds]
  simp [busWrite, h4, ho, pushOq, hroom]

/-- A write of A2 or B2 to the READ_ADDR register of its streaming channel. -/
theorem busWrite_readAddr {s : State} (hm : MapLegal s.par) {c : Chan} (v : Word) :
    busWrite s (readAddrAddr s.par c) 4 v = .next (s.setChan c { s.chan c with readAddr := v }) := by
  have h4 : s.par.dmaBase.toNat % 4 = 0 := hm.2.2.2.2.2.2.2.1
  have mf := (map_facts hm).2.2.2.2.2.1
  have hi : chanIndex c ≤ 3 := by cases c <;> decide
  have hn : (readAddrAddr s.par c).toNat = s.par.dmaBase.toNat + 16 * chanIndex c := by
    unfold readAddrAddr
    rw [BitVec.toNat_add, BitVec.toNat_ofNat, Nat.mod_eq_of_lt (a := 16 * chanIndex c) (by omega), Nat.mod_eq_of_lt (by omega)]
  have ho : objAt s.par (readAddrAddr s.par c).toNat 4 = some .dmaRegs := by
    refine objAt_of_holds hm (r := { obj := .dmaRegs, base := s.par.dmaBase.toNat, size := 64 }) (by simp [regions]) (by omega) ?_
    simp [Region.holds, hn]; omega
  have hal : (readAddrAddr s.par c).toNat % 4 = 0 := by omega
  have hsub : (readAddrAddr s.par c).toNat - s.par.dmaBase.toNat = 16 * chanIndex c := by omega
  simp only [busWrite, hal, ho, hsub, if_true]
  cases c <;> rfl

/-- A read a channel may make returns the bytes of memory. -/
theorem readable_mem {s : State} (hm : MapLegal s.par) {a : Word} {n : Nat} (hn : 1 ≤ n) (h : Readable s.par a n) :
    busRead s a n = some (BitVec.ofNat 32 (memNat s.par s.mem a.toNat n)) := by
  obtain ⟨h1, r, hr, h2, h3⟩ := h
  exact busRead_inside hm hr hn h1 h3 h2

/-- Replacing one channel's registers leaves the others. -/
theorem chan_setChan_other (s : State) {c d : Chan} (r : ChanRegs) (h : d ≠ c) : (s.setChan c r).chan d = s.chan d := by
  cases c <;> cases d <;> first | rfl | exact absurd rfl h

/-- Replacing a channel's registers by themselves changes nothing. -/
theorem setChan_self (s : State) (c : Chan) : s.setChan c (s.chan c) = s := by cases c <;> rfl

/-- `REMAIN` counts down to 0 exactly from 1. -/
theorem sub_one_eq_zero {x : Word} : x - 1 = 0 ↔ x = 1 := by
  constructor
  · intro h; have := congrArg (· + 1) h; simpa using this
  · rintro rfl; rfl

/-- The chain trigger sets `BUSY` of an enabled channel. -/
theorem trigger_eq (c : Chan) (s : State) : trigger c s = s.setChan c (triggeredBy true (s.chan c)) := by
  unfold trigger triggeredBy
  dsimp only
  split
  · next h =>
    simp only [Bool.and_eq_true, Bool.not_eq_true'] at h
    simp [h.1]
  · next h =>
    have e : ((s.chan c).busy || (true && ctrlEn (s.chan c).ctrl)) = (s.chan c).busy := by
      cases h1 : (s.chan c).busy <;> cases h2 : ctrlEn (s.chan c).ctrl <;> simp_all
    rw [e]
    exact (setChan_self s c).symm

/-- The registers of a channel after one transfer (42_transfer_engine R171). -/
abbrev ChanRegs.moved (r : ChanRegs) (w : BitVec 16) : ChanRegs :=
  { counted r with
    readAddr := if ctrlIncrRead w then r.readAddr + BitVec.ofNat 32 (ctrlBytes w) else r.readAddr
    writeAddr := if ctrlIncrWrite w then r.writeAddr + BitVec.ofNat 32 (ctrlBytes w) else r.writeAddr }

/-- The bookkeeping of a busy channel that is not chained to itself. -/
theorem retire_eq {c : Chan} {w : BitVec 16} {s : State} (hb : (s.chan c).busy = true) (hc : ctrlChainTo w ≠ c) :
    retire c w s = (s.setChan c ((s.chan c).moved w)).setChan (ctrlChainTo w)
      (triggeredBy (decide ((s.chan c).remain = 1)) (s.chan (ctrlChainTo w))) := by
  unfold retire
  simp only [ChanRegs.advance, sub_one_eq_zero]
  split
  · next h =>
    rw [trigger_eq, chan_setChan_other _ _ hc]
    simp only [ChanRegs.moved, h, if_true, ne_eq, not_true_eq_false, decide_false, decide_true]
  · next h =>
    have e : triggeredBy (decide ((s.chan c).remain = 1)) (s.chan (ctrlChainTo w)) =
        (s.setChan c ((s.chan c).moved w)).chan (ctrlChainTo w) := by
      rw [chan_setChan_other _ _ hc]
      simp only [triggeredBy, h, decide_false, Bool.false_and, Bool.or_false]
    rw [e, setChan_self]
    simp only [ChanRegs.moved, h, if_false, ne_eq, not_false_eq_true, decide_true, hb]

/-- The transfer of A1 with its programmed target (42_transfer_engine R180). -/
theorem transfer_a1 {s : State} {w : BitVec 16} (hm : MapLegal s.par) (hw : s.par.wA = 1 ∨ s.par.wA = 2 ∨ s.par.wA = 4)
    (h1 : ctrlBytes w = s.par.wA) (h2 : ctrlReserved w = false) (h3 : ctrlIncrRead w = true) (h4 : ctrlIncrWrite w = false)
    (h5 : ctrlChainTo w = .a2) (h6 : paced s w = s.dqHasRoom) (hb : s.a1.busy = true) (hr : s.dq.length < s.par.qdData)
    (hrd : Readable s.par s.a1.readAddr s.par.wA) (hwr : s.a1.writeAddr = s.par.dataTxf) :
    transfer .a1 w s = .next { s with
      dq := s.dq ++ [BitVec.ofNat 32 (memNat s.par s.mem s.a1.readAddr.toNat s.par.wA)]
      a1 := streamed s.a1 s.par.wA, a2 := triggeredBy (decide (s.a1.remain = 1)) s.a2 } := by
  have hp : paced s w = true := by rw [h6]; simp [State.dqHasRoom, hr]
  unfold transfer
  rw [h1, h2, hp]
  simp only [State.chan, hb, if_true, Bool.false_eq_true, if_false]
  rw [readable_mem hm (by omega) hrd]
  simp only [hwr]
  rw [busWrite_data hm hw hr]
  simp only [andThen]
  have hx := retire_eq (c := .a1) (w := w) (s := { s with
    dq := s.dq ++ [BitVec.ofNat 32 (memNat s.par s.mem s.a1.readAddr.toNat s.par.wA)] }) hb (by rw [h5]; decide)
  rw [hx, h5]
  simp only [State.chan, State.setChan, ChanRegs.moved, h1, h3, h4, if_true, Bool.false_eq_true, if_false]
  rfl

/-- The transfer of B1 with its programmed target (42_transfer_engine R182). -/
theorem transfer_b1 {s : State} (hm : MapLegal s.par) (hb : s.b1.busy = true) (hr : s.oq.length < s.par.qdOe)
    (hrd : Readable s.par s.b1.readAddr 4) (hwr : s.b1.writeAddr = s.par.oeTxf) :
    transfer .b1 ctrlB1 s = .next { s with
      oq := s.oq ++ [BitVec.ofNat 32 (memNat s.par s.mem s.b1.readAddr.toNat 4)]
      b1 := streamed s.b1 4, b2 := triggeredBy (decide (s.b1.remain = 1)) s.b2 } := by
  have hp : paced s ctrlB1 = true := by simp [State.oqHasRoom, hr]
  unfold transfer
  have h1 : ctrlBytes ctrlB1 = 4 := by decide
  have h2 : ctrlReserved ctrlB1 = false := by decide
  have h3 : ctrlIncrRead ctrlB1 = true := by decide
  have h4 : ctrlIncrWrite ctrlB1 = false := by decide
  have h5 : ctrlChainTo ctrlB1 = .b2 := by decide
  rw [h1, h2, hp]
  simp only [State.chan, hb, if_true, Bool.false_eq_true, if_false]
  rw [readable_mem hm (by omega) hrd]
  simp only [hwr]
  rw [busWrite_oe hm hr]
  simp only [andThen]
  have hx := retire_eq (c := .b1) (w := ctrlB1) (s := { s with
    oq := s.oq ++ [BitVec.ofNat 32 (memNat s.par s.mem s.b1.readAddr.toNat 4)] }) hb (by rw [h5]; decide)
  rw [hx, h5]
  simp only [State.chan, State.setChan, ChanRegs.moved, h1, h3, h4, if_true, Bool.false_eq_true, if_false]
  rfl

/-- The transfer of a re-arm channel with its programmed target, the READ_ADDR register of the channel it is chained to
(42_transfer_engine R181, R182). -/
theorem transfer_rearm {s : State} {c d : Chan} {w : BitVec 16} (hm : MapLegal s.par) (h1 : ctrlBytes w = 4)
    (h2 : ctrlReserved w = false) (h3 : ctrlIncrRead w = false) (h4 : ctrlIncrWrite w = false) (h5 : ctrlChainTo w = d)
    (h6 : paced s w = true) (hne : d ≠ c) (hb : (s.chan c).busy = true) (hrd : Readable s.par (s.chan c).readAddr 4)
    (hwr : (s.chan c).writeAddr = readAddrAddr s.par d) :
    transfer c w s = .next ((s.setChan c (counted (s.chan c))).setChan d (triggeredBy (decide ((s.chan c).remain = 1))
      { s.chan d with readAddr := BitVec.ofNat 32 (memNat s.par s.mem (s.chan c).readAddr.toNat 4) })) := by
  unfold transfer
  rw [h1, h2, h6]
  simp only [hb, if_true, Bool.false_eq_true, if_false]
  rw [readable_mem hm (by omega) hrd]
  simp only [hwr]
  rw [busWrite_readAddr hm]
  simp only [andThen]
  have hc := chan_setChan_other s { s.chan d with readAddr := BitVec.ofNat 32 (memNat s.par s.mem (s.chan c).readAddr.toNat 4) } hne.symm
  rw [retire_eq (by rw [hc]; exact hb) (by rw [h5]; exact hne), h5, hc, chan_setChan]
  simp only [ChanRegs.moved, h3, h4, Bool.false_eq_true, if_false]
  cases c <;> cases d <;> first | exact absurd rfl hne | rfl

end Sys2Proof.Machine
end

