-- ==== Sys2Proof/Laws/Channels.lean ====
section
/-! SUPPORT. The channels while the engine runs: what the channel invariant rests on, and what one transfer can do. -/

namespace Sys2Proof.Machine

/-- The channel invariant speaks of these parts of the state only. -/
theorem ChannelInv.congr {s t : State} (h : ChannelInv s) (h0 : t.par = s.par) (h1 : t.engine = s.engine) (h2 : t.a1 = s.a1) (h3 : t.a2 = s.a2)
   (h4 : t.b1 = s.b1) (h5 : t.b2 = s.b2) (h6 : t.rseq.rowsM1 = s.rseq.rowsM1 ∧ t.rseq.planesM1 = s.rseq.planesM1)
   (h7 : t.pending = [.setupPairB] → s.pending = [.setupPairB]) : ChannelInv t := by
  obtain ⟨a1, a2, a3, a4, a5, a6, a7, a8, a9⟩ := h
  refine ⟨?_, ?_, ?_, ?_, ?_, ?_, ?_, ?_, ?_⟩
  · simpa only [h1, h2, h3, h4, h5] using a1
  · intro h; have := a2 (h7 h); simpa only [FixedA, InPass, h0, h2, h3] using this
  · simpa only [FixedA, FixedB, h0, h1, h2, h3, h4, h5, h6.1, h6.2] using a3
  · simpa only [h1, h2, h3, h4, h5] using a4
  · simpa only [InPass, h0, h1, h2, h3] using a5
  · simpa only [InDelays, h0, h1, h4, h5] using a6
  · simpa only [h1, h2, h4] using a7
  · simpa only [h2, h3] using a8
  · simpa only [h4, h5] using a9

/-- A frame is a whole, positive number of transfers of at most 4 bytes. -/
theorem pass_facts {p : Params} (hl : ParamsLegal p) : 1 ≤ p.wA ∧ p.wA ≤ 4 ∧ p.frameSize / p.wA * p.wA = p.frameSize ∧ 1 ≤ p.frameSize / p.wA ∧ p.frameSize / p.wA < 2 ^ 32 ∧ p.frameSize < 2 ^ 32 := by
  have h1 := transferSize_of_legal hl
  have h2 : p.frameSize % p.wA = 0 := hl.2.2.2.2.1
  have h3 := frameSize_pos hl
  have h4 := (map_facts (mapLegal_of_legal hl)).1
  have h5 : p.frameSize / p.wA * p.wA = p.frameSize := by rw [Nat.mul_comm]; exact Nat.mul_div_cancel' (Nat.dvd_of_mod_eq_zero h2)
  have h6 : 1 ≤ p.frameSize / p.wA := by
    rcases Nat.eq_zero_or_pos (p.frameSize / p.wA) with h | h
    · rw [h] at h5; omega
    · exact h
  have h7 : p.frameSize / p.wA ≤ p.frameSize := Nat.div_le_self _ _
  exact ⟨by omega, by omega, h5, h6, by omega, by omega⟩

theorem word_eq_one {x : Word} : x = 1 ↔ x.toNat = 1 := by
  constructor
  · rintro rfl; rfl
  · intro h; exact BitVec.eq_of_toNat_eq h

theorem toNat_sub_one {x : Word} (h : 1 ≤ x.toNat) : (x - 1).toNat = x.toNat - 1 := by
  have := x.isLt
  rw [BitVec.toNat_sub]
  have : (1 : Word).toNat = 1 := rfl
  omega

/-- Inside a pass A1 reads aligned bytes of a framebuffer. -/
theorem readable_a1 {s : State} (hl : ParamsLegal s.par) (h : InPass s) : Readable s.par s.a1.readAddr s.par.wA := by
  have hm := mapLegal_of_legal hl
  obtain ⟨f1, f2, f3, f4, f5, f6⟩ := pass_facts hl
  obtain ⟨k, hk, ⟨-, -, h⟩ | ⟨-, -, h⟩⟩ := h
  all_goals
    have hle : k * s.par.wA + s.par.wA ≤ s.par.frameSize := by
      calc k * s.par.wA + s.par.wA = (k + 1) * s.par.wA := by ring
        _ ≤ s.par.frameSize / s.par.wA * s.par.wA := Nat.mul_le_mul_right _ hk
        _ = s.par.frameSize := f3
  · refine ⟨?_, { obj := .fb0, base := s.par.fb0Base.toNat, size := s.par.frameSize }, by simp [regions], rfl, ?_⟩
    · rw [h, Nat.add_mul_mod_self_right]; exact hm.2.2.1
    · simp [Region.holds, h]; omega
  · refine ⟨?_, { obj := .fb1, base := s.par.fb1Base.toNat, size := s.par.frameSize }, by simp [regions], rfl, ?_⟩
    · rw [h, Nat.add_mul_mod_self_right]; exact hm.2.2.2.1
    · simp [Region.holds, h]; omega

/-- Inside an activation B1 reads a word of the delay table. -/
theorem readable_b1 {s : State} (hl : ParamsLegal s.par) (h : InDelays s) : Readable s.par s.b1.readAddr 4 := by
  have hm := mapLegal_of_legal hl
  have hd : s.par.delaysBase.toNat % 4 = 0 := hm.2.2.2.2.1
  obtain ⟨k, hk, -, -, h⟩ := h
  refine ⟨by omega, { obj := .delays, base := s.par.delaysBase.toNat, size := 4 * s.par.colorBits }, by simp [regions], rfl, ?_⟩
  simp [Region.holds, h]; omega

/-- Both pointer variables can be read. -/
theorem readable_ptr {p : Params} (hl : ParamsLegal p) : Readable p p.fbPtrAddr 4 ∧ Readable p p.delayPtrAddr 4 := by
  have hm := mapLegal_of_legal hl
  have hd : p.fbPtrAddr.toNat % 4 = 0 := hm.2.2.2.2.2.1
  have hd' : p.delayPtrAddr.toNat % 4 = 0 := hm.2.2.2.2.2.2.1
  refine ⟨⟨hd, { obj := .fbPtr, base := p.fbPtrAddr.toNat, size := 4 }, by simp [regions], rfl, ?_⟩,
    ⟨hd', { obj := .delayPtr, base := p.delayPtrAddr.toNat, size := 4 }, by simp [regions], rfl, ?_⟩⟩ <;> simp [Region.holds]

/-- One streaming transfer inside an activation. -/
theorem streaming_next {r : ChanRegs} {base : Word} {n count k : Nat} (hn : n ≤ 4) (hb : base.toNat + count * n ≤ 2 ^ 32)
    (h : Streaming r base n count k) (h1 : r.remain ≠ 1) : k + 1 < count ∧ Streaming (streamed r n) base n count (k + 1) := by
  obtain ⟨h2, h3, h4⟩ := h
  have h1' : r.remain.toNat ≠ 1 := fun e => h1 (word_eq_one.2 e)
  have hk : k + 1 < count := by omega
  have hmul : (k + 1) * n + n ≤ count * n := by
    calc (k + 1) * n + n = (k + 2) * n := by ring
      _ ≤ count * n := Nat.mul_le_mul_right _ hk
  refine ⟨hk, hk, ?_, ?_⟩
  · simp only [if_neg h1]
    rw [toNat_sub_one (by omega)]; omega
  · show (r.readAddr + BitVec.ofNat 32 n).toNat = _
    rw [BitVec.toNat_add, BitVec.toNat_ofNat, Nat.mod_eq_of_lt (a := n) (by omega), h4]
    have : (k + 1) * n = k * n + n := by ring
    rw [Nat.mod_eq_of_lt (by omega)]; omega

/-- What the enabled step of a channel does while the engine runs in good order. -/
theorem channel_move {s t : State} {c : Chan} (hr : RenderInv s) (hi : ChannelInv s) (hen : chanEnabled c s = true)
    (h : transfer c (s.chan c).ctrl s = .next t) :
    s.engine = .running ∧
     ((c = .a1 ∧ s.a1.busy = true ∧ s.a2.busy = false ∧ s.dq.length < s.par.qdData ∧
        t = { s with
          dq := s.dq ++ [BitVec.ofNat 32 (memNat s.par s.mem s.a1.readAddr.toNat s.par.wA)]
          a1 := streamed s.a1 s.par.wA, a2 := { s.a2 with busy := decide (s.a1.remain = 1) } }) ∨
      (c = .a2 ∧ s.a2.busy = true ∧ s.a1.busy = false ∧
        t = { s with a1 := { s.a1 with readAddr := s.fbPtr, busy := true }, a2 := { s.a2 with busy := false } }) ∨
      (c = .b1 ∧ s.b1.busy = true ∧ s.b2.busy = false ∧ s.oq.length < s.par.qdOe ∧
        t = { s with
          oq := s.oq ++ [BitVec.ofNat 32 (memNat s.par s.mem s.b1.readAddr.toNat 4)]
          b1 := streamed s.b1 4, b2 := { s.b2 with busy := decide (s.b1.remain = 1) } }) ∨
      (c = .b2 ∧ s.b2.busy = true ∧ s.b1.busy = false ∧
        t = { s with b1 := { s.b1 with readAddr := s.delayPtr, busy := true }, b2 := { s.b2 with busy := false } })) := by
  have hl := hr.legal
  have hm := mapLegal_of_legal hl
  simp only [chanEnabled, Bool.and_eq_true] at hen
  obtain ⟨hb, hp⟩ := hen
  have he : s.engine = .running := by
    by_contra he
    obtain ⟨x1, x2, x3, x4⟩ := hi.idle he
    cases c <;> simp_all [State.chan]
  have hne : s.engine ≠ .off := by rw [he]; decide
  refine ⟨he, ?_⟩
  obtain ⟨fa, fb⟩ := hi.fixed hne
  obtain ⟨pa, pb⟩ := hi.pairs he
  cases c
  · have h2 : s.a2.busy = false := by rw [State.chan] at hb; rw [hb] at pa; simpa using pa.symm
    simp only [State.chan] at h hp hb
    have hroom : s.dq.length < s.par.qdData := by
      rw [fb.1] at hp
      rcases ctrlA1_cases s.par with e | e | e <;> rw [e] at hp <;> simpa [State.dqHasRoom] using hp
    have hx := transfer_a1 (w := ctrlA1 s.par) hm (transferSize_of_legal hl) (ctrlBytes_ctrlA1 hl)
      (by rcases ctrlA1_cases s.par with e | e | e <;> rw [e] <;> decide) (by rcases ctrlA1_cases s.par with e | e | e <;> rw [e] <;> decide)
      (by rcases ctrlA1_cases s.par with e | e | e <;> rw [e] <;> decide) (by rcases ctrlA1_cases s.par with e | e | e <;> rw [e] <;> decide)
      (by rcases ctrlA1_cases s.par with e | e | e <;> rw [e] <;> rfl) hb hroom (readable_a1 hl (hi.passA hne h2)) fa.1
    rw [fb.1, hx] at h
    left
    refine ⟨rfl, hb, h2, hroom, ?_⟩
    rw [← Host.Outcome.next.inj h]
    have e2 : ctrlEn s.a2.ctrl = true := by rw [fb.2.1]; decide
    simp only [triggeredBy, h2, e2, Bool.false_or, Bool.and_true]
  · have h2 : s.a1.busy = false := by rw [State.chan] at hb; rw [hb] at pa; simpa using pa
    simp only [State.chan] at h hp hb
    have hrd : Readable s.par s.a2.readAddr 4 := by rw [fa.2.2.1]; exact (readable_ptr hl).1
    have hx := transfer_rearm (c := .a2) (d := .a1) (w := ctrlA2) hm (by decide) (by decide) (by decide) (by decide) (by decide) rfl (by decide) hb hrd fa.2.2.2.1
    rw [fb.2.1, hx] at h
    right; left
    refine ⟨rfl, hb, h2, ?_⟩
    rw [← Host.Outcome.next.inj h]
    have e2 : ctrlEn s.a1.ctrl = true := by rw [fb.1]; rcases ctrlA1_cases s.par with e | e | e <;> rw [e] <;> decide
    have e3 : s.a2.remain = 1 := fa.2.2.2.2.2
    have e4 : s.a2.transCount = 1 := fa.2.2.2.2.1
    simp only [triggeredBy, counted, State.chan, State.setChan, h2, e2, e3, e4, fa.2.2.1, if_true, decide_true, Bool.false_or, Bool.and_true, ne_eq, not_true_eq_false, decide_false, State.fbPtr, State.wordAt]
  · have h2 : s.b2.busy = false := by rw [State.chan] at hb; rw [hb] at pb; simpa using pb.symm
    simp only [State.chan] at h hp hb
    have hroom : s.oq.length < s.par.qdOe := by
      rw [fb.2.2.1] at hp; simpa [State.oqHasRoom] using hp
    have hx := transfer_b1 hm hb hroom (readable_b1 hl (hi.passB hne h2)) fb.2.2.2.2.1
    rw [fb.2.2.1, hx] at h
    right; right; left
    refine ⟨rfl, hb, h2, hroom, ?_⟩
    rw [← Host.Outcome.next.inj h]
    have e2 : ctrlEn s.b2.ctrl = true := by rw [fb.2.2.2.1]; decide
    simp only [triggeredBy, h2, e2, Bool.false_or, Bool.and_true]
  · have h2 : s.b1.busy = false := by rw [State.chan] at hb; rw [hb] at pb; simpa using pb
    simp only [State.chan] at h hp hb
    have hrd : Readable s.par s.b2.readAddr 4 := by rw [fb.2.2.2.2.2.2.1]; exact (readable_ptr hl).2
    have hx := transfer_rearm (c := .b2) (d := .b1) (w := ctrlB2) hm (by decide) (by decide) (by decide) (by decide) (by decide) rfl (by decide) hb hrd fb.2.2.2.2.2.2.2.1
    rw [fb.2.2.2.1, hx] at h
    right; right; right
    refine ⟨rfl, hb, h2, ?_⟩
    rw [← Host.Outcome.next.inj h]
    have e2 : ctrlEn s.b1.ctrl = true := by rw [fb.2.2.1]; decide
    have e3 : s.b2.remain = 1 := fb.2.2.2.2.2.2.2.2.2.1
    have e4 : s.b2.transCount = 1 := fb.2.2.2.2.2.2.2.2.1
    simp only [triggeredBy, counted, State.chan, State.setChan, h2, e2, e3, e4, fb.2.2.2.2.2.2.1, if_true, decide_true, Bool.false_or, Bool.and_true, ne_eq, not_true_eq_false, decide_false, State.delayPtr, State.wordAt]

/-- The step of a channel that is not enabled changes nothing. -/
theorem channel_wait {s t : State} {c : Chan} (hen : chanEnabled c s = false) (h : transfer c (s.chan c).ctrl s = .next t) :
    t = s := by
  unfold transfer at h
  split at h
  · next hb =>
    rw [chanEnabled, hb, Bool.true_and] at hen
    simp only [hen, Bool.false_eq_true, if_false] at h
    split at h <;> cases h
    rfl
  · cases h
    rfl

/-- What a channel step can do while the engine runs in good order. -/
theorem channel_next {s t : State} {c : Chan} (hr : RenderInv s) (hi : ChannelInv s) (h : transfer c (s.chan c).ctrl s = .next t) :
    t = s ∨ (s.engine = .running ∧
     ((c = .a1 ∧ s.a1.busy = true ∧ s.a2.busy = false ∧ s.dq.length < s.par.qdData ∧
        t = { s with
          dq := s.dq ++ [BitVec.ofNat 32 (memNat s.par s.mem s.a1.readAddr.toNat s.par.wA)]
          a1 := streamed s.a1 s.par.wA, a2 := { s.a2 with busy := decide (s.a1.remain = 1) } }) ∨
      (c = .a2 ∧ s.a2.busy = true ∧ s.a1.busy = false ∧
        t = { s with a1 := { s.a1 with readAddr := s.fbPtr, busy := true }, a2 := { s.a2 with busy := false } }) ∨
      (c = .b1 ∧ s.b1.busy = true ∧ s.b2.busy = false ∧ s.oq.length < s.par.qdOe ∧
        t = { s with
          oq := s.oq ++ [BitVec.ofNat 32 (memNat s.par s.mem s.b1.readAddr.toNat 4)]
          b1 := streamed s.b1 4, b2 := { s.b2 with busy := decide (s.b1.remain = 1) } }) ∨
      (c = .b2 ∧ s.b2.busy = true ∧ s.b1.busy = false ∧
        t = { s with b1 := { s.b1 with readAddr := s.delayPtr, busy := true }, b2 := { s.b2 with busy := false } }))) := by
  cases hen : chanEnabled c s
  · exact .inl (channel_wait hen h)
  · exact .inr (channel_move hr hi hen h)

end Sys2Proof.Machine
end

