-- ==== Sys2Proof/Laws/Handshake.lean ====
section
/-! SUPPORT. The handshake invariant under each agent's step and under the commands (43_sequencers R230, R232). -/

namespace Sys2Proof.Machine

abbrev TokensOf (d : DState) (r : RState) (o : OState) (rdr ras ts td : Bool) : Prop :=
  (d ≠ .off ∧ r ≠ .off ∧ o ≠ .off) ∧
  ((r = .latch ∨ r = .signalTiming) ↔ d = .awaitNextRow ∧ rdr = false ∧ ras = false) ∧
  ¬(rdr = true ∧ ras = true) ∧
  (rdr = true ∨ ras = true → d = .awaitNextRow) ∧
  (r = .awaitTimingDone ↔ ts = true ∨ (o = .hold ∨ o = .signalDone) ∨ td = true) ∧
  ¬(ts = true ∧ td = true) ∧
  (ts = true ∨ td = true → o = .loadDelay ∨ o = .awaitTimingStart)

theorem tokens_iff (s : State) : Tokens s ↔ TokensOf s.dseq.state s.rseq.state s.oseq.state s.flags.rdr s.flags.ras s.flags.ts s.flags.td := Iff.rfl

theorem tok_d1 {r o rdr ras ts td} : TokensOf .loadWidth r o rdr ras ts td → TokensOf .shiftColumn r o rdr ras ts td := by
  rintro ⟨⟨h1, h2, h3⟩, h4, h5, h6, h7, h8, h9⟩
  refine ⟨⟨?_, ?_, ?_⟩, ?_, ?_, ?_, ?_, ?_, ?_⟩ <;> simp_all
theorem tok_d2 {r o rdr ras ts td} : TokensOf .shiftColumn r o rdr ras ts td → TokensOf .awaitNextRow r o true ras ts td := by
  rintro ⟨⟨h1, h2, h3⟩, h4, h5, h6, h7, h8, h9⟩
  refine ⟨⟨?_, ?_, ?_⟩, ?_, ?_, ?_, ?_, ?_, ?_⟩ <;> simp_all
theorem tok_d3 {r o rdr ts td} : TokensOf .awaitNextRow r o rdr true ts td → TokensOf .loadWidth r o rdr false ts td := by
  rintro ⟨⟨h1, h2, h3⟩, h4, h5, h6, h7, h8, h9⟩
  refine ⟨⟨?_, ?_, ?_⟩, ?_, ?_, ?_, ?_, ?_, ?_⟩ <;> simp_all
theorem tok_r1 {d o rdr ras ts td} : TokensOf d .loadRowCount o rdr ras ts td → TokensOf d .loadPlaneCount o rdr ras ts td := by
  rintro ⟨⟨h1, h2, h3⟩, h4, h5, h6, h7, h8, h9⟩
  refine ⟨⟨?_, ?_, ?_⟩, ?_, ?_, ?_, ?_, ?_, ?_⟩ <;> simp_all
theorem tok_r2 {d o rdr ras ts td} : TokensOf d .loadPlaneCount o rdr ras ts td → TokensOf d .setAddress o rdr ras ts td := by
  rintro ⟨⟨h1, h2, h3⟩, h4, h5, h6, h7, h8, h9⟩
  refine ⟨⟨?_, ?_, ?_⟩, ?_, ?_, ?_, ?_, ?_, ?_⟩ <;> simp_all
theorem tok_r3 {d o rdr ras ts td} : TokensOf d .setAddress o rdr ras ts td → TokensOf d .awaitData o rdr ras ts td := by
  rintro ⟨⟨h1, h2, h3⟩, h4, h5, h6, h7, h8, h9⟩
  refine ⟨⟨?_, ?_, ?_⟩, ?_, ?_, ?_, ?_, ?_, ?_⟩ <;> simp_all
theorem tok_r4 {d o ras ts td} : TokensOf d .awaitData o true ras ts td → TokensOf d .latch o false ras ts td := by
  rintro ⟨⟨h1, h2, h3⟩, h4, h5, h6, h7, h8, h9⟩
  refine ⟨⟨?_, ?_, ?_⟩, ?_, ?_, ?_, ?_, ?_, ?_⟩ <;> simp_all
theorem tok_r5 {d o rdr ras ts td} : TokensOf d .latch o rdr ras ts td → TokensOf d .signalTiming o rdr ras ts td := by
  rintro ⟨⟨h1, h2, h3⟩, h4, h5, h6, h7, h8, h9⟩
  refine ⟨⟨?_, ?_, ?_⟩, ?_, ?_, ?_, ?_, ?_, ?_⟩ <;> simp_all
theorem tok_r6 {d o rdr ras ts td} : TokensOf d .signalTiming o rdr ras ts td → TokensOf d .awaitTimingDone o rdr true true td := by
  rintro ⟨⟨h1, h2, h3⟩, h4, h5, h6, h7, h8, h9⟩
  refine ⟨⟨?_, ?_, ?_⟩, ?_, ?_, ?_, ?_, ?_, ?_⟩ <;> (try simp_all) <;> cases o <;> simp_all
theorem tok_r7 {d o rdr ras ts} : TokensOf d .awaitTimingDone o rdr ras ts true → TokensOf d .next o rdr ras ts false := by
  rintro ⟨⟨h1, h2, h3⟩, h4, h5, h6, h7, h8, h9⟩
  refine ⟨⟨?_, ?_, ?_⟩, ?_, ?_, ?_, ?_, ?_, ?_⟩ <;> (try simp_all) <;> cases o <;> simp_all
theorem tok_r8a {d o rdr ras ts td} : TokensOf d .next o rdr ras ts td → TokensOf d .setAddress o rdr ras ts td := by
  rintro ⟨⟨h1, h2, h3⟩, h4, h5, h6, h7, h8, h9⟩
  refine ⟨⟨?_, ?_, ?_⟩, ?_, ?_, ?_, ?_, ?_, ?_⟩ <;> simp_all
theorem tok_r8b {d o rdr ras ts td} : TokensOf d .next o rdr ras ts td → TokensOf d .loadPlaneCount o rdr ras ts td := by
  rintro ⟨⟨h1, h2, h3⟩, h4, h5, h6, h7, h8, h9⟩
  refine ⟨⟨?_, ?_, ?_⟩, ?_, ?_, ?_, ?_, ?_, ?_⟩ <;> simp_all
theorem tok_r8c {d o rdr ras ts td} : TokensOf d .next o rdr ras ts td → TokensOf d .loadRowCount o rdr ras ts td := by
  rintro ⟨⟨h1, h2, h3⟩, h4, h5, h6, h7, h8, h9⟩
  refine ⟨⟨?_, ?_, ?_⟩, ?_, ?_, ?_, ?_, ?_, ?_⟩ <;> simp_all
theorem tok_o1 {d r rdr ras ts td} : TokensOf d r .loadDelay rdr ras ts td → TokensOf d r .awaitTimingStart rdr ras ts td := by
  rintro ⟨⟨h1, h2, h3⟩, h4, h5, h6, h7, h8, h9⟩
  refine ⟨⟨?_, ?_, ?_⟩, ?_, ?_, ?_, ?_, ?_, ?_⟩ <;> simp_all
theorem tok_o2 {d r rdr ras td} : TokensOf d r .awaitTimingStart rdr ras true td → TokensOf d r .hold rdr ras false td := by
  rintro ⟨⟨h1, h2, h3⟩, h4, h5, h6, h7, h8, h9⟩
  refine ⟨⟨?_, ?_, ?_⟩, ?_, ?_, ?_, ?_, ?_, ?_⟩ <;> simp_all
theorem tok_o3 {d r rdr ras ts td} : TokensOf d r .hold rdr ras ts td → TokensOf d r .signalDone rdr ras ts td := by
  rintro ⟨⟨h1, h2, h3⟩, h4, h5, h6, h7, h8, h9⟩
  refine ⟨⟨?_, ?_, ?_⟩, ?_, ?_, ?_, ?_, ?_, ?_⟩ <;> simp_all
theorem tok_o4 {d r rdr ras ts td} : TokensOf d r .signalDone rdr ras ts td → TokensOf d r .loadDelay rdr ras ts true := by
  rintro ⟨⟨h1, h2, h3⟩, h4, h5, h6, h7, h8, h9⟩
  refine ⟨⟨?_, ?_, ?_⟩, ?_, ?_, ?_, ?_, ?_, ?_⟩ <;> simp_all

theorem HandshakeInv.congr {s t : State} (h : HandshakeInv s) (h1 : t.engine = s.engine) (h2 : t.dseq = s.dseq)
    (h3 : t.rseq = s.rseq) (h4 : t.oseq = s.oseq) (h5 : t.flags = s.flags) (h6 : t.pins = s.pins)
    (h7 : MemEvent.setupPairB ∈ t.pending → t.pending = [.setupPairB] ∧ t.engine = .off) : HandshakeInv t := by
  obtain ⟨a, b, c, d, -⟩ := h
  refine ⟨?_, ?_, ?_, ?_, h7⟩
  · simpa [Inert, h1, h2, h3, h4, h5, h6] using a
  · simpa [Tokens, latching, holding, resting, h1, h2, h3, h4, h5, h6] using b
  · simpa [holding, h4, h6] using c
  · simpa [h6] using d

theorem command_handshake {i : Instr} {s t : State} (hc : isCommand i = true) (hi : HandshakeInv s) (h : exec i s = .next t) :
    HandshakeInv t := by
  obtain ⟨hn, h⟩ := command_next hc h
  have hp : ∀ r u, u.render.inFlight = none → State.pending (completeCommand r u) = [] := fun r u h => pending_eq_nil.2 h
  rcases h with ⟨r, rfl⟩ | ⟨c, -, rfl⟩ | ⟨he, rfl⟩ | ⟨-, -, rfl⟩ | ⟨-, h⟩
  · exact hi.congr rfl rfl rfl rfl rfl rfl (by rw [hp _ _ hn]; simp)
  · exact hi.congr rfl rfl rfl rfl rfl rfl (by rw [hp _ (rebuildTables { s with cfg := c }) hn]; simp)
  · obtain ⟨a1, a2, a3, a4, a5⟩ := hi.inert (by simp [he])
    refine ⟨fun h => absurd rfl h, fun _ => ?_, fun h => ?_, hi.idle, by rw [hp _ (startEngine s) hn]; simp⟩
    · simp [completeCommand, startEngine, Tokens, latching, holding, resting, a4]
    · simp [completeCommand, startEngine, a5] at h
  · refine hi.congr ?_ ?_ ?_ ?_ ?_ ?_ ?_
    iterate 6 rfl
    rw [pending_beginCommand]; simp
  · rcases h with ⟨x, y, c, -, -, rfl⟩ | rfl | rfl | ⟨a, rfl⟩ | ⟨he, rfl⟩
    · refine hi.congr rfl rfl rfl rfl rfl rfl ?_
      unfold pixelEvents; rw [pending_beginCommand]; simp
    · refine hi.congr rfl rfl rfl rfl rfl rfl ?_
      rw [pending_beginCommand]; simp [zeroFill]
    · refine hi.congr rfl rfl rfl rfl rfl rfl ?_
      rw [pending_beginCommand]; simp [zeroFill]
    · refine hi.congr rfl rfl rfl rfl rfl rfl ?_
      rw [pending_beginCommand]; simp
    · refine hi.congr rfl rfl rfl rfl rfl rfl ?_
      rw [pending_beginCommand]; simp [beginCommand_cons, perform, setupPairA, he]

theorem renderEvent_handshake {s : State} (hi : HandshakeInv s) : HandshakeInv (renderEvent s) := by
  cases h : s.render.inFlight with
  | none => rwa [renderEvent_idle h]
  | some f =>
    have hp : s.pending = f.event :: f.later := by simp [State.pending, h]
    have ht : (renderEvent s).pending = f.later := by rw [pending_renderEvent, hp]; rfl
    have hno : MemEvent.setupPairB ∉ f.later := by
      intro hm
      have := (hi.setup (by rw [hp]; simp [hm])).1
      rw [hp] at this; simp at this; rw [this.2] at hm; simp at hm
    by_cases hb : f.event = .setupPairB
    · have he := (hi.setup (by rw [hp]; simp [hb])).2
      obtain ⟨a1, a2, a3, a4, a5⟩ := hi.inert (by simp [he])
      have e : renderEvent s = setupPairB { s with render := { s.render with inFlight := inFlightOf f.cmd f.later } } := by
        rw [renderEvent_busy h, hb]; rfl
      refine ⟨fun _ => ?_, fun h => ?_, ?_, ?_, ?_⟩
      · rw [e]; exact ⟨a1, a2, a3, a4, a5⟩
      · rw [e] at h; simp [setupPairB] at h
      · rw [e]; simp [setupPairB, a5]
      · rw [e]; exact hi.idle
      · rw [ht]; exact fun h => absurd h hno
    · by_cases ha : f.event = .setupPairA
      · have e : renderEvent s = setupPairA { s with render := { s.render with inFlight := inFlightOf f.cmd f.later } } := by
          rw [renderEvent_busy h, ha]; rfl
        refine hi.congr ?_ ?_ ?_ ?_ ?_ ?_ ?_
        iterate 6 (rw [e]; rfl)
        rw [ht]; exact fun h => absurd h hno
      · obtain ⟨m, r, e⟩ := perform_frame (s := { s with render := { s.render with inFlight := inFlightOf f.cmd f.later } }) ha hb
        rw [← renderEvent_busy h] at e
        refine hi.congr ?_ ?_ ?_ ?_ ?_ ?_ ?_
        iterate 6 (rw [e])
        rw [ht]; exact fun h => absurd h hno

theorem HandshakeInv.moved {s t : State} (hi : HandshakeInv s) (he : s.engine = .running)
   (h1 : t.engine = s.engine) (h2 : t.render = s.render) (ht : Tokens t) (hd : t.pins.oeN = false → holding t)
   (hc : t.pins.clk = false ∧ t.pins.lat = false) : HandshakeInv t := by
  refine ⟨fun h => absurd (h1.trans he) h, fun _ => ht, hd, hc, ?_⟩
  rw [pending_of_inFlight (s := s) (by rw [h2]), h1]; exact hi.setup

theorem dseq_handshake {s t : State} (hi : HandshakeInv s) (h : exec s.dseq.state.instr s = .next t) : HandshakeInv t := by
  by_cases he : s.engine = .running
  swap
  · rw [(hi.inert he).1] at h; cases h; exact hi
  have tk := (tokens_iff s).1 (hi.tokens he)
  have hid := hi.idle
  rcases dseq_next h with rfl | ⟨hs, rfl⟩ | ⟨hs, w, l, q, -, ⟨-, rfl⟩ | ⟨-, rfl⟩⟩ | ⟨hs, hr, rfl⟩
  · exact hi
  all_goals rw [hs] at tk
  · exact hi.moved he rfl rfl (tok_d1 tk) hi.dark hid
  · exact hi.moved he rfl rfl (tok_d2 tk) hi.dark ⟨rfl, hid.2⟩
  · exact hi.moved he rfl rfl (by rw [tokens_iff]; simp only [hs]; exact tk) hi.dark ⟨rfl, hid.2⟩
  · exact hi.moved he rfl rfl (tok_d3 (hr ▸ tk)) hi.dark hid

theorem rseq_handshake {s t : State} (hi : HandshakeInv s) (h : exec s.rseq.state.instr s = .next t) : HandshakeInv t := by
  by_cases he : s.engine = .running
  swap
  · rw [(hi.inert he).2.1] at h; cases h; exact hi
  have tk := (tokens_iff s).1 (hi.tokens he)
  have hid := hi.idle
  rcases rseq_next h with rfl | ⟨hs, rfl⟩ | ⟨hs, rfl⟩ | ⟨hs, rfl⟩ | ⟨hs, hf, rfl⟩ | ⟨hs, rfl⟩ | ⟨hs, rfl⟩ | ⟨hs, hf, rfl⟩ |
    ⟨hs, -, rfl⟩ | ⟨hs, -, -, rfl⟩ | ⟨hs, -, -, rfl⟩
  · exact hi
  all_goals rw [hs] at tk
  · exact hi.moved he rfl rfl (tok_r1 tk) hi.dark hid
  · exact hi.moved he rfl rfl (tok_r2 tk) hi.dark hid
  · exact hi.moved he rfl rfl (tok_r3 tk) hi.dark hid
  · exact hi.moved he rfl rfl (tok_r4 (hf ▸ tk)) hi.dark hid
  · exact hi.moved he rfl rfl (tok_r5 tk) hi.dark ⟨hid.1, rfl⟩
  · exact hi.moved he rfl rfl (tok_r6 tk) hi.dark hid
  · exact hi.moved he rfl rfl (tok_r7 (hf ▸ tk)) hi.dark hid
  · exact hi.moved he rfl rfl (tok_r8a tk) hi.dark hid
  · exact hi.moved he rfl rfl (tok_r8b tk) hi.dark hid
  · exact hi.moved he rfl rfl (tok_r8c tk) hi.dark hid

theorem oseq_handshake {s t : State} (hi : HandshakeInv s) (h : exec s.oseq.state.instr s = .next t) : HandshakeInv t := by
  by_cases he : s.engine = .running
  swap
  · rw [(hi.inert he).2.2.1] at h; cases h; exact hi
  have tk := (tokens_iff s).1 (hi.tokens he)
  have hid := hi.idle
  have hd := hi.dark
  rcases oseq_next h with rfl | ⟨hs, d, q, -, rfl⟩ | ⟨hs, hf, rfl⟩ | ⟨hs, -, -, rfl⟩ | ⟨hs, -, -, es, -, rfl⟩ |
    ⟨hs, -, es, -, rfl⟩ | ⟨hs, es, -, rfl⟩
  · exact hi
  all_goals rw [hs] at tk
  all_goals simp only [holding, hs] at hd
  · exact hi.moved he rfl rfl (tok_o1 tk) (fun h => by simpa using hd h) hid
  · exact hi.moved he rfl rfl (tok_o2 (hf ▸ tk)) (fun h => .inl rfl) hid
  · exact hi.moved he rfl rfl (tok_o3 tk) (fun h => .inr rfl) hid
  · exact hi.moved he rfl rfl (tok_o3 tk) (fun h => .inr rfl) hid
  · exact hi.moved he rfl rfl (by rw [tokens_iff]; simp only [hs]; exact tk) (fun h => .inl hs) hid
  · exact hi.moved he rfl rfl (tok_o4 tk) (fun h => by simp at h) hid

end Sys2Proof.Machine
end

