-- ==== Sys2Proof/Laws/Panel.lean ====
section
/-! SUPPORT. The panel observer: what appending events does to the panel, to the latch pulses and to the light of a line,
and when an LED is lit (43_sequencers R236). -/

namespace Sys2Proof.Machine

/-! ### Appending events -/

theorem panelAfter_append (w : Nat) (l es : List PinEvent) :
    panelAfter w (l ++ es) = es.foldl (Panel.see w) (panelAfter w l) := List.foldl_append

theorem latches_append (l es : List PinEvent) : latches (l ++ es) = latches l + latches es := List.count_append

theorem lightFrom_append (p : Params) (x y : Nat) (c : Colour) (q : Panel) (l es : List PinEvent) :
    lightFrom p x y c q (l ++ es) =
      lightFrom p x y c q l + lightFrom p x y c (l.foldl (Panel.see p.width) q) es := by
  induction l generalizing q with
  | nil => simp [lightFrom]
  | cons e l ih => rw [List.cons_append, lightFrom, lightFrom, ih, List.foldl_cons]; omega

theorem light_append (p : Params) (x y : Nat) (c : Colour) (l es : List PinEvent) :
    light p x y c (l ++ es) = light p x y c l + lightFrom p x y c (panelAfter p.width l) es := lightFrom_append ..

/-- Events without a tick shed no light. -/
theorem lightFrom_no_tick (p : Params) (x y : Nat) (c : Colour) (q : Panel) {es : List PinEvent} (h : .tick ∉ es) :
    lightFrom p x y c q es = 0 := by
  induction es generalizing q with
  | nil => rfl
  | cons e es ih =>
    rw [List.mem_cons, not_or] at h
    rw [lightFrom, ih _ h.2, if_neg fun h' => h.1 h'.1.symm]

/-- Events of the output-enable line leave the panel as it is. -/
theorem see_oe (w : Nat) (q : Panel) {es : List PinEvent} (h : ∀ e ∈ es, e = .tick ∨ ∃ b, e = .oe b) :
    es.foldl (Panel.see w) q = q := by
  induction es generalizing q with
  | nil => rfl
  | cons e es ih =>
    rw [List.foldl_cons]
    have : q.see w e = q := by rcases h e List.mem_cons_self with rfl | ⟨b, rfl⟩ <;> rfl
    rw [this]
    exact ih q fun e he => h e (List.mem_cons_of_mem _ he)

/-- Over events of the output-enable line a lit LED has the light of every tick. -/
theorem lightFrom_oe (p : Params) (x y : Nat) (c : Colour) (q : Panel) {es : List PinEvent}
    (h : ∀ e ∈ es, e = .tick ∨ ∃ b, e = .oe b) :
    lightFrom p x y c q es = if q.lit p x y c = true then es.count .tick else 0 := by
  induction es generalizing q with
  | nil => simp [lightFrom]
  | cons e es ih =>
    have he := h e List.mem_cons_self
    have : q.see p.width e = q := by rcases he with rfl | ⟨b, rfl⟩ <;> rfl
    rw [lightFrom, this, ih q fun e he => h e (List.mem_cons_of_mem _ he), List.count_cons]
    rcases he with rfl | ⟨b, rfl⟩ <;> split <;> simp_all [Nat.add_comm]

/-! ### Lines -/

theorem beforeLatch_append (k : Nat) (l es : List PinEvent) :
    beforeLatch k (l ++ es) = if k < latches l then beforeLatch k l else l ++ beforeLatch (k - latches l) es := by
  induction l generalizing k with
  | nil => simp [latches]
  | cons e l ih =>
    by_cases he : e = .lat true
    · subst he
      have hl : latches (.lat true :: l) = latches l + 1 := by simp [latches]
      cases k with
      | zero => simp [beforeLatch, hl]
      | succ k =>
        rw [List.cons_append, beforeLatch, beforeLatch, ih, hl]
        simp only [Nat.add_lt_add_iff_right, Nat.add_sub_add_right]
        split <;> rfl
    · have hl : latches (e :: l) = latches l := by simp [latches, he]
      have hb : ∀ m, beforeLatch k (e :: m) = e :: beforeLatch k m := by
        intro m
        cases k <;> cases e <;> first | rfl | (rename_i b; cases b <;> first | rfl | exact absurd rfl he)
      rw [List.cons_append, hb, hb, ih, hl]
      split <;> rfl

theorem beforeLatch_of_le {k : Nat} {l : List PinEvent} (h : latches l ≤ k) : beforeLatch k l = l := by
  have := beforeLatch_append k l []
  rw [List.append_nil, if_neg (by omega)] at this
  rw [this]
  cases k - latches l <;> simp [beforeLatch]

/-- Earlier lines end in a prefix of what later lines end in. -/
theorem beforeLatch_prefix {j k : Nat} (h : j ≤ k) (l : List PinEvent) : ∃ r, beforeLatch k l = beforeLatch j l ++ r := by
  induction l generalizing j k with
  | nil => exact ⟨[], by cases j <;> cases k <;> rfl⟩
  | cons e l ih =>
    by_cases he : e = .lat true
    · subst he
      cases j with
      | zero => exact ⟨_, rfl⟩
      | succ j =>
        cases k with
        | zero => omega
        | succ k =>
          obtain ⟨r, hr⟩ := ih (show j ≤ k by omega)
          exact ⟨r, by rw [beforeLatch, beforeLatch, hr]; rfl⟩
    · have hb : ∀ k, beforeLatch k (e :: l) = e :: beforeLatch k l := by
        intro k
        cases k <;> cases e <;> first | rfl | (rename_i b; cases b <;> first | rfl | exact absurd rfl he)
      obtain ⟨r, hr⟩ := ih h
      exact ⟨r, by rw [hb, hb, hr]; rfl⟩

/-- The light up to a later line is the light up to an earlier one and that of the lines between. -/
theorem light_beforeLatch (p : Params) (x y : Nat) (c : Colour) {j k : Nat} (h : j ≤ k) (l : List PinEvent) :
    light p x y c (beforeLatch k l) = light p x y c (beforeLatch j l) + lightOfLines p x y c j k l := by
  obtain ⟨r, hr⟩ := beforeLatch_prefix h l
  have hb : betweenLatches j k l = r := by unfold betweenLatches; rw [hr, List.drop_left]
  rw [hr, light_append, lightOfLines, hb]

/-- The light of lines `j, …, m − 1` and of lines `m, …, k − 1` is that of lines `j, …, k − 1`. -/
theorem lightOfLines_add (p : Params) (x y : Nat) (c : Colour) {j m k : Nat} (h1 : j ≤ m) (h2 : m ≤ k)
    (l : List PinEvent) :
    lightOfLines p x y c j k l = lightOfLines p x y c j m l + lightOfLines p x y c m k l := by
  have e1 := light_beforeLatch p x y c h1 l
  have e2 := light_beforeLatch p x y c h2 l
  have e3 := light_beforeLatch p x y c (Nat.le_trans h1 h2) l
  omega

/-- Appended events add light to the line latched last only, and only up to their first latch pulse. -/
theorem lightOfLine_append (p : Params) (x y : Nat) (c : Colour) {k : Nat} {l : List PinEvent} (h : k < latches l)
    (es : List PinEvent) :
    lightOfLines p x y c k (k + 1) (l ++ es) = lightOfLines p x y c k (k + 1) l +
      if k + 1 = latches l then lightFrom p x y c (panelAfter p.width l) (beforeLatch 0 es) else 0 := by
  have e1 := light_beforeLatch p x y c (show k ≤ k + 1 from Nat.le_succ k) (l ++ es)
  have e2 := light_beforeLatch p x y c (show k ≤ k + 1 from Nat.le_succ k) l
  rw [beforeLatch_append, beforeLatch_append, if_pos h] at e1
  by_cases h' : k + 1 = latches l
  · rw [if_pos h']
    rw [if_neg (show ¬(k + 1) < latches l by omega), light_append, show (k + 1) - latches l = 0 by omega] at e1
    rw [beforeLatch_of_le (show latches l ≤ (k + 1) by omega)] at e2
    omega
  · rw [if_neg h']
    rw [if_pos (show (k + 1) < latches l by omega)] at e1
    omega

/-! ### When an LED is lit -/

/-- Different rows have different addresses (43_sequencers R213). -/
theorem addrEncode_inj {p : Params} {r r' : Nat} (h : r < 32) (h' : r' < 32)
    (e : addrEncode p (BitVec.ofNat 32 r) = addrEncode p (BitVec.ofNat 32 r')) : r = r' := by
  have key : (BitVec.ofNat 32 r).setWidth 5 = (BitVec.ofNat 32 r').setWidth 5 := by
    unfold addrEncode at e
    split at e
    · simpa [BitVec.xor_assoc] using congrArg (· ^^^ 0b11111#5) e
    · exact e
  have := congrArg BitVec.toNat key
  simp only [BitVec.toNat_setWidth, BitVec.toNat_ofNat] at this
  omega

/-- The position of a colour and the colour at a position (30_encoding R101, 43_sequencers R236). -/
theorem groupColour_eq {m : ChanPerm} (h : PermLegal m) {k : Nat} (hk : k < 3) (c : Colour) :
    groupColour m k = c ↔ k = groupPos m c := by
  obtain ⟨h1, h2, h3⟩ := h
  have a1 : m.r.val ≠ m.g.val := fun e => h1 (Fin.ext e)
  have a2 : m.g.val ≠ m.b.val := fun e => h2 (Fin.ext e)
  have a3 : m.r.val ≠ m.b.val := fun e => h3 (Fin.ext e)
  have b1 := m.r.isLt
  have b2 := m.g.isLt
  have b3 := m.b.isLt
  unfold groupColour groupPos
  cases c <;> simp only <;> split <;> (try split) <;> simp <;> omega

theorem groupPos_lt (m : ChanPerm) (c : Colour) : groupPos m c < 3 := by cases c <;> exact Fin.isLt _

/-- An LED is lit exactly if its row is addressed and its bit of its latched column is 1. -/
theorem lit_iff {p : Params} (hl : ParamsLegal p) (q : Panel) {x y : Nat} (hx : x < p.width) (hy : y < 2 * p.activeRows)
    (c : Colour) :
    q.lit p x y c = true ↔ q.addr = addrEncode p (BitVec.ofNat 32 (y % p.activeRows)) ∧
      (q.latched.getD x 0).getLsbD (groupPos p.chanPerm c + halfShift p y) = true := by
  have hperm : PermLegal p.chanPerm := hl.2.2.2.2.2.2.2.2.1
  have hg := groupPos_lt p.chanPerm c
  have hrow : 1 ≤ p.activeRows := hl.2.1.1
  have hhalf : halfShift p y = 3 * (y / p.activeRows) ∧ y / p.activeRows < 2 := by
    unfold halfShift
    split
    · next h => rw [Nat.div_eq_of_lt h]; omega
    · next h =>
      have : y / p.activeRows = 1 := by
        apply Nat.div_eq_of_lt_le <;> omega
      omega
  unfold Panel.lit
  simp only [hx, hy, decide_true, Bool.true_and, Bool.and_eq_true, decide_eq_true_eq, List.any_eq_true, List.mem_range]
  refine and_congr_right fun _ => ⟨?_, fun h => ?_⟩
  · rintro ⟨k, hk, ⟨hb, hh⟩, hc⟩
    rw [groupColour_eq hperm (Nat.mod_lt _ (by omega))] at hc
    rwa [show groupPos p.chanPerm c + halfShift p y = k by omega]
  · refine ⟨_, by omega, ⟨h, by omega⟩, ?_⟩
    rw [groupColour_eq hperm (Nat.mod_lt _ (by omega))]
    omega

end Sys2Proof.Machine
end

