-- ==== Sys2Proof/Laws/PerInstr.lean ====
section
/-! SUPPORT. Per instruction: the encoder gives every operation a word its row of spec/opcode_table.json admits. -/

namespace Sys2Proof.Laws.MatchesTable

/-- What a row of spec/opcode_table.json fixes: some bits of a command word, or a whole control word or state code. -/
inductive Row where
  | cmd64 (mask pattern : BitVec 64)
  | dmaCtrl (value : BitVec 16)
  | dState (value : BitVec 2)
  | rState (value : BitVec 4)
  | oState (value : BitVec 3)
  deriving DecidableEq, Repr

/-- The row admits the encoded operation. -/
def Row.admits : Row → Code → Bool
  | .cmd64 mask pattern, .cmd64 w => w &&& mask == pattern
  | .dmaCtrl v, .dmaCtrl w => w == v
  | .dState v, .dState w => w == v
  | .rState v, .rState w => w == v
  | .oState v, .oState w => w == v
  | _, _ => false

/-- The row of an operation, as the table gives it. -/
def row : Instr → Row
  | .init => .cmd64 0xFFFFFFFFFFFFFFFF 0x1000000000000000
  | .configure .. => .cmd64 0xFFFFE00000000000 0x2000000000000000
  | .engineSetup => .cmd64 0xFFFFFFFFFFFFFFFF 0x3000000000000000
  | .engineStart => .cmd64 0xFFFFFFFFFFFFFFFF 0x4000000000000000
  | .setPixel .. => .cmd64 0xFFFF000000000000 0x5000000000000000
  | .clear => .cmd64 0xFFFFFFFFFFFFFFFF 0x6000000000000000
  | .commit => .cmd64 0xFFFFFFFFFFFFFFFF 0x7000000000000000
  | .getActiveBufferPtr => .cmd64 0xFFFFFFFFFFFFFFFF 0x8000000000000000
  | .getDelayPtr => .cmd64 0xFFFFFFFFFFFFFFFF 0x9000000000000000
  | .getFbPtrAddr => .cmd64 0xFFFFFFFFFFFFFFFF 0xA000000000000000
  | .getDelayPtrAddr => .cmd64 0xFFFFFFFFFFFFFFFF 0xB000000000000000
  | .gammaCorrect _ => .cmd64 0xFFFFFFFFFFFFFF00 0xC000000000000000
  | .reservedOp0 _ => .cmd64 0xF000000000000000 0x0000000000000000
  | .reservedOpD _ => .cmd64 0xF000000000000000 0xD000000000000000
  | .reservedOpE _ => .cmd64 0xF000000000000000 0xE000000000000000
  | .reservedOpF _ => .cmd64 0xF000000000000000 0xF000000000000000
  | .xferA1W4 => .dmaCtrl 0x00AD
  | .xferA1W2 => .dmaCtrl 0x00AB
  | .xferA1W1 => .dmaCtrl 0x00A9
  | .xferA2 => .dmaCtrl 0x0005
  | .xferB1 => .dmaCtrl 0x016D
  | .xferB2 => .dmaCtrl 0x0045
  | .dOff => .dState 0b00
  | .dLoadWidth => .dState 0b01
  | .dShiftColumn => .dState 0b10
  | .dAwaitNextRow => .dState 0b11
  | .rOff => .rState 0b0000
  | .rLoadRowCount => .rState 0b0001
  | .rLoadPlaneCount => .rState 0b0010
  | .rSetAddress => .rState 0b0011
  | .rAwaitData => .rState 0b0100
  | .rLatch => .rState 0b0101
  | .rSignalTiming => .rState 0b0110
  | .rAwaitTimingDone => .rState 0b0111
  | .rNext => .rState 0b1000
  | .oOff => .oState 0b000
  | .oLoadDelay => .oState 0b001
  | .oAwaitTimingStart => .oState 0b010
  | .oHold => .oState 0b011
  | .oSignalDone => .oState 0b100

/-- The encoder's word for an operation is one its row admits. -/
def Statement (i : Instr) : Prop := (row i).admits (encode i) = true

/-- The bits of a command word. -/
theorem cmdWord_bit (op : BitVec 4) (x : BitVec 60) (i : Nat) :
    (cmdWord op x).getLsbD i = if i < 60 then x.getLsbD i else op.getLsbD (i - 60) :=
  BitVec.getLsbD_append

/-- The bits of CONFIGURE's operands. -/
theorem configure_bit (z : BitVec 15) (p : BitVec 4) (g : BitVec 1) (b : Byte) (t : Word) (i : Nat) :
    BitVec.getLsbD (w := 60) (z ++ p ++ g ++ b ++ t) i =
      if i < 32 then t.getLsbD i else if i < 40 then b.getLsbD (i - 32) else if i < 41 then g.getLsbD (i - 40)
      else if i < 45 then p.getLsbD (i - 41) else z.getLsbD (i - 45) := by
  show BitVec.getLsbD (w := 15 + 4 + 1 + 8 + 32) _ i = _
  simp only [BitVec.getLsbD_append]
  repeat' split
  all_goals first | rfl | omega

/-- The bits of SET_PIXEL's operands. -/
theorem setPixel_bit (z : BitVec 12) (x y : BitVec 16) (c : Color) (i : Nat) :
    BitVec.getLsbD (w := 60) (z ++ x ++ y ++ c) i =
      if i < 16 then c.getLsbD i else if i < 32 then y.getLsbD (i - 16) else if i < 48 then x.getLsbD (i - 32)
      else z.getLsbD (i - 48) := by
  show BitVec.getLsbD (w := 12 + 16 + 16 + 16) _ i = _
  simp only [BitVec.getLsbD_append]
  repeat' split
  all_goals first | rfl | omega

/-- The bits of GAMMA_CORRECT's operand. -/
theorem gammaCorrect_bit (z : BitVec 52) (v : Byte) (i : Nat) :
    BitVec.getLsbD (w := 60) (z ++ v) i = if i < 8 then v.getLsbD i else z.getLsbD (i - 8) := by
  show BitVec.getLsbD (w := 52 + 8) _ i = _
  rw [BitVec.getLsbD_append]

theorem init : Statement .init := rfl

theorem configure (pwmBits : BitVec 4) (gammaEn : Bool) (brightness : Byte) (timing : Word) : Statement (.configure pwmBits gammaEn brightness timing) := by
  simp only [Statement, Row.admits, row, encode, beq_iff_eq]
  refine BitVec.eq_of_getLsbD_eq fun i hi => ?_
  interval_cases i <;> simp [cmdWord_bit, configure_bit, -BitVec.getLsbD_eq_getElem]

theorem engineSetup : Statement .engineSetup := rfl

theorem engineStart : Statement .engineStart := rfl

theorem setPixel (x y : BitVec 16) (color : Color) : Statement (.setPixel x y color) := by
  simp only [Statement, Row.admits, row, encode, beq_iff_eq]
  refine BitVec.eq_of_getLsbD_eq fun i hi => ?_
  interval_cases i <;> simp [cmdWord_bit, setPixel_bit, -BitVec.getLsbD_eq_getElem]

theorem clear : Statement .clear := rfl

theorem commit : Statement .commit := rfl

theorem getActiveBufferPtr : Statement .getActiveBufferPtr := rfl

theorem getDelayPtr : Statement .getDelayPtr := rfl

theorem getFbPtrAddr : Statement .getFbPtrAddr := rfl

theorem getDelayPtrAddr : Statement .getDelayPtrAddr := rfl

theorem gammaCorrect (value : Byte) : Statement (.gammaCorrect value) := by
  simp only [Statement, Row.admits, row, encode, beq_iff_eq]
  refine BitVec.eq_of_getLsbD_eq fun i hi => ?_
  interval_cases i <;> simp [cmdWord_bit, gammaCorrect_bit, -BitVec.getLsbD_eq_getElem]

theorem reservedOp0 (payload : BitVec 60) : Statement (.reservedOp0 payload) := by
  simp only [Statement, Row.admits, row, encode, beq_iff_eq]
  refine BitVec.eq_of_getLsbD_eq fun i hi => ?_
  interval_cases i <;> simp [cmdWord_bit, -BitVec.getLsbD_eq_getElem]

theorem reservedOpD (payload : BitVec 60) : Statement (.reservedOpD payload) := by
  simp only [Statement, Row.admits, row, encode, beq_iff_eq]
  refine BitVec.eq_of_getLsbD_eq fun i hi => ?_
  interval_cases i <;> simp [cmdWord_bit, -BitVec.getLsbD_eq_getElem]

theorem reservedOpE (payload : BitVec 60) : Statement (.reservedOpE payload) := by
  simp only [Statement, Row.admits, row, encode, beq_iff_eq]
  refine BitVec.eq_of_getLsbD_eq fun i hi => ?_
  interval_cases i <;> simp [cmdWord_bit, -BitVec.getLsbD_eq_getElem]

theorem reservedOpF (payload : BitVec 60) : Statement (.reservedOpF payload) := by
  simp only [Statement, Row.admits, row, encode, beq_iff_eq]
  refine BitVec.eq_of_getLsbD_eq fun i hi => ?_
  interval_cases i <;> simp [cmdWord_bit, -BitVec.getLsbD_eq_getElem]

theorem xferA1W4 : Statement .xferA1W4 := rfl

theorem xferA1W2 : Statement .xferA1W2 := rfl

theorem xferA1W1 : Statement .xferA1W1 := rfl

theorem xferA2 : Statement .xferA2 := rfl

theorem xferB1 : Statement .xferB1 := rfl

theorem xferB2 : Statement .xferB2 := rfl

theorem dOff : Statement .dOff := rfl

theorem dLoadWidth : Statement .dLoadWidth := rfl

theorem dShiftColumn : Statement .dShiftColumn := rfl

theorem dAwaitNextRow : Statement .dAwaitNextRow := rfl

theorem rOff : Statement .rOff := rfl

theorem rLoadRowCount : Statement .rLoadRowCount := rfl

theorem rLoadPlaneCount : Statement .rLoadPlaneCount := rfl

theorem rSetAddress : Statement .rSetAddress := rfl

theorem rAwaitData : Statement .rAwaitData := rfl

theorem rLatch : Statement .rLatch := rfl

theorem rSignalTiming : Statement .rSignalTiming := rfl

theorem rAwaitTimingDone : Statement .rAwaitTimingDone := rfl

theorem rNext : Statement .rNext := rfl

theorem oOff : Statement .oOff := rfl

theorem oLoadDelay : Statement .oLoadDelay := rfl

theorem oAwaitTimingStart : Statement .oAwaitTimingStart := rfl

theorem oHold : Statement .oHold := rfl

theorem oSignalDone : Statement .oSignalDone := rfl

end Sys2Proof.Laws.MatchesTable
end

