-- ==== Sys2Proof/Laws/Runs.lean ====
section
/-! SUPPORT. Runs under a schedule (00_scope R11): a fixed turn is the turn the step takes; what a turn can do while the
engine runs; and an enabled step of a channel or sequencer is disabled only by taking it. -/

namespace Sys2Proof.Machine

/-- A turn put first is the turn the step takes, and it leaves the environment as it was. -/
theorem step_withTurn (s : State) (t : Turn) : step (withTurn s t) = runTurn t s := rfl

theorem runUnder_succ (σ : Nat → Turn) (s : State) (n : Nat) :
    runUnder σ s (n + 1) =
      match runTurn (σ n) (runUnder σ s n) with
      | .next t => t
      | .fault _ | .refused _ => runUnder σ s n := rfl

/-- While the engine runs a turn is the step of a channel or sequencer, or it leaves the engine's state as it is. -/
theorem turn_next {s t : State} {turn : Turn} (hr : RenderInv s) (he : s.engine = .running)
    (h : runTurn turn s = .next t) :
    (∃ c, turn = .agent (.chan c) ∧ transfer c (s.chan c).ctrl s = .next t) ∨
    (turn = .agent .dseq ∧ exec s.dseq.state.instr s = .next t) ∨
    (turn = .agent .rseq ∧ exec s.rseq.state.instr s = .next t) ∨
    (turn = .agent .oseq ∧ exec s.oseq.state.instr s = .next t) ∨
    ∃ cfg r g b act m rp, t = { s with
      cfg := cfg, lutR := r, lutG := g, lutB := b, active := act, mem := m, render := rp } := by
  have perf : ∀ (e : MemEvent) (v : State), e ≠ .setupPairA → e ≠ .setupPairB →
      (∃ act rp, v = { s with active := act, render := rp }) → ∃ cfg r g b act m rp, perform e v = { s with
        cfg := cfg, lutR := r, lutG := g, lutB := b, active := act, mem := m, render := rp } := by
    rintro e v ha hb ⟨act, rp, rfl⟩
    obtain ⟨m, r, e'⟩ := perform_frame (s := { s with active := act, render := rp }) ha hb
    exact ⟨_, _, _, _, _, _, _, e'⟩
  unfold runTurn at h
  split at h
  · next w =>
    unfold portStep at h
    split at h
    swap
    · cases h
    refine .inr (.inr (.inr (.inr ?_)))
    obtain ⟨-, hx⟩ := command_next (decodeCmd_isCommand (by assumption)).1 h
    rcases hx with ⟨r, rfl⟩ | ⟨c, -, rfl⟩ | ⟨he', rfl⟩ | ⟨-, -, rfl⟩ | ⟨-, hx⟩
    · exact ⟨_, _, _, _, _, _, _, rfl⟩
    · exact ⟨_, _, _, _, _, _, _, rfl⟩
    · rw [he] at he'; cases he'
    · rw [beginCommand_cons]; exact perf _ _ (by simp) (by simp) ⟨_, _, rfl⟩
    · rcases hx with ⟨x, y, c, -, -, rfl⟩ | rfl | rfl | ⟨a, rfl⟩ | ⟨he', rfl⟩
      · unfold pixelEvents; rw [beginCommand_cons]; exact perf _ _ (by simp) (by simp) ⟨_, _, rfl⟩
      · rw [beginCommand_cons]; exact perf _ _ (by simp) (by simp) ⟨_, _, rfl⟩
      · rw [beginCommand_cons]; exact perf _ _ (by simp) (by simp) ⟨_, _, rfl⟩
      · rw [beginCommand_cons]; exact perf _ _ (by simp) (by simp) ⟨_, _, rfl⟩
      · rw [he] at he'; cases he'
  · next a =>
    unfold agentStep at h
    split at h
    · refine .inr (.inr (.inr (.inr ?_)))
      rw [← Host.Outcome.next.inj h]
      cases hf : s.render.inFlight with
      | none => rw [renderEvent_idle hf]; exact ⟨_, _, _, _, _, _, _, rfl⟩
      | some f =>
        have hp : s.pending = f.event :: f.later := by simp [State.pending, hf]
        rw [renderEvent_busy hf]
        have hno : f.event ≠ .setupPairA ∧ f.event ≠ .setupPairB := by
          rcases hr.command with x | ⟨-, x, -⟩ | ⟨-, x, -⟩ | ⟨-, -, -, x⟩
          · rw [x] at hp; cases hp
          · rw [he] at x; cases x
          · rw [he] at x; cases x
          · have := x f.event (by rw [hp]; exact List.mem_cons_self)
            constructor <;> intro e <;> rw [e] at this <;> exact this
        exact perf _ _ hno.1 hno.2 ⟨_, _, rfl⟩
    · next c => exact .inl ⟨c, rfl, by rwa [channelStep_eq] at h⟩
    · exact .inr (.inl ⟨rfl, h⟩)
    · exact .inr (.inr (.inl ⟨rfl, h⟩))
    · exact .inr (.inr (.inr (.inl ⟨rfl, h⟩)))

/-- What an enabled step of the engine's agent `a` needs of the state. -/
theorem chanEnabled_iff {s : State} (hi : ChannelInv s) (he : s.engine = .running) (c : Chan) :
    chanEnabled c s = true ↔
      match c with
      | .a1 => s.a1.busy = true ∧ s.dq.length < s.par.qdData
      | .a2 => s.a2.busy = true
      | .b1 => s.b1.busy = true ∧ s.oq.length < s.par.qdOe
      | .b2 => s.b2.busy = true := by
  obtain ⟨fa, fb⟩ := hi.fixed (by rw [he]; decide)
  cases c <;> simp only [chanEnabled, State.chan, Bool.and_eq_true]
  · rw [fb.1]
    refine and_congr_right fun _ => ?_
    rcases ctrlA1_cases s.par with e | e | e <;> rw [e] <;> simp [paced, State.dqHasRoom, ctrlPace, ctrlA1W4, ctrlA1W2, ctrlA1W1]
  · rw [fb.2.1]; simp [paced, ctrlPace, ctrlA2]
  · rw [fb.2.2.1]; simp [paced, ctrlPace, ctrlB1, State.oqHasRoom]
  · rw [fb.2.2.2.1]; simp [paced, ctrlPace, ctrlB2]

end Sys2Proof.Machine
end

