-- ==== Sys2Proof/Laws/Streams.lean ====
section
/-! SUPPORT. The pixel and delay streams: what their invariants rest on, the counters of the row sequencer as numbers, and
what appending events without a clock or latch pulse leaves (43_sequencers R230, R231). -/

namespace Sys2Proof.Machine

/-! ### What the invariants rest on -/

/-- The stream invariant speaks of these parts of the state only. -/
theorem StreamInv.congr {s t : State} (h : StreamInv s) (h0 : t.par = s.par) (h1 : t.engine = s.engine)
    (h2 : t.a1 = s.a1) (h3 : t.a2.busy = s.a2.busy) (h4 : t.dseq = s.dseq) (h5 : t.rseq.state = s.rseq.state)
    (h5' : s.rseq.state ≠ .off → t.rseq = s.rseq) (h6 : t.flags.ras = s.flags.ras) (h7 : t.dq = s.dq)
    (h8 : clocksSinceLatch t.trace = clocksSinceLatch s.trace) : StreamInv t := by
  obtain ⟨a1, a2, a3, a4, a5⟩ := h
  have hl : LoopCounters t ↔ LoopCounters s := by
    unfold LoopCounters; rw [h5]
    by_cases h : s.rseq.state = .off
    · rw [h]
    · rw [h5' h]
  have hr : dataLine t = dataLine s := by
    unfold dataLine rowLine; rw [h5, h0]
    by_cases h : s.rseq.state = .off
    · rw [h]
    · rw [h5' h]
  have hc : columnsDone t = columnsDone s := by unfold columnsDone; rw [h4, h5, h6, h0]
  have hb : bytesRead t = bytesRead s := by unfold bytesRead; rw [h2, h3, h0]
  refine ⟨?_, ?_, hl.2 a3, ?_, ?_⟩
  · simpa only [h1, h4, h7] using a1
  · simpa only [h4, h0] using a2
  · simpa only [h1, hb, h0, hr, hc, h4, h7] using a4
  · rw [h8, hc]; exact a5

/-- The delay invariant speaks of these parts of the state only. -/
theorem DelayInv.congr {s t : State} (h : DelayInv s) (h0 : t.par = s.par) (h1 : t.engine = s.engine)
    (h2 : t.b1 = s.b1) (h3 : t.b2.busy = s.b2.busy) (h4 : t.oseq = s.oseq) (h5 : t.rseq.state = s.rseq.state)
    (h5' : s.rseq.state ≠ .off → t.rseq = s.rseq) (h5'' : s.oseq.state = .hold → t.rseq = s.rseq)
    (h6 : t.flags.td = s.flags.td) (h7 : t.oq = s.oq) : DelayInv t := by
  obtain ⟨a1, a2, a3, a4, a5⟩ := h
  have hd : holdsDone t = holdsDone s := by
    unfold holdsDone; rw [h5]
    by_cases h : s.rseq.state = .off
    · rw [h]
    · rw [h5' h, h6]
  have ht : delaysTaken t = delaysTaken s := by unfold delaysTaken; rw [h4, hd]
  have hr : delaysRead t = delaysRead s := by unfold delaysRead; rw [h3, h2, h0]
  refine ⟨?_, ?_, ?_, ?_, ?_⟩
  · rw [h1, h7]; exact a1
  · rw [h1, h7, ht, hr, h0]; exact a2
  · rw [h1, h7, ht, h0]; exact a3
  · rw [h4, hd, h0]; exact a4
  · rw [h4]; intro h; rw [h5'' h]; exact a5 h

/-- A step without an event on the trace keeps the scan history if it keeps these parts. -/
theorem ScanHistory.keep {s t : State} {h : List Byte} (hs : ScanHistory s h) (h0 : t.par = s.par)
    (h1 : t.trace = s.trace) (h2 : t.pins.data = s.pins.data) (h3 : t.pins.addr = s.pins.addr)
    (h4 : t.dseq.osr = s.dseq.osr) (h5 : t.dseq.osrLeft = s.dseq.osrLeft) (h6 : t.dq = s.dq)
    (h7 : columnsDone t = columnsDone s) (h8 : dataLine t % passLines s.par = dataLine s % passLines s.par)
    (h9 : ∀ k, k + 1 = latches s.trace → ticksSoFar t k = ticksSoFar s k) : ScanHistory t h := by
  have hb : bytesShifted t = bytesShifted s := by unfold bytesShifted; rw [h0, h1, h7]
  obtain ⟨a1, a2, a3, a4, a5, a6, a7, a8⟩ := hs
  refine ⟨?_, ?_, ?_, ?_, ?_, ?_, ?_, ?_⟩
  · rw [h0, h1, h8]; exact a1
  · rw [hb, h5, h0, h6]; exact a2
  · rw [hb, h5, h4]; exact a3
  · rw [hb, h5, h0, h6]; exact a4
  · rw [h0, h1, h2, h3]; exact a5
  · rw [hb, h0, h1]; exact a6
  · rw [h0, h1]; exact a7
  · rw [h0, h1]
    intro k hk x hx y hy c
    rw [a8 k hk x hx y hy c]
    have : ticksOfLine t k = ticksOfLine s k := by
      unfold ticksOfLine; rw [h0, h1]
      split
      · rfl
      · exact h9 k (by omega)
    rw [this]

/-- The scan history speaks of these parts of the state only. -/
theorem ScanHistory.congr {s t : State} {h : List Byte} (hs : ScanHistory s h) (h0 : t.par = s.par)
    (h1 : t.trace = s.trace) (h2 : t.pins = s.pins) (h4 : t.dseq = s.dseq) (h6 : t.dq = s.dq) (h7 : t.rseq = s.rseq)
    (h8 : t.oseq = s.oseq) (h9 : t.flags = s.flags) : ScanHistory t h := by
  refine hs.keep h0 h1 (by rw [h2]) (by rw [h2]) (by rw [h4]) (by rw [h4]) h6 ?_ ?_ fun k _ => ?_
  · unfold columnsDone; rw [h4, h7, h9, h0]
  · unfold dataLine rowLine; rw [h7, h0]
  · unfold ticksSoFar lastLineDone; rw [h7, h8, h9, h0]

/-! ### Events without a pulse -/

theorem clocksSinceLatch_append (l : List PinEvent) (es : List PinEvent) :
    clocksSinceLatch (l ++ es) = es.foldl countClock (clocksSinceLatch l) := List.foldl_append

theorem clocksSinceLatch_quiet (l es : List PinEvent) (h : ∀ e ∈ es, e ≠ .clk true ∧ e ≠ .lat true) :
    clocksSinceLatch (l ++ es) = clocksSinceLatch l := by
  rw [clocksSinceLatch_append]
  induction es generalizing l with
  | nil => rfl
  | cons e es ih =>
    rw [List.foldl_cons]
    have h1 := h e List.mem_cons_self
    have : countClock (clocksSinceLatch l) e = clocksSinceLatch l := by
      cases e with
      | clk b => cases b <;> simp_all [countClock]
      | lat b => cases b <;> simp_all [countClock]
      | _ => rfl
    rw [this]
    exact ih l (fun e he => h e (List.mem_cons_of_mem _ he))

theorem latches_quiet {l es : List PinEvent} (h : .lat true ∉ es) : latches (l ++ es) = latches l := by
  rw [latches_append]; simp [latches, List.count_eq_zero.2 h]

theorem beforeLatch_quiet {es : List PinEvent} (h : .lat true ∉ es) (k : Nat) : beforeLatch k es = es := by
  rw [beforeLatch_of_le]; simp [latches, List.count_eq_zero.2 h]

/-! ### The counters as numbers -/

/-- What ENGINE_SETUP loads into `PLANES_M1` and `ROWS_M1` (42_transfer_engine R173). -/
theorem countersM1_toNat {p : Params} (hl : ParamsLegal p) :
    (BitVec.ofNat 32 (p.colorBits - 1)).toNat + 1 = p.colorBits ∧
    (BitVec.ofNat 32 (p.activeRows - 1)).toNat + 1 = p.activeRows := by
  have h1 := hl.2.1; have h2 := hl.2.2.1
  rw [BitVec.toNat_ofNat, BitVec.toNat_ofNat, Nat.mod_eq_of_lt (by omega), Nat.mod_eq_of_lt (by omega)]; omega

theorem word_sub_toNat {a b : Word} (h : b.toNat ≤ a.toNat) : (a - b).toNat = a.toNat - b.toNat := by
  rw [BitVec.toNat_sub]; have := a.isLt; have := b.isLt; omega

theorem delayWord_toNat {i : Nat} (h : i ≤ 8) : (BitVec.ofNat 32 (delayWord i)).toNat = delayWord i := by
  rw [BitVec.toNat_ofNat, Nat.mod_eq_of_lt]
  have : 2 ^ i ≤ 2 ^ 8 := Nat.pow_le_pow_right (by decide) h
  unfold delayWord; omega

/-- Past its counter loads the row sequencer works on a row and a plane of the frame. -/
theorem row_and_plane {s : State} (hr : RenderInv s) (hi : ChannelInv s) (hst : StreamInv s) (he : s.engine = .running)
    (h1 : s.rseq.state ≠ .off) (h2 : s.rseq.state ≠ .loadRowCount) (h3 : s.rseq.state ≠ .loadPlaneCount) :
    s.rseq.row.toNat ≤ s.rseq.rowsM1.toNat ∧ s.rseq.plane.toNat ≤ s.rseq.planesM1.toNat ∧
    s.rseq.rowsM1.toNat + 1 = s.par.activeRows ∧ s.rseq.planesM1.toNat + 1 = s.par.colorBits ∧
    s.rseq.rowIndex.toNat < s.par.activeRows ∧ s.rseq.planeIndex.toNat < s.par.colorBits := by
  have hneo : s.engine ≠ .off := by rw [he]; decide
  obtain ⟨fa, fb⟩ := hi.fixed hneo
  have pv := countersM1_toNat hr.legal
  have hrm := fb.2.2.2.2.2.2.2.2.2.2.1
  have hpm := fb.2.2.2.2.2.2.2.2.2.2.2
  have hrmv : s.rseq.rowsM1.toNat + 1 = s.par.activeRows := by rw [hrm]; exact pv.2
  have hpmv : s.rseq.planesM1.toNat + 1 = s.par.colorBits := by rw [hpm]; exact pv.1
  have hc : s.rseq.row.toNat ≤ s.rseq.rowsM1.toNat ∧ s.rseq.plane.toNat ≤ s.rseq.planesM1.toNat := by
    have := hst.counters; unfold LoopCounters at this; split at this <;> simp_all
  refine ⟨hc.1, hc.2, hrmv, hpmv, ?_, ?_⟩
  · unfold RSeq.rowIndex; rw [word_sub_toNat hc.1]; omega
  · unfold RSeq.planeIndex; rw [word_sub_toNat hc.2]; omega

/-- While the row sequencer is past its latch, the line latched last is the one it works on. -/
theorem last_line {s : State} {h : List Byte} (hr : RenderInv s) (hs : ScanHistory s h)
    (hst : s.rseq.state = .signalTiming ∨ s.rseq.state = .awaitTimingDone ∨ s.rseq.state = .next)
    (hrow : s.rseq.rowIndex.toNat < s.par.activeRows) (hpl : s.rseq.planeIndex.toNat < s.par.colorBits)
    {k : Nat} (hk : k + 1 = latches s.trace) :
    k % s.par.colorBits = s.rseq.planeIndex.toNat ∧
    k / s.par.colorBits % s.par.activeRows = s.rseq.rowIndex.toNat := by
  have hcb := hr.legal.2.2.1
  have hl := hs.lines
  have hd : dataLine s = (s.rseq.rowIndex.toNat * s.par.colorBits + s.rseq.planeIndex.toNat) + 1 := by
    rcases hst with e | e | e <;> simp [dataLine, rowLine, e]
  rw [hd, ← hk] at hl
  have hm : k % passLines s.par = s.rseq.rowIndex.toNat * s.par.colorBits + s.rseq.planeIndex.toNat := by
    have := Nat.ModEq.add_right_cancel' 1 (show k + 1 ≡ _ + 1 [MOD passLines s.par] from hl)
    rw [this]
    apply Nat.mod_eq_of_lt
    unfold passLines
    calc _ < s.rseq.rowIndex.toNat * s.par.colorBits + s.par.colorBits := by omega
      _ = (s.rseq.rowIndex.toNat + 1) * s.par.colorBits := by ring
      _ ≤ _ := Nat.mul_le_mul_right _ hrow
  have e1 : k % s.par.colorBits = s.rseq.planeIndex.toNat := by
    rw [← Nat.mod_mul_left_mod k s.par.activeRows s.par.colorBits]
    show k % passLines s.par % _ = _
    rw [hm, Nat.mul_add_mod_self_right, Nat.mod_eq_of_lt hpl]
  refine ⟨e1, ?_⟩
  rw [← Nat.mod_mul_left_div_self k s.par.colorBits s.par.activeRows]
  show k % passLines s.par / _ = _
  rw [hm, Nat.mul_comm, Nat.mul_add_div (by omega), Nat.div_eq_of_lt hpl]; rfl

/-! ### Light of several lines -/

/-- The light of `m` lines is the sum of theirs. -/
theorem lightOfLines_sum (p : Params) (x y : Nat) (c : Colour) (j m : Nat) (es : List PinEvent) :
    lightOfLines p x y c j (j + m) es =
      ((List.range m).map fun i => lightOfLines p x y c (j + i) (j + i + 1) es).sum := by
  induction m with
  | zero =>
    have := light_beforeLatch p x y c (Nat.le_refl j) es
    simp only [Nat.add_zero, List.range_zero, List.map_nil, List.sum_nil]; omega
  | succ m ih =>
    rw [List.range_succ, List.map_append, List.sum_append, ← ih, lightOfLines_add p x y c (m := j + m) (by omega) (by omega)]
    simp [Nat.add_assoc]

end Sys2Proof.Machine
end

