-- ==== Sys2Proof/Tests/Slice0.lean ====
section
/-! SUPPORT. Tests: operands WellFormed refuses, words written out from the tables of spec/30 and spec/95, one-step
vectors of spec/95, and for each obligation with hypotheses a state and operands that meet them. -/

namespace Sys2Proof.Machine

/-! ### Fixtures: program P-B of spec/95_test_vectors.md -/

/-- Right after INIT (P-B, row 1). -/
def testAttached : State :=
  (State.reset.setWord 0x20000018 0x20000000).setWord 0x2000001C 0x20000010

/-- After the five pixels and COMMIT (P-B, row 7): fb1 = 21 02 21 02 00 38 01 38 is active. -/
def testShown : State :=
  { State.reset with
    active := true
    mem :=
      [(0x20000008, 0x21), (0x20000009, 0x02), (0x2000000A, 0x21), (0x2000000B, 0x02), (0x2000000D, 0x38),
       (0x2000000E, 0x01), (0x2000000F, 0x38), (0x20000018, 0x08), (0x2000001B, 0x20), (0x2000001C, 0x10),
       (0x2000001F, 0x20)] }

/-- After ENGINE_SETUP (P-B, row 8). -/
def testReady : State := setupPairB (setupPairA testShown)

/-- After ENGINE_START (P-B, row 9). -/
def testRunning : State := startEngine testReady

/-- A state with other parameters. -/
def testWith (s : State) (p : Params) : State := { s with par := p }

/-- The outcome is a next state with the property. -/
def nextHas (r : Result) (p : State → Bool) : Bool :=
  match r with
  | .next t => p t
  | .fault _ | .refused _ => false

/-- The outcome is that refusal. -/
def refusedAs (r : Result) (e : Refusal) : Bool :=
  match r with
  | .refused x => x == e
  | .next _ | .fault _ => false

/-- The outcome is the fault. -/
def faulted (r : Result) : Bool :=
  match r with
  | .fault _ => true
  | .next _ | .refused _ => false

/-- The eight bytes of the framebuffer at `base`. -/
def testBytes (s : State) (base : Nat) : List Byte := (List.range 8).map fun i => s.byteAt (base + i)

/-! ### Well-formed operands (30_encoding R96) -/

theorem test_pwm_bits_0_ill_formed : (Instr.configure 0 false 255 0).wellFormed = false := by decide
theorem test_pwm_bits_9_ill_formed : (Instr.configure 9 false 255 0).wellFormed = false := by decide
theorem test_pwm_bits_1_and_8_well_formed :
    (Instr.configure 1 false 255 0).wellFormed = true ∧ (Instr.configure 8 true 0 7).wellFormed = true := by decide

/-! ### Words of the tables (95_test_vectors 2.1) -/

theorem test_words_render :
    decodeCmd 0x1000000000000000 = .ok .init ∧ decodeCmd 0x2000108000000000 = .ok (.configure 8 false 128 0) ∧
    decodeCmd 0x3000000000000000 = .ok .engineSetup ∧ decodeCmd 0x4000000000000000 = .ok .engineStart ∧
    decodeCmd 0x6000000000000000 = .ok .clear ∧ decodeCmd 0x7000000000000000 = .ok .commit ∧
    decodeCmd 0x8000000000000000 = .ok .getActiveBufferPtr ∧ decodeCmd 0x9000000000000000 = .ok .getDelayPtr ∧
    decodeCmd 0xA000000000000000 = .ok .getFbPtrAddr ∧ decodeCmd 0xB000000000000000 = .ok .getDelayPtrAddr ∧
    decodeCmd 0xC0000000000000FF = .ok (.gammaCorrect 255) := by decide

theorem test_words_set_pixel :
    decodeCmd 0x500000010003FFFF = .ok (.setPixel 1 3 0xFFFF) ∧
    decodeCmd 0x5000FFFF0003001F = .ok (.setPixel (BitVec.ofInt 16 (-1)) 3 0x001F) := by decide

theorem test_words_configure :
    decodeCmd 0x200004FF00000000 = .ok (.configure 2 false 255 0) ∧
    decodeCmd 0x200011FF000003E8 = .ok (.configure 8 true 255 1000) := by decide

theorem test_words_reserved_op :
    decodeCmd 0x0000000000000000 = .ok (.reservedOp0 0) ∧ decodeCmd 0xD000000000000000 = .ok (.reservedOpD 0) ∧
    decodeCmd 0xE000000000000005 = .ok (.reservedOpE 5) ∧
    decodeCmd 0xFFFFFFFFFFFFFFFF = .ok (.reservedOpF 0xFFFFFFFFFFFFFFF) := by decide

theorem test_words_refused :
    decodeCmd 0x6000000000000001 = .error .reservedBits ∧ decodeCmd 0x5001000000000000 = .error .reservedBits ∧
    decodeCmd 0x2000000000000000 = .error .pwmBits ∧ decodeCmd 0x200012FF00000000 = .error .pwmBits := by decide

theorem test_words_control :
    decodeCtrl 0x00AD = .ok .xferA1W4 ∧ decodeCtrl 0x00AB = .ok .xferA1W2 ∧ decodeCtrl 0x00A9 = .ok .xferA1W1 ∧
    decodeCtrl 0x0005 = .ok .xferA2 ∧ decodeCtrl 0x016D = .ok .xferB1 ∧ decodeCtrl 0x0045 = .ok .xferB2 := by decide

/-- `0x016D = 0b1_0110_1101` field by field (95_test_vectors 2.1). -/
theorem test_control_fields :
    ctrlEn 0x016D = true ∧ ctrlSize 0x016D = 2 ∧ ctrlIncrRead 0x016D = true ∧ ctrlIncrWrite 0x016D = false ∧
    ctrlChainTo 0x016D = .b2 ∧ ctrlPace 0x016D = 2 ∧ ctrlReserved 0x016D = false ∧ ctrlReserved 0x0006 = true ∧
    ctrlReserved 0x0180 = true ∧ ctrlReserved 0x0200 = true := by decide

theorem test_words_data_sequencer :
    decode (.dState 0) = .ok .dOff ∧ decode (.dState 1) = .ok .dLoadWidth ∧ decode (.dState 2) = .ok .dShiftColumn ∧
    decode (.dState 3) = .ok .dAwaitNextRow := by decide

theorem test_words_row_sequencer :
    decode (.rState 0) = .ok .rOff ∧ decode (.rState 1) = .ok .rLoadRowCount ∧
    decode (.rState 2) = .ok .rLoadPlaneCount ∧ decode (.rState 3) = .ok .rSetAddress ∧
    decode (.rState 4) = .ok .rAwaitData ∧ decode (.rState 5) = .ok .rLatch ∧ decode (.rState 6) = .ok .rSignalTiming ∧
    decode (.rState 7) = .ok .rAwaitTimingDone ∧ decode (.rState 8) = .ok .rNext ∧
    decode (.rState 9) = .error .noState := by decide

theorem test_words_oe_sequencer :
    decode (.oState 0) = .ok .oOff ∧ decode (.oState 1) = .ok .oLoadDelay ∧
    decode (.oState 2) = .ok .oAwaitTimingStart ∧ decode (.oState 3) = .ok .oHold ∧
    decode (.oState 4) = .ok .oSignalDone ∧ decode (.oState 5) = .error .noState := by decide

theorem test_colour_fields :
    redSample 0xF800 = 31 ∧ greenSample 0x07E0 = 63 ∧ blueSample 0x001F = 31 ∧ redSample 0x8410 = 16 ∧
    greenSample 0x8410 = 32 ∧ blueSample 0x8410 = 16 := by decide

/-! ### Colour correction (95_test_vectors 2.2) -/

/-- The square gamma table of 95_test_vectors 2.2. -/
def testSquare : Table 256 := tabulate 256 fun v => BitVec.ofNat 8 (v * v / 255)

theorem test_lut_brightness_254_truncates :
    lutEntry Config.resetParams.gamma { pwmBits := 8, brightness := 254, useGamma := false, timing := 0 } 5 1 = 7 := by
  decide

theorem test_lut_gamma_before_shift :
    lutEntry testSquare { pwmBits := 4, brightness := 200, useGamma := true, timing := 0 } 5 16 = 2 ∧
    lutEntry testSquare { pwmBits := 4, brightness := 200, useGamma := true, timing := 0 } 5 31 = 9 := by decide

/-- Rows 255/8, 255/1 and 0/8 of the table, at the last entries (the premises of O15). -/
theorem test_lut_ends :
    lutEntry Config.resetParams.gamma { pwmBits := 8, brightness := 255, useGamma := false, timing := 0 } 5 31 = 255 ∧
    lutEntry Config.resetParams.gamma { pwmBits := 1, brightness := 255, useGamma := false, timing := 0 } 6 63 = 1 ∧
    lutEntry Config.resetParams.gamma { pwmBits := 8, brightness := 0, useGamma := false, timing := 0 } 6 63 = 0 := by
  decide

theorem test_lut_green :
    lutEntry testSquare { pwmBits := 8, brightness := 255, useGamma := true, timing := 0 } 6 32 = 65 := by decide

theorem test_gamma_correct :
    nextHas (exec (.gammaCorrect 128) (testWith State.reset { Config.resetParams with gamma := testSquare }))
      (fun t => t.render.ret == some (.byte 64)) = true := by decide

theorem test_configure_brightness_128 :
    nextHas (exec (.configure 2 false 128 0) State.reset)
      (fun t => at5 t.lutR 31 == 2 && at6 t.lutG 32 == 1 && t.cfg.brightness == 128) = true := by decide

theorem test_configure_bit_depth :
    exec (.configure 4 false 255 0) State.reset = .refused .bitDepthChange := rfl

/-! ### Display memory (95_test_vectors 2.3 and P-B) -/

theorem test_init :
    nextHas (exec .init State.reset)
      (fun t => (finishCommand t).fbPtr == 0x20000000 && (finishCommand t).delayPtr == 0x20000010) = true := by decide

theorem test_set_pixel_last_byte :
    nextHas (exec (.setPixel 1 3 0xFFFF) testAttached)
      (fun t => testBytes (finishCommand t) 0x20000008 == [0, 0, 0, 0, 0, 0x38, 0, 0x38]) = true := by decide

theorem test_set_pixel_plane_1_only :
    nextHas (exec (.setPixel 0 1 0x8000) testAttached)
      (fun t => testBytes (finishCommand t) 0x20000008 == [0, 0, 0, 0, 0, 0, 1, 0]) = true := by decide

theorem test_set_pixel_out_of_range :
    nextHas (exec (.setPixel 0xFFFF 0 0xFFFF) testAttached)
      (fun t => t.pending.isEmpty && testBytes t 0x20000008 == [0, 0, 0, 0, 0, 0, 0, 0]) = true := by decide

theorem test_set_pixel_unattached : refusedAs (exec (.setPixel 99 99 0) State.reset) .notAttached = true := by decide

theorem test_clear :
    nextHas (exec .clear { testShown with mem := (0x20000007, 0x3F) :: testShown.mem })
      (fun t => testBytes (finishCommand t) 0x20000000 == [0, 0, 0, 0, 0, 0, 0, 0] &&
        testBytes (finishCommand t) 0x20000008 == [0x21, 2, 0x21, 2, 0, 0x38, 1, 0x38]) = true := by decide

theorem test_commit :
    nextHas (exec .commit testShown)
      (fun t => t.fbPtr == 0x20000000 && testBytes (finishCommand t) 0x20000008 == [0, 0, 0, 0, 0, 0, 0, 0]) = true := by
  decide

theorem test_get_active_buffer_ptr :
    nextHas (exec .getActiveBufferPtr testShown) (fun t => t.render.ret == some (.word 0x20000008)) = true := by decide

theorem test_get_delay_ptr :
    nextHas (exec .getDelayPtr testShown) (fun t => t.render.ret == some (.word 0x20000010)) = true := by decide

theorem test_get_fb_ptr_addr :
    nextHas (exec .getFbPtrAddr State.reset) (fun t => t.render.ret == some (.word 0x20000018)) = true := by decide

theorem test_get_delay_ptr_addr :
    nextHas (exec .getDelayPtrAddr State.reset) (fun t => t.render.ret == some (.word 0x2000001C)) = true := by decide

/-! ### The transfer engine (95_test_vectors 2.4 and P-B) -/

theorem test_engine_setup :
    nextHas (exec .engineSetup testShown)
      (fun t => (finishCommand t).a1.readAddr == 0x20000008 && (finishCommand t).a1.transCount == 2 &&
        (finishCommand t).a1.ctrl == 0x00AD && (finishCommand t).b2.writeAddr == 0x50000020 &&
        (finishCommand t).rseq.rowsM1 == 1 && (finishCommand t).engine == .setup) = true := by decide

theorem test_engine_start :
    nextHas (exec .engineStart testReady)
      (fun t => t.a1.busy && !t.a2.busy && t.b1.busy && !t.b2.busy && t.dseq.state == .loadWidth) = true := by decide

theorem test_a1_little_endian :
    nextHas (exec .xferA1W4 testRunning)
      (fun t => t.dq == [0x02210221] && t.a1.readAddr == 0x2000000C && t.a1.remain == 1 && t.a1.busy) = true := by decide

theorem test_a1_last :
    nextHas (exec .xferA1W4 { testRunning with a1 := { testRunning.a1 with readAddr := 0x2000000C, remain := 1 } })
      (fun t => t.dq == [0x38013800] && t.a1.remain == 2 && !t.a1.busy && t.a2.busy) = true := by decide

theorem test_a1_halfword :
    nextHas (exec .xferA1W2 (testWith testRunning { Config.resetParams with wA := 2 }))
      (fun t => t.dq == [0x0221] && t.a1.readAddr == 0x2000000A) = true := by decide

theorem test_a1_byte :
    nextHas (exec .xferA1W1 (testWith testRunning { Config.resetParams with wA := 1 }))
      (fun t => t.dq == [0x21] && t.a1.readAddr == 0x20000009) = true := by decide

theorem test_a2 :
    nextHas (exec .xferA2 { testRunning with
        a1 := { testRunning.a1 with readAddr := 0x20000010, busy := false }, a2 := { testRunning.a2 with busy := true } })
      (fun t => t.a1.readAddr == 0x20000008 && t.a1.busy && !t.a2.busy && t.a2.remain == 1) = true := by decide

theorem test_b1_last :
    nextHas (exec .xferB1 { testRunning with b1 := { testRunning.b1 with readAddr := 0x20000014, remain := 1 } })
      (fun t => t.oq == [1] && t.b1.readAddr == 0x20000018 && t.b1.remain == 2 && !t.b1.busy && t.b2.busy) = true := by
  decide

theorem test_b2 :
    nextHas (exec .xferB2 { testRunning with
        b1 := { testRunning.b1 with readAddr := 0x20000018, busy := false }, b2 := { testRunning.b2 with busy := true } })
      (fun t => t.b1.readAddr == 0x20000010 && t.b1.busy && !t.b2.busy) = true := by decide

/-! ### The sequencers (95_test_vectors, the 25 steps of P-B) -/

theorem test_d_load_width :
    nextHas (exec .dLoadWidth testRunning) (fun t => t.dseq.col == 1 && t.dseq.state == .shiftColumn) = true := by decide

/-- Step 8 of P-B. -/
theorem test_d_shift_column :
    nextHas (exec .dShiftColumn { testRunning with
        dq := [0x02210221, 0x38013800], dseq := { state := .shiftColumn, col := 1, osr := 0, osrLeft := 0 } })
      (fun t => t.trace == [.data 33, .clk true, .clk false] && t.dseq.osr == 0x00022102 && t.dseq.osrLeft == 3 &&
        t.dseq.col == 0 && t.dq == [0x38013800]) = true := by decide

/-- Step 10 of P-B. -/
theorem test_d_shift_last_column :
    nextHas (exec .dShiftColumn { testRunning with dseq := { state := .shiftColumn, col := 0, osr := 0x00022102, osrLeft := 3 } })
      (fun t => t.pins.data == 2 && t.dseq.osr == 0x00000221 && t.dseq.osrLeft == 2 && t.flags.rdr &&
        t.dseq.state == .awaitNextRow) = true := by decide

theorem test_d_await_next_row :
    nextHas (exec .dAwaitNextRow (testRunning.setRas true)) (fun t => !t.flags.ras && t.dseq.state == .loadWidth) = true := by
  decide

theorem test_r_load_row_count :
    nextHas (exec .rLoadRowCount testRunning) (fun t => t.rseq.row == 1 && t.rseq.state == .loadPlaneCount) = true := by decide

theorem test_r_load_plane_count :
    nextHas (exec .rLoadPlaneCount testRunning) (fun t => t.rseq.plane == 1 && t.rseq.state == .setAddress) = true := by decide

/-- Row 1 with `ADDR_INVERT = 1` is 30 on the pins (95_test_vectors P-B). -/
theorem test_r_set_address_inverted :
    nextHas (exec .rSetAddress (testWith testRunning { Config.resetParams with addrInvert := true }))
      (fun t => t.pins.addr == 30 && t.trace == [.addr 30]) = true := by decide

theorem test_r_await_data :
    nextHas (exec .rAwaitData (testRunning.setRdr true)) (fun t => !t.flags.rdr && t.rseq.state == .latch) = true := by decide

theorem test_r_latch :
    nextHas (exec .rLatch testRunning) (fun t => t.trace == [.lat true, .lat false] && t.rseq.state == .signalTiming) = true := by
  decide

theorem test_r_signal_timing :
    nextHas (exec .rSignalTiming testRunning) (fun t => t.flags.ts && t.flags.ras && t.rseq.state == .awaitTimingDone) = true := by
  decide

theorem test_r_await_timing_done :
    nextHas (exec .rAwaitTimingDone (testRunning.setTd true)) (fun t => !t.flags.td && t.rseq.state == .next) = true := by decide

theorem test_r_next_row :
    nextHas (exec .rNext { testRunning with rseq := { testRunning.rseq with row := 1, plane := 0 } })
      (fun t => t.rseq.row == 0 && t.rseq.state == .loadPlaneCount) = true := by decide

theorem test_r_next_plane :
    nextHas (exec .rNext { testRunning with rseq := { testRunning.rseq with row := 1, plane := 1 } })
      (fun t => t.rseq.row == 1 && t.rseq.plane == 0 && t.rseq.state == .setAddress) = true := by decide

theorem test_o_load_delay :
    nextHas (exec .oLoadDelay { testRunning with oq := [0, 1] })
      (fun t => t.oseq.cnt == 0 && t.oq == [1] && t.oseq.state == .awaitTimingStart) = true := by decide

theorem test_o_await_timing_start :
    nextHas (exec .oAwaitTimingStart (testRunning.setTs true)) (fun t => !t.flags.ts && t.oseq.state == .hold) = true := by decide

/-- Step 24 of P-B: a delay of 0 is one tick. -/
theorem test_o_hold_zero :
    nextHas (exec .oHold { testRunning with oseq := { state := .hold, cnt := 0 } })
      (fun t => t.trace == [.oe false, .tick] && !t.pins.oeN && t.oseq.state == .signalDone) = true := by decide

/-- With `HOLD_BIAS = 0` a delay of 0 opens no window (95_test_vectors P-B). -/
theorem test_o_hold_unbiased :
    nextHas (exec .oHold { testWith testRunning { Config.resetParams with holdBias := 0 } with
        oseq := { state := .hold, cnt := 0 } })
      (fun t => t.trace == [] && t.pins.oeN && t.oseq.state == .signalDone) = true := by decide

theorem test_o_signal_done :
    nextHas (exec .oSignalDone { testRunning with pins := { testRunning.pins with oeN := false } })
      (fun t => t.trace == [.oe true] && t.pins.oeN && t.flags.td && t.oseq.state == .loadDelay) = true := by decide

theorem test_off_states :
    exec .dOff State.reset = .next State.reset ∧ exec .rOff State.reset = .next State.reset ∧
    exec .oOff State.reset = .next State.reset := ⟨rfl, rfl, rfl⟩

theorem test_reserved_ops :
    exec (.reservedOp0 0) State.reset = .refused .reservedCommand ∧
    exec (.reservedOpF 1) testAttached = .refused .reservedCommand := ⟨rfl, rfl⟩

/-! ### The panel observer (43_sequencers R236, 95_test_vectors P-B) -/

/-- One line of one column of byte 33, latched and held for one tick. -/
def testLine : List PinEvent :=
  [.data 33, .clk true, .clk false, .addr 0, .lat true, .lat false, .oe false, .tick, .oe true]

/-- Bit 0 lights the red LED of row 0, bit 5 the blue LED of row `ActiveRows`; no other row is lit, nor one that is off
the canvas. -/
theorem test_panel_light :
    light { Config.resetParams with width := 1 } 0 0 .red testLine = 1 ∧
    light { Config.resetParams with width := 1 } 0 2 .blue testLine = 1 ∧
    light { Config.resetParams with width := 1 } 0 2 .red testLine = 0 ∧
    light { Config.resetParams with width := 1 } 0 1 .red testLine = 0 ∧
    light { Config.resetParams with width := 1 } 0 4 .red testLine = 0 := by decide

/-- With the colours of a group swapped, bit 0 is the blue LED. -/
theorem test_panel_permuted :
    light { Config.resetParams with width := 1, chanPerm := { r := 2, g := 1, b := 0 } } 0 0 .blue testLine = 1 ∧
    light { Config.resetParams with width := 1, chanPerm := { r := 2, g := 1, b := 0 } } 0 0 .red testLine = 0 := by decide

/-- The events of line 0 begin at its latch pulse. -/
theorem test_lines_of_a_trace :
    latches testLine = 1 ∧ betweenLatches 0 1 testLine = [.lat true, .lat false, .oe false, .tick, .oe true] ∧
    betweenLatches 1 2 testLine = [] := by decide

/-! ### One operation placed and run as the first step after reset -/

theorem test_placed_words :
    decodeTableWord 16 0x00AD = some .xferA1W4 ∧ decodeTableWord 64 0x6000000000000000 = some .clear ∧
    decodeTableWord 4 8 = some .rNext ∧ decodeTableWord 64 0x6000000000000001 = none := by decide

theorem test_placed_control :
    nextHas (step (State.reset.withFetchWord 16 0x00AD)) (fun t => t.dq == [0] && t.a1.remain == 1) = true ∧
    nextHas (step (State.reset.withFetchWord 16 0x0005)) (fun t => t.a2.remain == 1 && !t.a2.busy) = true ∧
    nextHas (step (State.reset.withFetchWord 16 0x016D)) (fun t => t.oq == [0] && t.b1.remain == 1) = true := by decide

theorem test_placed_command :
    nextHas (step (State.reset.withFetchWord 64 0x1000000000000000)) (fun t => t.fbPtr == 0x20000000) = true := by decide

/-! ### Memory in canonical form -/

theorem test_write_of_reset_contents_unlists :
    ((State.reset.setByte 0x20000000 5).setByte 0x20000000 0).mem = [] ∧
    (State.reset.setByte 0x20000014 1).mem = [] := by decide

/-! ### The parameters of the reset state are legal, and the invariants hold along the boot of P-B -/

theorem test_gamma_legal : GammaLegal Config.resetParams.gamma := by
  refine ⟨rfl, rfl, fun i => ?_⟩
  have h : ∀ k, (h : k < 256) → Config.resetParams.gamma[k] = BitVec.ofNat 8 k := fun k h => tabulate_getElem 256 _ k h
  rw [h, h, BitVec.le_def, BitVec.toNat_ofNat, BitVec.toNat_ofNat]
  have := i.isLt
  omega

theorem test_reset_legal : ParamsLegal Config.resetParams :=
  ⟨by decide, by decide, by decide, by decide, by decide, by decide, by decide, by decide, by decide, test_gamma_legal,
    by decide, by decide⟩

theorem test_illegal_width : ¬ParamsLegal { Config.resetParams with width := 0 } := fun h => absurd h.1 (by decide)

theorem test_reset_render : RenderInv State.reset where
  legal := test_reset_legal
  depth := rfl
  tables := ⟨rfl, rfl, rfl⟩
  unbound := fun _ => ⟨rfl, by decide, rfl⟩
  bound := fun h => absurd (by decide) h
  delayBound := fun h => absurd (by decide) h
  delays := by decide
  top0 := by decide
  top1 := by decide
  old := by decide
  command := .inl rfl

theorem test_attached_render : RenderInv testAttached where
  legal := test_reset_legal
  depth := rfl
  tables := ⟨rfl, rfl, rfl⟩
  unbound := fun h => absurd h (by decide)
  bound := fun _ => by decide
  delayBound := fun _ => .inl (by decide)
  delays := by decide
  top0 := by decide
  top1 := by decide
  old := by decide
  command := .inl rfl

theorem test_shown_render : RenderInv testShown where
  legal := test_reset_legal
  depth := rfl
  tables := ⟨rfl, rfl, rfl⟩
  unbound := fun h => absurd h (by decide)
  bound := fun _ => by decide
  delayBound := fun _ => .inl (by decide)
  delays := by decide
  top0 := by decide
  top1 := by decide
  old := by decide
  command := .inl rfl

theorem test_running_render : RenderInv testRunning := by
  obtain ⟨a1, a2, a3, a4, a5, a6, a7, a8, a9, a10, a11⟩ := test_shown_render
  exact ⟨a1, a2, a3, fun h => absurd h (by decide), a5, fun _ => .inl (by decide), a7, a8, a9, a10, .inl rfl⟩

theorem test_reset_handshake : HandshakeInv State.reset :=
  ⟨fun _ => (by decide), fun h => absurd h (by decide), fun h => absurd h (by decide), by decide, fun h => absurd h (by decide)⟩

theorem test_running_handshake : HandshakeInv testRunning :=
  ⟨fun h => absurd rfl h, fun _ => (by decide), fun h => absurd h (by decide), by decide, fun h => absurd h (by decide)⟩

theorem test_reset_channels : ChannelInv State.reset :=
  ⟨fun _ => (by decide), fun h => absurd h (by decide), fun h => absurd rfl h, fun h => absurd h (by decide), fun h => absurd rfl h,
    fun h => absurd rfl h, fun _ => (by decide), fun h => absurd h (by decide), fun h => absurd h (by decide)⟩

theorem test_running_channels : ChannelInv testRunning :=
  ⟨fun h => absurd rfl h, fun h => absurd h (by decide), fun _ => (by decide), fun _ => (by decide),
    fun _ _ => ⟨0, by decide, .inr (by decide)⟩, fun _ _ => ⟨0, by decide, by decide⟩, fun h => absurd rfl h,
    fun h => absurd h (by decide), fun h => absurd h (by decide)⟩

theorem test_running_counters : CounterInv testRunning :=
  ⟨by decide, by decide, by decide, fun _ h => absurd h List.not_mem_nil, by decide, by decide⟩

theorem test_running_stream : StreamInv testRunning :=
  ⟨fun h => absurd rfl h, fun h => absurd h (by decide), trivial, fun _ => by decide, by decide⟩

theorem test_running_delays : DelayInv testRunning :=
  ⟨fun h => absurd rfl h, fun _ => (by decide), fun _ => by decide, fun h => absurd h (by decide), fun h => absurd h (by decide)⟩

theorem test_running_core : CoreInv testRunning :=
  ⟨test_running_render, test_running_handshake, test_running_channels, test_running_counters, test_running_stream,
    test_running_delays⟩

/-- All invariants, with the turn to come fixed. -/
theorem test_running_turn (t : Turn) : CoreInv (withTurn testRunning t) := by
  obtain ⟨a, b, c, d, e, f⟩ := test_running_core
  exact ⟨a.congr rfl rfl rfl rfl rfl rfl rfl rfl rfl, b.congr rfl rfl rfl rfl rfl rfl (fun h =>
      absurd (show MemEvent.setupPairB ∈ testRunning.pending from h) (by decide)),
    c.congr rfl rfl rfl rfl rfl rfl ⟨rfl, rfl⟩ (fun h => h), ⟨d.1, d.2, d.3, d.4, d.5, d.6⟩,
    ⟨e.1, e.2, e.3, e.4, e.5⟩, ⟨f.1, f.2, f.3, f.4, f.5⟩⟩

/-- A step of the machine from a state that meets all invariants, with the turn of DSEQ fixed (O45 to O51, O53, O56, O57). -/
theorem test_running_step :
    CoreInv (withTurn testRunning (.agent .dseq)) ∧ AddressShown (withTurn testRunning (.agent .dseq)) ∧
    Memory.wf testRunning.par testRunning.mem ∧ ∃ t, step (withTurn testRunning (.agent .dseq)) = .next t :=
  ⟨test_running_turn _, trivial, by decide, _, rfl⟩

/-! ### Witnesses: states and operands that meet the hypotheses of each statement, one per clause -/

/-- O1: the ends of the range of PWM_BITS, and an operation without operands. -/
theorem witness_encode_decode :
    (Instr.configure 1 true 0 0).wellFormed = true ∧ (Instr.configure 8 false 255 1).wellFormed = true ∧
    (Instr.setPixel 0xFFFF 0x8000 0).wellFormed = true ∧ Instr.rNext.wellFormed = true := by decide

/-- O2: one encoded object of each format. -/
theorem witness_decode_encode :
    decode (.cmd64 0x6000000000000000) = .ok .clear ∧ decode (.dmaCtrl 0x0045) = .ok .xferB2 ∧
    decode (.dState 3) = .ok .dAwaitNextRow ∧ decode (.rState 8) = .ok .rNext ∧ decode (.oState 4) = .ok .oSignalDone := by
  decide

/-- O3: words on both sides of each clause, and a legal depth that is not `ColorBits`. -/
theorem witness_reserved_words :
    (ReservedWord 0x0000000000000000 ∧ ReservedWord 0xD000000000000000 ∧ ReservedWord 0xEFFFFFFFFFFFFFFF ∧
      ReservedWord 0xF000000000000000 ∧ ReservedWord 0x6000000000000001 ∧ ReservedWord 0x5001000000000000 ∧
      ReservedWord 0xC000000000000100 ∧ ReservedWord 0x2000000000000000 ∧ ReservedWord 0x200012FF00000000 ∧
      ReservedWord 0x200021FF00000000) ∧
    (¬ReservedWord 0x5000FFFFFFFFFFFF ∧ ¬ReservedWord 0xC0000000000000FF ∧ ¬ReservedWord 0x200011FFFFFFFFFF ∧
      ¬ReservedWord 0x2000020000000000 ∧ ¬ReservedWord 0x1000000000000000) ∧
    1 ≤ (1 : BitVec 4).toNat ∧ (8 : BitVec 4).toNat ≤ 8 ∧ (1 : BitVec 4).toNat ≠ State.reset.par.colorBits ∧
    (8 : BitVec 4).toNat ≠ State.reset.par.colorBits ∧ State.reset.pending = [] := by
  refine ⟨⟨?_, ?_, ?_, ?_, ?_, ?_, ?_, ?_, ?_, ?_⟩, ⟨?_, ?_, ?_, ?_, ?_⟩, by decide, by decide, by decide, by decide, by decide⟩ <;>
    simp [ReservedWord]

/-- O5: a state for each kind of turn. -/
theorem witness_step_runs :
    ((withTurn State.reset (.issue 0x1000000000000000)).env.turns = [.issue 0x1000000000000000] ∧
      decodeCmd 0x1000000000000000 = .ok .init) ∧
    ((withTurn State.reset (.issue 0x6000000000000001)).env.turns = [.issue 0x6000000000000001] ∧
      decodeCmd 0x6000000000000001 = .error .reservedBits) ∧
    ((withTurn testRunning (.agent (.chan .a1))).env.turns = [.agent (.chan .a1)] ∧
      chanInstr .a1 (testRunning.chan .a1).ctrl = some .xferA1W4) ∧
    ((withTurn testRunning (.agent .dseq)).env.turns = [.agent .dseq] ∧ decode (.dState 1) = .ok testRunning.dseq.state.instr) ∧
    ((withTurn testRunning (.agent .rseq)).env.turns = [.agent .rseq] ∧ decode (.rState 1) = .ok testRunning.rseq.state.instr) ∧
    ((withTurn testRunning (.agent .oseq)).env.turns = [.agent .oseq] ∧ decode (.oState 1) = .ok testRunning.oseq.state.instr) ∧
    (withTurn testRunning (.agent .render)).env.turns = [.agent .render] ∧ State.reset.env.turns = [] := by decide

/-- A state with CLEAR in progress. -/
def testClearing : State := beginCommand .clear (.selectDraw :: zeroFill testAttached.par) testAttached

/-- O7, O10: a command in progress, and none. -/
theorem witness_pending :
    testClearing.pending.length = 8 ∧ testClearing.pending ≠ [] ∧ testAttached.pending = [] ∧
    ¬ReservedWord 0x6000000000000000 := ⟨by decide, by decide, by decide, by simp [ReservedWord]⟩

/-- O8: idle and unattached. -/
theorem witness_unattached : State.reset.pending = [] ∧ State.reset.fbPtr = nullPtr := by decide

/-- O9: each premise, the second pointer alone included. -/
theorem witness_life_cycle :
    (testAttached.pending = [] ∧ testAttached.fbPtr ≠ nullPtr) ∧
    ((State.reset.setWord 0x2000001C 0x20000010).fbPtr = nullPtr ∧ (State.reset.setWord 0x2000001C 0x20000010).delayPtr ≠ nullPtr) ∧
    (testReady.pending = [] ∧ testReady.fbPtr ≠ nullPtr ∧ testReady.engine ≠ .off) ∧
    (testAttached.engine ≠ .setup ∧ testRunning.engine ≠ .setup) ∧
    1 ≤ (1 : BitVec 4).toNat ∧ (8 : BitVec 4).toNat ≤ 8 ∧ (1 : BitVec 4).toNat ≠ testAttached.par.colorBits := by decide

/-- O11: a command that is accepted while idle. -/
theorem witness_memory_events : testAttached.pending = [] ∧ exec .clear testAttached = .next testClearing := by
  refine ⟨rfl, ?_⟩
  simp only [exec, execClear]
  rw [whenIdle_idle rfl, whenAttached_attached (by decide)]
  rfl

/-- O12: a legal map, idle, both pointers NULL. -/
theorem witness_init :
    ParamsLegal State.reset.par ∧ State.reset.pending = [] ∧ State.reset.fbPtr = nullPtr ∧ State.reset.delayPtr = nullPtr :=
  ⟨test_reset_legal, by decide, by decide, by decide⟩

/-- O13: the depth that is `ColorBits`. -/
theorem witness_configure :
    State.reset.pending = [] ∧ 1 ≤ (2 : BitVec 4).toNat ∧ (2 : BitVec 4).toNat ≤ 8 ∧
    (2 : BitVec 4).toNat = State.reset.par.colorBits := by decide

/-- O14, O15: both ends of the depth with a legal gamma table, and the two brightness premises. -/
theorem witness_tables :
    GammaLegal Config.resetParams.gamma ∧
    ∀ b : BitVec 4, b = 1 ∨ b = 8 → 1 ≤ b.toNat ∧ b.toNat ≤ 8 := ⟨test_gamma_legal, by decide⟩

/-- O16 (first clause), O17: idle before INIT. -/
theorem witness_idle : State.reset.pending = [] ∧ testRunning.pending = [] := by decide

/-- O18: attached and idle, with the render invariant. -/
theorem witness_accessors : testAttached.pending = [] ∧ testAttached.fbPtr ≠ nullPtr ∧ RenderInv testAttached :=
  ⟨by decide, by decide, test_attached_render⟩

/-- O19: each of the four sides of the canvas. -/
theorem witness_out_of_range :
    testAttached.pending = [] ∧ testAttached.fbPtr ≠ nullPtr ∧
    ¬InRange testAttached.par (0xFFFF : BitVec 16).toInt 0 ∧ ¬InRange testAttached.par (2 : BitVec 16).toInt 0 ∧
    ¬InRange testAttached.par 0 (0xFFFF : BitVec 16).toInt ∧ ¬InRange testAttached.par 0 (4 : BitVec 16).toInt := by decide

/-- O20, O21, O22: the corners of the canvas, the last row of the top half and the first of the bottom half. -/
theorem witness_in_range :
    RenderInv testAttached ∧ testAttached.pending = [] ∧ testAttached.fbPtr ≠ nullPtr ∧
    InRange testAttached.par (0 : BitVec 16).toInt (0 : BitVec 16).toInt ∧
    InRange testAttached.par (1 : BitVec 16).toInt (3 : BitVec 16).toInt ∧
    (InRange testAttached.par (0 : BitVec 16).toInt (1 : BitVec 16).toInt ∧ (1 : BitVec 16).toInt < testAttached.par.activeRows) ∧
    (InRange testAttached.par (0 : BitVec 16).toInt (2 : BitVec 16).toInt ∧ testAttached.par.activeRows ≤ (2 : BitVec 16).toInt) :=
  ⟨test_attached_render, by decide, by decide, by decide, by decide, by decide, by decide⟩

/-- O23: two pixels with a byte in common: the two halves of one column. -/
theorem witness_offsets :
    1 ≤ Config.resetParams.width ∧ 1 ≤ Config.resetParams.activeRows ∧ 1 ≤ Config.resetParams.colorBits ∧
    pixelOffset Config.resetParams 1 1 1 = pixelOffset Config.resetParams 1 3 1 ∧
    pixelOffset Config.resetParams 1 3 1 = 7 := by decide

/-- O24, O25: attached and idle with pixels drawn. -/
theorem witness_clear_commit : RenderInv testShown ∧ testShown.pending = [] ∧ testShown.fbPtr ≠ nullPtr :=
  ⟨test_shown_render, by decide, by decide⟩

/-- O26: attached, idle, ENGINE off, and each transfer size. -/
theorem witness_engine_setup :
    testShown.pending = [] ∧ testShown.fbPtr ≠ nullPtr ∧ testShown.engine = .off ∧
    ∀ n, n = 1 ∨ n = 2 ∨ n = 4 → (testWith testShown { Config.resetParams with wA := n }).fbPtr ≠ nullPtr := by
  refine ⟨by decide, by decide, by decide, ?_⟩
  rintro n (rfl | rfl | rfl) <;> decide

/-- O27: ENGINE at SETUP, and not. -/
theorem witness_engine_start :
    (testReady.pending = [] ∧ testReady.engine = .setup) ∧ testRunning.pending = [] ∧ testRunning.engine ≠ .setup := by
  decide

/-- The A1 state of each transfer size. -/
def testA1 (n : Nat) (remain : Word) : State :=
  { testWith testRunning { Config.resetParams with wA := n } with a1 := { testRunning.a1 with remain := remain } }

/-- O28: each word with its size, on the last transfer of an activation and before it. -/
theorem witness_a1 : ∀ n, n = 1 ∨ n = 2 ∨ n = 4 → ∀ m : Word, m = 1 ∨ m = 2 →
    MapLegal (testA1 n m).par ∧ (testA1 n m).par.wA = n ∧ (testA1 n m).a1.busy = true ∧
    (testA1 n m).dq.length < (testA1 n m).par.qdData ∧ Readable (testA1 n m).par (testA1 n m).a1.readAddr n ∧
    (testA1 n m).a1.writeAddr = (testA1 n m).par.dataTxf := by
  rintro n (rfl | rfl | rfl) m (rfl | rfl) <;> decide

/-- O29: B1 with room in OQ. -/
theorem witness_b1 :
    MapLegal testRunning.par ∧ testRunning.b1.busy = true ∧ testRunning.oq.length < testRunning.par.qdOe ∧
    Readable testRunning.par testRunning.b1.readAddr 4 ∧ testRunning.b1.writeAddr = testRunning.par.oeTxf := by decide

/-- The re-arming channels in an activation. -/
def testRearming : State :=
  { testRunning with a2 := { testRunning.a2 with busy := true }, b2 := { testRunning.b2 with busy := true } }

/-- O30: A2 and B2 in an activation. -/
theorem witness_rearm :
    MapLegal testRearming.par ∧
    (testRearming.a2.busy = true ∧ Readable testRearming.par testRearming.a2.readAddr 4 ∧
      testRearming.a2.writeAddr = testRearming.par.dmaBase) ∧
    (testRearming.b2.busy = true ∧ Readable testRearming.par testRearming.b2.readAddr 4 ∧
      testRearming.b2.writeAddr = testRearming.par.dmaBase + 32) := by decide

/-- O31: a disabled agent of each kind. -/
theorem witness_disabled :
    enabled .render testRunning = false ∧ (enabled (.chan .a2) testRunning = false ∧ ctrlReserved (testRunning.chan .a2).ctrl = false) ∧
    enabled (.chan .a1) { testRunning with dq := [0, 0] } = false ∧ enabled .dseq State.reset = false ∧
    enabled .rseq State.reset = false ∧ enabled .oseq testRunning = false := by decide

/-- A1 busy with other registers. -/
def testA1With (readAddr writeAddr : Word) (ctrl : BitVec 16) : State :=
  { testRunning with a1 := { testRunning.a1 with readAddr := readAddr, writeAddr := writeAddr, ctrl := ctrl } }

/-- O32: a reserved word, a bad read, a misaligned write, a write of memory, and both ports at another size. -/
theorem witness_bus :
    MapLegal testRunning.par ∧ (testRunning.chan .a1).busy = true ∧ ctrlReserved 0x0006 = true ∧
    (ctrlReserved 0x00AD = false ∧ paced testRunning 0x00AD = true) ∧
    (¬Readable testRunning.par 0x20000009 4 ∧ ¬Readable testRunning.par 0x50200010 4 ∧ Readable testRunning.par 0x20000008 4) ∧
    (0x50200012 : Word).toNat % 4 ≠ 0 ∧
    (∀ r ∈ regions testRunning.par, r.holds (0x20000000 : Word).toNat 4 = true → r.obj.isMemory = true) ∧
    (objAt testRunning.par (0x50200010 : Word).toNat 2 = some .dataPort ∧ 2 ≠ testRunning.par.wA ∧ (0x50200010 : Word).toNat % 2 = 0) ∧
    objAt testRunning.par (0x50200018 : Word).toNat 2 = some .oePort := by decide

theorem test_bus_misaligned_read : faulted (agentStep (.chan .a1) (testA1With 0x20000009 0x50200010 0x00AD)) = true := by decide

theorem test_bus_port_size :
    refusedAs (agentStep (.chan .a1) (testA1With 0x20000008 0x50200018 0x00AB)) .portSize = true := by decide

/-- O33: a step that keeps every state, one that starts the engine. -/
theorem witness_off_states :
    HandshakeInv testRunning ∧ (∃ t, step (withTurn State.reset (.agent .dseq)) = .next t) ∧
    nextHas (step (withTurn testReady (.issue 0x4000000000000000))) (fun t => t.engine == .running && t.dseq.state != .off) = true :=
  ⟨test_running_handshake, ⟨_, rfl⟩, by decide⟩

/-- O34: a legal parameter set. -/
theorem witness_counter_loads : ParamsLegal testRunning.par := test_reset_legal

/-- O35: both sources of the byte, at the last column and before it. -/
theorem witness_shift :
    (testRunning.dseq.osrLeft = 0 ∧ ({ testRunning with dq := [5] } : State).dq = 5 :: [] ∧ testRunning.dseq.col = 0) ∧
    (({ state := .shiftColumn, col := 1, osr := 0x0102, osrLeft := 2 } : DSeq).osrLeft ≠ 0 ∧
      ({ state := .shiftColumn, col := 1, osr := 0x0102, osrLeft := 2 } : DSeq).col ≠ 0) := by decide

/-- O36, O46: each flag raised and not raised. -/
theorem witness_flags :
    (testRunning.setRas true).flags.ras = true ∧ (testRunning.setRdr true).flags.rdr = true ∧
    (testRunning.setTd true).flags.td = true ∧ (testRunning.setTs true).flags.ts = true ∧
    testRunning.flags = { rdr := false, ras := false, ts := false, td := false } := by decide

/-- O38: the three cases of the counters. -/
theorem witness_r_next :
    ({ testRunning.rseq with row := 1, plane := 1 } : RSeq).plane ≠ 0 ∧
    (({ testRunning.rseq with row := 1, plane := 0 } : RSeq).plane = 0 ∧ ({ testRunning.rseq with row := 1, plane := 0 } : RSeq).row ≠ 0) ∧
    (testRunning.rseq.plane = 0 ∧ testRunning.rseq.row = 0) := by decide

/-- O39: OQ with a word and empty. -/
theorem witness_load_delay : ({ testRunning with oq := [3, 1] } : State).oq = 3 :: [1] ∧ testRunning.oq = [] := by decide

/-- A hold with a given count and bias. -/
def testHold (cnt : Word) (bias : Nat) : State :=
  { testWith testRunning { Config.resetParams with holdBias := bias } with oseq := { state := .hold, cnt := cnt } }

/-- O40, O41: both biases, at a count of 0 and above. -/
theorem witness_hold :
    ((testHold 0 1).par.holdBias = 1 ∧ (testHold 3 1).par.holdBias = 1) ∧
    ((testHold 3 0).par.holdBias = 0 ∧ (testHold 3 0).oseq.cnt ≠ 0) ∧
    ((testHold 0 0).par.holdBias = 0 ∧ (testHold 0 0).oseq.cnt = 0) ∧
    ((testHold 3 1).oseq.state = .hold ∧ (testHold 3 1).par.holdBias ≤ 1) := by decide

/-- A hold of delay 3 is 4 ticks with `HOLD_BIAS = 1` and 3 with `HOLD_BIAS = 0` (43_sequencers R224). -/
theorem test_hold_ticks :
    nextHas (holdSteps 4 (testHold 3 1)) (fun t => t.trace == [.oe false, .tick, .tick, .tick, .tick]) = true ∧
    nextHas (holdSteps 4 (testHold 3 0)) (fun t => t.trace == [.oe false, .tick, .tick, .tick]) = true := by decide

/-- O42: a legal parameter set and an illegal one. -/
theorem witness_construct :
    ParamsLegal Config.resetParams ∧ ¬ParamsLegal { Config.resetParams with width := 0 } :=
  ⟨test_reset_legal, test_illegal_width⟩

/-- O44: a step that stores. -/
theorem witness_memory_form :
    Memory.wf testAttached.par testAttached.mem ∧
    nextHas (step (withTurn testAttached (.issue 0x7000000000000000))) (fun t => t.fbPtr == 0x20000008) = true := by decide

/-- O45, O46, O47, O48: the handshake invariant with a step of a sequencer that goes on. -/
theorem witness_handshake :
    HandshakeInv testRunning ∧ AddressShown testRunning ∧ (∃ t, agentStep .dseq testRunning = .next t) ∧
    ∃ t, step (withTurn testRunning (.agent .dseq)) = .next t :=
  ⟨test_running_handshake, trivial, ⟨_, rfl⟩, test_running_step.2.2.2⟩

/-- A hold in progress while the row sequencer awaits its end. -/
def testLit : State :=
  { testRunning with
    dseq := { testRunning.dseq with state := .shiftColumn, col := 1 }
    rseq := { testRunning.rseq with row := 1, plane := 1, state := .awaitTimingDone }
    oseq := { state := .hold, cnt := 0 }
    pins := { testRunning.pins with oeN := false } }

/-- O48: the output is enabled in a state that meets both invariants. -/
theorem witness_lit : HandshakeInv testLit ∧ AddressShown testLit ∧ testLit.pins.oeN = false :=
  ⟨⟨fun h => absurd rfl h, fun _ => by decide, fun _ => by decide, by decide, fun h => absurd h (by decide)⟩,
    by show testLit.pins.addr = _; decide, rfl⟩

/-- O49, O50: the render invariant with a step after which a buffer is active. -/
theorem witness_render :
    RenderInv testAttached ∧
    nextHas (step (withTurn testAttached (.issue 0x7000000000000000))) (fun t => t.fbPtr != nullPtr) = true :=
  ⟨test_attached_render, by decide⟩

/-- O51, O52: the render and the channel invariant with a step that goes on. -/
theorem witness_channels :
    RenderInv testRunning ∧ ChannelInv testRunning ∧ ∃ t, step (withTurn testRunning (.agent (.chan .a2))) = .next t :=
  ⟨test_running_render, test_running_channels, _, rfl⟩

/-- O53: the counter invariant with a step that goes on. -/
theorem witness_counters : CounterInv testRunning ∧ ∃ t, step (withTurn testRunning (.agent .rseq)) = .next t :=
  ⟨test_running_counters, _, rfl⟩

/-- O54: two states that agree on what the render domain owns and differ in the engine's registers, a word accepted in
both, and a step of an agent that is not RENDER. -/
theorem witness_display :
    SameDisplay testShown (testShown.dGoto .shiftColumn) ∧ testShown.engine = (testShown.dGoto .shiftColumn).engine ∧
    nextHas (portStep 0x6000000000000000 testShown) (fun _ => true) = true ∧
    ∃ t, agentStep .dseq testRunning = .next t :=
  ⟨⟨rfl, rfl, rfl, rfl, rfl, rfl, rfl, rfl⟩, rfl, by decide, _, rfl⟩

/-- O55, O56, O57: all invariants, with the engine running. -/
theorem witness_core : CoreInv testRunning ∧ testRunning.engine = .running := ⟨test_running_core, rfl⟩

/-- Step 14 of P-B: the row sequencer is about to latch line 0. -/
def testLatch : State :=
  { testRunning with
    dq := [0x38013800]
    a1 := { testRunning.a1 with busy := false, readAddr := 0x20000010 }
    a2 := { testRunning.a2 with busy := true }
    dseq := { state := .awaitNextRow, col := 0, osr := 0x00000221, osrLeft := 2 }
    rseq := { testRunning.rseq with row := 1, plane := 1, state := .latch }
    pins := { testRunning.pins with data := 2 }
    trace := [.data 33, .clk true, .clk false, .data 2, .clk true, .clk false, .addr 0] }

/-- Step 22 of P-B without B1: the hold of plane 0 is about to begin. -/
def testTiming : State :=
  { testLatch with
    b1 := { testRunning.b1 with readAddr := 0x20000014, remain := 1 }
    oseq := { state := .awaitTimingStart, cnt := 0 }
    rseq := { testLatch.rseq with state := .awaitTimingDone }
    flags := { rdr := false, ras := true, ts := true, td := false }
    trace := testLatch.trace ++ [.lat true, .lat false] }

/-- O58, first clause: all invariants hold when the row sequencer is about to latch. -/
theorem witness_latch : CoreInv testLatch ∧ testLatch.rseq.state = .latch := by
  obtain ⟨a1, a2, a3, a4, a5, a6, a7, a8, a9, a10, a11⟩ := test_running_render
  refine ⟨⟨⟨a1, a2, a3, a4, a5, fun _ => .inl (by decide), a7, a8, a9, a10, .inl rfl⟩, ?_, ?_, ?_, ?_, ?_⟩, rfl⟩
  · exact ⟨fun h => absurd rfl h, fun _ => by decide, fun h => absurd h (by decide), by decide, fun h => absurd h (by decide)⟩
  · exact ⟨fun h => absurd rfl h, fun h => absurd h (by decide), fun _ => (by decide), fun _ => (by decide),
      fun _ h => absurd h (by decide), fun _ _ => ⟨0, by decide, by decide⟩, fun h => absurd rfl h, fun _ => (by decide),
      fun h => absurd h (by decide)⟩
  · exact ⟨by decide, by decide, by decide, fun w h => by rw [List.mem_singleton.1 h]; decide, by decide, by decide⟩
  · exact ⟨fun h => absurd rfl h, fun h => absurd h (by decide), ⟨by decide, by decide⟩, fun _ => by decide, by decide⟩
  · exact ⟨fun h => absurd rfl h, fun _ => by decide, fun _ => by decide, fun h => absurd h (by decide),
      fun h => absurd h (by decide)⟩

/-- O58, second clause: all invariants hold when a hold is about to begin. -/
theorem witness_timing :
    CoreInv testTiming ∧ testTiming.oseq.state = .awaitTimingStart ∧ testTiming.flags.ts = true := by
  obtain ⟨a1, a2, a3, a4, a5, a6, a7, a8, a9, a10, a11⟩ := test_running_render
  refine ⟨⟨⟨a1, a2, a3, a4, a5, fun _ => .inl (by decide), a7, a8, a9, a10, .inl rfl⟩, ?_, ?_, ?_, ?_, ?_⟩, rfl, rfl⟩
  · exact ⟨fun h => absurd rfl h, fun _ => by decide, fun h => absurd h (by decide), by decide, fun h => absurd h (by decide)⟩
  · exact ⟨fun h => absurd rfl h, fun h => absurd h (by decide), fun _ => (by decide), fun _ => (by decide),
      fun _ h => absurd h (by decide), fun _ _ => ⟨1, by decide, by decide⟩, fun h => absurd rfl h, fun _ => (by decide),
      fun h => absurd h (by decide)⟩
  · exact ⟨by decide, by decide, by decide, fun w h => by rw [List.mem_singleton.1 h]; decide, by decide, by decide⟩
  · exact ⟨fun h => absurd rfl h, fun h => absurd h (by decide), ⟨by decide, by decide⟩, fun _ => by decide, by decide⟩
  · exact ⟨fun h => absurd rfl h, fun _ => by decide, fun _ => by decide, fun _ => by decide,
      fun h => absurd h (by decide)⟩

/-- The agents in a fixed order, one after the other for ever. -/
def testRoundRobin (n : Nat) : Turn :=
  .agent ((([.render, .chan .a1, .chan .a2, .chan .b1, .chan .b2, .dseq, .rseq, .oseq] : List Agent)[n % 8]?).getD .render)

/-- O6: all invariants, the engine running, and a schedule that is weakly fair from there. -/
theorem witness_fair : CoreInv testRunning ∧ testRunning.engine = .running ∧ WeaklyFair testRoundRobin testRunning := by
  have h (k n : Nat) (hk : k < 8) : ∃ m, n ≤ m ∧ m % 8 = k := ⟨8 * n + k, by omega, by omega⟩
  have run (k n : Nat) (hk : k < 8) (a : Agent)
      (ha : (([.render, .chan .a1, .chan .a2, .chan .b1, .chan .b2, .dseq, .rseq, .oseq] : List Agent)[k]?).getD .render = a) :
      ∃ m, n ≤ m ∧ (testRoundRobin m = .agent a ∨ enabled a (runUnder testRoundRobin testRunning m) = false) := by
    obtain ⟨m, hm, rfl⟩ := h k n hk
    exact ⟨m, hm, .inl (congrArg Turn.agent ha)⟩
  refine ⟨test_running_core, rfl, fun a n => ?_⟩
  cases a with
  | render => exact run 0 n (by decide) _ rfl
  | chan c =>
    cases c
    · exact run 1 n (by decide) _ rfl
    · exact run 2 n (by decide) _ rfl
    · exact run 3 n (by decide) _ rfl
    · exact run 4 n (by decide) _ rfl
  | dseq => exact run 5 n (by decide) _ rfl
  | rseq => exact run 6 n (by decide) _ rfl
  | oseq => exact run 7 n (by decide) _ rfl

/-- O46, second clause: the row sequencer is about to raise TS and RAS. -/
theorem witness_signal_timing :
    HandshakeInv { testLatch with rseq := { testLatch.rseq with state := .signalTiming } } ∧
    ∃ t, agentStep .rseq { testLatch with rseq := { testLatch.rseq with state := .signalTiming } } = .next t :=
  ⟨⟨fun h => absurd rfl h, fun _ => by decide, fun h => absurd h (by decide), by decide, fun h => absurd h (by decide)⟩, _, rfl⟩

/-- O46, third clause: the output-enable sequencer is about to raise TD. -/
theorem witness_signal_done :
    HandshakeInv { testLit with oseq := { testLit.oseq with state := .signalDone } } ∧
    ∃ t, agentStep .oseq { testLit with oseq := { testLit.oseq with state := .signalDone } } = .next t :=
  ⟨⟨fun h => absurd rfl h, fun _ => by decide, fun _ => by decide, by decide, fun h => absurd h (by decide)⟩, _, rfl⟩

/-- O59: all invariants and the history of a panel that has been shown nothing, with a step that goes on; the step of A1
reads four bytes. -/
theorem witness_history :
    CoreInv (withTurn testRunning (.agent .dseq)) ∧ AddressShown (withTurn testRunning (.agent .dseq)) ∧
    ScanHistory (withTurn testRunning (.agent .dseq)) [] ∧ (∃ t, step (withTurn testRunning (.agent .dseq)) = .next t) ∧
    bytesTaken (.agent (.chan .a1)) testRunning = [0x21, 0x02, 0x21, 0x02] := by
  obtain ⟨a, b, _, d⟩ := test_running_step
  exact ⟨a, b, ⟨by decide, by decide, fun _ h => absurd h (Nat.not_lt_zero _),
    fun _ h => absurd h (Nat.not_lt_zero _), by decide, by decide, fun h => absurd h (by decide),
    fun _ h => absurd h (Nat.not_lt_zero _)⟩, d, by decide⟩

/-- One pixel of one bit on two rows. -/
def testOnePixel (bias : Nat) : Params :=
  { Config.resetParams with
    width := 1, activeRows := 1, colorBits := 1, wA := 1, holdBias := bias
    cfgReset := { Config.resetParams.cfgReset with pwmBits := 1 } }

/-- Its one line has been shown to its end: byte 33 shifted and latched, and held for `bias` ticks. -/
def testPassShown (bias : Nat) : State :=
  { testWith testRunning (testOnePixel bias) with
    rseq := { testRunning.rseq with rowsM1 := 0, planesM1 := 0, state := .next }
    pins := { testRunning.pins with data := 33 }
    trace := if bias = 1 then testLine else [.data 33, .clk true, .clk false, .addr 0, .lat true, .lat false] }

/-- O60 (1): a scan pass shown to its end and the buffer whose frame it read, for both biases. -/
theorem witness_light : ∀ bias, bias = 0 ∨ bias = 1 →
    ParamsLegal (testPassShown bias).par ∧ ScanHistory (testPassShown bias) [33] ∧
    (0 + 1) * passLines (testPassShown bias).par ≤ linesDone (testPassShown bias) ∧
    (testPassShown bias).par.holdBias = bias ∧
    ∀ o < (testPassShown bias).par.frameSize, ([33] : List Byte).getD (0 * (testPassShown bias).par.frameSize + o) 0 =
      ((testPassShown bias).setByte 0x20000000 33).byteAt ((0x20000000 : Word).toNat + o) := by
  rintro bias (rfl | rfl) <;>
    refine ⟨⟨by decide, by decide, by decide, by decide, by decide, by decide, by decide, by decide, by decide,
      test_gamma_legal, by decide, by decide⟩, ⟨by decide, by decide, by decide, by decide, by decide, by decide, by decide, ?_⟩,
      by decide, rfl, by decide⟩ <;>
    · intro k hk x hx y hy c
      cases c <;> revert x y <;> revert k <;> decide

/-- O60 (2): the engine running from the start. -/
theorem witness_pass_bytes : CoreInv testRunning ∧ ScanHistory testRunning [] ∧ testRunning.engine = .running := by
  obtain ⟨_, _, h, _⟩ := witness_history
  exact ⟨test_running_core, ⟨h.1, h.2, h.3, h.4, h.5, h.6, h.7, h.8⟩, rfl⟩

/-- One word of the pass over fb1 is read and waits in DQ; A1 is at its last transfer, with its turn next. -/
def testMidPass : State :=
  withTurn { testRunning with dq := [0x02210221], a1 := { testRunning.a1 with readAddr := 0x2000000C, remain := 1 } }
    (.agent (.chan .a1))

theorem test_mid_pass_core : CoreInv testMidPass := by
  obtain ⟨a, b, c, d, e, f⟩ := test_running_core
  refine ⟨a.congr rfl rfl rfl rfl rfl rfl rfl rfl rfl, b.congr rfl rfl rfl rfl rfl rfl (fun h => absurd h (by decide)),
    ⟨fun h => absurd rfl h, fun h => absurd h (by decide), fun _ => (by decide), fun _ => (by decide),
      fun _ _ => ⟨1, by decide, .inr (by decide)⟩, fun _ _ => ⟨0, by decide, by decide⟩, fun h => absurd rfl h,
      fun h => absurd h (by decide), fun h => absurd h (by decide)⟩,
    ⟨d.1, by decide, d.3, fun w h => by rw [List.mem_singleton.1 h]; decide, d.5, d.6⟩,
    ⟨fun h => absurd rfl h, fun h => absurd h (by decide), trivial, fun _ => by decide, by decide⟩, ⟨f.1, f.2, f.3, f.4, f.5⟩⟩

/-- O60 (3): A1 before the first and before the last transfer of a pass over fb1, with its turn next. -/
theorem witness_pass_so_far :
    (CoreInv (withTurn testRunning (.agent (.chan .a1))) ∧
      PassSoFar (withTurn testRunning (.agent (.chan .a1))) [] 0x20000008 (fun o => testRunning.byteAt (0x20000008 + o)) 0 ∧
      nextHas (step (withTurn testRunning (.agent (.chan .a1)))) (fun t => t.dq == [0x02210221]) = true) ∧
    CoreInv testMidPass ∧ testMidPass.engine = .running ∧
    PassSoFar testMidPass [0x21, 0x02, 0x21, 0x02] 0x20000008 (fun o => testRunning.byteAt (0x20000008 + o)) 1 ∧
    (∀ o < testMidPass.par.frameSize, testMidPass.byteAt ((0x20000008 : Word).toNat + o) = testRunning.byteAt (0x20000008 + o)) ∧
    nextHas (step testMidPass) (fun t => t.a2.busy && t.dq == [0x02210221, 0x38013800]) = true :=
  ⟨⟨test_running_turn _, by decide, by decide⟩, test_mid_pass_core, rfl, by decide, by decide, by decide⟩

/-- O36: a state at each await and each signal. -/
theorem witness_awaits :
    (testTiming.dseq.state = .awaitNextRow ∧ testTiming.flags.ras = true) ∧
    ({ testLatch.rseq with state := .awaitData } : RSeq).state = .awaitData ∧
    testTiming.rseq.state = .awaitTimingDone ∧ (testTiming.oseq.state = .awaitTimingStart ∧ testTiming.flags.ts = true) ∧
    ({ testLatch.rseq with state := .signalTiming } : RSeq).state = .signalTiming ∧
    ({ testLit.oseq with state := .signalDone } : OSeq).state = .signalDone := by decide

end Sys2Proof.Machine
end

section
/-! PROOFS. What a turn is and what none of them touches: a step runs the decoded operation of its turn, a turn of an
agent without an enabled step changes nothing, memory stays in its canonical form, and construction gives the state of
70_reset R280. -/

namespace Sys2Proof.Machine

/-! ### The canonical form of memory (notes/assumptions/7.md) -/

@[simp] theorem renderEvent_par (s : State) : (renderEvent s).par = s.par := by
  cases h : s.render.inFlight with
  | none => rw [renderEvent_idle h]
  | some f => rw [renderEvent_busy h, perform_par]

theorem renderEvent_wf {s : State} (hw : Memory.wf s.par s.mem) :
    Memory.wf (renderEvent s).par (renderEvent s).mem := by
  cases h : s.render.inFlight with
  | none => rwa [renderEvent_idle h]
  | some f =>
    rw [renderEvent_busy h]
    exact perform_wf _ hw

@[simp] theorem beginCommand_par (i : Instr) (es : List MemEvent) (s : State) : (beginCommand i es s).par = s.par :=
  renderEvent_par _

theorem beginCommand_wf (i : Instr) (es : List MemEvent) {s : State} (hw : Memory.wf s.par s.mem) :
    Memory.wf (beginCommand i es s).par (beginCommand i es s).mem :=
  renderEvent_wf (s := { s with render := { s.render with inFlight := inFlightOf i es, ret := none } }) hw

/-- A command that is accepted writes memory by its first event only, and the parameters not at all. -/
theorem command_memoryForm {i : Instr} {s t : State} (hc : isCommand i = true) (hw : Memory.wf s.par s.mem)
    (h : exec i s = .next t) : Memory.wf t.par t.mem ∧ t.par = s.par := by
  obtain ⟨-, ⟨r, rfl⟩ | ⟨c, -, rfl⟩ | ⟨-, rfl⟩ | ⟨-, -, rfl⟩ |
    ⟨-, ⟨x, y, color, -, -, rfl⟩ | rfl | rfl | ⟨a, rfl⟩ | ⟨-, rfl⟩⟩⟩ := command_next hc h
  case inl | inr.inl | inr.inr.inl => exact ⟨hw, rfl⟩
  all_goals exact ⟨beginCommand_wf _ _ hw, beginCommand_par _ _ _⟩

/-- Settles O44, by the six kinds of turn: commands and RENDER store through `memSet`, which keeps the form; channels
and sequencers leave memory and the parameters as they are. -/
theorem stepKeepsMemoryForm : Obligations.StepKeepsMemoryForm := by
  intro s t hw h
  obtain ⟨e, u, rfl, ⟨i, hc, -, hx⟩ | rfl | ⟨c, hx⟩ | hx | hx | hx⟩ := step_next h
  · exact command_memoryForm (s := { s with env := e }) hc hw hx
  · exact ⟨renderEvent_wf hw, renderEvent_par _⟩
  · obtain ⟨x1, x2, y1, y2, q1, q2, rfl⟩ := transfer_frame hx
    exact ⟨hw, rfl⟩
  · obtain ⟨q, d, f, p, r, rfl⟩ := dseq_frame hx
    exact ⟨hw, rfl⟩
  · obtain ⟨q, f, p, r, rfl⟩ := rseq_frame hx
    exact ⟨hw, rfl⟩
  · obtain ⟨q, o, f, p, r, rfl⟩ := oseq_frame hx
    exact ⟨hw, rfl⟩

/-! ### Agents without an enabled step (notes/assumptions/3.md) -/

theorem dAwaitNextRow_waits {s : State} (h : s.flags.ras = false) : exec .dAwaitNextRow s = .next s := by
  simp [exec, execDAwaitNextRow, h]

theorem rAwaitData_waits {s : State} (h : s.flags.rdr = false) : exec .rAwaitData s = .next s := by
  simp [exec, execRAwaitData, h]

theorem rAwaitTimingDone_waits {s : State} (h : s.flags.td = false) : exec .rAwaitTimingDone s = .next s := by
  simp [exec, execRAwaitTimingDone, h]

theorem oAwaitTimingStart_waits {s : State} (h : s.flags.ts = false) : exec .oAwaitTimingStart s = .next s := by
  simp [exec, execOAwaitTimingStart, h]

theorem dShiftColumn_waits {s : State} (h : s.dseq.osrLeft = 0) (hq : s.dq = []) : exec .dShiftColumn s = .next s := by
  simp [exec, execDShiftColumn, refill, h, hq]

theorem oLoadDelay_waits {s : State} (h : s.oq = []) : exec .oLoadDelay s = .next s := by
  simp [exec, execOLoadDelay, h]

theorem dseq_waits {s : State} (h : dEnabled s = false) : exec s.dseq.state.instr s = .next s := by
  unfold dEnabled at h
  cases hs : s.dseq.state <;> rw [hs] at h
  case off => rfl
  case loadWidth => cases h
  case shiftColumn =>
    simp only [Bool.or_eq_false_iff, decide_eq_false_iff_not, Bool.not_eq_false', List.isEmpty_iff] at h
    exact dShiftColumn_waits (by omega) h.2
  case awaitNextRow => exact dAwaitNextRow_waits h

theorem rseq_waits {s : State} (h : rEnabled s = false) : exec s.rseq.state.instr s = .next s := by
  unfold rEnabled at h
  cases hs : s.rseq.state <;> rw [hs] at h
  case off => rfl
  case awaitData => exact rAwaitData_waits h
  case awaitTimingDone => exact rAwaitTimingDone_waits h
  all_goals cases h

theorem oseq_waits {s : State} (h : oEnabled s = false) : exec s.oseq.state.instr s = .next s := by
  unfold oEnabled at h
  cases hs : s.oseq.state <;> rw [hs] at h
  case off => rfl
  case loadDelay => exact oLoadDelay_waits (by simpa using h)
  case awaitTimingStart => exact oAwaitTimingStart_waits h
  all_goals cases h

/-- A channel that is idle or paced out, its control word not a reserved one, waits. -/
theorem transfer_waits {s : State} {c : Chan} (h : chanEnabled c s = false)
    (hr : ctrlReserved (s.chan c).ctrl = false) : transfer c (s.chan c).ctrl s = .next s := by
  unfold transfer
  cases hb : (s.chan c).busy with
  | false => rfl
  | true =>
    have hp : paced s (s.chan c).ctrl = false := by simpa [chanEnabled, hb] using h
    simp [hr, hp]

/-- Settles O31, agent by agent. -/
theorem disabledAgentsWait : Obligations.DisabledAgentsWait := by
  refine ⟨fun a s h hr => ?_, fun s =>
    ⟨dAwaitNextRow_waits, rAwaitData_waits, rAwaitTimingDone_waits, oAwaitTimingStart_waits⟩⟩
  cases a with
  | render =>
    have hi : s.render.inFlight = none := by simpa [enabled] using h
    exact congrArg Host.Outcome.next (renderEvent_idle hi)
  | chan c => exact (channelStep_eq c s).trans (transfer_waits h (hr c rfl))
  | dseq => exact dseq_waits h
  | rseq => exact rseq_waits h
  | oseq => exact oseq_waits h

/-! ### The state after construction (70_reset R280) -/

theorem resetByte_outside_delays {p : Params} {a : Nat}
    (h : a < p.delaysBase.toNat ∨ p.delaysBase.toNat + 4 * p.colorBits ≤ a) : resetByte p a = 0 :=
  if_neg (by omega)

/-- The bytes of the delay table are those of its words, little-endian. -/
theorem resetByte_delay {p : Params} {i j : Nat} (hi : i < p.colorBits) (hj : j < 4) :
    resetByte p (p.delaysBase.toNat + 4 * i + j) = BitVec.ofNat 8 (delayWord i / 256 ^ j) := by
  have ho : p.delaysBase.toNat + 4 * i + j - p.delaysBase.toNat = 4 * i + j := by omega
  have hd : (4 * i + j) / 4 = i := by omega
  have hm : (4 * i + j) % 4 = j := by omega
  simp only [resetByte, ho, hd, hm]
  exact if_pos ⟨by omega, by omega⟩

/-- A memory that holds the bytes of `v` reads as `v`. -/
theorem memNat_of_bytes {p : Params} {m : Memory} {a n v : Nat}
    (h : ∀ j < n, memByte p m (a + j) = BitVec.ofNat 8 (v / 256 ^ j)) : memNat p m a n = v % 256 ^ n := by
  rw [← memNat_memStore_same p m a n v]
  refine (memNat_congr p m _ a n fun k h1 h2 => ?_).symm
  have hk : a + (k - a) = k := by omega
  rw [memByte_memStore, if_pos ⟨h1, h2⟩, ← h (k - a) (by omega), hk]

theorem initial_byteAt (p : Params) (a : Nat) : (State.initial p).byteAt a = resetByte p a := rfl

/-- A word that does not meet the delay table is 0 after construction. -/
theorem initial_wordAt_zero {p : Params} {a : Nat}
    (h : p.delaysBase.toNat + 4 * p.colorBits ≤ a ∨ a + 4 ≤ p.delaysBase.toNat) : (State.initial p).wordAt a = 0 := by
  have hz : memNat p [] a 4 = 0 % 256 ^ 4 := memNat_of_bytes fun j hj => by
    rw [Nat.zero_div]
    exact resetByte_outside_delays (by omega)
  exact congrArg (BitVec.ofNat 32) hz

/-- `DELAYS[i] = 2^i − 1` after construction (10_state R35). -/
theorem initial_delay {p : Params} {i : Nat} (hi : i < p.colorBits) (hc : p.colorBits ≤ 8) :
    ((State.initial p).wordAt (p.delaysBase.toNat + 4 * i)).toNat = 2 ^ i - 1 := by
  have hb : memNat p [] (p.delaysBase.toNat + 4 * i) 4 = delayWord i % 256 ^ 4 :=
    memNat_of_bytes fun j hj => resetByte_delay hi hj
  calc ((State.initial p).wordAt (p.delaysBase.toNat + 4 * i)).toNat
      = delayWord i % 256 ^ 4 % 2 ^ 32 := by rw [← hb]; rfl
    _ = (BitVec.ofNat 32 (delayWord i)).toNat := Nat.mod_mod _ _
    _ = 2 ^ i - 1 := delayWord_toNat (by omega)

/-- Both framebuffers of a legal map are zero after construction: neither meets the delay table. -/
theorem initial_framebuffers {p : Params} (hm : MapLegal p) {o : Nat} (ho : o < p.frameSize) :
    (State.initial p).byteAt (p.fb0Base.toNat + o) = 0 ∧ (State.initial p).byteAt (p.fb1Base.toNat + o) = 0 := by
  obtain ⟨-, h0, -, -, h1, -⟩ := map_apart hm
  rw [initial_byteAt, initial_byteAt]
  exact ⟨resetByte_outside_delays (by omega), resetByte_outside_delays (by omega)⟩

/-- Both pointer variables of a legal map are NULL after construction. -/
theorem initial_pointers {p : Params} (hm : MapLegal p) :
    (State.initial p).fbPtr = nullPtr ∧ (State.initial p).delayPtr = nullPtr := by
  obtain ⟨-, -, -, -, -, -, -, h1, h2, -⟩ := map_apart hm
  exact ⟨initial_wordAt_zero h1, initial_wordAt_zero h2⟩

@[simp] theorem rebuild5_getElem (g : Table 256) (cfg : Hub75Config) (v : Fin 32) :
    (rebuild5 g cfg)[v] = lutEntry g cfg 5 v := tabulate_getElem _ _ _ v.isLt

@[simp] theorem rebuild6_getElem (g : Table 256) (cfg : Hub75Config) (v : Fin 64) :
    (rebuild6 g cfg)[v] = lutEntry g cfg 6 v := tabulate_getElem _ _ _ v.isLt

/-- Settles O42: construction is `State.initial` of a legal set; the tables, the pointers, the delay table and the
framebuffers are read through the lemmas above, every register is the literal of `State.initial`. -/
theorem constructionGivesTheResetState : Obligations.ConstructionGivesTheResetState := by
  refine fun p => ⟨fun h => if_neg h, fun h => ⟨State.initial p, if_pos h, rfl, rfl, ?_⟩⟩
  have hm := mapLegal_of_legal h
  obtain ⟨hfb, hdl⟩ := initial_pointers hm
  obtain ⟨-, -, ⟨-, hbits⟩, -⟩ := h
  refine ⟨fun v => ⟨rebuild5_getElem _ _ v, rebuild5_getElem _ _ v⟩, fun v => rebuild6_getElem _ _ v, rfl, hfb, hdl,
    fun i hi => initial_delay hi hbits, fun o ho => initial_framebuffers hm ho, fun c => ?_,
    rfl, rfl, rfl, rfl, rfl, rfl, rfl, rfl, rfl⟩
  cases c <;> rfl

/-! ### The operation of a turn (00_scope R10, 10_state R23) -/

theorem portStep_of_decodes {w : BitVec 64} {i : Instr} (h : decodeCmd w = .ok i) (s : State) :
    portStep w s = exec i s := by
  simp [portStep, h]

theorem portStep_of_rejects {w : BitVec 64} {r : Reject} (h : decodeCmd w = .error r) (s : State) :
    portStep w s = .refused .reservedCommand := by
  simp [portStep, h]

theorem channelStep_of_word {c : Chan} {s : State} {i : Instr} (h : chanInstr c (s.chan c).ctrl = some i) :
    channelStep c s = exec i s := by
  simp [channelStep, h]

@[simp] theorem chan_with_env (s : State) (e : Env) (c : Chan) : ({ s with env := e } : State).chan c = s.chan c := by
  cases c <;> rfl

/-- Settles O5: `step_of_turn` reduces a step to its turn, and the turn to the operation it names. -/
theorem stepRunsTheDecodedOperation : Obligations.StepRunsTheDecodedOperation := by
  intro s ts u
  refine ⟨fun w i ht hd => ?_, fun w r ht hd => ?_, fun c i ht hd => ?_, fun _ ht _ => step_of_turn ht,
    fun _ ht _ => step_of_turn ht, fun _ ht _ => step_of_turn ht, fun ht => step_of_turn ht, step_of_free⟩
  · exact (step_of_turn ht).trans (portStep_of_decodes hd u)
  · exact (step_of_turn ht).trans (portStep_of_rejects hd u)
  · exact (step_of_turn ht).trans (channelStep_of_word (by rwa [chan_with_env]))

end Sys2Proof.Machine
end

section
/-! PROOFS. The state that is shared or bounded: the active framebuffer is written by no step, the offsets of the pixels
fill a frame, and the queues and `OSR` stay within their sizes. -/

namespace Sys2Proof.Machine

/-! ### The active framebuffer (10_state R31, 41_display_memory R165) -/

/-- Every byte of both framebuffers is as before. -/
abbrev SameFramebuffers (s t : State) : Prop :=
  t.par = s.par ∧ ∀ base, base = s.par.fb0Base ∨ base = s.par.fb1Base → ∀ o < s.par.frameSize,
    t.byteAt (base.toNat + o) = s.byteAt (base.toNat + o)

/-- Every byte of the buffer that is active in `t` is as it was in `s`. -/
abbrev ActiveKept (s t : State) : Prop :=
  t.fbPtr ≠ nullPtr → ∀ o < s.par.frameSize, t.byteAt (t.fbPtr.toNat + o) = s.byteAt (t.fbPtr.toNat + o)

/-- The bytes of a state are those of its memory. -/
theorem byteAt_congr {s t : State} (hp : t.par = s.par) (hm : t.mem = s.mem) : SameMemory s t := by
  intro a
  simp only [State.byteAt, hp, hm]

theorem sameFramebuffers_of_mem {s t : State} (hp : t.par = s.par) (hm : t.mem = s.mem) : SameFramebuffers s t :=
  ⟨hp, fun _ _ _ _ => byteAt_congr hp hm _⟩

/-- A store to a pointer variable reaches no framebuffer (20_memory R66). -/
theorem setWord_sameFramebuffers {s : State} (hm : MapLegal s.par) {a : Word}
    (ha : a = s.par.fbPtrAddr ∨ a = s.par.delayPtrAddr) (v : Word) : SameFramebuffers s (s.setWord a.toNat v) := by
  obtain ⟨h0, h1, -⟩ := fb_outside hm ha v
  refine ⟨rfl, ?_⟩
  rintro base (rfl | rfl)
  · exact h0
  · exact h1

theorem RenderInv.fbPtr_cases {s : State} (h : RenderInv s) (hf : s.fbPtr ≠ nullPtr) :
    s.fbPtr = s.par.fb0Base ∨ s.fbPtr = s.par.fb1Base := by
  rw [h.bound hf]
  cases s.active
  · exact .inl rfl
  · exact .inr rfl

theorem ActiveKept.of_mem {s t : State} (hp : t.par = s.par) (hm : t.mem = s.mem) : ActiveKept s t :=
  fun _ _ _ => byteAt_congr hp hm _

theorem SameFramebuffers.activeKept {s t : State} (h : SameFramebuffers s t) (ht : RenderInv t) : ActiveKept s t := by
  obtain ⟨hp, hb⟩ := h
  intro hf
  exact hb _ (by simpa only [hp] using ht.fbPtr_cases hf)

/-- An accepted command performs only its first event in the step that issues it, and no command begins with a write of a
framebuffer: INIT and COMMIT begin with the store of `FB_PTR` (41_display_memory R140, R155). -/
theorem command_sameFramebuffers {i : Instr} {s t : State} (hc : isCommand i = true) (hm : MapLegal s.par)
    (h : exec i s = .next t) : SameFramebuffers s t := by
  obtain ⟨-, ⟨r, rfl⟩ | ⟨c, -, rfl⟩ | ⟨-, rfl⟩ | ⟨-, -, rfl⟩ |
    ⟨-, ⟨x, y, color, -, -, rfl⟩ | rfl | rfl | ⟨a, rfl⟩ | ⟨-, rfl⟩⟩⟩ := command_next hc h
  case inr.inr.inr.inl | inr.inr.inr.inr.inr.inr.inl =>
    rw [beginCommand_cons]
    exact setWord_sameFramebuffers hm (.inl rfl) _
  all_goals exact sameFramebuffers_of_mem rfl rfl

/-- A pending event of a drawing command writes inside the draw buffer only (41_display_memory R146, R150). -/
theorem perform_drawEvent_outside {s : State} {e : MemEvent} (he : drawEventOk s.par e) {a : Nat}
    (ha : Outside s.render.drawBase s.par.frameSize a) : (perform e s).byteAt a = s.byteAt a := by
  cases e with
  | readDraw o => rfl
  | orDraw o bits =>
    obtain ⟨ho, -⟩ := he
    exact (byteAt_setByte _ _ _ _).trans (if_neg (by omega))
  | zeroDraw o =>
    have ho : o < s.par.frameSize := he
    exact (byteAt_setByte _ _ _ _).trans (if_neg (by omega))
  | selectDraw | storePtr _ _ | returnPtr _ | setupPairA | setupPairB => exact he.elim

/-- The draw buffer meets neither the active buffer nor the variable that names it (20_memory R66). -/
theorem RenderInv.drawBase_apart {s : State} (h : RenderInv s) (hf : s.fbPtr ≠ nullPtr) :
    (∀ o < s.par.frameSize, Outside s.drawBaseNow s.par.frameSize (s.fbPtr.toNat + o)) ∧
    ∀ o < 4, Outside s.drawBaseNow s.par.frameSize (s.par.fbPtrAddr.toNat + o) := by
  have hm := mapLegal_of_legal h.legal
  obtain ⟨hne, -⟩ := bases_ne hm (frameSize_pos h.legal)
  obtain ⟨hfb, -, h0, -, -, h1, -⟩ := map_apart hm
  rcases h.fbPtr_cases hf with e | e
  · have hd : s.drawBaseNow = s.par.fb1Base := if_pos e
    rw [hd, e]
    exact ⟨fun o ho => by omega, fun o ho => by omega⟩
  · have hd : s.drawBaseNow = s.par.fb0Base := if_neg (e ▸ hne.symm)
    rw [hd, e]
    exact ⟨fun o ho => by omega, fun o ho => by omega⟩

/-- While the bytes outside the draw buffer stay, the active buffer is the same one and keeps its bytes. -/
theorem RenderInv.activeKept_of_outside {s t : State} (h : RenderInv s) (hf : s.fbPtr ≠ nullPtr) (hp : t.par = s.par)
    (hb : ∀ a, Outside s.drawBaseNow s.par.frameSize a → t.byteAt a = s.byteAt a) : ActiveKept s t := by
  obtain ⟨hbuf, hvar⟩ := h.drawBase_apart hf
  have hfp : t.fbPtr = s.fbPtr := by
    unfold State.fbPtr
    rw [hp]
    refine wordAt_congr _ _ _ hp fun k hk hk' => ?_
    obtain ⟨j, rfl⟩ := Nat.exists_eq_add_of_le hk
    exact hb _ (hvar j (by omega))
  intro _ o ho
  rw [hfp]
  exact hb _ (hbuf o ho)

/-- The pending event of RENDER is INIT's store of `DELAY_PTR`, ENGINE_SETUP's second one, or one of a drawing command. -/
theorem renderEvent_activeKept {s : State} (h : RenderInv s) : ActiveKept s (renderEvent s) := by
  cases hi : s.render.inFlight with
  | none => rw [renderEvent_idle hi]; exact fun _ _ _ => rfl
  | some f =>
    have hp : s.pending = f.event :: f.later := by simp [State.pending, hi]
    have hr := render_renderInv h
    rw [renderEvent_busy hi] at hr ⊢
    rcases h.command with hn | ⟨ha, -⟩ | ⟨hs, -⟩ | ⟨hd, hf, -, hev⟩
    · rw [hp] at hn
      cases hn
    · obtain ⟨he, -⟩ := List.cons.inj (hp.symm.trans ha)
      rw [he] at hr ⊢
      have hk := setWord_sameFramebuffers (mapLegal_of_legal h.legal) (.inr rfl) s.par.delaysBase
      exact SameFramebuffers.activeKept (s := s) hk hr
    · obtain ⟨he, -⟩ := List.cons.inj (hp.symm.trans hs)
      rw [he]
      exact .of_mem rfl rfl
    · refine h.activeKept_of_outside hf (perform_par _ _) fun a ha => ?_
      have hw : Outside s.render.drawBase s.par.frameSize a := hd ▸ ha
      exact perform_drawEvent_outside (s := { s with render := { s.render with inFlight := inFlightOf f.cmd f.later } })
        (hev f.event (hp ▸ List.mem_cons_self)) hw

/-- Settles O50, by the six kinds of turn: the first event of a command reaches no framebuffer, RENDER writes the draw
buffer only, channels and sequencers leave memory as it is. -/
theorem activeBufferNeverWritten : Obligations.ActiveBufferNeverWritten := by
  intro s t h hs
  show ActiveKept s t
  obtain ⟨e, u, rfl, ⟨i, hc, -, hx⟩ | rfl | ⟨c, hx⟩ | hx | hx | hx⟩ := step_next hs
  · have hu : RenderInv { s with env := e } := seq_renderInv h
    exact (command_sameFramebuffers hc (mapLegal_of_legal hu.legal) hx).activeKept (command_renderInv hc hu hx)
  · exact renderEvent_activeKept (s := { s with env := e }) (seq_renderInv h)
  · obtain ⟨x1, x2, y1, y2, q1, q2, rfl⟩ := transfer_frame hx
    exact .of_mem rfl rfl
  · obtain ⟨q, d, f, p, r, rfl⟩ := dseq_frame hx
    exact .of_mem rfl rfl
  · obtain ⟨q, f, p, r, rfl⟩ := rseq_frame hx
    exact .of_mem rfl rfl
  · obtain ⟨q, o, f, p, r, rfl⟩ := oseq_frame hx
    exact .of_mem rfl rfl

/-! ### The offsets of the pixels (10_state R30, 41_display_memory R146) -/

/-- The offset as a number with the digits row, plane and column. -/
theorem pixelOffset_digits (p : Params) (x y b : Nat) :
    pixelOffset p x y b = x + p.width * (b + p.colorBits * (y % p.activeRows)) := by
  unfold pixelOffset
  ring

/-- A number determines its lowest digit and the rest of it. -/
theorem digit_inj {n a a' c c' : Nat} (ha : a < n) (ha' : a' < n) (h : a + n * c = a' + n * c') : a = a' ∧ c = c' := by
  obtain ⟨hd, hr⟩ := (Nat.div_mod_unique (by omega)).2 ⟨h, ha⟩
  obtain ⟨hd', hr'⟩ := (Nat.div_mod_unique (by omega)).2 ⟨rfl, ha'⟩
  exact ⟨hr.symm.trans hr', hd.symm.trans hd'⟩

theorem pixelOffset_inj {p : Params} {x y b x' y' b' : Nat} (hx : x < p.width) (hb : b < p.colorBits)
    (hx' : x' < p.width) (hb' : b' < p.colorBits) (h : pixelOffset p x y b = pixelOffset p x' y' b') :
    x = x' ∧ b = b' ∧ y % p.activeRows = y' % p.activeRows := by
  rw [pixelOffset_digits, pixelOffset_digits] at h
  obtain ⟨hxx, h⟩ := digit_inj hx hx' h
  exact ⟨hxx, digit_inj hb hb' h⟩

/-- The last row of the canvas has the last row address. -/
theorem last_row_mod {n : Nat} (h : 1 ≤ n) : (2 * n - 1) % n = n - 1 := by
  have e : 2 * n - 1 = n - 1 + n := by omega
  rw [e, Nat.add_mod_right, Nat.mod_eq_of_lt (by omega)]

/-- Settles O23: the offset is a number with the digits row, plane and column, and all digits at their largest give the
last number below `FRAME_SIZE`. -/
theorem pixelOffsetsFillTheFrame : Obligations.PixelOffsetsFillTheFrame := by
  intro p hw hr hc
  refine ⟨fun x y b hx _ hb => ⟨?_, offset_bound hx (Nat.mod_lt _ hr) hb⟩, ?_, fun x y b x' y' b' => pixelOffset_inj⟩
  · unfold pixelOffset
    ring
  · rw [pixelOffset_digits, last_row_mod hr, Params.frameSize]
    obtain ⟨w, ew⟩ := Nat.exists_eq_add_of_le hw
    obtain ⟨r, er⟩ := Nat.exists_eq_add_of_le hr
    obtain ⟨c, ec⟩ := Nat.exists_eq_add_of_le hc
    refine Nat.eq_sub_of_add_eq ?_
    rw [ew, er, ec]
    simp only [Nat.add_sub_cancel_left]
    ring

/-! ### The queues and `OSR` (10_state R43, R46) -/

/-- The counter invariant speaks of these parts of the state only. -/
theorem CounterInv.congr {s t : State} (h : CounterInv s) (hp : t.par = s.par) (hd : t.dq = s.dq) (ho : t.oq = s.oq)
    (hr : t.dseq.osr = s.dseq.osr) (hl : t.dseq.osrLeft = s.dseq.osrLeft) : CounterInv t := by
  obtain ⟨wordSize, dqBound, oqBound, dqWords, osrLeft, osr⟩ := h
  constructor
  · rwa [hp]
  · rwa [hp, hd]
  · rwa [hp, ho]
  · rwa [hp, hd]
  · rwa [hp, hl]
  · rwa [hr, hl]

theorem renderEvent_counterInv {s : State} (h : CounterInv s) : CounterInv (renderEvent s) := by
  cases hi : s.render.inFlight with
  | none => rwa [renderEvent_idle hi]
  | some f =>
    rw [renderEvent_busy hi]
    obtain ⟨hds, -, -, -, hdq, hoq, -⟩ :=
      perform_engine f.event { s with render := { s.render with inFlight := inFlightOf f.cmd f.later } }
    exact h.congr (perform_par _ _) hdq hoq (congrArg DSeq.osr hds) (congrArg DSeq.osrLeft hds)

theorem beginCommand_counterInv (i : Instr) (es : List MemEvent) {s : State} (h : CounterInv s) :
    CounterInv (beginCommand i es s) :=
  renderEvent_counterInv (s := { s with render := { s.render with inFlight := inFlightOf i es, ret := none } })
    (h.congr rfl rfl rfl rfl rfl)

theorem command_counterInv {i : Instr} {s t : State} (hc : isCommand i = true) (hi : CounterInv s)
    (h : exec i s = .next t) : CounterInv t := by
  obtain ⟨-, ⟨r, rfl⟩ | ⟨c, -, rfl⟩ | ⟨-, rfl⟩ | ⟨-, -, rfl⟩ |
    ⟨-, ⟨x, y, color, -, -, rfl⟩ | rfl | rfl | ⟨a, rfl⟩ | ⟨-, rfl⟩⟩⟩ := command_next hc h
  case inl | inr.inl | inr.inr.inl => exact hi.congr rfl rfl rfl rfl rfl
  all_goals exact beginCommand_counterInv _ _ (hi.congr rfl rfl rfl rfl rfl)

/-- A channel pushes `W_A` bytes on `DQ`, or a word on `OQ`, only while the queue has room. -/
theorem busWrite_counterInv {s t : State} {a : Word} {n : Nat} {v : Word} (h : CounterInv s) (hv : v.toNat < 256 ^ n)
    (hw : busWrite s a n v = .next t) : CounterInv t := by
  rcases busWrite_next hw with ⟨rfl, hroom, rfl⟩ | ⟨rfl, hroom, -⟩ | ⟨c, r, rfl, -⟩
  · refine { h with dqBound := ?_, dqWords := fun w hm => ?_ }
    · simpa using hroom
    · rcases List.mem_append.1 hm with hm | hm
      · exact h.dqWords w hm
      · rw [List.mem_singleton.1 hm]
        exact hv
  · refine { h with oqBound := ?_ }
    simpa using hroom
  · exact h.congr (setChan_par _ _ _) (setChan_dq _ _ _) (setChan_oq _ _ _) (by rw [setChan_dseq]) (by rw [setChan_dseq])

theorem ctrlBytes_le {w : BitVec 16} (h : ctrlReserved w = false) : ctrlBytes w ≤ 4 := by
  have hs : (ctrlSize w).toNat ≠ 3 := by
    simp only [ctrlReserved, Bool.or_eq_false_iff, decide_eq_false_iff_not] at h
    exact fun e => h.1.1 (BitVec.eq_of_toNat_eq e)
  have hlt := (ctrlSize w).isLt
  unfold ctrlBytes
  rw [Nat.one_shiftLeft]
  exact Nat.pow_le_pow_right (j := 2) (by decide) (by omega)

theorem transfer_counterInv {c : Chan} {w : BitVec 16} {s t : State} (h : CounterInv s)
    (hx : transfer c w s = .next t) : CounterInv t := by
  rcases transfer_next hx with rfl | ⟨-, hr, -, u, hu, rfl⟩
  · exact h
  · obtain ⟨hv, -⟩ := memNat_wordOf s (s.chan c).readAddr.toNat (ctrlBytes_le hr)
    obtain ⟨x1, x2, y1, y2, e⟩ := retire_frame c w u
    rw [e]
    exact (busWrite_counterInv h hv hu).congr rfl rfl rfl rfl rfl

/-- The word a column takes its byte from is within the bytes left in it (10_state R46). -/
theorem Fetched.bounds {s : State} {word : Word} {left : Nat} {q : List Word} (h : CounterInv s)
    (hf : Fetched s word left q) : left ≤ s.par.wA ∧ word.toNat < 256 ^ left ∧ q.length ≤ s.dq.length ∧ q ⊆ s.dq := by
  rcases hf with ⟨-, hq, rfl⟩ | ⟨-, rfl, rfl, rfl⟩
  · exact ⟨Nat.le_refl _, h.dqWords word (by simp [hq]), by simp [hq], by simp [hq]⟩
  · exact ⟨h.osrLeft, h.osr, Nat.le_refl _, List.Subset.refl _⟩

/-- Shifting out a byte leaves one byte less. -/
theorem shiftRight_byte_lt {w : Word} {n : Nat} (h : w.toNat < 256 ^ n) : (w >>> 8).toNat < 256 ^ (n - 1) := by
  rw [BitVec.toNat_ushiftRight, Nat.shiftRight_eq_div_pow]
  cases n with
  | zero => exact Nat.lt_of_le_of_lt (Nat.div_le_self _ _) h
  | succ n =>
    rw [Nat.pow_succ] at h
    exact Nat.div_lt_of_lt_mul (by simpa [Nat.mul_comm] using h)

/-- The state after one byte of a fetched word is shifted out, whatever else the column changes. -/
theorem Fetched.counterInv {s t : State} {word : Word} {left : Nat} {q : List Word} (h : CounterInv s)
    (hf : Fetched s word left q) (hp : t.par = s.par) (ho : t.oq = s.oq) (hq : t.dq = q)
    (hr : t.dseq.osr = word >>> 8) (hl : t.dseq.osrLeft = left - 1) : CounterInv t := by
  obtain ⟨hleft, hword, hlen, hsub⟩ := hf.bounds h
  obtain ⟨wordSize, dqBound, oqBound, dqWords, -, -⟩ := h
  constructor
  · rwa [hp]
  · rw [hp, hq]
    exact hlen.trans dqBound
  · rwa [hp, ho]
  · rw [hp, hq]
    exact fun w hw => dqWords w (hsub hw)
  · rw [hp, hl]
    omega
  · rw [hr, hl]
    exact shiftRight_byte_lt hword

theorem dseq_counterInv {s t : State} (h : CounterInv s) (hx : exec s.dseq.state.instr s = .next t) : CounterInv t := by
  rcases dseq_next hx with rfl | ⟨-, rfl⟩ | ⟨-, word, left, q, hf, ⟨-, rfl⟩ | ⟨-, rfl⟩⟩ | ⟨-, -, rfl⟩
  case inl => exact h
  case inr.inl | inr.inr.inr => exact h.congr rfl rfl rfl rfl rfl
  all_goals exact hf.counterInv h rfl rfl rfl rfl rfl

/-- The output-enable sequencer only pops `OQ` (43_sequencers R220). -/
theorem oseq_counterInv {s t : State} (h : CounterInv s) (hx : exec s.oseq.state.instr s = .next t) : CounterInv t := by
  rcases oseq_next hx with rfl | ⟨-, d, q, hq, rfl⟩ | ⟨-, -, rfl⟩ | ⟨-, -, -, rfl⟩ | ⟨-, -, -, es, -, rfl⟩ |
    ⟨-, -, es, -, rfl⟩ | ⟨-, es, -, rfl⟩
  case inl => exact h
  case inr.inl =>
    have hlen : s.oq.length = q.length + 1 := by rw [hq, List.length_cons]
    have hb := h.oqBound
    exact { h with oqBound := by dsimp only; omega }
  all_goals exact h.congr rfl rfl rfl rfl rfl

/-- Settles O53, by the six kinds of turn: only channels push, only while there is room, and only the data sequencer moves
`OSR`. -/
theorem stepKeepsCounterInv : Obligations.StepKeepsCounterInv := by
  intro s t h hs
  obtain ⟨e, u, rfl, hx⟩ := step_next hs
  have hu : CounterInv { s with env := e } := h.congr rfl rfl rfl rfl rfl
  obtain ⟨i, hc, -, hx⟩ | rfl | ⟨c, hx⟩ | hx | hx | hx := hx
  · exact command_counterInv hc hu hx
  · exact renderEvent_counterInv hu
  · exact transfer_counterInv hu hx
  · exact dseq_counterInv hu hx
  · obtain ⟨q, f, p, r, rfl⟩ := rseq_frame hx
    exact hu.congr rfl rfl rfl rfl rfl
  · exact oseq_counterInv hu hx

end Sys2Proof.Machine
end

section
/-! PROOFS. What an access may do: a command while another one's memory events are pending, the memory events of each
command and how RENDER performs them, and the accesses of a channel the rules do not allow. -/

namespace Sys2Proof.Machine

/-! ### A command while another is in progress (20_memory R73, 60_exceptions R253) -/

/-- The operations of the words whose `OP` is reserved (30_encoding R96). -/
def isReservedOp : Instr → Bool
  | .reservedOp0 _ | .reservedOpD _ | .reservedOpE _ | .reservedOpF _ => true
  | _ => false

/-- A word that is a command decodes, to an operation with a meaning: one case for each value of `OP`. -/
theorem decodeCmd_of_not_reserved {w : BitVec 64} (h : ¬ReservedWord w) :
    ∃ i, decodeCmd w = .ok i ∧ isReservedOp i = false := by
  have hop : (w.extractLsb' 60 4).toNat < 16 := (w.extractLsb' 60 4).isLt
  unfold ReservedWord at h
  unfold decodeCmd
  generalize (w.extractLsb' 60 4).toNat = op at h hop
  match op, h, hop with
  | 0, h, _ | 13, h, _ | 14, h, _ | 15, h, _ => exact absurd trivial h
  | 2, h, _ =>
    obtain ⟨hz, hlo, hhi⟩ : w.extractLsb' 45 15 = 0 ∧ 1 ≤ (w.extractLsb' 41 4).toNat ∧ (w.extractLsb' 41 4).toNat ≤ 8 := by
      simpa only [not_or, not_not, not_lt] using h
    have hlegal : pwmBitsLegal (w.extractLsb' 41 4) = true := by
      rw [pwmBitsLegal, decide_eq_true hlo, decide_eq_true hhi, Bool.and_self]
    exact ⟨_, (if_neg (not_not.2 hz)).trans (if_pos hlegal), rfl⟩
  | 5, h, _ | 12, h, _ => exact ⟨_, if_neg h, rfl⟩
  | 1, h, _ | 3, h, _ | 4, h, _ | 6, h, _ | 7, h, _ | 8, h, _ | 9, h, _ | 10, h, _ | 11, h, _ =>
    exact ⟨_, if_pos (not_not.1 h), rfl⟩
  | op + 16, _, hop => omega

/-- The check that no command is in progress comes first: what follows it does not answer ConcurrentRender. -/
theorem whenIdle_concurrent_iff {s : State} {r : Result} (hr : r ≠ .refused .concurrentRender) :
    whenIdle s r = .refused .concurrentRender ↔ s.pending ≠ [] := by
  rw [Ne, pending_eq_nil]
  cases hf : s.render.inFlight with
  | none => simp [whenIdle, hf, hr]
  | some f => simp [whenIdle, hf]

theorem whenAttached_not_concurrent {s : State} {r : Result} (hr : r ≠ .refused .concurrentRender) :
    whenAttached s r ≠ .refused .concurrentRender := by
  unfold whenAttached
  split
  · simp
  · exact hr

/-- A command with a meaning answers ConcurrentRender exactly while another command's memory events are pending. -/
theorem command_concurrent_iff {i : Instr} (hc : isCommand i = true) (hw : i.wellFormed = true)
    (hr : isReservedOp i = false) (s : State) : exec i s = .refused .concurrentRender ↔ s.pending ≠ [] := by
  cases i
  case init | engineStart => exact whenIdle_concurrent_iff (by split <;> simp)
  case configure b g br tm =>
    have hx : exec (.configure b g br tm) s = whenIdle s _ := if_pos hw
    rw [hx]
    exact whenIdle_concurrent_iff (by split <;> simp)
  case engineSetup | setPixel => exact whenIdle_concurrent_iff (whenAttached_not_concurrent (by split <;> simp))
  case clear | commit | getActiveBufferPtr | getDelayPtr =>
    exact whenIdle_concurrent_iff (whenAttached_not_concurrent (by simp))
  case getFbPtrAddr | getDelayPtrAddr | gammaCorrect => exact whenIdle_concurrent_iff (by simp)
  case reservedOp0 | reservedOpD | reservedOpE | reservedOpF => cases hr
  all_goals cases hc

/-- Settles O7: a command word decodes to an operation with a meaning, whose first check is the one for a command in
progress. -/
theorem concurrentCommandIsRefused : Obligations.ConcurrentCommandIsRefused := by
  intro w s h
  obtain ⟨i, hi, hr⟩ := decodeCmd_of_not_reserved h
  obtain ⟨hc, hw⟩ := decodeCmd_isCommand hi
  rw [portStep_of_decodes hi]
  exact command_concurrent_iff hc hw hr s

/-! ### RENDER performs the pending events (20_memory R72) -/

/-- The step of RENDER performs the first pending event, and records only that it is no longer pending. -/
theorem renderEvent_of_pending {s : State} {e : MemEvent} {es : List MemEvent} (h : s.pending = e :: es) :
    ∃ f, renderEvent s = { perform e s with render := { (perform e s).render with inFlight := f } } := by
  cases hf : s.render.inFlight with
  | none => rw [pending_eq_nil.2 hf] at h; cases h
  | some f =>
    have he : f.event = e := by
      rw [State.pending, hf] at h
      exact (List.cons.inj h).1
    exact ⟨_, by rw [renderEvent_busy hf, perform_record, he]⟩

theorem foldl_perform_inFlight (es : List MemEvent) (s : State) :
    (es.foldl (fun t e => perform e t) s).render.inFlight = s.render.inFlight := by
  induction es generalizing s with
  | nil => rfl
  | cons e es ih => rw [List.foldl_cons, ih, perform_inFlight]

/-- After all events no command is in progress. -/
theorem pending_finishCommand (s : State) : (finishCommand s).pending = [] := by
  rw [pending_eq_nil, finishCommand_eq, foldl_perform_inFlight]

/-- With nothing pending a command is finished. -/
theorem finishCommand_of_idle {s : State} (h : s.pending = []) : finishCommand s = s := by
  rw [finishCommand, pending_eq_nil.1 h]

/-- As many steps of RENDER as events are pending finish the command. -/
theorem iterate_renderEvent {n : Nat} {s : State} (h : s.pending.length = n) : renderEvent^[n] s = finishCommand s := by
  induction n generalizing s with
  | zero => exact (finishCommand_of_idle (List.length_eq_zero_iff.1 h)).symm
  | succ n ih =>
    have hn : (renderEvent s).pending.length = n := by rw [pending_renderEvent, List.length_tail, h, Nat.add_sub_cancel]
    rw [Function.iterate_succ_apply, ih hn, finishCommand_renderEvent]

/-- Settles O10, the iteration by induction on the number of pending events. -/
theorem renderStepsFinishTheCommand : Obligations.RenderStepsFinishTheCommand := by
  intro s
  refine ⟨pending_renderEvent s, fun e es h a => ?_, iterate_renderEvent rfl, pending_finishCommand s⟩
  obtain ⟨f, hf⟩ := renderEvent_of_pending h
  rw [hf]
  rfl

/-! ### Operations of the channels and sequencers leave what the render domain owns (60_exceptions R260) -/

theorem SameDisplay.refl (s : State) : SameDisplay s s := ⟨rfl, rfl, rfl, rfl, rfl, rfl, rfl, rfl⟩

theorem SameDisplay.trans {s t u : State} (h1 : SameDisplay s t) (h2 : SameDisplay t u) : SameDisplay s u := by
  obtain ⟨p1, c1, r1, g1, b1, a1, m1, d1⟩ := h1
  obtain ⟨p2, c2, r2, g2, b2, a2, m2, d2⟩ := h2
  exact ⟨p1.trans p2, c1.trans c2, r1.trans r2, g1.trans g2, b1.trans b2, a1.trans a2, m1.trans m2, d1.trans d2⟩

theorem refill_display {s t : State} (h : refill s = some t) : SameDisplay s t := by
  obtain ⟨word, left, q, -, rfl⟩ := refill_some h
  exact SameDisplay.refl s

theorem countColumn_display (s : State) : SameDisplay s (countColumn s) := by
  unfold countColumn
  split <;> exact SameDisplay.refl s

theorem assertOe_display (s : State) : SameDisplay s (assertOe s) := by
  unfold assertOe
  split <;> exact SameDisplay.refl s

theorem deassertOe_display (s : State) : SameDisplay s (deassertOe s) := by
  unfold deassertOe
  split <;> exact SameDisplay.refl s

theorem transfer_display {c : Chan} {w : BitVec 16} {s t : State} (h : transfer c w s = .next t) : SameDisplay s t := by
  obtain ⟨x1, x2, y1, y2, q1, q2, rfl⟩ := transfer_frame h
  exact SameDisplay.refl s

theorem dShiftColumn_display {s t : State} (h : exec .dShiftColumn s = .next t) : SameDisplay s t := by
  simp only [exec, execDShiftColumn] at h
  split at h
  · cases h
    exact SameDisplay.refl s
  · next u hu =>
    cases h
    have hsu : SameDisplay s u := refill_display hu
    have hshift : SameDisplay s (shiftByte u) := hsu
    exact SameDisplay.trans hshift (countColumn_display _)

theorem oHold_display {s t : State} (h : exec .oHold s = .next t) : SameDisplay s t := by
  simp only [exec, execOHold] at h
  have ho := assertOe_display s
  split at h <;> split at h <;> cases h
  case isTrue.isTrue => exact SameDisplay.refl s
  all_goals exact ho

/-- An operation that is no command keeps memory, the render port and the rest of what the render domain owns, in
whatever state it is performed. -/
theorem agentOp_display {i : Instr} {s t : State} (hc : isCommand i = false) (h : exec i s = .next t) :
    SameDisplay s t := by
  cases i
  case xferA1W4 | xferA1W2 | xferA1W1 | xferA2 | xferB1 | xferB2 => exact transfer_display h
  case dShiftColumn => exact dShiftColumn_display h
  case oHold => exact oHold_display h
  case oSignalDone => cases h; exact deassertOe_display s
  case dOff | dLoadWidth | rOff | rLoadRowCount | rLoadPlaneCount | rSetAddress | rLatch | rSignalTiming | oOff =>
    cases h
    exact SameDisplay.refl s
  case dAwaitNextRow | rAwaitData | rAwaitTimingDone | oAwaitTimingStart | oLoadDelay =>
    simp only [exec, execDAwaitNextRow, execRAwaitData, execRAwaitTimingDone, execOAwaitTimingStart, execOLoadDelay] at h
    split at h <;> cases h <;> exact SameDisplay.refl s
  case rNext =>
    simp only [exec, execRNext] at h
    split at h
    · cases h; exact SameDisplay.refl s
    · split at h <;> cases h <;> exact SameDisplay.refl s
  all_goals cases hc

/-! ### The memory events of each command (20_memory R72) -/

/-- From `s` the events `es` have become pending with no byte changed, and RENDER has made one step towards `t`
(notes/assumptions/4.md). -/
abbrev Issued (s t : State) (es : List MemEvent) : Prop :=
  ∃ u, t = renderEvent u ∧ SameMemory s u ∧ t.pending = u.pending.tail ∧ u.pending = es

/-- A command that begins with the events `es`, its work before them touching no memory. -/
theorem issued_beginCommand (i : Instr) (es : List MemEvent) {s v : State} (h : SameMemory s v) :
    Issued s (beginCommand i es v) es :=
  ⟨{ v with render := { v.render with inFlight := inFlightOf i es, ret := none } }, rfl, h, pending_renderEvent _,
    pending_record { v with render := { v.render with ret := none } } i es⟩

/-- A step that leaves no command in progress and no byte changed issues no memory event. -/
theorem issued_nothing {s t : State} (h : SameMemory s t) (hi : t.pending = []) : Issued s t [] :=
  ⟨t, (renderEvent_idle (pending_eq_nil.1 hi)).symm, h, by rw [hi]; rfl, hi⟩

/-- A step that keeps what the render domain owns issues no memory event. -/
theorem issued_nothing_of_sameDisplay {s t : State} (h : SameDisplay s t) (hs : s.pending = []) : Issued s t [] := by
  obtain ⟨hp, -, -, -, -, -, hm, hr⟩ := h
  refine issued_nothing (fun a => ?_) ?_
  · rw [State.byteAt, State.byteAt, hp, hm]
  · rw [pending_of_inFlight (congrArg RenderPort.inFlight hr.symm), hs]

/-- The buffer COMMIT makes active is the one that was not (41_display_memory R155). -/
theorem activeBase_not (p : Params) (v : Bool) : activeBase p (!v) = if v then p.fb0Base else p.fb1Base := by
  cases v <;> rfl

/-- SET_PIXEL issues its plane events when the pixel is on the canvas, none when it is ignored (41_display_memory R145). -/
theorem setPixel_issues {x y : BitVec 16} {c : Color} {s t : State} (hs : s.pending = [])
    (h : exec (.setPixel x y c) s = .next t) :
    Issued s t (if InRange s.par x.toInt y.toInt then pixelEvents s x.toInt.toNat y.toInt.toNat c else []) := by
  obtain ⟨-, h⟩ := whenIdle_next h
  obtain ⟨-, h⟩ := whenAttached_next h
  by_cases hin : InRange s.par x.toInt y.toInt
  · rw [if_pos ((inCanvas_iff _ _ _).2 hin)] at h
    cases h
    rw [if_pos hin]
    exact issued_beginCommand _ _ fun _ => rfl
  · rw [if_neg (mt (inCanvas_iff _ _ _).1 hin)] at h
    cases h
    rw [if_neg hin]
    exact issued_nothing (fun _ => rfl) hs

/-- CONFIGURE issues no memory event (40_color_correction R126). -/
theorem configure_issues {b : BitVec 4} {g : Bool} {br : Byte} {tm : Word} {s t : State} (hs : s.pending = [])
    (h : exec (.configure b g br tm) s = .next t) : Issued s t [] := by
  simp only [exec, execConfigure] at h
  split at h
  · obtain ⟨-, h⟩ := whenIdle_next h
    split at h <;> cases h
    exact issued_nothing (fun _ => rfl) hs
  · cases h

/-- Settles O11, operation by operation: what is no command keeps memory and the render port. -/
theorem commandsMakeTheirMemoryEvents : Obligations.CommandsMakeTheirMemoryEvents := by
  intro i s t hs h
  have hagent : isCommand i = false → Issued s t [] := fun hc => issued_nothing_of_sameDisplay (agentOp_display hc h) hs
  cases i
  case init =>
    obtain ⟨-, h⟩ := whenIdle_next h
    split at h <;> cases h
    exact issued_beginCommand _ _ fun _ => rfl
  case setPixel => exact setPixel_issues hs h
  case commit =>
    obtain ⟨-, h⟩ := whenIdle_next h
    obtain ⟨-, h⟩ := whenAttached_next h
    cases h
    simp only [← activeBase_not]
    exact issued_beginCommand _ _ fun _ => rfl
  case engineSetup =>
    obtain ⟨-, h⟩ := whenIdle_next h
    obtain ⟨-, h⟩ := whenAttached_next h
    split at h <;> cases h
    exact issued_beginCommand _ _ fun _ => rfl
  case clear | getActiveBufferPtr | getDelayPtr =>
    obtain ⟨-, h⟩ := whenIdle_next h
    obtain ⟨-, h⟩ := whenAttached_next h
    cases h
    exact issued_beginCommand _ _ fun _ => rfl
  case configure => exact configure_issues hs h
  case engineStart =>
    obtain ⟨-, h⟩ := whenIdle_next h
    split at h <;> cases h
    exact issued_nothing (fun _ => rfl) hs
  case gammaCorrect | getFbPtrAddr | getDelayPtrAddr =>
    obtain ⟨-, h⟩ := whenIdle_next h
    cases h
    exact issued_nothing (fun _ => rfl) hs
  case reservedOp0 | reservedOpD | reservedOpE | reservedOpF => cases h
  all_goals exact hagent rfl

/-! ### Accesses of a channel outside the rules (20_memory R65, R67, R68, 30_encoding R97) -/

theorem ctrlBytes_pos (w : BitVec 16) : 1 ≤ ctrlBytes w := by
  rw [ctrlBytes, Nat.one_shiftLeft]
  exact Nat.two_pow_pos _

/-- A read that is misaligned or not inside one object of memory fails. -/
theorem busRead_none {s : State} {a : Word} {n : Nat} (h : ¬Readable s.par a n) : busRead s a n = none := by
  unfold busRead
  split
  · next hal =>
    split
    · next o ho =>
      obtain ⟨r, hr, rfl, hh⟩ := holds_of_objAt ho
      exact if_neg fun hm => h ⟨hal, r, hr, hm, hh⟩
    · rfl
  · rfl

/-- A misaligned write is a bus fault, inside a port too (notes/assumptions/8.md). -/
theorem busWrite_misaligned {s : State} {a : Word} {n : Nat} (h : a.toNat % n ≠ 0) (v : Word) :
    busWrite s a n v = .fault .dmaBus := if_neg h

/-- A write that no port and no channel register holds is a bus fault. -/
theorem busWrite_memory {s : State} {a : Word} {n : Nat}
    (h : ∀ r ∈ regions s.par, r.holds a.toNat n = true → r.obj.isMemory = true) (v : Word) :
    busWrite s a n v = .fault .dmaBus := by
  unfold busWrite
  split
  · have hm : ∀ o, objAt s.par a.toNat n = some o → o.isMemory = true := by
      rintro o ho
      obtain ⟨r, hr, rfl, hh⟩ := holds_of_objAt ho
      exact h r hr hh
    split
    case h_1 ho | h_2 ho | h_3 ho => cases hm _ ho
    all_goals rfl
  · rfl

/-- An aligned write inside a port with another size than the port's is refused. -/
theorem busWrite_portSize {s : State} {a : Word} {n : Nat} (hal : a.toNat % n = 0)
    (h : objAt s.par a.toNat n = some .dataPort ∧ n ≠ s.par.wA ∨ objAt s.par a.toNat n = some .oePort ∧ n ≠ 4) (v : Word) :
    busWrite s a n v = .refused .portSize := by
  rcases h with ⟨ho, hn⟩ | ⟨ho, hn⟩ <;> simp [busWrite, hal, ho, hn]

/-- A busy channel with a reserved control word is refused. -/
theorem transfer_reserved {c : Chan} {w : BitVec 16} {s : State} (hb : (s.chan c).busy = true)
    (hr : ctrlReserved w = true) : transfer c w s = .refused .reservedCtrl := by
  simp [transfer, hb, hr]

/-- A busy channel that may go on and whose read fails stops with a bus fault. -/
theorem transfer_readFault {c : Chan} {w : BitVec 16} {s : State} (hb : (s.chan c).busy = true)
    (hr : ctrlReserved w = false) (hp : paced s w = true) (h : busRead s (s.chan c).readAddr (ctrlBytes w) = none) :
    transfer c w s = .fault .dmaBus := by
  simp [transfer, hb, hr, hp, h]

/-- A busy channel that may go on and whose read succeeds writes what it has read. -/
theorem transfer_write {c : Chan} {w : BitVec 16} {s : State} {v : Word} (hb : (s.chan c).busy = true)
    (hr : ctrlReserved w = false) (hp : paced s w = true) (h : busRead s (s.chan c).readAddr (ctrlBytes w) = some v) :
    transfer c w s = andThen (busWrite s (s.chan c).writeAddr (ctrlBytes w) v) fun t => .next (retire c w t) := by
  simp [transfer, hb, hr, hp, h]

/-- Settles O32: the step of a channel is the transfer of its control word; what its read or its write answers instead of
going on, the step answers. -/
theorem channelFaultsAndRefusals : Obligations.ChannelFaultsAndRefusals := by
  intro c s hm hb n
  have hstep : agentStep (.chan c) s = transfer c (s.chan c).ctrl s := channelStep_eq c s
  rw [hstep]
  refine ⟨transfer_reserved hb, fun hr hp => ⟨fun hrd => transfer_readFault hb hr hp (busRead_none hrd), fun hrd => ?_⟩⟩
  rw [transfer_write hb hr hp (readable_mem hm (ctrlBytes_pos _) hrd)]
  refine ⟨?_, fun hal h => ?_⟩
  · rintro (hal | h)
    · rw [busWrite_misaligned hal]; rfl
    · rw [busWrite_memory h]; rfl
  · rw [busWrite_portSize hal h]; rfl

end Sys2Proof.Machine
end

section
/-! PROOFS. The encoding: the fields of a command word, decoding and encoding as each other's inverse, and the words that
are no command. -/

namespace Sys2Proof.Machine

/-! ### The fields of a command word (30_encoding R92) -/

/-- A concatenation is the word with these two fields. -/
theorem eq_append_iff {n m : Nat} {w : BitVec (n + m)} {x : BitVec n} {y : BitVec m} :
    w = x ++ y ↔ w.extractLsb' m n = x ∧ w.extractLsb' 0 m = y := by
  constructor
  · rintro rfl
    exact ⟨BitVec.extractLsb'_append_eq_left, BitVec.extractLsb'_append_eq_right⟩
  · rintro ⟨rfl, rfl⟩
    exact BitVec.extractLsb'_append_extractLsb'.symm

/-- A field of a field is a field. -/
theorem extractLsb'_extractLsb' {k : Nat} (w : BitVec k) {s n t m : Nat} (h : t + m ≤ n) :
    (w.extractLsb' s n).extractLsb' t m = w.extractLsb' (s + t) m := by
  refine BitVec.eq_of_getLsbD_eq fun i hi => ?_
  rw [BitVec.getLsbD_extractLsb', BitVec.getLsbD_extractLsb', BitVec.getLsbD_extractLsb',
    decide_eq_true (by omega : t + i < n), Bool.true_and, Nat.add_assoc]

theorem extractLsb'_one_eq_ofBool {k : Nat} {w : BitVec k} {s : Nat} {g : Bool} :
    w.extractLsb' s 1 = BitVec.ofBool g ↔ w.getLsbD s = g := by
  rw [BitVec.getLsbD_eq_extractLsb']
  generalize w.extractLsb' s 1 = v
  revert v g; decide

theorem eq_cmdWord_iff {w : BitVec 64} {op : BitVec 4} {v : BitVec 60} :
    w = cmdWord op v ↔ w.extractLsb' 60 4 = op ∧ w.extractLsb' 0 60 = v :=
  eq_append_iff (n := 4) (m := 60)

/-- CONFIGURE's word, field by field (30_encoding R93). -/
theorem eq_configureWord_iff {w : BitVec 64} {b : BitVec 4} {g : Bool} {br : Byte} {tm : Word} :
    w = cmdWord 0x2 (0#15 ++ b ++ BitVec.ofBool g ++ br ++ tm) ↔
      w.extractLsb' 60 4 = 0x2 ∧ w.extractLsb' 45 15 = 0 ∧ w.extractLsb' 41 4 = b ∧ w.getLsbD 40 = g ∧
      w.extractLsb' 32 8 = br ∧ w.extractLsb' 0 32 = tm := by
  rw [eq_cmdWord_iff, eq_append_iff (n := 28) (m := 32), eq_append_iff (n := 20) (m := 8),
    eq_append_iff (n := 19) (m := 1), eq_append_iff (n := 15) (m := 4)]
  simp only [extractLsb'_extractLsb', Nat.reduceAdd, Nat.reduceLeDiff, extractLsb'_one_eq_ofBool, and_assoc]
  rfl

/-- SET_PIXEL's word, field by field (30_encoding R93). -/
theorem eq_setPixelWord_iff {w : BitVec 64} {x y : BitVec 16} {c : Color} :
    w = cmdWord 0x5 (0#12 ++ x ++ y ++ c) ↔
      w.extractLsb' 60 4 = 0x5 ∧ w.extractLsb' 48 12 = 0 ∧ w.extractLsb' 32 16 = x ∧ w.extractLsb' 16 16 = y ∧
      w.extractLsb' 0 16 = c := by
  rw [eq_cmdWord_iff, eq_append_iff (n := 44) (m := 16), eq_append_iff (n := 28) (m := 16),
    eq_append_iff (n := 12) (m := 16)]
  simp only [extractLsb'_extractLsb', Nat.reduceAdd, Nat.reduceLeDiff, and_assoc]
  rfl

/-- GAMMA_CORRECT's word, field by field (30_encoding R93). -/
theorem eq_gammaCorrectWord_iff {w : BitVec 64} {v : Byte} :
    w = cmdWord 0xC (0#52 ++ v) ↔ w.extractLsb' 60 4 = 0xC ∧ w.extractLsb' 8 52 = 0 ∧ w.extractLsb' 0 8 = v := by
  rw [eq_cmdWord_iff, eq_append_iff (n := 52) (m := 8)]
  simp only [extractLsb'_extractLsb', Nat.reduceAdd, Nat.reduceLeDiff]
  rfl

/-! ### Decoding and encoding command words -/

theorem ok_of_ite {c : Prop} [Decidable c] {i j : Instr} {r : Reject}
    (h : (if c then Except.ok j else Except.error r) = Except.ok i) : c ∧ j = i := by
  split at h
  · next hc => exact ⟨hc, Except.ok.inj h⟩
  · cases h

theorem ok_of_ite_error {c : Prop} [Decidable c] {i : Instr} {r : Reject} {e : Except Reject Instr}
    (h : (if c then Except.error r else e) = Except.ok i) : ¬c ∧ e = Except.ok i := by
  split at h
  · cases h
  · next hc => exact ⟨hc, h⟩

/-- A command word that decodes is the word of what it decodes to: one case for each value of `OP`. -/
theorem encode_of_decodeCmd {w : BitVec 64} {i : Instr} (h : decodeCmd w = .ok i) : encode i = .cmd64 w := by
  have hop : (w.extractLsb' 60 4).toNat < 16 := (w.extractLsb' 60 4).isLt
  have hword {op : BitVec 4} {v : BitVec 60} (hk : (w.extractLsb' 60 4).toNat = op.toNat)
      (hv : w.extractLsb' 0 60 = v) : Code.cmd64 (cmdWord op v) = .cmd64 w :=
    congrArg Code.cmd64 (eq_cmdWord_iff.2 ⟨BitVec.eq_of_toNat_eq hk, hv⟩).symm
  unfold decodeCmd at h
  generalize hk : (w.extractLsb' 60 4).toNat = op at h hop
  match op, h, hop with
  | 0, h, _ | 13, h, _ | 14, h, _ | 15, h, _ =>
    cases h
    exact hword hk rfl
  | 2, h, _ =>
    obtain ⟨hz, h⟩ := ok_of_ite_error h
    obtain ⟨-, rfl⟩ := ok_of_ite h
    exact congrArg Code.cmd64
      (eq_configureWord_iff.2 ⟨BitVec.eq_of_toNat_eq hk, not_not.1 hz, rfl, rfl, rfl, rfl⟩).symm
  | 5, h, _ =>
    obtain ⟨hz, h⟩ := ok_of_ite_error h
    cases h
    exact congrArg Code.cmd64 (eq_setPixelWord_iff.2 ⟨BitVec.eq_of_toNat_eq hk, not_not.1 hz, rfl, rfl, rfl⟩).symm
  | 12, h, _ =>
    obtain ⟨hz, h⟩ := ok_of_ite_error h
    cases h
    exact congrArg Code.cmd64 (eq_gammaCorrectWord_iff.2 ⟨BitVec.eq_of_toNat_eq hk, not_not.1 hz, rfl⟩).symm
  | 1, h, _ | 3, h, _ | 4, h, _ | 6, h, _ | 7, h, _ | 8, h, _ | 9, h, _ | 10, h, _ | 11, h, _ =>
    obtain ⟨hv, rfl⟩ := ok_of_ite h
    exact hword hk hv
  | op + 16, _, hop => omega

theorem decodeCmd_configure {w : BitVec 64} {b : BitVec 4} {g : Bool} {br : Byte} {tm : Word}
    (hw : encode (.configure b g br tm) = .cmd64 w) (hb : pwmBitsLegal b = true) :
    decodeCmd w = .ok (.configure b g br tm) := by
  obtain ⟨hop, hz, rfl, rfl, rfl, rfl⟩ := eq_configureWord_iff.1 (Code.cmd64.inj hw).symm
  rw [decodeCmd, hop]
  exact (if_neg (not_not.2 hz)).trans (if_pos hb)

theorem decodeCmd_setPixel {w : BitVec 64} {x y : BitVec 16} {c : Color}
    (hw : encode (.setPixel x y c) = .cmd64 w) : decodeCmd w = .ok (.setPixel x y c) := by
  obtain ⟨hop, hz, rfl, rfl, rfl⟩ := eq_setPixelWord_iff.1 (Code.cmd64.inj hw).symm
  rw [decodeCmd, hop]
  exact if_neg (not_not.2 hz)

theorem decodeCmd_gammaCorrect {w : BitVec 64} {v : Byte} (hw : encode (.gammaCorrect v) = .cmd64 w) :
    decodeCmd w = .ok (.gammaCorrect v) := by
  obtain ⟨hop, hz, rfl⟩ := eq_gammaCorrectWord_iff.1 (Code.cmd64.inj hw).symm
  rw [decodeCmd, hop]
  exact if_neg (not_not.2 hz)

theorem decodeCmd_reservedOp {w : BitVec 64} {i : Instr} (hr : isReservedOp i = true) (hw : encode i = .cmd64 w) :
    decodeCmd w = .ok i := by
  cases i
  case reservedOp0 p | reservedOpD p | reservedOpE p | reservedOpF p =>
    obtain ⟨hop, rfl⟩ := eq_cmdWord_iff.1 (Code.cmd64.inj hw).symm
    rw [decodeCmd, hop]
    rfl
  all_goals cases hr

/-- Settles O1: the words with operands decode by the field lemmas, every other word is a literal. -/
theorem encodeDecodeRoundTrip : Obligations.EncodeDecodeRoundTrip := by
  intro i h
  cases i
  case configure b g br tm => exact decodeCmd_configure rfl h
  case setPixel => exact decodeCmd_setPixel rfl
  case gammaCorrect => exact decodeCmd_gammaCorrect rfl
  case reservedOp0 | reservedOpD | reservedOpE | reservedOpF => exact decodeCmd_reservedOp rfl rfl
  all_goals rfl

/-! ### Decoding and encoding control words and state codes -/

/-- A control word that decodes is the word of what it decodes to: one case for each word of 30_encoding R97. -/
theorem encode_of_decodeCtrl {w : BitVec 16} {i : Instr} (h : decodeCtrl w = .ok i) :
    i.wellFormed = true ∧ encode i = .dmaCtrl w := by
  unfold decodeCtrl at h
  split_ifs at h with hw hw hw hw hw hw
  all_goals cases h
  all_goals exact ⟨rfl, congrArg Code.dmaCtrl hw.symm⟩

theorem encode_dStateOf : ∀ w : BitVec 2,
    (dStateOf w).instr.wellFormed = true ∧ encode (dStateOf w).instr = .dState w := by decide

theorem encode_rStateOf {w : BitVec 4} {st : RState} (h : rStateOf w = some st) :
    st.instr.wellFormed = true ∧ encode st.instr = .rState w := by
  cases st <;> revert w <;> decide

theorem encode_oStateOf {w : BitVec 3} {st : OState} (h : oStateOf w = some st) :
    st.instr.wellFormed = true ∧ encode st.instr = .oState w := by
  cases st <;> revert w <;> decide

/-- Settles O2, format by format. -/
theorem decodeEncodeRoundTrip : Obligations.DecodeEncodeRoundTrip := by
  intro c i h
  cases c with
  | cmd64 w => exact ⟨(decodeCmd_isCommand h).2, encode_of_decodeCmd h⟩
  | dmaCtrl w => exact encode_of_decodeCtrl h
  | dState w =>
    cases h
    exact encode_dStateOf w
  | rState w =>
    simp only [decode] at h
    split at h
    · next st hst =>
      cases h
      exact encode_rStateOf hst
    · cases h
  | oState w =>
    simp only [decode] at h
    split at h
    · next st hst =>
      cases h
      exact encode_oStateOf hst
    · cases h

/-- Settles O4, evaluating the decoder on each word. -/
theorem specWordsDecode : Obligations.SpecWordsDecode := by
  refine ⟨?_, ?_, ?_, ?_, ?_, ?_, ?_, ?_, ?_, ?_⟩ <;> rfl

/-! ### Words that are no command (30_encoding R96) -/

theorem pwmBitsLegal_iff {b : BitVec 4} : pwmBitsLegal b = true ↔ 1 ≤ b.toNat ∧ b.toNat ≤ 8 := by
  simp [pwmBitsLegal]

/-- A word R96 names decodes, if at all, to an operation with a reserved `OP`: one case for each value of `OP`. -/
theorem isReservedOp_of_reservedWord {w : BitVec 64} {i : Instr} (h : ReservedWord w) (hd : decodeCmd w = .ok i) :
    isReservedOp i = true := by
  have hop : (w.extractLsb' 60 4).toNat < 16 := (w.extractLsb' 60 4).isLt
  unfold ReservedWord at h
  unfold decodeCmd at hd
  generalize (w.extractLsb' 60 4).toNat = op at h hd hop
  match op, h, hd, hop with
  | 0, _, hd, _ | 13, _, hd, _ | 14, _, hd, _ | 15, _, hd, _ =>
    cases hd
    rfl
  | 2, h, hd, _ =>
    obtain ⟨hz, hd⟩ := ok_of_ite_error hd
    obtain ⟨hlo, hhi⟩ := pwmBitsLegal_iff.1 (ok_of_ite hd).1
    rcases h with hnz | hlt | hgt
    · exact absurd hnz hz
    · omega
    · omega
  | 5, h, hd, _ | 12, h, hd, _ => exact absurd h (ok_of_ite_error hd).1
  | 1, h, hd, _ | 3, h, hd, _ | 4, h, hd, _ | 6, h, hd, _ | 7, h, hd, _ | 8, h, hd, _ | 9, h, hd, _ | 10, h, hd, _
  | 11, h, hd, _ => exact absurd (ok_of_ite hd).1 h
  | op + 16, _, _, hop => omega

/-- An operation with a reserved `OP` is refused in every state. -/
theorem exec_reservedOp {i : Instr} (h : isReservedOp i = true) (s : State) :
    exec i s = .refused .reservedCommand := by
  cases i
  case reservedOp0 | reservedOpD | reservedOpE | reservedOpF => rfl
  all_goals cases h

theorem whenIdle_ne_refused {s : State} {r : Result} {e : Refusal} (he : .concurrentRender ≠ e)
    (hr : r ≠ .refused e) : whenIdle s r ≠ .refused e := by
  unfold whenIdle
  split
  · simpa using he
  · exact hr

theorem whenAttached_ne_refused {s : State} {r : Result} {e : Refusal} (he : .notAttached ≠ e) (hr : r ≠ .refused e) :
    whenAttached s r ≠ .refused e := by
  unfold whenAttached
  split
  · simpa using he
  · exact hr

/-- A command with a meaning is refused for other reasons only. -/
theorem command_ne_reserved {i : Instr} (hc : isCommand i = true) (hw : i.wellFormed = true)
    (hr : isReservedOp i = false) (s : State) : exec i s ≠ .refused .reservedCommand := by
  cases i
  case init | engineStart => exact whenIdle_ne_refused nofun (by split <;> simp)
  case configure b g br tm =>
    have hx : exec (.configure b g br tm) s = whenIdle s _ := if_pos hw
    rw [hx]
    exact whenIdle_ne_refused nofun (by split <;> simp)
  case engineSetup | setPixel => exact whenIdle_ne_refused nofun (whenAttached_ne_refused nofun (by split <;> simp))
  case clear | commit | getActiveBufferPtr | getDelayPtr =>
    exact whenIdle_ne_refused nofun (whenAttached_ne_refused nofun (by simp))
  case getFbPtrAddr | getDelayPtrAddr | gammaCorrect => exact whenIdle_ne_refused nofun (by simp)
  case reservedOp0 | reservedOpD | reservedOpE | reservedOpF => cases hr
  all_goals cases hc

theorem portStep_reserved_iff (w : BitVec 64) (s : State) :
    portStep w s = .refused .reservedCommand ↔ ReservedWord w := by
  refine ⟨fun h => by_contra fun hw => ?_, fun h => ?_⟩
  · obtain ⟨i, hd, hr⟩ := decodeCmd_of_not_reserved hw
    obtain ⟨hc, hwf⟩ := decodeCmd_isCommand hd
    rw [portStep_of_decodes hd] at h
    exact command_ne_reserved hc hwf hr s h
  · cases hd : decodeCmd w with
    | error r => exact portStep_of_rejects hd s
    | ok i => exact (portStep_of_decodes hd s).trans (exec_reservedOp (isReservedOp_of_reservedWord h hd) s)

/-- CONFIGURE with a legal depth that is not the one the tables are built for (40_color_correction R126). -/
theorem configure_depthChange {s : State} {b : BitVec 4} (g : Bool) (br : Byte) (tm : Word)
    (hb : pwmBitsLegal b = true) (hn : b.toNat ≠ s.par.colorBits) (hp : s.pending = []) :
    exec (.configure b g br tm) s = .refused .bitDepthChange :=
  calc exec (.configure b g br tm) s = whenIdle s _ := if_pos hb
    _ = _ := whenIdle_idle (pending_eq_nil.1 hp)
    _ = .refused .bitDepthChange := if_pos hn

/-- Settles O3: a word is refused as reserved exactly when it decodes to nothing or to an operation with a reserved
`OP`. -/
theorem reservedWordsAreRefused : Obligations.ReservedWordsAreRefused := by
  refine ⟨portStep_reserved_iff, fun p s => ⟨rfl, rfl, rfl, rfl⟩, fun s b g br tm hlo hhi hn hp => ?_⟩
  have hb : pwmBitsLegal b = true := pwmBitsLegal_iff.2 ⟨hlo, hhi⟩
  exact ⟨_, rfl, (portStep_of_decodes (decodeCmd_configure rfl hb) s).trans (configure_depthChange g br tm hb hn hp)⟩

end Sys2Proof.Machine
end

section
/-! PROOFS. What SET_PIXEL encodes in the draw buffer: each plane gets one bit of each corrected channel, so the value
stored for a channel gains the bits of its table entry; outside the canvas nothing happens. -/

namespace Sys2Proof.Machine

/-! ### SET_PIXEL outside the canvas (41_display_memory R145) -/

/-- Settles O19. -/
theorem outOfRangePixelIsIgnored : Obligations.OutOfRangePixelIsIgnored := by
  intro s x y c hp hf hr
  calc exec (.setPixel x y c) s = _ := whenIdle_idle (pending_eq_nil.1 hp)
    _ = _ := whenAttached_attached hf
    _ = .next (completeCommand none s) := if_neg (mt (inCanvas_iff _ _ _).1 hr)

/-! ### The bits of a pixel (41_display_memory R145) -/

theorem getLsbD_bitAt (c : Byte) (b : Nat) {k j : Nat} (hj : j < 8) :
    (bitAt c b k).getLsbD j = (decide (j = k) && c.getLsbD b) := by
  rw [bitAt, BitVec.getLsbD_shiftLeft, BitVec.getLsbD_setWidth, BitVec.getLsbD_ofBool]
  rcases Nat.lt_trichotomy j k with h | rfl | h
  · simp [h, Nat.ne_of_lt h]
  · simp [hj]
  · simp [Nat.ne_of_gt h, Nat.sub_ne_zero_of_lt h]

/-- The shift to the pixel's half moves bit `k` of the group to bit `k + shift`. -/
theorem getLsbD_pixelBits (s : State) (y : Nat) (c : Color) (b : Nat) {k : Nat} (hk : k < 3) :
    (pixelBits s y c b).getLsbD (k + halfShift s.par y) =
      (bits3 s.par (correctedR s c) (correctedG s c) (correctedB s c) b).getLsbD k := by
  have hs : halfShift s.par y ≤ 3 := by unfold halfShift; split <;> omega
  rw [pixelBits, BitVec.getLsbD_shiftLeft, decide_eq_true (by omega : k + halfShift s.par y < 8),
    decide_eq_false (by omega : ¬k + halfShift s.par y < halfShift s.par y), Nat.add_sub_cancel]
  rfl

/-- Channel value `v` of the color `c` belongs at position `k` of the group (30_encoding R90,
40_color_correction R129). -/
abbrev ChannelAt (s : State) (c : Color) (k : Nat) (v : Byte) : Prop :=
  (k = s.par.chanPerm.r.val ∧ v = correctedR s c) ∨ (k = s.par.chanPerm.g.val ∧ v = correctedG s c) ∨
    (k = s.par.chanPerm.b.val ∧ v = correctedB s c)

/-- The plane-`b` byte of a pixel gets bit `b` of each channel at the channel's position: the positions are different. -/
theorem pixelBits_channel {s : State} {c : Color} {k : Nat} {v : Byte} (hp : PermLegal s.par.chanPerm)
    (h : ChannelAt s c k v) (y b : Nat) : (pixelBits s y c b).getLsbD (k + halfShift s.par y) = v.getLsbD b := by
  obtain ⟨hrg, hgb, hrb⟩ := hp
  have hr := s.par.chanPerm.r.isLt
  have hg := s.par.chanPerm.g.isLt
  have hb := s.par.chanPerm.b.isLt
  rw [Ne, Fin.ext_iff] at hrg hgb hrb
  have hk : k < 3 := by omega
  rw [getLsbD_pixelBits s y c b hk, bits3, BitVec.getLsbD_or, BitVec.getLsbD_or, getLsbD_bitAt _ _ (by omega),
    getLsbD_bitAt _ _ (by omega), getLsbD_bitAt _ _ (by omega)]
  rcases h with ⟨rfl, rfl⟩ | ⟨rfl, rfl⟩ | ⟨rfl, rfl⟩
  · simp [hrg, hrb]
  · simp [Ne.symm hrg, hgb]
  · simp [Ne.symm hrb, Ne.symm hgb]

/-! ### The values of a pixel (30_encoding R98) -/

@[simp] theorem at5_rebuild5 (g : Table 256) (cfg : Hub75Config) (v : BitVec 5) :
    at5 (rebuild5 g cfg) v = lutEntry g cfg 5 v.toNat := rebuild5_getElem g cfg v.toFin

@[simp] theorem at6_rebuild6 (g : Table 256) (cfg : Hub75Config) (v : BitVec 6) :
    at6 (rebuild6 g cfg) v = lutEntry g cfg 6 v.toNat := rebuild6_getElem g cfg v.toFin

/-- A table entry has `pwm_bits` bits (40_color_correction R125). -/
theorem lutEntry_lt (g : Table 256) {cfg : Hub75Config} (n v : Nat) (h : cfg.pwmBits.toNat ≤ 8) :
    (lutEntry g cfg n v).toNat < 2 ^ cfg.pwmBits.toNat :=
  (BitVec.toNat_ushiftRight_lt _ _ (Nat.sub_le 8 _)).trans_eq (by rw [Nat.sub_sub_self h])

/-- A corrected channel value has `ColorBits` bits. -/
theorem RenderInv.channel_lt {s : State} {c : Color} {k : Nat} {v : Byte} (h : RenderInv s) (hv : ChannelAt s c k v) :
    v.toNat < 2 ^ s.par.colorBits := by
  obtain ⟨hR, hG, hB⟩ := h.tables
  obtain ⟨-, -, ⟨-, hbits⟩, -⟩ := h.legal
  rw [← h.depth] at hbits ⊢
  have hlt (n i : Nat) := lutEntry_lt s.par.gamma n i hbits
  rcases hv with ⟨-, rfl⟩ | ⟨-, rfl⟩ | ⟨-, rfl⟩
  · rw [correctedR, hR, at5_rebuild5]
    exact hlt _ _
  · rw [correctedG, hG, at6_rebuild6]
    exact hlt _ _
  · rw [correctedB, hB, at5_rebuild5]
    exact hlt _ _

/-- A sum of powers of two is the number with these bits. -/
theorem sum_bits_eq_ofBits (f : Nat → Bool) (n : Nat) :
    ((List.range n).map fun b => (f b).toNat * 2 ^ b).sum = Nat.ofBits fun i : Fin n => f i := by
  induction n generalizing f with
  | zero => rfl
  | succ n ih =>
    have htail : ((List.range n).map fun b => (f (b + 1)).toNat * 2 ^ (b + 1)).sum =
        2 * Nat.ofBits fun i : Fin n => f (i + 1) := by
      rw [← ih fun b => f (b + 1), ← List.sum_map_mul_left]
      exact congrArg List.sum (List.map_congr_left fun b _ => by ring)
    rw [Nat.ofBits_succ, List.range_succ_eq_map, List.map_cons, List.sum_cons, List.map_map, Nat.pow_zero, Nat.mul_one,
      Nat.add_comm]
    exact congrArg (· + (f 0).toNat) htail

/-- Bit `b` of the stored value is the bit in plane `b`. -/
theorem testBit_storedValue (s : State) (base : Word) (x y k b : Nat) :
    (storedValue s base x y k).testBit b = (decide (b < s.par.colorBits) && planeBit s base x y k b) := by
  rw [storedValue, sum_bits_eq_ofBits]
  by_cases h : b < s.par.colorBits
  · rw [Nat.testBit_ofBits_lt _ _ h, decide_eq_true h, Bool.true_and]
  · rw [Nat.testBit_ofBits_ge _ _ (Nat.not_lt.1 h), decide_eq_false h, Bool.false_and]

/-- When every plane gains the bit of `v`, the value gains `v`. -/
theorem storedValue_or {s t : State} {base : Word} {x y k : Nat} {v : Byte} (hp : t.par = s.par)
    (hv : v.toNat < 2 ^ s.par.colorBits)
    (h : ∀ b < s.par.colorBits, planeBit t base x y k b = (planeBit s base x y k b || v.getLsbD b)) :
    storedValue t base x y k = storedValue s base x y k ||| v.toNat := by
  refine Nat.eq_of_testBit_eq fun b => ?_
  rw [Nat.testBit_or, testBit_storedValue, testBit_storedValue, BitVec.testBit_toNat, hp]
  by_cases hb : b < s.par.colorBits
  · rw [h b hb, decide_eq_true hb, Bool.true_and, Bool.true_and]
  · have hz : v.getLsbD b = false := by
      rw [← BitVec.testBit_toNat]
      exact Nat.testBit_lt_two_pow (hv.trans_le (Nat.pow_le_pow_right Nat.two_pos (Nat.not_lt.1 hb)))
    rw [decide_eq_false hb, hz]
    rfl

/-- Settles O22: each plane byte is the old one OR the pixel's bits, of which the channel's position holds the channel's
bit of that plane. -/
theorem pixelRoundTrip : Obligations.PixelRoundTrip := by
  intro s x y c h hp hf hr
  obtain ⟨t, ht, ⟨m, o, hfin⟩, hplane, -⟩ := setPixel_finish (c := c) hp hf hr
  have hpar : (finishCommand t).par = s.par := by rw [hfin]
  obtain ⟨-, -, -, -, -, -, -, -, hperm, -⟩ := h.legal
  refine ⟨t, ht, fun k v hkv => storedValue_or hpar (h.channel_lt (c := c) hkv) fun b hb => ?_⟩
  rw [planeBit, planeBit, hpar, hplane b hb, BitVec.getLsbD_or, pixelBits_channel hperm hkv]

end Sys2Proof.Machine
end

section
/-! PROOFS. The colour correction: each of the four stages of the rebuild (40_color_correction R124) never decreases and
has known ends, so a rebuilt table has the properties of R125; the two operations of the family do what R122 and R126
say. -/

namespace Sys2Proof.Machine

/-! ### The gamma table (40_color_correction R121) -/

/-- Neighbours do not decrease, so the table does not. -/
theorem GammaLegal.monotone {g : Table 256} (h : GammaLegal g) : Monotone fun a : Fin 256 => g[a].toNat := by
  obtain ⟨-, -, hnext⟩ := h
  exact Fin.monotone_iff_le_succ.2 hnext

theorem gammaAt_zero {g : Table 256} (h : GammaLegal g) : gammaAt g 0 = 0 := h.1

theorem gammaAt_last {g : Table 256} (h : GammaLegal g) : gammaAt g 255 = 255 := h.2.1

theorem gammaAt_mono {g : Table 256} (h : GammaLegal g) {a b : Byte} (hab : a.toNat ≤ b.toNat) :
    (gammaAt g a).toNat ≤ (gammaAt g b).toNat :=
  GammaLegal.monotone h (Fin.mk_le_mk.2 hab : a.toFin ≤ b.toFin)

/-- Settles O16: the check for a command in progress passes, and the legal table has the bounds. -/
theorem gammaCorrectReturnsTheEntry : Obligations.GammaCorrectReturnsTheEntry :=
  ⟨fun _ _ hp => whenIdle_idle (pending_eq_nil.1 hp),
    fun _ hg => ⟨gammaAt_zero hg, gammaAt_last hg, fun _ _ => gammaAt_mono hg⟩⟩

/-! ### Stages (a) and (b) of the rebuild: expansion and brightness (40_color_correction R123, R124) -/

@[simp] theorem expand_zero (n : Nat) : expand n 0 = 0 := by rw [expand, Nat.zero_mul, Nat.zero_div]

theorem expand_last {n : Nat} (hn : n ≠ 0) : expand n (2 ^ n - 1) = 255 :=
  Nat.mul_div_cancel_left 255 (Nat.sub_pos_of_lt (Nat.one_lt_two_pow hn))

theorem expand_mono (n : Nat) {v w : Nat} (h : v ≤ w) : expand n v ≤ expand n w :=
  Nat.div_le_div_right (Nat.mul_le_mul_right 255 h)

theorem expand_le {n v : Nat} (h : v < 2 ^ n) : expand n v ≤ 255 :=
  Nat.div_le_of_le_mul (Nat.mul_le_mul_right 255 (Nat.le_sub_one_of_lt h))

@[simp] theorem scaled_zero (cfg : Hub75Config) (n : Nat) : scaled cfg n 0 = 0 := by
  rw [scaled, expand_zero, Nat.zero_mul, Nat.zero_div]

theorem scaled_mono (cfg : Hub75Config) (n : Nat) {v w : Nat} (h : v ≤ w) : scaled cfg n v ≤ scaled cfg n w :=
  Nat.div_le_div_right (Nat.mul_le_mul_right _ (expand_mono n h))

/-- The brightness is at most 255, so scaling never exceeds the expanded sample. -/
theorem scaled_le (cfg : Hub75Config) {n v : Nat} (h : v < 2 ^ n) : scaled cfg n v ≤ 255 :=
  Nat.div_le_of_le_mul (Nat.mul_le_mul (expand_le h) (Nat.le_of_lt_succ cfg.brightness.isLt))

theorem scaled_full {cfg : Hub75Config} (h : cfg.brightness = 255) (n v : Nat) : scaled cfg n v = expand n v := by
  rw [scaled, h]
  exact Nat.mul_div_cancel _ (by decide)

theorem scaled_dark {cfg : Hub75Config} (h : cfg.brightness = 0) (n v : Nat) : scaled cfg n v = 0 := by
  rw [scaled, h]
  exact Nat.zero_div 255

/-- The scaled sample as the byte that the later stages work on. -/
def scaledByte (cfg : Hub75Config) (n v : Nat) : Byte := BitVec.ofNat 8 (scaled cfg n v)

/-- No step before the gamma lookup wraps (40_color_correction R127). -/
theorem toNat_scaledByte (cfg : Hub75Config) {n v : Nat} (h : v < 2 ^ n) :
    (scaledByte cfg n v).toNat = scaled cfg n v :=
  Nat.mod_eq_of_lt (Nat.lt_succ_of_le (scaled_le cfg h))

/-! ### Stage (c): gamma correction, where enabled -/

/-- Stage (c) of 40_color_correction R124. -/
def gammaStage (g : Table 256) (cfg : Hub75Config) (s : Byte) : Byte := if cfg.useGamma then gammaAt g s else s

theorem gammaStage_off {cfg : Hub75Config} (h : cfg.useGamma = false) (g : Table 256) (s : Byte) :
    gammaStage g cfg s = s := by
  rw [gammaStage, h]
  rfl

/-- A byte the table maps to itself passes the stage unchanged, enabled or not. -/
theorem gammaStage_of_fixed {g : Table 256} {s : Byte} (h : gammaAt g s = s) (cfg : Hub75Config) :
    gammaStage g cfg s = s := by
  rw [gammaStage, h, ite_self]

theorem gammaStage_mono {g : Table 256} (h : GammaLegal g) (cfg : Hub75Config) {a b : Byte} (hab : a.toNat ≤ b.toNat) :
    (gammaStage g cfg a).toNat ≤ (gammaStage g cfg b).toNat := by
  unfold gammaStage
  split
  · exact gammaAt_mono h hab
  · exact hab

/-! ### Stage (d) and the whole entry -/

/-- The entry through its four stages. -/
theorem toNat_lutEntry (g : Table 256) (cfg : Hub75Config) (n v : Nat) :
    (lutEntry g cfg n v).toNat = (gammaStage g cfg (scaledByte cfg n v)).toNat / 2 ^ (8 - cfg.pwmBits.toNat) :=
  (BitVec.toNat_ushiftRight _ _).trans (Nat.shiftRight_eq_div_pow _ _)

/-- Settles O14: the scaled sample is below 256, so the byte the lookup gets is the sample itself. -/
theorem tableEntryFormula : Obligations.TableEntryFormula := by
  refine fun g cfg _ _ => ⟨rebuild5_getElem g cfg, rebuild6_getElem g cfg, fun n v hv => ?_⟩
  have hlt : v < 2 ^ n := by
    obtain ⟨rfl, h⟩ | ⟨rfl, h⟩ := hv <;> exact h
  refine ⟨(scaledByte cfg n v).toFin, toNat_scaledByte cfg hlt, (toNat_lutEntry g cfg n v).trans ?_⟩
  rw [gammaStage, apply_ite BitVec.toNat]
  rfl

theorem lutEntry_of_scaled_eq_zero {g : Table 256} (hg : GammaLegal g) {cfg : Hub75Config} {n v : Nat}
    (h : scaled cfg n v = 0) : lutEntry g cfg n v = 0 := by
  have hz : scaledByte cfg n v = 0 := congrArg (BitVec.ofNat 8) h
  refine BitVec.eq_of_toNat_eq ?_
  rw [toNat_lutEntry, hz, gammaStage_of_fixed (gammaAt_zero hg)]
  exact Nat.zero_div _

theorem lutEntry_mono {g : Table 256} (hg : GammaLegal g) (cfg : Hub75Config) {n v w : Nat} (hvw : v ≤ w)
    (hw : w < 2 ^ n) : (lutEntry g cfg n v).toNat ≤ (lutEntry g cfg n w).toNat := by
  have hs : (scaledByte cfg n v).toNat ≤ (scaledByte cfg n w).toNat := by
    rw [toNat_scaledByte cfg (hvw.trans_lt hw), toNat_scaledByte cfg hw]
    exact scaled_mono cfg n hvw
  rw [toNat_lutEntry, toNat_lutEntry]
  exact Nat.div_le_div_right (gammaStage_mono hg cfg hs)

/-- The largest byte, shifted to `p` bits, is the largest value of `p` bits. -/
theorem shifted_max : ∀ p ≤ 8, 255 / 2 ^ (8 - p) = 2 ^ p - 1 := by decide

theorem lutEntry_last {g : Table 256} (hg : GammaLegal g) {cfg : Hub75Config} {n : Nat} (hn : n ≠ 0)
    (hp : cfg.pwmBits.toNat ≤ 8) (hb : cfg.brightness = 255) :
    (lutEntry g cfg n (2 ^ n - 1)).toNat = 2 ^ cfg.pwmBits.toNat - 1 := by
  have hs : scaledByte cfg n (2 ^ n - 1) = 255 :=
    congrArg (BitVec.ofNat 8) ((scaled_full hb n _).trans (expand_last hn))
  rw [toNat_lutEntry, hs, gammaStage_of_fixed (gammaAt_last hg)]
  exact shifted_max _ hp

/-- With every stage after the expansion neutral, the entry is the expanded sample. -/
theorem lutEntry_eq_expand (g : Table 256) {cfg : Hub75Config} {n v : Nat} (hb : cfg.brightness = 255)
    (hu : cfg.useGamma = false) (hp : cfg.pwmBits = 8) (hv : v < 2 ^ n) :
    (lutEntry g cfg n v).toNat = expand n v := by
  rw [toNat_lutEntry, gammaStage_off hu, toNat_scaledByte cfg hv, scaled_full hb, hp]
  exact Nat.div_one _

/-- Settles O15, one property of an entry at a time: each follows from the same property of the four stages. -/
theorem rebuiltTableProperties : Obligations.RebuiltTableProperties := by
  intro g cfg hg _ hp n hn
  have hn0 : n ≠ 0 := by omega
  exact ⟨fun v _ => Nat.le_sub_one_of_lt (lutEntry_lt g n v hp),
    lutEntry_of_scaled_eq_zero hg (scaled_zero cfg n),
    fun v w => lutEntry_mono hg cfg,
    lutEntry_last hg hn0 hp,
    fun hb v _ => lutEntry_of_scaled_eq_zero hg (scaled_dark hb n v),
    fun hb hu hd v => lutEntry_eq_expand g hb hu hd⟩

/-! ### CONFIGURE (40_color_correction R126) -/

/-- CONFIGURE at the depth the tables are built for stores the configuration and rebuilds. -/
theorem configure_accepted {s : State} {b : BitVec 4} (g : Bool) (br : Byte) (tm : Word) (hb : pwmBitsLegal b = true)
    (hc : b.toNat = s.par.colorBits) (hp : s.pending = []) :
    exec (.configure b g br tm) s = .next (completeCommand none (rebuildTables
      { s with cfg := { pwmBits := b, brightness := br, useGamma := g, timing := tm } })) :=
  calc exec (.configure b g br tm) s = whenIdle s _ := if_pos hb
    _ = _ := whenIdle_idle (pending_eq_nil.1 hp)
    _ = _ := if_neg (not_not.2 hc)

/-- Settles O13: the tables hold the entries of the new configuration, and memory is untouched. -/
theorem configureRebuildsTheTables : Obligations.ConfigureRebuildsTheTables := by
  intro s b g br tm hp hlo hhi hc
  exact ⟨_, configure_accepted g br tm (pwmBitsLegal_iff.2 ⟨hlo, hhi⟩) hc hp, rfl,
    fun v => ⟨rebuild5_getElem _ _ v, rebuild5_getElem _ _ v⟩, rebuild6_getElem _ _, byteAt_congr rfl rfl, rfl⟩

end Sys2Proof.Machine
end

section
/-! PROOFS. Display Memory (41_display_memory): every step keeps the invariant of R165, which commands are refused before
INIT and after it, and what the four pointer accessors return. -/

namespace Sys2Proof.Machine

/-! ### The invariant (41_display_memory R165) -/

/-- Settles O49, by the six kinds of turn: a command and RENDER keep the invariant by the laws of the render port, a
channel or sequencer touches nothing the invariant speaks of. -/
theorem stepKeepsRenderInv : Obligations.StepKeepsRenderInv := by
  intro s t h hs
  obtain ⟨e, u, rfl, ⟨i, hc, -, hx⟩ | rfl | ⟨c, hx⟩ | hx | hx | hx⟩ := step_next hs
  · exact command_renderInv hc (s := { s with env := e }) (seq_renderInv h) hx
  · exact render_renderInv (s := { s with env := e }) (seq_renderInv h)
  · obtain ⟨x1, x2, y1, y2, q1, q2, rfl⟩ := transfer_frame hx
    exact seq_renderInv h
  · obtain ⟨q, d, f, p, r, rfl⟩ := dseq_frame hx
    exact seq_renderInv h
  · obtain ⟨q, f, p, r, rfl⟩ := rseq_frame hx
    exact seq_renderInv h
  · obtain ⟨q, o, f, p, r, rfl⟩ := oseq_frame hx
    exact seq_renderInv h

/-- Between two commands the attached `DELAY_PTR` is bound. -/
theorem RenderInv.delayPtr_of_idle {s : State} (h : RenderInv s) (hp : s.pending = []) (hf : s.fbPtr ≠ nullPtr) :
    s.delayPtr = s.par.delaysBase := by
  rcases h.delayBound hf with hd | ⟨ha, -⟩
  · exact hd
  · rw [hp] at ha
    cases ha

/-! ### Commands that are refused (41_display_memory R141, 60_exceptions R250) -/

/-- A command that needs a buffer, before INIT. -/
theorem notAttached_refused {s : State} (r : Result) (hp : s.pending = []) (hf : s.fbPtr = nullPtr) :
    whenIdle s (whenAttached s r) = .refused .notAttached :=
  (whenIdle_idle (pending_eq_nil.1 hp)).trans (if_pos hf)

theorem configure_ne_notAttached (b : BitVec 4) (g : Bool) (br : Byte) (tm : Word) (s : State) :
    exec (.configure b g br tm) s ≠ .refused .notAttached := by
  simp only [exec, execConfigure]
  split
  · exact whenIdle_ne_refused nofun (by split <;> simp)
  · simp

/-- Settles O8: six commands check the attachment, and the others have no such refusal. -/
theorem unattachedCommandsAreRefused : Obligations.UnattachedCommandsAreRefused := by
  intro s hp hf
  have hn (r : Result) := notAttached_refused r hp hf
  exact ⟨fun x y c => hn _, hn _, hn _, hn _, hn _, hn _,
    whenIdle_ne_refused nofun (by split <;> simp), whenIdle_ne_refused nofun (by simp),
    whenIdle_ne_refused nofun (by simp), fun b g br tm => configure_ne_notAttached b g br tm s,
    fun v => whenIdle_ne_refused nofun (by simp), whenIdle_ne_refused nofun (by split <;> simp)⟩

/-- Settles O9: with no command in progress the life-cycle check of each of the four commands decides. -/
theorem lifeCycleRefusals : Obligations.LifeCycleRefusals := by
  intro s hp
  have hidle (r : Result) : whenIdle s r = r := whenIdle_idle (pending_eq_nil.1 hp)
  exact ⟨fun hb => (hidle _).trans (if_pos hb),
    fun hf he => (hidle _).trans ((whenAttached_attached hf).trans (if_pos he)),
    fun he => (hidle _).trans (if_pos he),
    fun b g br tm hlo hhi hn => configure_depthChange g br tm (pwmBitsLegal_iff.2 ⟨hlo, hhi⟩) hn hp⟩

/-! ### The pointer accessors (41_display_memory R160 to R163) -/

/-- Settles O17: the check for a command in progress passes. -/
theorem pointerAddressAccessors : Obligations.PointerAddressAccessors :=
  fun _ hp => ⟨whenIdle_idle (pending_eq_nil.1 hp), whenIdle_idle (pending_eq_nil.1 hp)⟩

/-- A command whose one event reads a pointer variable is complete in the step that issues it. -/
theorem beginCommand_returnPtr (i : Instr) (a : Word) {s : State} (hp : s.pending = []) :
    beginCommand i [.returnPtr a] s =
      { s with render := { s.render with ret := some (.word (s.wordAt a.toNat)) } } := by
  show { s with render := { s.render with inFlight := none, ret := some (.word (s.wordAt a.toNat)) } } = _
  rw [← pending_eq_nil.1 hp]

/-- Settles O18. -/
theorem pointerAccessors : Obligations.PointerAccessors := by
  intro s hp hf
  have hrun (i : Instr) (a : Word) : whenIdle s (whenAttached s (.next (beginCommand i [.returnPtr a] s))) =
      .next { s with render := { s.render with ret := some (.word (s.wordAt a.toNat)) } } := by
    rw [whenIdle_idle (pending_eq_nil.1 hp), whenAttached_attached hf, beginCommand_returnPtr i a hp]
  exact ⟨hrun _ _, hrun _ _, fun h => ⟨h.fbPtr_cases hf, h.delayPtr_of_idle hp hf⟩⟩

end Sys2Proof.Machine
end

section
/-! PROOFS. What INIT, SET_PIXEL, CLEAR and COMMIT come to once their memory events are performed (41_display_memory
R140, R145, R150, R155): which bytes change and to what, and that nothing else does. -/

namespace Sys2Proof.Machine

/-! ### Words and regions that a command leaves as they are -/

/-- A word that lies outside the region whose bytes changed is as before. -/
theorem wordAt_of_outside {s t : State} {base : Word} {n a : Nat} (hp : t.par = s.par)
    (hb : ∀ k, Outside base n k → t.byteAt k = s.byteAt k) (ha : ∀ o < 4, Outside base n (a + o)) :
    t.wordAt a = s.wordAt a := by
  refine wordAt_congr _ _ _ hp fun k hk hk' => ?_
  obtain ⟨o, rfl⟩ := Nat.exists_eq_add_of_le hk
  exact hb _ (ha o (by omega))

theorem wordAt_of_sameMemory {s t : State} (h : SameMemory s t) (hp : t.par = s.par) (a : Nat) :
    t.wordAt a = s.wordAt a :=
  wordAt_congr _ _ _ hp fun k _ _ => h k

theorem exists_offset_iff {base : Word} {n a : Nat} :
    (∃ o ∈ List.range n, a = base.toNat + o) ↔ ¬Outside base n a := by
  refine ⟨?_, fun h => ⟨a - base.toNat, List.mem_range.2 (by omega), by omega⟩⟩
  rintro ⟨o, ho, rfl⟩
  have hlt := List.mem_range.1 ho
  omega

/-- What a zero-fill says of each byte, inside the region and outside it. -/
theorem zeroFilled {base : Word} {n : Nat} {f g : Nat → Byte}
    (h : ∀ a, f a = if ∃ o ∈ List.range n, a = base.toNat + o then 0 else g a) :
    (∀ o < n, f (base.toNat + o) = 0) ∧ ∀ a, Outside base n a → f a = g a :=
  ⟨fun o ho => (h _).trans (if_pos ⟨o, List.mem_range.2 ho, rfl⟩),
    fun _ ha => (h _).trans (if_neg (mt exists_offset_iff.1 (not_not.2 ha)))⟩

/-! ### INIT (41_display_memory R140) -/

/-- The state with both pointer variables bound as INIT binds them. -/
def bindPointers (s : State) : State :=
  (s.setWord s.par.fbPtrAddr.toNat s.par.fb0Base).setWord s.par.delayPtrAddr.toNat s.par.delaysBase

theorem bindPointers_fbPtr {s : State} (hm : MapLegal s.par) : (bindPointers s).fbPtr = s.par.fb0Base := by
  obtain ⟨-, -, -, -, -, -, -, -, -, hapart⟩ := map_apart hm
  show (bindPointers s).wordAt s.par.fbPtrAddr.toNat = _
  rw [bindPointers, wordAt_setWord_outside _ _ _ _ (by omega), wordAt_setWord_same]

theorem bindPointers_delayPtr (s : State) : (bindPointers s).delayPtr = s.par.delaysBase := wordAt_setWord_same _ _ _

theorem bindPointers_byteAt {s : State} {a : Nat} (hf : Outside s.par.fbPtrAddr 4 a)
    (hd : Outside s.par.delayPtrAddr 4 a) : (bindPointers s).byteAt a = s.byteAt a :=
  (byteAt_setWord_outside _ _ _ _ hd).trans (byteAt_setWord_outside _ _ _ _ hf)

/-- What an accepted INIT does in the step that issues it, and what it comes to. -/
theorem init_finish {s : State} (hp : s.pending = []) (hf : s.fbPtr = nullPtr) (hd : s.delayPtr = nullPtr) :
    ∃ t, exec .init s = .next t ∧ t.par = s.par ∧
      SameMemory (s.setWord s.par.fbPtrAddr.toNat s.par.fb0Base) t ∧
      t.pending = [.storePtr s.par.delayPtrAddr s.par.delaysBase] ∧
      finishCommand t = { s with
        active := false, mem := (bindPointers s).mem, render := { s.render with ret := none } } := by
  have hi := pending_eq_nil.1 hp
  refine ⟨_, (whenIdle_idle hi).trans (if_neg (not_or.2 ⟨not_not.2 hf, not_not.2 hd⟩)), rfl, fun _ => rfl, rfl, ?_⟩
  rw [finishCommand_beginCommand, ← hi]
  rfl

/-- Settles O12: each of the two stores is made where it reaches no other object. -/
theorem initBindsThePointers : Obligations.InitBindsThePointers := by
  intro s hl hp hf hd
  have hm := mapLegal_of_legal hl
  obtain ⟨-, -, -, -, -, -, -, -, -, hapart⟩ := map_apart hm
  obtain ⟨t, ht, hpar, hstored, hpend, hfin⟩ := init_finish hp hf hd
  have hword := wordAt_of_sameMemory hstored hpar
  have hfb := bindPointers_fbPtr hm
  refine ⟨t, ht, ?_, ?_, hpend, ?_⟩
  · rw [State.fbPtr, hpar, hword, wordAt_setWord_same]
  · rw [State.delayPtr, hpar, hword, wordAt_setWord_outside _ _ _ _ (by omega)]
    exact hd
  · rw [hfin]
    exact ⟨hfb, bindPointers_delayPtr s, rfl, if_pos hfb, hp, fun a => bindPointers_byteAt, rfl⟩

/-! ### SET_PIXEL (41_display_memory R145 to R147) -/

/-- Settles O20. -/
theorem setPixelOrsThePlaneBytes : Obligations.SetPixelOrsThePlaneBytes := by
  intro s x y c hp hf hr
  obtain ⟨t, ht, ⟨m, o, hfin⟩, hplane, hother⟩ := setPixel_finish (c := c) hp hf hr
  exact ⟨t, ht, hplane, hother, pending_finishCommand t, by rw [hfin], by rw [hfin]⟩

/-- `w` has bits of one half of a byte only: that of row `y` (41_display_memory R146). -/
abbrev InsideHalf (p : Params) (y : Nat) (w : Byte) : Prop :=
  (y < p.activeRows → w >>> 3 = 0) ∧ (p.activeRows ≤ y → w.extractLsb' 0 3 = 0 ∧ w.extractLsb' 6 2 = 0)

/-- Every byte after SET_PIXEL is the old one with some bits of the pixel's half set. -/
theorem setPixel_or_inside {s t : State} {x y : BitVec 16} {c : Color}
    (hplane : ∀ b < s.par.colorBits, t.byteAt (pixelAddr s x y b) =
      s.byteAt (pixelAddr s x y b) ||| pixelBits s y.toInt.toNat c b)
    (hother : ∀ a, (∀ b < s.par.colorBits, a ≠ pixelAddr s x y b) → t.byteAt a = s.byteAt a) (a : Nat) :
    ∃ w, t.byteAt a = s.byteAt a ||| w ∧ InsideHalf s.par y.toInt.toNat w := by
  by_cases ha : ∃ b < s.par.colorBits, a = pixelAddr s x y b
  · obtain ⟨b, hb, rfl⟩ := ha
    exact ⟨_, hplane b hb, pixelBits_inside s _ c b⟩
  · refine ⟨0, ?_, fun _ => by decide, fun _ => by decide⟩
    rw [hother a fun b hb e => ha ⟨b, hb, e⟩]
    exact BitVec.or_zero.symm

theorem and_or_self_byte (v w : Byte) : v &&& (v ||| w) = v := by
  refine BitVec.eq_of_getLsbD_eq fun i _ => ?_
  rw [BitVec.getLsbD_and, BitVec.getLsbD_or]
  exact inf_sup_self

/-- Settles O21: OR with bits of one half sets bits of that half and clears none. -/
theorem setPixelNibbleIsolation : Obligations.SetPixelNibbleIsolation := by
  intro s x y c hp hf hr
  obtain ⟨t, ht, -, hplane, hother⟩ := setPixel_finish (c := c) hp hf hr
  obtain ⟨-, hy, -⟩ := hr
  refine ⟨t, ht, fun a => ?_⟩
  obtain ⟨w, hw, htop, hbottom⟩ := setPixel_or_inside hplane hother a
  rw [hw]
  refine ⟨and_or_self_byte _ _, fun h => ?_, fun h => ?_⟩
  · rw [BitVec.ushiftRight_or_distrib, htop (by omega)]
    exact BitVec.or_zero
  · obtain ⟨hlow, hhigh⟩ := hbottom (by omega)
    rw [BitVec.extractLsb'_or, BitVec.extractLsb'_or, hlow, hhigh]
    exact ⟨BitVec.or_zero, BitVec.or_zero⟩

/-! ### CLEAR (41_display_memory R150) -/

/-- Settles O24: the zero-fill does not reach `FB_PTR`, so a second CLEAR fills the same buffer. -/
theorem clearZeroesTheDrawBuffer : Obligations.ClearZeroesTheDrawBuffer := by
  intro s hp hf
  obtain ⟨t, ht, ⟨m, o, hfin⟩, hbyte⟩ := clear_finish hp hf
  obtain ⟨hzero, hout⟩ := zeroFilled hbyte
  refine ⟨t, ht, hzero, hout, pending_finishCommand t, by rw [hfin], by rw [hfin], fun h => ?_⟩
  have hpar : (finishCommand t).par = s.par := by rw [hfin]
  have hptr : (finishCommand t).fbPtr = s.fbPtr := by
    rw [State.fbPtr, hpar]
    exact wordAt_of_outside hpar hout (h.drawBase_apart hf).2
  have hdraw : (finishCommand t).drawBaseNow = s.drawBaseNow := by rw [State.drawBaseNow, hptr, hpar]; rfl
  obtain ⟨v, hv, -, hbyte'⟩ := clear_finish (pending_finishCommand t) (hptr ▸ hf)
  refine ⟨v, hv, fun a => ?_⟩
  rw [hbyte', hdraw, hpar, hbyte]
  split_ifs <;> rfl

/-! ### COMMIT (41_display_memory R155, R156) -/

/-- The state with COMMIT's store of `FB_PTR` made: it names the draw buffer. -/
def publishDraw (s : State) : State := s.setWord s.par.fbPtrAddr.toNat s.drawBaseNow

theorem publishDraw_fbPtr (s : State) : (publishDraw s).fbPtr = s.drawBaseNow := wordAt_setWord_same _ _ _

theorem publishDraw_delayPtr {s : State} (hm : MapLegal s.par) : (publishDraw s).delayPtr = s.delayPtr := by
  obtain ⟨-, -, -, -, -, -, -, -, -, hapart⟩ := map_apart hm
  exact wordAt_setWord_outside s _ s.par.delayPtrAddr.toNat _ (by omega)

theorem publishDraw_byteAt {s : State} {a : Nat} (h : Outside s.par.fbPtrAddr 4 a) :
    (publishDraw s).byteAt a = s.byteAt a :=
  byteAt_setWord_outside _ _ _ _ h

theorem drawBaseOf_not (p : Params) (v : Bool) : drawBaseOf p (!v) = activeBase p v := by cases v <;> rfl

/-- The draw buffer is the one `ACTIVE` does not name. -/
theorem drawBaseNow_of_active {s : State} (hne : s.par.fb0Base ≠ s.par.fb1Base)
    (hb : s.fbPtr = activeBase s.par s.active) : s.drawBaseNow = activeBase s.par (!s.active) := by
  rw [State.drawBaseNow, hb]
  cases s.active
  · exact if_pos rfl
  · exact if_neg hne.symm

/-- The active buffer meets neither the draw buffer nor a pointer variable, and the draw buffer not `FB_PTR`
(20_memory R66). -/
theorem RenderInv.active_apart {s : State} (h : RenderInv s) (hf : s.fbPtr ≠ nullPtr) :
    (∀ o < s.par.frameSize, Outside s.fbPtr s.par.frameSize (s.drawBaseNow.toNat + o)) ∧
    (∀ o < 4, Outside s.fbPtr s.par.frameSize (s.par.fbPtrAddr.toNat + o)) ∧
    (∀ o < 4, Outside s.fbPtr s.par.frameSize (s.par.delayPtrAddr.toNat + o)) ∧
    ∀ o < s.par.frameSize, Outside s.par.fbPtrAddr 4 (s.drawBaseNow.toNat + o) := by
  have hm := mapLegal_of_legal h.legal
  obtain ⟨hne, -⟩ := bases_ne hm (frameSize_pos h.legal)
  obtain ⟨hfb, -, h0f, h0d, -, h1f, h1d, -⟩ := map_apart hm
  rcases h.fbPtr_cases hf with e | e
  · have hd : s.drawBaseNow = s.par.fb1Base := if_pos e
    rw [hd, e]
    exact ⟨fun o ho => by omega, fun o ho => by omega, fun o ho => by omega, fun o ho => by omega⟩
  · have hd : s.drawBaseNow = s.par.fb0Base := if_neg (e ▸ hne.symm)
    rw [hd, e]
    exact ⟨fun o ho => by omega, fun o ho => by omega, fun o ho => by omega, fun o ho => by omega⟩

/-- What COMMIT comes to where `FB_PTR` is the buffer `ACTIVE` names: it publishes the draw buffer, then zero-fills the
old active one. -/
theorem commit_publishes {s : State} (hne : s.par.fb0Base ≠ s.par.fb1Base) (hb : s.fbPtr = activeBase s.par s.active)
    (hp : s.pending = []) (hf : s.fbPtr ≠ nullPtr) :
    ∃ t, exec .commit s = .next t ∧ t.par = s.par ∧ SameMemory (publishDraw s) t ∧
      (∃ m o, finishCommand t = { s with
        active := !s.active, mem := m, render := { inFlight := none, drawBase := s.fbPtr, old := o, ret := none } }) ∧
      (∀ o < s.par.frameSize, (finishCommand t).byteAt (s.fbPtr.toNat + o) = 0) ∧
      ∀ a, Outside s.fbPtr s.par.frameSize a → (finishCommand t).byteAt a = (publishDraw s).byteAt a := by
  obtain ⟨t, ht, hmem, hpar, hfin, hbyte⟩ := commit_finish hp hf
  rw [drawBaseOf_not, ← hb] at hfin hbyte
  rw [← drawBaseNow_of_active hne hb] at hmem hbyte
  exact ⟨t, ht, hpar, byteAt_congr hpar hmem, hfin, zeroFilled hbyte⟩

/-- Settles O25: the pointer store reaches neither buffer, the zero-fill reaches the old active buffer only. -/
theorem commitSwapsTheBuffers : Obligations.CommitSwapsTheBuffers := by
  intro s h hp hf
  have hm := mapLegal_of_legal h.legal
  obtain ⟨hne, -⟩ := bases_ne hm (frameSize_pos h.legal)
  obtain ⟨hbuf, hfvar, hdvar, hdraw⟩ := h.active_apart hf
  obtain ⟨t, ht, hpar, hstored, ⟨m, o, hfin⟩, hzero, hout⟩ := commit_publishes hne (h.bound hf) hp hf
  have hpar' : (finishCommand t).par = s.par := by rw [hfin]
  have hact : (finishCommand t).active = !s.active := by rw [hfin]
  have hptr : (finishCommand t).fbPtr = s.drawBaseNow := by
    rw [State.fbPtr, hpar', ← publishDraw_fbPtr]
    exact wordAt_of_outside hpar' hout hfvar
  have hdelay : (finishCommand t).delayPtr = s.delayPtr := by
    rw [State.delayPtr, hpar', ← publishDraw_delayPtr hm]
    exact wordAt_of_outside hpar' hout hdvar
  have hswap : (finishCommand t).drawBaseNow = s.fbPtr := by
    have hb : (finishCommand t).fbPtr = activeBase (finishCommand t).par (finishCommand t).active := by
      rw [hptr, hpar', hact, drawBaseNow_of_active hne (h.bound hf)]
    rw [drawBaseNow_of_active (hpar' ▸ hne) hb, hpar', hact, Bool.not_not, h.bound hf]
  refine ⟨t, ht, ?_, fun a ha => (hstored a).trans (publishDraw_byteAt ha), hact, hptr, hswap, hdelay,
    fun o ho => (hout _ (hbuf o ho)).trans (publishDraw_byteAt (hdraw o ho)), hzero,
    fun a ha ha' => (hout a ha).trans (publishDraw_byteAt ha'), pending_finishCommand t, by rw [hfin], by rw [hfin]⟩
  rw [State.fbPtr, hpar, wordAt_of_sameMemory hstored hpar]
  exact publishDraw_fbPtr s

end Sys2Proof.Machine
end

section
/-! PROOFS. The render domain and the output engine do not interfere (41_display_memory R166, 60_exceptions R260): the
engine's agents touch nothing of what a command reads, and a command does the same whatever the engine's state is. -/

namespace Sys2Proof.Machine

/-! ### The engine's agents -/

/-- A channel or sequencer touches its own registers, the queues, the flags, the pins and the trace. -/
theorem agentStep_display {a : Agent} {s t : State} (ha : a ≠ .render) (h : agentStep a s = .next t) :
    SameDisplay s t ∧ SameMemory s t ∧ t.engine = s.engine := by
  cases a with
  | render => exact absurd rfl ha
  | chan c =>
    obtain ⟨x1, x2, y1, y2, q1, q2, rfl⟩ := transfer_frame ((channelStep_eq c s).symm.trans h)
    exact ⟨SameDisplay.refl s, fun _ => rfl, rfl⟩
  | dseq =>
    obtain ⟨q, d, f, p, r, rfl⟩ := dseq_frame h
    exact ⟨SameDisplay.refl s, fun _ => rfl, rfl⟩
  | rseq =>
    obtain ⟨q, f, p, r, rfl⟩ := rseq_frame h
    exact ⟨SameDisplay.refl s, fun _ => rfl, rfl⟩
  | oseq =>
    obtain ⟨q, o, f, p, r, rfl⟩ := oseq_frame h
    exact ⟨SameDisplay.refl s, fun _ => rfl, rfl⟩

/-! ### A command whatever the engine's state is -/

/-- Equal in what a command reads: what the render domain owns, and `ENGINE`. -/
abbrev SameRender (s t : State) : Prop := SameDisplay s t ∧ s.engine = t.engine

/-- `s` with the channels, queues, sequencers, flags, pins, trace and environment of `u`. -/
def State.withEngineOf (s u : State) : State :=
  { s with
    a1 := u.a1, a2 := u.a2, b1 := u.b1, b2 := u.b2, dq := u.dq, oq := u.oq, dseq := u.dseq, rseq := u.rseq
    oseq := u.oseq, flags := u.flags, pins := u.pins, trace := u.trace, env := u.env }

/-- States that are equal in what a command reads differ in the engine's state only. -/
theorem SameRender.eq_withEngineOf {s u : State} (h : SameRender s u) : u = s.withEngineOf u := by
  obtain ⟨⟨hp, hc, hr, hg, hb, ha, hm, hd⟩, he⟩ := h
  rw [State.withEngineOf, hp, hc, hr, hg, hb, ha, hm, hd, he]

theorem sameRender_withEngineOf (s u : State) : SameRender s (s.withEngineOf u) := ⟨SameDisplay.refl s, rfl⟩

theorem perform_withEngineOf (e : MemEvent) (s u : State) :
    SameRender (perform e s) (perform e (s.withEngineOf u)) := by
  cases e <;> exact ⟨⟨rfl, rfl, rfl, rfl, rfl, rfl, rfl, rfl⟩, rfl⟩

theorem renderEvent_withEngineOf (s u : State) : SameRender (renderEvent s) (renderEvent (s.withEngineOf u)) := by
  cases hf : s.render.inFlight with
  | none =>
    rw [renderEvent_idle hf, renderEvent_idle (s := s.withEngineOf u) hf]
    exact sameRender_withEngineOf s u
  | some f =>
    rw [renderEvent_busy hf, renderEvent_busy (s := s.withEngineOf u) hf]
    exact perform_withEngineOf f.event { s with render := { s.render with inFlight := inFlightOf f.cmd f.later } } u

theorem beginCommand_withEngineOf (i : Instr) (es : List MemEvent) (s u : State) :
    SameRender (beginCommand i es s) (beginCommand i es (s.withEngineOf u)) :=
  renderEvent_withEngineOf { s with render := { s.render with inFlight := inFlightOf i es, ret := none } } u

/-- Where `r` is a next state so is `r'`, and the two are equal in what a command reads. -/
def Follows (r r' : Result) : Prop := ∀ t, r = .next t → ∃ t', r' = .next t' ∧ SameRender t t'

theorem follows_next {t t' : State} (h : SameRender t t') : Follows (.next t) (.next t') := by
  rintro _ ⟨⟩
  exact ⟨t', rfl, h⟩

theorem follows_refused (e : Refusal) (r : Result) : Follows (.refused e) r := by
  rintro _ ⟨⟩

theorem follows_ite {c : Prop} [Decidable c] {r q r' q' : Result} (h : Follows r r') (hn : Follows q q') :
    Follows (if c then r else q) (if c then r' else q') := by
  by_cases hc : c
  · rwa [if_pos hc, if_pos hc]
  · rwa [if_neg hc, if_neg hc]

theorem follows_guard {c : Prop} [Decidable c] {e : Refusal} {r r' : Result} (h : Follows r r') :
    Follows (if c then .refused e else r) (if c then .refused e else r') :=
  follows_ite (follows_refused e _) h

/-- Both checks of a command read what the render domain owns. -/
theorem whenIdle_follows {s u : State} {r r' : Result} (h : Follows r r') :
    Follows (whenIdle s r) (whenIdle (s.withEngineOf u) r') := follows_guard h

theorem whenAttached_follows {s u : State} {r r' : Result} (h : Follows r r') :
    Follows (whenAttached s r) (whenAttached (s.withEngineOf u) r') := follows_guard h

/-- A command does the same to what the render domain owns, whatever the engine's state is: its checks and its events read
nothing else. -/
theorem command_withEngineOf {i : Instr} (hc : isCommand i = true) (s u : State) :
    Follows (exec i s) (exec i (s.withEngineOf u)) := by
  have hbegin (i : Instr) (es : List MemEvent) (v : State) :
      Follows (.next (beginCommand i es v)) (.next (beginCommand i es (v.withEngineOf u))) :=
    follows_next (beginCommand_withEngineOf i es v u)
  cases i
  case init => exact whenIdle_follows (follows_guard (hbegin _ _ { s with active := false }))
  case configure b g br tm =>
    exact follows_ite (whenIdle_follows (follows_guard (follows_next (sameRender_withEngineOf
      (completeCommand none (rebuildTables { s with cfg := ⟨b, br, g, tm⟩ })) u)))) (follows_refused _ _)
  case engineSetup => exact whenIdle_follows (whenAttached_follows (follows_guard (hbegin _ _ s)))
  case engineStart =>
    exact whenIdle_follows (follows_guard (follows_next
      (sameRender_withEngineOf (completeCommand none (startEngine s)) (startEngine u))))
  case setPixel x y c =>
    exact whenIdle_follows (whenAttached_follows (follows_ite (hbegin _ _ s)
      (follows_next (sameRender_withEngineOf (completeCommand none s) u))))
  case clear | getActiveBufferPtr | getDelayPtr => exact whenIdle_follows (whenAttached_follows (hbegin _ _ s))
  case commit =>
    exact whenIdle_follows (whenAttached_follows (hbegin _ _
      { s with active := !s.active, render := { s.render with drawBase := drawBaseOf s.par (!s.active) } }))
  case getFbPtrAddr | getDelayPtrAddr | gammaCorrect =>
    exact whenIdle_follows (follows_next (sameRender_withEngineOf (completeCommand _ s) u))
  case reservedOp0 | reservedOpD | reservedOpE | reservedOpF => exact follows_refused _ _
  all_goals cases hc

theorem portStep_withEngineOf (w : BitVec 64) (s u : State) :
    Follows (portStep w s) (portStep w (s.withEngineOf u)) := by
  cases hd : decodeCmd w with
  | error r =>
    rw [portStep_of_rejects hd]
    exact follows_refused _ _
  | ok i =>
    obtain ⟨hc, -⟩ := decodeCmd_isCommand hd
    rw [portStep_of_decodes hd, portStep_of_decodes hd]
    exact command_withEngineOf hc s u

/-- Settles O54: of two states that agree on what a command reads, one is the other with another engine. -/
theorem displayIndependentOfTheEngine : Obligations.DisplayIndependentOfTheEngine := by
  refine ⟨fun a s t => agentStep_display, fun s u h he => ?_⟩
  have hu := SameRender.eq_withEngineOf ⟨h, he⟩
  rw [hu]
  exact ⟨fun w => portStep_withEngineOf w s u, renderEvent_withEngineOf s u⟩

end Sys2Proof.Machine
end

section
/-! PROOFS. The invariant of the channels (42_transfer_engine R184): ENGINE_SETUP and ENGINE_START bring it about, and every
step keeps it. -/

namespace Sys2Proof.Machine

/-! ### Numbers of a legal parameter set (00_scope R6) -/

theorem activeRows_of_legal {p : Params} (h : ParamsLegal p) : 1 ≤ p.activeRows ∧ p.activeRows ≤ 32 := h.2.1

theorem colorBits_of_legal {p : Params} (h : ParamsLegal p) : 1 ≤ p.colorBits ∧ p.colorBits ≤ 8 := h.2.2.1

theorem holdBias_of_legal {p : Params} (h : ParamsLegal p) : p.holdBias ≤ 1 := h.2.2.2.2.2.2.2.1

/-! ### ENGINE_SETUP is over once the engine is set up -/

theorem RenderInv.not_settingUp {s : State} (h : RenderInv s) (he : s.engine ≠ .off) : s.pending ≠ [.setupPairB] := by
  intro hp
  rcases h.command with hn | ⟨-, ho, -⟩ | ⟨-, ho, -⟩ | ⟨-, -, -, hd⟩
  · rw [hp] at hn
    cases hn
  · exact he ho
  · exact he ho
  · exact hd .setupPairB (hp ▸ List.mem_singleton_self _)

theorem RenderInv.attached {s : State} (h : RenderInv s) (he : s.engine ≠ .off) : s.fbPtr ≠ nullPtr := by
  intro hf
  obtain ⟨-, -, ho⟩ := h.unbound hf
  exact he ho

theorem RenderInv.delayPtr_running {s : State} (h : RenderInv s) (he : s.engine ≠ .off) : s.delayPtr = s.par.delaysBase := by
  rcases h.delayBound (h.attached he) with hd | ⟨-, ho, -⟩
  · exact hd
  · exact absurd ho he

/-! ### The start of a pass -/

/-- A channel whose count is loaded and whose read address is the base is at the start of an activation. -/
theorem Streaming.start {r : ChanRegs} {base : Word} {n count : Nat} (hc : r.remain.toNat = count) (hpos : 1 ≤ count)
    (ha : r.readAddr = base) : Streaming r base n count 0 :=
  ⟨hpos, by omega, by rw [ha]; omega⟩

theorem a1Count_toNat {p : Params} (hl : ParamsLegal p) : (a1Count p).toNat = p.frameSize / p.wA := by
  obtain ⟨-, -, -, -, hlt, -⟩ := pass_facts hl
  rw [a1Count, BitVec.toNat_ofNat]
  exact Nat.mod_eq_of_lt hlt

theorem b1Count_toNat {p : Params} (hl : ParamsLegal p) : (b1Count p).toNat = p.colorBits := by
  obtain ⟨-, hle⟩ := colorBits_of_legal hl
  rw [b1Count, BitVec.toNat_ofNat]
  exact Nat.mod_eq_of_lt (by omega)

/-- A1 with its count loaded and `FB_PTR` in `READ_ADDR` is at the start of a pass (42_transfer_engine R172, R181). -/
theorem inPass_start {s : State} (hl : ParamsLegal s.par) (hc : s.a1.remain = a1Count s.par)
    (ha : s.a1.readAddr = s.par.fb0Base ∨ s.a1.readAddr = s.par.fb1Base) : InPass s := by
  obtain ⟨-, -, -, hpos, -⟩ := pass_facts hl
  have hn : s.a1.remain.toNat = s.par.frameSize / s.par.wA := by rw [hc, a1Count_toNat hl]
  exact ⟨0, hpos, ha.imp (.start hn hpos) (.start hn hpos)⟩

/-- B1 with its count loaded and `DELAY_PTR` in `READ_ADDR` is at the start of the delay table. -/
theorem inDelays_start {s : State} (hl : ParamsLegal s.par) (hc : s.b1.remain = b1Count s.par)
    (ha : s.b1.readAddr = s.par.delaysBase) : InDelays s := by
  obtain ⟨hpos, -⟩ := colorBits_of_legal hl
  exact ⟨0, hpos, .start (by rw [hc, b1Count_toNat hl]) hpos ha⟩

/-- A transfer of A1 that is not the last of its pass leaves it inside the pass. -/
theorem inPass_next {s t : State} (hl : ParamsLegal s.par) (h : InPass s) (h1 : s.a1.remain ≠ 1) (hp : t.par = s.par)
    (ha : t.a1 = streamed s.a1 s.par.wA) : InPass t := by
  obtain ⟨-, hw, hdiv, -⟩ := pass_facts hl
  obtain ⟨⟨-, hb0⟩, ⟨-, hb1⟩, -⟩ := map_facts (mapLegal_of_legal hl)
  obtain ⟨k, -, hk⟩ := h
  unfold InPass
  rw [hp, ha]
  rcases hk with hk | hk
  · obtain ⟨hlt, hs⟩ := streaming_next hw (by rw [hdiv]; exact hb0) hk h1
    exact ⟨k + 1, hlt, .inl hs⟩
  · obtain ⟨hlt, hs⟩ := streaming_next hw (by rw [hdiv]; exact hb1) hk h1
    exact ⟨k + 1, hlt, .inr hs⟩

/-- A transfer of B1 that is not the last of its activation leaves it inside the delay table. -/
theorem inDelays_next {s t : State} (hl : ParamsLegal s.par) (h : InDelays s) (h1 : s.b1.remain ≠ 1) (hp : t.par = s.par)
    (hb : t.b1 = streamed s.b1 4) : InDelays t := by
  obtain ⟨-, -, ⟨-, hd⟩, -⟩ := map_facts (mapLegal_of_legal hl)
  obtain ⟨k, -, hk⟩ := h
  obtain ⟨hlt, hs⟩ := streaming_next (Nat.le_refl 4) (by omega) hk h1
  unfold InDelays
  rw [hp, hb]
  exact ⟨k + 1, hlt, hs⟩

/-! ### The invariant under the commands and RENDER (42_transfer_engine R172, R174) -/

/-- A command that begins with an event that is not ENGINE_SETUP's, and has not ENGINE_SETUP's second one pending. -/
theorem beginCommand_channelInv {s : State} (h : ChannelInv s) (i : Instr) {e : MemEvent} {es : List MemEvent}
    (ha : e ≠ .setupPairA) (hb : e ≠ .setupPairB) (hes : es ≠ [.setupPairB]) :
    ChannelInv (beginCommand i (e :: es) s) := by
  have hp := pending_beginCommand i e es s
  rw [beginCommand_cons] at hp ⊢
  obtain ⟨m, r, hf⟩ := perform_frame (s := { s with render := { s.render with inFlight := inFlightOf i es, ret := none } }) ha hb
  rw [hf] at hp ⊢
  exact h.congr rfl rfl rfl rfl rfl rfl ⟨rfl, rfl⟩ fun hs => absurd (hp.symm.trans hs) hes

theorem zeroFill_ne_setup (p : Params) : zeroFill p ≠ [.setupPairB] := by
  intro h
  have hm : MemEvent.setupPairB ∈ zeroFill p := h ▸ List.mem_singleton_self _
  simp [zeroFill] at hm

/-- ENGINE_SETUP's first event programs pair A (42_transfer_engine R172). -/
theorem setupPairA_channelInv {s : State} (hr : RenderInv s) (h : ChannelInv s) (he : s.engine = .off)
    (hf : s.fbPtr ≠ nullPtr) (f : RenderPort) : ChannelInv (setupPairA { s with render := f }) := by
  have hno : s.engine ≠ .running := by rw [he]; decide
  obtain ⟨i1, i2, i3, i4⟩ := h.idle hno
  obtain ⟨-, ra⟩ := h.armed hno
  refine ⟨fun _ => ⟨i1, i2, i3, i4⟩, fun _ => ⟨⟨rfl, rfl, rfl, rfl, rfl, rfl⟩, ?_⟩, fun hn => absurd he hn,
    fun hn => absurd hn hno, fun hn => absurd he hn, fun hn => absurd he hn, fun _ => ⟨rfl, ra⟩, fun _ => rfl, h.rearmB⟩
  exact inPass_start (s := setupPairA { s with render := f }) hr.legal rfl (hr.fbPtr_cases hf)

/-- ENGINE_SETUP's second event programs the rest (42_transfer_engine R172, R173). -/
theorem setupPairB_channelInv {s : State} (hr : RenderInv s) (h : ChannelInv s) (hs : SettingUp s) {f : RenderPort}
    (hf : State.pending { s with render := f } = []) : ChannelInv (setupPairB { s with render := f }) := by
  obtain ⟨hp, he, -, hd⟩ := hs
  have hno : s.engine ≠ .running := by rw [he]; decide
  obtain ⟨i1, i2, i3, i4⟩ := h.idle hno
  obtain ⟨hfa, hpass⟩ := h.preparing hp
  obtain ⟨ra, -⟩ := h.armed hno
  refine ⟨fun _ => ⟨i1, i2, i3, i4⟩, fun hn => absurd (hf.symm.trans hn) (by simp),
    fun _ => ⟨hfa, rfl, rfl, rfl, rfl, rfl, rfl, rfl, rfl, rfl, rfl, rfl, rfl⟩, nofun, fun _ _ => hpass,
    fun _ _ => inDelays_start (s := setupPairB { s with render := f }) hr.legal rfl hd, fun _ => ⟨ra, rfl⟩,
    fun hb => absurd (i2.symm.trans hb) (by simp), fun hb => absurd (i4.symm.trans hb) (by simp)⟩

/-- ENGINE_START makes A1 and B1 busy, the re-arm channels being idle (42_transfer_engine R174). -/
theorem startEngine_channelInv {s : State} (h : ChannelInv s) (he : s.engine = .setup) (hn : s.render.inFlight = none) :
    ChannelInv (completeCommand none (startEngine s)) := by
  have hne : s.engine ≠ .off := by rw [he]; decide
  have hno : s.engine ≠ .running := by rw [he]; decide
  obtain ⟨-, i2, -, i4⟩ := h.idle hno
  have hp : (completeCommand none (startEngine s)).pending = [] := pending_eq_nil.2 hn
  refine ⟨fun hx => absurd rfl hx, fun hx => absurd (hp.symm.trans hx) (by simp), fun _ => h.fixed hne,
    fun _ => ⟨?_, ?_⟩, fun _ _ => h.passA hne i2, fun _ _ => h.passB hne i4, fun hx => absurd rfl hx,
    fun hb => absurd (i2.symm.trans hb) (by simp), fun hb => absurd (i4.symm.trans hb) (by simp)⟩
  · simp [startEngine, i2]
  · simp [startEngine, i4]

theorem command_channelInv {i : Instr} {s t : State} (hc : isCommand i = true) (hr : RenderInv s) (hi : ChannelInv s)
    (h : exec i s = .next t) : ChannelInv t := by
  obtain ⟨hn, hx⟩ := command_next hc h
  have hidle : ∀ u : State, u.render.inFlight = none → u.pending = [.setupPairB] → s.pending = [.setupPairB] :=
    fun u hu hp => absurd ((pending_eq_nil.2 hu).symm.trans hp) (by simp)
  rcases hx with ⟨r, rfl⟩ | ⟨c, -, rfl⟩ | ⟨he, rfl⟩ | ⟨-, -, rfl⟩ | ⟨hf, hx⟩
  · exact hi.congr rfl rfl rfl rfl rfl rfl ⟨rfl, rfl⟩ (hidle _ hn)
  · exact hi.congr rfl rfl rfl rfl rfl rfl ⟨rfl, rfl⟩ (hidle _ hn)
  · exact startEngine_channelInv hi he hn
  · exact beginCommand_channelInv (s := { s with active := false })
      (hi.congr rfl rfl rfl rfl rfl rfl ⟨rfl, rfl⟩ id) _ nofun nofun (by simp)
  · rcases hx with ⟨x, y, c, -, -, rfl⟩ | rfl | rfl | ⟨a, rfl⟩ | ⟨he, rfl⟩
    · refine beginCommand_channelInv hi _ nofun nofun fun hp => ?_
      have hm := hp ▸ List.mem_singleton_self MemEvent.setupPairB
      simp at hm
    · exact beginCommand_channelInv hi _ nofun nofun (zeroFill_ne_setup _)
    · exact beginCommand_channelInv
        (s := { s with active := !s.active, render := { s.render with drawBase := drawBaseOf s.par (!s.active) } })
        (hi.congr rfl rfl rfl rfl rfl rfl ⟨rfl, rfl⟩ id) _ nofun nofun (zeroFill_ne_setup _)
    · exact beginCommand_channelInv hi _ nofun nofun (by simp)
    · exact setupPairA_channelInv hr hi he hf _

theorem renderEvent_channelInv {s : State} (hr : RenderInv s) (hi : ChannelInv s) : ChannelInv (renderEvent s) := by
  cases hf : s.render.inFlight with
  | none => rwa [renderEvent_idle hf]
  | some f =>
    have hp : s.pending = f.event :: f.later := by simp [State.pending, hf]
    have htail : (renderEvent s).pending = f.later := by rw [pending_renderEvent, hp, List.tail_cons]
    by_cases hs : SettingUp s
    · obtain ⟨he, hl⟩ := List.cons.inj (hp.symm.trans hs.1)
      rw [renderEvent_busy hf, he]
      exact setupPairB_channelInv hr hi hs (by rw [hl, inFlightOf_nil]; rfl)
    · have hev : f.event ≠ .setupPairA ∧ f.event ≠ .setupPairB ∧ f.later ≠ [.setupPairB] := by
        rcases hr.command with hn | ⟨ha, -⟩ | hu | ⟨-, -, -, hd⟩
        · rw [hp] at hn
          cases hn
        · obtain ⟨he, hl⟩ := List.cons.inj (hp.symm.trans ha)
          simp [he, hl]
        · exact absurd hu hs
        · rw [hp] at hd
          have he := hd f.event List.mem_cons_self
          refine ⟨fun e => ?_, fun e => ?_, fun e => hd .setupPairB (by simp [e])⟩
          · rw [e] at he; exact he
          · rw [e] at he; exact he
      obtain ⟨ha, hb, hl⟩ := hev
      obtain ⟨m, r, e⟩ := perform_frame (s := { s with render := { s.render with inFlight := inFlightOf f.cmd f.later } }) ha hb
      rw [renderEvent_busy hf, e] at htail ⊢
      exact hi.congr rfl rfl rfl rfl rfl rfl ⟨rfl, rfl⟩ fun h => absurd (htail.symm.trans h) hl

/-! ### The invariant under a transfer (42_transfer_engine R180 to R182) -/

theorem transfer_channelInv {c : Chan} {s t : State} (hr : RenderInv s) (hi : ChannelInv s)
    (h : transfer c (s.chan c).ctrl s = .next t) : ChannelInv t := by
  rcases channel_next hr hi h with rfl | ⟨he, hmove⟩
  · exact hi
  have hne : s.engine ≠ .off := by rw [he]; decide
  have hset := hr.not_settingUp hne
  obtain ⟨hfa, hfb⟩ := hi.fixed hne
  obtain ⟨pa, pb⟩ := hi.pairs he
  rcases hmove with ⟨-, -, h2, -, rfl⟩ | ⟨-, h2, -, rfl⟩ | ⟨-, -, h2, -, rfl⟩ | ⟨-, h2, -, rfl⟩
  · refine { hi with
      idle := fun hx => absurd he hx, preparing := fun hx => absurd hx hset, fixed := fun _ => ⟨hfa, hfb⟩
      pairs := fun _ => ⟨by simp, pb⟩, passA := fun _ hb => ?_, armed := fun hx => absurd he hx, rearmA := fun hb => ?_ }
    · exact inPass_next hr.legal (hi.passA hne h2) (by simpa using hb) rfl rfl
    · exact if_pos (by simpa using hb)
  · obtain ⟨-, htc, -⟩ := hfa
    refine { hi with
      idle := fun hx => absurd he hx, preparing := fun hx => absurd hx hset, fixed := fun _ => hi.fixed hne
      pairs := fun _ => ⟨rfl, pb⟩, passA := fun _ _ => ?_, armed := fun hx => absurd he hx, rearmA := nofun }
    exact inPass_start hr.legal ((hi.rearmA h2).trans htc) (hr.fbPtr_cases (hr.attached hne))
  · refine { hi with
      idle := fun hx => absurd he hx, preparing := fun hx => absurd hx hset, fixed := fun _ => ⟨hfa, hfb⟩
      pairs := fun _ => ⟨pa, by simp⟩, passB := fun _ hb => ?_, armed := fun hx => absurd he hx, rearmB := fun hb => ?_ }
    · exact inDelays_next hr.legal (hi.passB hne h2) (by simpa using hb) rfl rfl
    · exact if_pos (by simpa using hb)
  · obtain ⟨-, -, -, -, -, htc, -⟩ := hfb
    refine { hi with
      idle := fun hx => absurd he hx, preparing := fun hx => absurd hx hset, fixed := fun _ => hi.fixed hne
      pairs := fun _ => ⟨pa, rfl⟩, passB := fun _ _ => ?_, armed := fun hx => absurd he hx, rearmB := nofun }
    exact inDelays_start hr.legal ((hi.rearmB h2).trans htc) (hr.delayPtr_running hne)

/-- No step of the row sequencer writes what ENGINE_SETUP gave it (10_state R48). -/
theorem rseq_constants {s t : State} (h : exec s.rseq.state.instr s = .next t) :
    t.rseq.rowsM1 = s.rseq.rowsM1 ∧ t.rseq.planesM1 = s.rseq.planesM1 := by
  rcases rseq_next h with rfl | ⟨-, rfl⟩ | ⟨-, rfl⟩ | ⟨-, rfl⟩ | ⟨-, -, rfl⟩ | ⟨-, rfl⟩ | ⟨-, rfl⟩ | ⟨-, -, rfl⟩ |
    ⟨-, -, rfl⟩ | ⟨-, -, -, rfl⟩ | ⟨-, -, -, rfl⟩ <;> exact ⟨rfl, rfl⟩

/-- Settles O51, by the six kinds of turn: commands and RENDER program the channels, a transfer moves one pair, the
sequencers touch no channel and no constant. -/
theorem stepKeepsChannelInv : Obligations.StepKeepsChannelInv := by
  intro s t hr hi hs
  obtain ⟨e, u, rfl, hx⟩ := step_next hs
  have hru : RenderInv { s with env := e } := seq_renderInv hr
  have hiu : ChannelInv { s with env := e } := hi.congr rfl rfl rfl rfl rfl rfl ⟨rfl, rfl⟩ id
  obtain ⟨i, hc, -, hx⟩ | rfl | ⟨c, hx⟩ | hx | hx | hx := hx
  · exact command_channelInv hc hru hiu hx
  · exact renderEvent_channelInv hru hiu
  · exact transfer_channelInv hru hiu hx
  · obtain ⟨q, d, f, p, r, rfl⟩ := dseq_frame hx
    exact hiu.congr rfl rfl rfl rfl rfl rfl ⟨rfl, rfl⟩ id
  · have hk := rseq_constants hx
    obtain ⟨q, f, p, r, rfl⟩ := rseq_frame hx
    exact hiu.congr rfl rfl rfl rfl rfl rfl hk id
  · obtain ⟨q, o, f, p, r, rfl⟩ := oseq_frame hx
    exact hiu.congr rfl rfl rfl rfl rfl rfl ⟨rfl, rfl⟩ id

end Sys2Proof.Machine
end

section
/-! PROOFS. What the operations of the transfer engine come to (42_transfer_engine R171 to R182): ENGINE_SETUP,
ENGINE_START, and one transfer of each channel; and that no turn of theirs faults (R185). -/

namespace Sys2Proof.Machine

/-! ### ENGINE_SETUP and ENGINE_START (42_transfer_engine R172 to R174) -/

theorem engineSetup_accepted {s : State} (hp : s.pending = []) (hf : s.fbPtr ≠ nullPtr) (he : s.engine = .off) :
    exec .engineSetup s = .next (beginCommand .engineSetup [.setupPairA, .setupPairB] s) :=
  (whenIdle_idle (pending_eq_nil.1 hp)).trans ((whenAttached_attached hf).trans (if_neg (not_not_intro he)))

/-- ENGINE_SETUP's two events, one after the other. -/
theorem engineSetup_finish {s : State} (hp : s.pending = []) :
    finishCommand (beginCommand .engineSetup [.setupPairA, .setupPairB] s) =
      setupPairB (setupPairA { s with render := { s.render with ret := none } }) := by
  have hn : s.render.inFlight = none := pending_eq_nil.1 hp
  rw [finishCommand_beginCommand, ← hn]
  rfl

/-- Settles O26: ENGINE_SETUP comes to its two events, which give every register its value. -/
theorem engineSetupPrograms : Obligations.EngineSetupPrograms := by
  intro s hp hf he _
  refine ⟨_, engineSetup_accepted hp hf he, ?_, pending_finishCommand _, ?_⟩
  · rw [engineSetup_finish hp]
    exact fun _ => rfl
  · rw [engineSetup_finish hp]
    rfl

/-- Settles O27: the check for a command in progress passes, and the one of `ENGINE` decides. -/
theorem engineStartRuns : Obligations.EngineStartRuns := by
  intro s hp
  have hidle (r : Result) : whenIdle s r = r := whenIdle_idle (pending_eq_nil.1 hp)
  exact ⟨fun he => ⟨_, (hidle _).trans (if_neg (not_not_intro he)), fun _ => rfl, rfl⟩,
    fun he => (hidle _).trans (if_pos he)⟩

/-! ### One transfer (42_transfer_engine R180 to R182) -/

/-- A word of A1 for transfers of `n` bytes: it reads on, writes one place, is paced by `DQ` and chained to A2
(30_encoding R97). -/
structure IsA1Word (w : BitVec 16) (n : Nat) : Prop where
  bytes : ctrlBytes w = n
  legal : ctrlReserved w = false
  incrRead : ctrlIncrRead w = true
  incrWrite : ctrlIncrWrite w = false
  chain : ctrlChainTo w = .a2
  pace : ∀ s : State, paced s w = s.dqHasRoom

theorem isA1Word_w4 : IsA1Word ctrlA1W4 4 := ⟨by decide, by decide, by decide, by decide, by decide, fun _ => rfl⟩
theorem isA1Word_w2 : IsA1Word ctrlA1W2 2 := ⟨by decide, by decide, by decide, by decide, by decide, fun _ => rfl⟩
theorem isA1Word_w1 : IsA1Word ctrlA1W1 1 := ⟨by decide, by decide, by decide, by decide, by decide, fun _ => rfl⟩

/-- ENGINE_SETUP gives A1 the word of its transfer size (42_transfer_engine R173). -/
theorem isA1Word_ctrlA1 {p : Params} (hl : ParamsLegal p) : IsA1Word (ctrlA1 p) p.wA := by
  unfold ctrlA1
  rcases transferSize_of_legal hl with h | h | h <;> rw [h]
  · exact isA1Word_w1
  · exact isA1Word_w2
  · exact isA1Word_w4

theorem IsA1Word.transfer {w : BitVec 16} {s : State} (h : IsA1Word w s.par.wA) (hm : MapLegal s.par)
    (hw : s.par.wA = 1 ∨ s.par.wA = 2 ∨ s.par.wA = 4) (hb : s.a1.busy = true) (hroom : s.dq.length < s.par.qdData)
    (hrd : Readable s.par s.a1.readAddr s.par.wA) (hwr : s.a1.writeAddr = s.par.dataTxf) :
    transfer .a1 w s = .next { s with
      dq := s.dq ++ [BitVec.ofNat 32 (memNat s.par s.mem s.a1.readAddr.toNat s.par.wA)]
      a1 := streamed s.a1 s.par.wA, a2 := triggeredBy (decide (s.a1.remain = 1)) s.a2 } :=
  transfer_a1 hm hw h.bytes h.legal h.incrRead h.incrWrite h.chain (h.pace s) hb hroom hrd hwr

/-- A word of a re-arm channel: 4 bytes, no increment, no pacing, chained to the channel it re-arms (30_encoding R97). -/
structure IsRearmWord (w : BitVec 16) (d : Chan) : Prop where
  bytes : ctrlBytes w = 4
  legal : ctrlReserved w = false
  incrRead : ctrlIncrRead w = false
  incrWrite : ctrlIncrWrite w = false
  chain : ctrlChainTo w = d
  pace : ∀ s : State, paced s w = true

theorem isRearmWord_a2 : IsRearmWord ctrlA2 .a1 := ⟨by decide, by decide, by decide, by decide, by decide, fun _ => rfl⟩
theorem isRearmWord_b2 : IsRearmWord ctrlB2 .b1 := ⟨by decide, by decide, by decide, by decide, by decide, fun _ => rfl⟩

theorem IsRearmWord.transfer {s : State} {c d : Chan} {w : BitVec 16} (h : IsRearmWord w d) (hm : MapLegal s.par)
    (hne : d ≠ c) (hb : (s.chan c).busy = true) (hrd : Readable s.par (s.chan c).readAddr 4)
    (hwr : (s.chan c).writeAddr = readAddrAddr s.par d) :
    transfer c w s = .next ((s.setChan c (counted (s.chan c))).setChan d (triggeredBy (decide ((s.chan c).remain = 1))
      { s.chan d with readAddr := BitVec.ofNat 32 (memNat s.par s.mem (s.chan c).readAddr.toNat 4) })) :=
  transfer_rearm hm h.bytes h.legal h.incrRead h.incrWrite h.chain (h.pace s) hne hb hrd hwr

/-- Settles O28: the three words of A1 differ in their size only. -/
theorem a1StreamsAWord : Obligations.A1StreamsAWord := by
  intro i n s hi hm hn hb hroom hrd hwr
  have hw : ∃ w, IsA1Word w n ∧ exec i s = transfer .a1 w s := by
    rcases hi with ⟨rfl, rfl⟩ | ⟨rfl, rfl⟩ | ⟨rfl, rfl⟩
    · exact ⟨_, isA1Word_w4, rfl⟩
    · exact ⟨_, isA1Word_w2, rfl⟩
    · exact ⟨_, isA1Word_w1, rfl⟩
  have hsize : n = 1 ∨ n = 2 ∨ n = 4 := by omega
  obtain ⟨w, hw, hx⟩ := hw
  subst hn
  exact ⟨_, _, hx.trans (hw.transfer hm hsize hb hroom hrd hwr), memNat_wordOf _ _ (by omega), fun _ => rfl, rfl⟩

/-- Settles O29. -/
theorem b1StreamsADelay : Obligations.B1StreamsADelay := by
  intro s hm hb hroom hrd hwr
  exact ⟨_, _, transfer_b1 hm hb hroom hrd hwr, memNat_wordOf _ _ (by omega), fun _ => rfl, rfl⟩

/-- Settles O30: `READ_ADDR` of A1 and of B1 are the registers at `DMA_BASE` and `DMA_BASE + 32`. -/
theorem rearmChannelsCopyThePointer : Obligations.RearmChannelsCopyThePointer := by
  intro s hm
  refine ⟨fun hb hrd hwr => ?_, fun hb hrd hwr => ?_⟩
  · have ha : s.a2.writeAddr = readAddrAddr s.par .a1 := hwr.trans (BitVec.add_zero _).symm
    exact ⟨_, _, isRearmWord_a2.transfer (c := .a2) hm nofun hb hrd ha, memNat_wordOf _ _ (by omega), fun _ => rfl, rfl⟩
  · exact ⟨_, _, isRearmWord_b2.transfer (c := .b2) hm nofun hb hrd hwr, memNat_wordOf _ _ (by omega), fun _ => rfl, rfl⟩

/-! ### No turn faults (42_transfer_engine R185) -/

theorem exists_next_ite {c : Prop} [Decidable c] {r q : Result} (hr : ∃ t, r = .next t) (hq : ∃ t, q = .next t) :
    ∃ t, (if c then r else q) = .next t := by
  split
  · exact hr
  · exact hq

theorem ite_ne_fault {c : Prop} [Decidable c] {r q : Result} {f : Fault} (hr : r ≠ .fault f) (hq : q ≠ .fault f) :
    (if c then r else q) ≠ .fault f := by
  split
  · exact hr
  · exact hq

/-- Under the invariants a busy channel has its programmed word, target and source, so its step goes on. -/
theorem transfer_goes_on {s : State} (hr : RenderInv s) (hi : ChannelInv s) (c : Chan) :
    ∃ t, transfer c (s.chan c).ctrl s = .next t := by
  cases hb : (s.chan c).busy with
  | false => exact ⟨s, by simp [transfer, hb]⟩
  | true =>
    have he : s.engine = .running := by
      by_contra hno
      obtain ⟨i1, i2, i3, i4⟩ := hi.idle hno
      cases c <;> simp_all
    have hne : s.engine ≠ .off := by rw [he]; decide
    have hl := hr.legal
    have hm := mapLegal_of_legal hl
    obtain ⟨⟨wa1, -, ra2, wa2, -⟩, ca1, ca2, cb1, cb2, wb1, -, rb2, wb2, -⟩ := hi.fixed hne
    obtain ⟨pa, pb⟩ := hi.pairs he
    obtain ⟨rfb, rdl⟩ := readable_ptr hl
    cases hen : chanEnabled c s with
    | false =>
      refine ⟨s, transfer_waits hen ?_⟩
      cases c
      · exact ca1 ▸ (isA1Word_ctrlA1 hl).legal
      · exact ca2 ▸ isRearmWord_a2.legal
      · rw [chan_b1, cb1]; decide
      · exact cb2 ▸ isRearmWord_b2.legal
    | true =>
      rw [chanEnabled_iff hi he] at hen
      cases c <;> simp only at hen
      · obtain ⟨hb, hroom⟩ := hen
        have h2 : s.a2.busy = false := by simpa [hb] using pa
        exact ⟨_, ca1 ▸ (isA1Word_ctrlA1 hl).transfer hm (transferSize_of_legal hl) hb hroom
          (readable_a1 hl (hi.passA hne h2)) wa1⟩
      · exact ⟨_, ca2 ▸ isRearmWord_a2.transfer (c := .a2) hm nofun hen (by rw [chan_a2, ra2]; exact rfb) wa2⟩
      · obtain ⟨hb, hroom⟩ := hen
        have h2 : s.b2.busy = false := by simpa [hb] using pb
        exact ⟨_, cb1 ▸ transfer_b1 hm hb hroom (readable_b1 hl (hi.passB hne h2)) wb1⟩
      · exact ⟨_, cb2 ▸ isRearmWord_b2.transfer (c := .b2) hm nofun hen (by rw [chan_b2, rb2]; exact rdl) wb2⟩

theorem dseq_goes_on (s : State) : ∃ t, exec s.dseq.state.instr s = .next t := by
  cases s.dseq.state with
  | off => exact ⟨_, rfl⟩
  | loadWidth => exact ⟨_, rfl⟩
  | shiftColumn =>
    cases hf : refill s with
    | none => exact ⟨s, by simp [DState.instr, exec, execDShiftColumn, hf]⟩
    | some u => exact ⟨_, by simp only [DState.instr, exec, execDShiftColumn, hf]; rfl⟩
  | awaitNextRow => exact exists_next_ite ⟨_, rfl⟩ ⟨_, rfl⟩

theorem rseq_goes_on (s : State) : ∃ t, exec s.rseq.state.instr s = .next t := by
  cases s.rseq.state with
  | awaitData | awaitTimingDone => exact exists_next_ite ⟨_, rfl⟩ ⟨_, rfl⟩
  | next => exact exists_next_ite ⟨_, rfl⟩ (exists_next_ite ⟨_, rfl⟩ ⟨_, rfl⟩)
  | off | loadRowCount | loadPlaneCount | setAddress | latch | signalTiming => exact ⟨_, rfl⟩

theorem oseq_goes_on (s : State) : ∃ t, exec s.oseq.state.instr s = .next t := by
  cases s.oseq.state with
  | off | signalDone => exact ⟨_, rfl⟩
  | loadDelay =>
    cases hq : s.oq with
    | nil => exact ⟨s, oLoadDelay_waits hq⟩
    | cons d q => exact ⟨_, by simp only [OState.instr, exec, execOLoadDelay, hq]; rfl⟩
  | awaitTimingStart => exact exists_next_ite ⟨_, rfl⟩ ⟨_, rfl⟩
  | hold =>
    exact exists_next_ite (exists_next_ite ⟨_, rfl⟩ ⟨_, rfl⟩) (exists_next_ite ⟨_, rfl⟩ ⟨_, rfl⟩)

theorem agentStep_goes_on {s : State} (hr : RenderInv s) (hi : ChannelInv s) (a : Agent) :
    ∃ t, agentStep a s = .next t := by
  cases a with
  | render => exact ⟨_, rfl⟩
  | chan c =>
    obtain ⟨t, ht⟩ := transfer_goes_on hr hi c
    exact ⟨t, (channelStep_eq c s).trans ht⟩
  | dseq => exact dseq_goes_on s
  | rseq => exact rseq_goes_on s
  | oseq => exact oseq_goes_on s

/-- Only channels fault: a command goes on or is refused (60_exceptions R251). -/
theorem command_ne_fault {i : Instr} (hc : isCommand i = true) (s : State) (f : Fault) : exec i s ≠ .fault f := by
  have hidle {r : Result} (h : r ≠ .fault f) : whenIdle s r ≠ .fault f := ite_ne_fault nofun h
  have hattached {r : Result} (h : r ≠ .fault f) : whenAttached s r ≠ .fault f := ite_ne_fault nofun h
  cases i
  case init | engineStart => exact hidle (ite_ne_fault nofun nofun)
  case configure => exact ite_ne_fault (hidle (ite_ne_fault nofun nofun)) nofun
  case engineSetup | setPixel => exact hidle (hattached (ite_ne_fault nofun nofun))
  case clear | commit | getActiveBufferPtr | getDelayPtr => exact hidle (hattached nofun)
  case getFbPtrAddr | getDelayPtrAddr | gammaCorrect => exact hidle nofun
  case reservedOp0 | reservedOpD | reservedOpE | reservedOpF => exact nofun
  all_goals cases hc

theorem portStep_ne_fault (w : BitVec 64) (s : State) (f : Fault) : portStep w s ≠ .fault f := by
  cases hd : decodeCmd w with
  | error r => rw [portStep_of_rejects hd]; exact nofun
  | ok i => rw [portStep_of_decodes hd]; exact command_ne_fault (decodeCmd_isCommand hd).1 s f

/-- Settles O52: the turn of an agent goes on under the invariants, and a command never faults. -/
theorem engineNeverFaults : Obligations.EngineNeverFaults := by
  intro s hr hi
  refine ⟨agentStep_goes_on hr hi, fun f => ?_⟩
  obtain ⟨e, he⟩ := nextTurn_state s
  have hru : RenderInv { s with env := e } := seq_renderInv hr
  have hiu : ChannelInv { s with env := e } := hi.congr rfl rfl rfl rfl rfl rfl ⟨rfl, rfl⟩ id
  rw [step, he]
  cases (nextTurn s).1 with
  | issue w => exact portStep_ne_fault w _ f
  | agent a =>
    obtain ⟨t, ht⟩ := agentStep_goes_on hru hiu a
    rw [runTurn, ht]
    exact nofun

end Sys2Proof.Machine
end

section
/-! PROOFS. What a turn can do in a state that meets the invariants of the core, said once for the three streams: the step of
a channel or sequencer, or a move of the render domain. -/

namespace Sys2Proof.Machine

/-! ### The moves of the render domain (42_transfer_engine R172, R174) -/

/-- What a command or a step of RENDER does to the engine: nothing, one of ENGINE_SETUP's two events, or ENGINE_START. -/
abbrev RenderMove (s t : State) : Prop :=
  (∃ cfg r g b act m rp, t = { s with
    cfg := cfg, lutR := r, lutG := g, lutB := b, active := act, mem := m, render := rp }) ∨
  (s.engine = .off ∧ ∃ x1 x2 y1 y2 rows planes en rp, en ≠ .running ∧ t = { s with
    a1 := x1, a2 := x2, b1 := y1, b2 := y2, rseq := { s.rseq with rowsM1 := rows, planesM1 := planes }
    engine := en, render := rp }) ∨
  (s.engine = .setup ∧ t = completeCommand none (startEngine s))

theorem setupPairA_renderMove {s : State} (he : s.engine = .off) (rp : RenderPort) :
    RenderMove s (setupPairA { s with render := rp }) :=
  .inr (.inl ⟨he, _, _, _, _, _, _, _, _, by rw [he]; decide, rfl⟩)

theorem setupPairB_renderMove {s : State} (he : s.engine = .off) (rp : RenderPort) :
    RenderMove s (setupPairB { s with render := rp }) :=
  .inr (.inl ⟨he, _, _, _, _, _, _, _, _, by decide, rfl⟩)

/-- An event that is not ENGINE_SETUP's leaves the engine as it is. -/
theorem perform_renderMove {s : State} {e : MemEvent} (ha : e ≠ .setupPairA) (hb : e ≠ .setupPairB) (act : Bool)
    (rp : RenderPort) : RenderMove s (perform e { s with active := act, render := rp }) := by
  obtain ⟨m, r, hf⟩ := perform_frame (s := { s with active := act, render := rp }) ha hb
  exact .inl ⟨_, _, _, _, _, _, _, hf⟩

theorem beginCommand_renderMove (i : Instr) {s : State} {e : MemEvent} {es : List MemEvent} (act : Bool) (rp : RenderPort)
    (ha : e ≠ .setupPairA) (hb : e ≠ .setupPairB) :
    RenderMove s (beginCommand i (e :: es) { s with active := act, render := rp }) :=
  perform_renderMove ha hb act { rp with inFlight := inFlightOf i es, ret := none }

theorem command_renderMove {i : Instr} {s t : State} (hc : isCommand i = true) (h : exec i s = .next t) :
    RenderMove s t := by
  obtain ⟨-, ⟨r, rfl⟩ | ⟨c, -, rfl⟩ | ⟨he, rfl⟩ | ⟨-, -, rfl⟩ |
    ⟨-, ⟨x, y, color, -, -, rfl⟩ | rfl | rfl | ⟨a, rfl⟩ | ⟨he, rfl⟩⟩⟩ := command_next hc h
  case inl | inr.inl => exact .inl ⟨_, _, _, _, _, _, _, rfl⟩
  case inr.inr.inl => exact .inr (.inr ⟨he, rfl⟩)
  case inr.inr.inr.inr.inr.inr.inr.inr => exact setupPairA_renderMove he _
  all_goals refine beginCommand_renderMove _ _ _ ?_ ?_ <;> exact nofun

theorem renderEvent_renderMove {s : State} (hr : RenderInv s) : RenderMove s (renderEvent s) := by
  cases hf : s.render.inFlight with
  | none => rw [renderEvent_idle hf]; exact .inl ⟨_, _, _, _, _, _, _, rfl⟩
  | some f =>
    have hp : s.pending = f.event :: f.later := by simp [State.pending, hf]
    rw [renderEvent_busy hf]
    rcases hr.command with hn | ⟨ha, -⟩ | ⟨hs, he, -⟩ | ⟨-, -, -, hd⟩
    · rw [hp] at hn
      cases hn
    · obtain ⟨hev, -⟩ := List.cons.inj (hp.symm.trans ha)
      rw [hev]
      refine perform_renderMove ?_ ?_ _ _ <;> exact nofun
    · obtain ⟨hev, -⟩ := List.cons.inj (hp.symm.trans hs)
      rw [hev]
      exact setupPairB_renderMove he _
    · have hev := hd f.event (hp ▸ List.mem_cons_self)
      refine perform_renderMove (fun e => ?_) (fun e => ?_) _ _
      · rw [e] at hev; exact hev
      · rw [e] at hev; exact hev

/-! ### Turns -/

/-- A turn that goes on is a step of a channel or of a sequencer, or it is the render domain's and A1 reads nothing. -/
theorem turn_cases {s t : State} {turn : Turn} (hr : RenderInv s) (h : runTurn turn s = .next t) :
    (∃ c, turn = .agent (.chan c) ∧ transfer c (s.chan c).ctrl s = .next t) ∨
    (turn = .agent .dseq ∧ exec s.dseq.state.instr s = .next t) ∨
    (turn = .agent .rseq ∧ exec s.rseq.state.instr s = .next t) ∨
    (turn = .agent .oseq ∧ exec s.oseq.state.instr s = .next t) ∨
    (bytesTaken turn s = [] ∧ RenderMove s t) := by
  cases turn with
  | issue w =>
    cases hd : decodeCmd w with
    | error r =>
      rw [runTurn, portStep_of_rejects hd] at h
      cases h
    | ok i =>
      rw [runTurn, portStep_of_decodes hd] at h
      exact .inr (.inr (.inr (.inr ⟨rfl, command_renderMove (decodeCmd_isCommand hd).1 h⟩)))
  | agent a =>
    cases a with
    | render =>
      cases h
      exact .inr (.inr (.inr (.inr ⟨rfl, renderEvent_renderMove hr⟩)))
    | chan c => exact .inl ⟨c, rfl, (channelStep_eq c s).symm.trans h⟩
    | dseq => exact .inr (.inl ⟨rfl, h⟩)
    | rseq => exact .inr (.inr (.inl ⟨rfl, h⟩))
    | oseq => exact .inr (.inr (.inr (.inl ⟨rfl, h⟩)))

/-- The invariants of the core do not speak of the environment. -/
theorem CoreInv.with_env {s : State} (h : CoreInv s) (e : Env) : CoreInv { s with env := e } where
  render := seq_renderInv h.render
  handshake := h.handshake.congr rfl rfl rfl rfl rfl rfl h.handshake.setup
  channels := h.channels.congr rfl rfl rfl rfl rfl rfl ⟨rfl, rfl⟩ id
  counters := h.counters.congr rfl rfl rfl rfl rfl
  stream := h.stream.congr rfl rfl rfl rfl rfl rfl (fun _ => rfl) rfl rfl rfl
  delays := h.delays.congr rfl rfl rfl rfl rfl rfl (fun _ => rfl) (fun _ => rfl) rfl rfl

/-- A step is its turn, taken in a state that meets the invariants too. -/
theorem CoreInv.step_turn {s t : State} (h : CoreInv s) (hs : step s = .next t) :
    ∃ e, CoreInv { s with env := e } ∧ runTurn (nextTurn s).1 { s with env := e } = .next t := by
  obtain ⟨e, he⟩ := nextTurn_state s
  exact ⟨e, h.with_env e, by rw [← he]; exact hs⟩

/-! ### Sequencers that are off (43_sequencers R200) -/

theorem inert_waits {s : State} (h : Inert s) : exec s.dseq.state.instr s = .next s ∧
    exec s.rseq.state.instr s = .next s ∧ exec s.oseq.state.instr s = .next s := by
  obtain ⟨hd, hr, ho, -⟩ := h
  rw [hd, hr, ho]
  exact ⟨rfl, rfl, rfl⟩

theorem running_of_move {s t : State} {r : Result} (hw : s.engine ≠ .running → r = .next s) (h : r = .next t) :
    t = s ∨ s.engine = .running := by
  by_cases he : s.engine = .running
  · exact .inr he
  · exact .inl (Host.Outcome.next.inj ((hw he).symm.trans h)).symm

theorem dseq_running {s t : State} (hi : HandshakeInv s) (h : exec s.dseq.state.instr s = .next t) :
    t = s ∨ s.engine = .running :=
  running_of_move (fun he => (inert_waits (hi.inert he)).1) h

theorem rseq_running {s t : State} (hi : HandshakeInv s) (h : exec s.rseq.state.instr s = .next t) :
    t = s ∨ s.engine = .running :=
  running_of_move (fun he => (inert_waits (hi.inert he)).2.1) h

theorem oseq_running {s t : State} (hi : HandshakeInv s) (h : exec s.oseq.state.instr s = .next t) :
    t = s ∨ s.engine = .running :=
  running_of_move (fun he => (inert_waits (hi.inert he)).2.2) h

/-! ### Where the tokens are (43_sequencers R232) -/

/-- Before the timing of a plane is signalled, the one before it is not signalled as done any more. -/
theorem signalTiming_not_done {s : State} (h : Tokens s) (hs : s.rseq.state = .signalTiming) : s.flags.td = false := by
  obtain ⟨-, -, -, -, hwait, -⟩ := h
  by_contra hf
  have := hwait.2 (.inr (.inr (by simpa using hf)))
  rw [hs] at this
  cases this

/-- While a hold is on, the row sequencer waits for its end, which is not signalled yet. -/
theorem holding_awaits {s : State} (h : Tokens s) (hh : holding s) :
    s.rseq.state = .awaitTimingDone ∧ s.flags.td = false := by
  obtain ⟨-, -, -, -, hwait, -, hrest⟩ := h
  refine ⟨hwait.2 (.inr (.inl hh)), ?_⟩
  by_contra hf
  rcases hrest (.inr (by simpa using hf)) with hr | hr <;> rcases hh with hh | hh <;> rw [hh] at hr <;> cases hr

/-- A hold that is to begin is waited for, and the one before it is not signalled any more. -/
theorem started_awaits {s : State} (h : Tokens s) (hts : s.flags.ts = true) :
    s.rseq.state = .awaitTimingDone ∧ s.flags.td = false := by
  obtain ⟨-, -, -, -, hwait, hone, -⟩ := h
  exact ⟨hwait.2 (.inl hts), by simpa [hts] using hone⟩

/-- While it waits for a hold the row sequencer works on a row and a plane of the frame. -/
theorem row_and_plane_waiting {s : State} (h : CoreInv s) (he : s.engine = .running)
    (hw : s.rseq.state = .awaitTimingDone) :
    s.rseq.rowIndex.toNat < s.par.activeRows ∧ s.rseq.planeIndex.toNat < s.par.colorBits := by
  obtain ⟨-, -, -, -, hrow, hplane⟩ :=
    row_and_plane h.render h.channels h.stream he (by simp [hw]) (by simp [hw]) (by simp [hw])
  exact ⟨hrow, hplane⟩

end Sys2Proof.Machine
end

section
/-! PROOFS. The pixel stream (42_transfer_engine R183, 43_sequencers R231): every step keeps the bytes A1 has read aligned with
the lines and columns shifted. -/

namespace Sys2Proof.Machine

/-! ### Numbers of a frame -/

/-- A line is a number below 2^32. -/
theorem width_bounds {p : Params} (hl : ParamsLegal p) : 1 ≤ p.width ∧ p.width < 2 ^ 32 := by
  obtain ⟨-, -, -, -, -, hf⟩ := pass_facts hl
  obtain ⟨hrows, -⟩ := activeRows_of_legal hl
  obtain ⟨hbits, -⟩ := colorBits_of_legal hl
  have hlines : 1 * p.width ≤ p.activeRows * p.colorBits * p.width :=
    Nat.mul_le_mul_right _ (Nat.mul_pos hrows hbits)
  refine ⟨hl.1, ?_⟩
  unfold Params.frameSize at hf
  omega

/-! ### Columns (43_sequencers R201, R202) -/

/-- The columns shifted depend on the data sequencer, and on whether its line is released. -/
theorem columnsDone_congr {s t : State} (hp : t.par = s.par) (hd : t.dseq = s.dseq)
    (hr : (t.flags.ras = true ∨ t.rseq.state = .signalTiming) ↔ (s.flags.ras = true ∨ s.rseq.state = .signalTiming)) :
    columnsDone t = columnsDone s := by
  simp only [columnsDone, hp, hd, hr]

/-- While the data sequencer shifts, no line is waiting to be released. -/
theorem shifting_not_released {s : State} (h : Tokens s) (hs : s.dseq.state ≠ .awaitNextRow) :
    ¬(s.flags.ras = true ∨ s.rseq.state = .signalTiming) := by
  obtain ⟨-, hlatch, -, hline, -⟩ := h
  rintro (hr | hr)
  · exact hs (hline (.inr hr))
  · obtain ⟨hd, -⟩ := hlatch.1 (.inr hr)
    exact hs hd

/-- What D_LOAD_WIDTH loads into `COL` (43_sequencers R201). -/
theorem lastColumn_toNat {p : Params} (hl : ParamsLegal p) : (BitVec.ofNat 32 (p.width - 1)).toNat = p.width - 1 := by
  obtain ⟨-, hlt⟩ := width_bounds hl
  rw [BitVec.toNat_ofNat]
  exact Nat.mod_eq_of_lt (by omega)

/-- When the row sequencer is about to latch, the whole line is shifted (43_sequencers R231 (a)). -/
theorem columnsDone_latch {s : State} (h : Tokens s) (hs : s.rseq.state = .latch) : columnsDone s = s.par.width := by
  obtain ⟨-, hlatch, -⟩ := h
  obtain ⟨hd, -, hras⟩ := hlatch.1 (.inl hs)
  simp [columnsDone, hd, hras, hs]

/-- Taking a byte needs a byte to be there; refilling `OSR` moves `W_A` bytes from `DQ` (43_sequencers R202). -/
theorem Fetched.count {s : State} {word : Word} {left : Nat} {q : List Word} (hw : 1 ≤ s.par.wA)
    (h : Fetched s word left q) : 1 ≤ left ∧ left + s.par.wA * q.length = s.dseq.osrLeft + s.par.wA * s.dq.length := by
  rcases h with ⟨h0, hq, rfl⟩ | ⟨h0, rfl, -, rfl⟩
  · exact ⟨hw, by rw [h0, hq, List.length_cons]; ring⟩
  · exact ⟨by omega, rfl⟩

/-! ### Lines (43_sequencers R210 to R218) -/

theorem one_le_toNat {x : Word} (h : x ≠ 0) : 1 ≤ x.toNat :=
  Nat.one_le_iff_ne_zero.2 fun e => h (BitVec.eq_of_toNat_eq e)

theorem sub_self_toNat (x : Word) : (x - x).toNat = 0 := by rw [BitVec.sub_self]; rfl

/-- Counting a loop counter down moves its index up. -/
theorem index_pred {m x : Word} (hx : x ≠ 0) (hle : x.toNat ≤ m.toNat) :
    (x - 1).toNat ≤ m.toNat ∧ (m - (x - 1)).toNat = (m - x).toNat + 1 := by
  have hpos : 1 ≤ x.toNat := one_le_toNat hx
  have hsub := toNat_sub_one hpos
  have hle' : (x - 1).toNat ≤ m.toNat := by omega
  refine ⟨hle', ?_⟩
  rw [word_sub_toNat hle', word_sub_toNat hle]
  omega

/-- Every step of the row sequencer keeps its counters in range. -/
theorem rseq_loopCounters {s t : State} (h : LoopCounters s) (hx : exec s.rseq.state.instr s = .next t) :
    LoopCounters t := by
  rcases rseq_next hx with rfl | ⟨hs, rfl⟩ | ⟨hs, rfl⟩ | ⟨hs, rfl⟩ | ⟨hs, -, rfl⟩ | ⟨hs, rfl⟩ | ⟨hs, rfl⟩ | ⟨hs, -, rfl⟩ |
    ⟨hs, hp, rfl⟩ | ⟨hs, -, hr, rfl⟩ | ⟨hs, -, -, rfl⟩
  case inl => exact h
  all_goals simp only [LoopCounters, hs] at h
  · exact Nat.le_refl _
  · exact ⟨h, Nat.le_refl _⟩
  iterate 5 exact h
  · exact ⟨h.1, (index_pred hp h.2).1⟩
  · exact (index_pred hr h.1).1
  · exact trivial

/-- A step of the row sequencer other than the latch leaves the line of the data sequencer, modulo the lines of a pass. -/
theorem rseq_dataLine {s t : State} (h : CoreInv s) (he : s.engine = .running) (hl : s.rseq.state ≠ .latch)
    (hx : exec s.rseq.state.instr s = .next t) : dataLine t ≡ dataLine s [MOD passLines s.par] := by
  have hcount := row_and_plane h.render h.channels h.stream he
  rcases rseq_next hx with rfl | ⟨hs, rfl⟩ | ⟨hs, rfl⟩ | ⟨hs, rfl⟩ | ⟨hs, -, rfl⟩ | ⟨hs, rfl⟩ | ⟨hs, rfl⟩ | ⟨hs, -, rfl⟩ |
    ⟨hs, hp, rfl⟩ | ⟨hs, hp, hr, rfl⟩ | ⟨hs, hp, hr, rfl⟩
  case inl => rfl
  case inr.inr.inr.inr.inr.inl => exact absurd hs hl
  all_goals simp only [dataLine, rowLine, RSeq.rowIndex, RSeq.planeIndex, hs, sub_self_toNat]
  · rw [Nat.zero_mul]
  · rfl
  iterate 4 rfl
  all_goals
    obtain ⟨hrow, hplane, hrows, hplanes, -, -⟩ := hcount (by simp [hs]) (by simp [hs]) (by simp [hs])
  · obtain ⟨-, hidx⟩ := index_pred hp hplane
    rw [hidx, Nat.add_assoc]
  all_goals
    have hlast : (s.rseq.planesM1 - s.rseq.plane).toNat + 1 = s.par.colorBits := by
      rw [hp, sub_zero, hplanes]
  · obtain ⟨-, hidx⟩ := index_pred hr hrow
    rw [hidx, Nat.succ_mul, Nat.add_assoc, hlast]
  · have hall : (s.rseq.rowsM1 - s.rseq.row).toNat + 1 = s.par.activeRows := by rw [hr, sub_zero, hrows]
    have hpass : (s.rseq.rowsM1 - s.rseq.row).toNat * s.par.colorBits + (s.rseq.planesM1 - s.rseq.plane).toNat + 1 =
        passLines s.par := by
      rw [Nat.add_assoc, hlast, ← Nat.succ_mul, Nat.succ_eq_add_one, hall, passLines]
    rw [hpass]
    exact (Nat.mod_self _).symm ▸ Nat.zero_mod _

/-- Nor does it change the columns shifted of that line. -/
theorem rseq_columnsDone {s t : State} (hl : s.rseq.state ≠ .latch) (hx : exec s.rseq.state.instr s = .next t) :
    columnsDone t = columnsDone s := by
  rcases rseq_next hx with rfl | ⟨hs, rfl⟩ | ⟨hs, rfl⟩ | ⟨hs, rfl⟩ | ⟨hs, -, rfl⟩ | ⟨hs, rfl⟩ | ⟨hs, rfl⟩ | ⟨hs, -, rfl⟩ |
    ⟨hs, -, rfl⟩ | ⟨hs, -, -, rfl⟩ | ⟨hs, -, -, rfl⟩
  case inl => rfl
  case inr.inr.inr.inr.inr.inl => exact absurd hs hl
  all_goals exact columnsDone_congr rfl rfl (by simp [hs])

/-- What the latch does (43_sequencers R215). -/
theorem latch_next {s t : State} (hl : s.rseq.state = .latch) (hx : exec s.rseq.state.instr s = .next t) :
    t.rseq = { s.rseq with state := .signalTiming } ∧ t.trace = s.trace ++ [.lat true, .lat false] ∧
      t.pins = { s.pins with lat := false } := by
  rw [hl] at hx
  cases hx
  exact ⟨rfl, rfl, rfl⟩

/-- The latch ends a line: the next one has no column yet (43_sequencers R215, R230). -/
theorem latch_line {s t : State} (hs : s.rseq.state = .latch) (hr : t.rseq = { s.rseq with state := .signalTiming })
    (hp : t.par = s.par) (hd : t.dseq.state = .awaitNextRow) : dataLine t = dataLine s + 1 ∧ columnsDone t = 0 := by
  constructor
  · simp only [dataLine, rowLine, hr, hs, hp, RSeq.rowIndex, RSeq.planeIndex]
  · simp [columnsDone, hd, hr]

/-- A step of the row sequencer other than the latch puts nothing on the trace, or the row address it sets. -/
theorem rseq_quiet {s t : State} (hl : s.rseq.state ≠ .latch) (hx : exec s.rseq.state.instr s = .next t) :
    (t.trace = s.trace ∧ t.pins = s.pins) ∨
    ∃ a, t.trace = s.trace ++ [.addr a] ∧ t.pins = { s.pins with addr := a } := by
  rcases rseq_next hx with rfl | ⟨hs, rfl⟩ | ⟨hs, rfl⟩ | ⟨hs, rfl⟩ | ⟨hs, -, rfl⟩ | ⟨hs, rfl⟩ | ⟨hs, rfl⟩ | ⟨hs, -, rfl⟩ |
    ⟨hs, -, rfl⟩ | ⟨hs, -, -, rfl⟩ | ⟨hs, -, -, rfl⟩
  case inr.inr.inr.inl => exact .inr ⟨_, rfl, rfl⟩
  case inr.inr.inr.inr.inr.inl => exact absurd hs hl
  all_goals exact .inl ⟨rfl, rfl⟩

/-! ### Bytes read (42_transfer_engine R180, R181) -/

/-- Inside a pass A1 has read a whole number of words. -/
theorem bytesRead_streaming {s : State} (hb : s.a2.busy = false) (h : InPass s) :
    s.a1.remain.toNat ≠ 0 ∧ bytesRead s + s.a1.remain.toNat * s.par.wA = s.par.frameSize / s.par.wA * s.par.wA := by
  have hk : s.a1.remain.toNat ≠ 0 ∧ s.a1.remain.toNat ≤ s.par.frameSize / s.par.wA := by
    obtain ⟨k, -, ⟨hlt, hsum, -⟩ | ⟨hlt, hsum, -⟩⟩ := h <;> omega
  obtain ⟨h0, hle⟩ := hk
  refine ⟨h0, ?_⟩
  rw [bytesRead, hb, if_neg (by decide), ← Nat.add_mul, Nat.sub_add_cancel hle]

/-- A transfer of A1 reads one word; after the last one of a pass nothing is read of the next. -/
theorem bytesRead_a1 {s t : State} (hl : ParamsLegal s.par) (h2 : s.a2.busy = false) (h : InPass s) (hp : t.par = s.par)
    (h1 : t.a1 = streamed s.a1 s.par.wA) (h2' : t.a2.busy = decide (s.a1.remain = 1)) :
    bytesRead t ≡ bytesRead s + s.par.wA [MOD s.par.frameSize] := by
  obtain ⟨-, -, hdiv, -⟩ := pass_facts hl
  obtain ⟨h0, hsum⟩ := bytesRead_streaming h2 h
  rw [hdiv] at hsum
  by_cases hlast : s.a1.remain = 1
  · have ht : bytesRead t = 0 := by simp [bytesRead, h2', hlast]
    have hs : bytesRead s + s.par.wA = s.par.frameSize := by
      rw [word_eq_one.1 hlast, Nat.one_mul] at hsum
      exact hsum
    rw [ht, hs]
    exact (Nat.zero_mod _).trans (Nat.mod_self _).symm
  · have hb : t.a2.busy = false := h2'.trans (decide_eq_false hlast)
    have hpass := inPass_next hl h hlast hp h1
    obtain ⟨-, hsum'⟩ := bytesRead_streaming hb hpass
    have hr : t.a1.remain.toNat + 1 = s.a1.remain.toNat := by
      have hsub : t.a1.remain = s.a1.remain - 1 := by rw [h1]; exact if_neg hlast
      rw [hsub, toNat_sub_one (by omega)]
      omega
    rw [hp, hdiv] at hsum'
    rw [← hr, Nat.add_mul, Nat.one_mul] at hsum
    have : bytesRead t = bytesRead s + s.par.wA := by omega
    rw [this]

/-- A2 and ENGINE_SETUP leave A1 at the start of a pass. -/
theorem bytesRead_start {s : State} (hl : ParamsLegal s.par) (h : s.a1.remain = a1Count s.par) : bytesRead s = 0 := by
  rw [bytesRead, h, a1Count_toNat hl, Nat.sub_self, Nat.zero_mul, ite_self]

/-! ### The invariant under each move -/

/-- The invariant while the engine runs. -/
theorem StreamInv.of_aligned {s : State} (he : s.engine = .running)
    (column : s.dseq.state = .shiftColumn → s.dseq.col.toNat < s.par.width) (counters : LoopCounters s)
    (aligned : bytesRead s ≡ dataLine s * s.par.width + columnsDone s + s.dseq.osrLeft + s.par.wA * s.dq.length
      [MOD s.par.frameSize])
    (clocks : clocksSinceLatch s.trace = columnsDone s) : StreamInv s :=
  ⟨fun hn => absurd he hn, column, counters, fun _ => aligned, clocks⟩

/-- The bytes of the lines and columns shifted, in `OSR` and in `DQ`. -/
abbrev bytesPlaced (s : State) : Nat :=
  dataLine s * s.par.width + columnsDone s + s.dseq.osrLeft + s.par.wA * s.dq.length

/-- A move of a sequencer: A1 reads nothing, and the bytes it has read are placed elsewhere. -/
theorem StreamInv.placed {s t : State} (h : StreamInv s) (he : s.engine = .running) (hp : t.par = s.par)
    (hen : t.engine = s.engine) (h1 : t.a1 = s.a1) (h2 : t.a2 = s.a2)
    (column : t.dseq.state = .shiftColumn → t.dseq.col.toNat < s.par.width) (counters : LoopCounters t)
    (hbytes : bytesPlaced t ≡ bytesPlaced s [MOD s.par.frameSize])
    (clocks : clocksSinceLatch t.trace = columnsDone t) : StreamInv t := by
  have hread : bytesRead t = bytesRead s := by simp only [bytesRead, h1, h2, hp]
  have halign : bytesRead s ≡ bytesPlaced s [MOD s.par.frameSize] := h.aligned he
  exact .of_aligned (hen.trans he) (by rwa [hp]) counters (by rw [hread, hp]; exact halign.trans (hp ▸ hbytes.symm)) clocks

/-- Until the engine runs nothing is read and nothing is shifted. -/
theorem streamInv_inert {s t : State} (hi : Inert s) (hst : StreamInv s) (he : s.engine ≠ .running)
    (he' : t.engine ≠ .running) (hd : t.dseq = s.dseq) (hr : t.rseq.state = s.rseq.state) (hq : t.dq = s.dq)
    (htr : t.trace = s.trace) : StreamInv t := by
  obtain ⟨hoff, roff, -⟩ := hi
  have hcs : columnsDone s = 0 := by simp [columnsDone, hoff]
  have hct : columnsDone t = 0 := by simp [columnsDone, hd, hoff]
  obtain ⟨hstart, -, -, -, hclocks⟩ := hst
  refine ⟨fun _ => by rw [hd, hq]; exact hstart he, fun h => ?_, ?_, fun h => absurd h he', by rw [htr, hclocks, hcs, hct]⟩
  · rw [hd, hoff] at h
    cases h
  · simp only [LoopCounters, hr, roff]

/-- ENGINE_START: A1 is at the start of a pass, the sequencers at the start of a line (42_transfer_engine R174). -/
theorem streamInv_start {s : State} (h : CoreInv s) (he : s.engine = .setup) :
    StreamInv (completeCommand none (startEngine s)) := by
  have hno : s.engine ≠ .running := by rw [he]; decide
  obtain ⟨hoff, -⟩ := h.handshake.inert hno
  obtain ⟨hleft, hdq⟩ := h.stream.start hno
  obtain ⟨ra, -⟩ := h.channels.armed hno
  obtain ⟨⟨-, htc, -⟩, -⟩ := h.channels.fixed (by rw [he]; decide)
  have hcs : columnsDone s = 0 := by simp [columnsDone, hoff]
  refine .of_aligned rfl nofun trivial ?_ (h.stream.clocks.trans hcs)
  rw [bytesRead_start (s := completeCommand none (startEngine s)) h.render.legal (ra.trans htc)]
  simp [startEngine, dataLine, rowLine, columnsDone, hleft, hdq, Nat.ModEq]

theorem renderMove_streamInv {s t : State} (h : CoreInv s) (hm : RenderMove s t) : StreamInv t := by
  rcases hm with ⟨cfg, r, g, b, act, m, rp, rfl⟩ | ⟨he, x1, x2, y1, y2, rows, planes, en, rp, hen, rfl⟩ | ⟨he, rfl⟩
  · exact h.stream.congr rfl rfl rfl rfl rfl rfl (fun _ => rfl) rfl rfl rfl
  · have hno : s.engine ≠ .running := by rw [he]; decide
    exact streamInv_inert (h.handshake.inert hno) h.stream hno hen rfl rfl rfl rfl
  · exact streamInv_start h he

/-- A move of pair A that pushes `n` words on `DQ` and reads their bytes, modulo a frame. -/
theorem StreamInv.read {s t : State} (h : StreamInv s) (he : s.engine = .running) (hp : t.par = s.par)
    (hen : t.engine = s.engine) (hd : t.dseq = s.dseq) (hr : t.rseq = s.rseq) (hf : t.flags = s.flags)
    (htr : t.trace = s.trace) {n : Nat} (hq : t.dq.length = s.dq.length + n)
    (hread : bytesRead t ≡ bytesRead s + s.par.wA * n [MOD s.par.frameSize]) : StreamInv t := by
  obtain ⟨-, hcol, hcnt, halign, hclk⟩ := h
  have hline : dataLine t = dataLine s := by simp only [dataLine, rowLine, hr, hp]
  have hdone : columnsDone t = columnsDone s := columnsDone_congr hp hd (by rw [hf, hr])
  refine .of_aligned (hen.trans he) (by rwa [hd, hp]) (by simpa only [LoopCounters, hr] using hcnt) ?_
    (by rw [htr, hdone, hclk])
  have hsum : bytesRead s + s.par.wA * n ≡ _ [MOD s.par.frameSize] := Nat.ModEq.add_right _ (halign he)
  rw [hline, hdone, hd, hq, hp, Nat.mul_add, ← Nat.add_assoc]
  exact hread.trans hsum

theorem transfer_streamInv {c : Chan} {s t : State} (h : CoreInv s) (hx : transfer c (s.chan c).ctrl s = .next t) :
    StreamInv t := by
  rcases channel_next h.render h.channels hx with rfl | ⟨he, hmove⟩
  · exact h.stream
  have hne : s.engine ≠ .off := by rw [he]; decide
  have hl := h.render.legal
  obtain ⟨⟨-, htc, -⟩, -⟩ := h.channels.fixed hne
  rcases hmove with ⟨-, -, h2, -, rfl⟩ | ⟨-, h2, -, rfl⟩ | ⟨-, -, h2, -, rfl⟩ | ⟨-, h2, -, rfl⟩
  · refine h.stream.read he rfl rfl rfl rfl rfl rfl (n := 1) List.length_append ?_
    rw [Nat.mul_one]
    exact bytesRead_a1 hl h2 (h.channels.passA hne h2) rfl rfl rfl
  · refine h.stream.read he rfl rfl rfl rfl rfl rfl (n := 0) rfl (congrArg (· % _) ?_)
    have hs : bytesRead s = 0 := by simp [bytesRead, h2]
    rw [hs]
    exact bytesRead_start hl ((h.channels.rearmA h2).trans htc)
  · exact h.stream.congr rfl rfl rfl rfl rfl rfl (fun _ => rfl) rfl rfl rfl
  · exact h.stream.congr rfl rfl rfl rfl rfl rfl (fun _ => rfl) rfl rfl rfl

/-- Where the data sequencer shifts, the columns shifted are those counted down. -/
theorem columnsDone_shifting {s : State} (hs : s.dseq.state = .shiftColumn) :
    columnsDone s = s.par.width - 1 - s.dseq.col.toNat := by
  simp only [columnsDone, hs]

theorem dseq_columnsDone {s t : State} (h : CoreInv s) (he : s.engine = .running)
    (hx : exec s.dseq.state.instr s = .next t) :
    columnsDone t = columnsDone s ∧ t.trace = s.trace ∧ t.pins = s.pins ∧ t.dq = s.dq ∧
      t.dseq.osr = s.dseq.osr ∧ t.dseq.osrLeft = s.dseq.osrLeft ∨
    columnsDone t = columnsDone s + 1 ∧ ∃ word left q, Fetched s word left q ∧ t.dq = q ∧
      t.dseq.osr = word >>> 8 ∧ t.dseq.osrLeft = left - 1 ∧
      t.pins = { s.pins with data := word.extractLsb' 0 6, clk := false } ∧
      t.trace = s.trace ++ [.data (word.extractLsb' 0 6), .clk true, .clk false] := by
  have htok := h.handshake.tokens he
  obtain ⟨hw, -⟩ := width_bounds h.render.legal
  rcases dseq_next hx with rfl | ⟨hs, rfl⟩ | ⟨hs, word, left, q, hf, ⟨hc, rfl⟩ | ⟨hc, rfl⟩⟩ | ⟨hs, hr, rfl⟩
  · exact .inl ⟨rfl, rfl, rfl, rfl, rfl, rfl⟩
  · refine .inl ⟨?_, rfl, rfl, rfl, rfl, rfl⟩
    simp only [columnsDone, hs, lastColumn_toNat h.render.legal, Nat.sub_self]
  · refine .inr ⟨?_, word, left, q, hf, rfl, rfl, rfl, rfl, rfl⟩
    have hfree := shifting_not_released htok (by rw [hs]; decide)
    have hdone : columnsDone s = s.par.width - 1 := by rw [columnsDone_shifting hs, hc]; rfl
    rw [hdone]
    simp only [columnsDone, hfree, if_false]
    omega
  · refine .inr ⟨?_, word, left, q, hf, rfl, rfl, rfl, rfl, rfl⟩
    have hlt := h.stream.column hs
    have hpos : 1 ≤ s.dseq.col.toNat := one_le_toNat hc
    have hsub := toNat_sub_one hpos
    simp only [columnsDone, hs, hsub]
    omega
  · refine .inl ⟨?_, rfl, rfl, rfl, rfl, rfl⟩
    simp [columnsDone, hs, hr]

/-- The column counter is within the line from where it is loaded (43_sequencers R201). -/
theorem dseq_column {s t : State} (h : CoreInv s) (hx : exec s.dseq.state.instr s = .next t) :
    t.dseq.state = .shiftColumn → t.dseq.col.toNat < s.par.width := by
  obtain ⟨hw, -⟩ := width_bounds h.render.legal
  rcases dseq_next hx with rfl | ⟨hs, rfl⟩ | ⟨hs, word, left, q, hf, ⟨hc, rfl⟩ | ⟨hc, rfl⟩⟩ | ⟨hs, hr, rfl⟩
  case inl => exact h.stream.column
  case inr.inl =>
    intro _
    show (BitVec.ofNat 32 (s.par.width - 1)).toNat < s.par.width
    rw [lastColumn_toNat h.render.legal]
    omega
  case inr.inr.inl.inr =>
    intro _
    have hlt := h.stream.column hs
    have hpos : 1 ≤ s.dseq.col.toNat := one_le_toNat hc
    show (s.dseq.col - 1).toNat < s.par.width
    rw [toNat_sub_one hpos]
    omega
  all_goals exact nofun

theorem dseq_keeps {s t : State} (h : exec s.dseq.state.instr s = .next t) :
    t.par = s.par ∧ t.engine = s.engine ∧ t.a1 = s.a1 ∧ t.a2 = s.a2 ∧ t.rseq = s.rseq ∧ t.oseq = s.oseq := by
  obtain ⟨q, d, f, p, r, rfl⟩ := dseq_frame h
  exact ⟨rfl, rfl, rfl, rfl, rfl, rfl⟩

theorem rseq_keeps {s t : State} (h : exec s.rseq.state.instr s = .next t) :
    t.par = s.par ∧ t.engine = s.engine ∧ t.a1 = s.a1 ∧ t.a2 = s.a2 ∧ t.dseq = s.dseq ∧ t.oseq = s.oseq ∧ t.dq = s.dq := by
  obtain ⟨q, f, p, r, rfl⟩ := rseq_frame h
  exact ⟨rfl, rfl, rfl, rfl, rfl, rfl, rfl⟩

theorem dseq_streamInv {s t : State} (h : CoreInv s) (hx : exec s.dseq.state.instr s = .next t) : StreamInv t := by
  rcases dseq_running h.handshake hx with rfl | he
  · exact h.stream
  obtain ⟨hp, hen, h1, h2, hr, -⟩ := dseq_keeps hx
  have hline : dataLine t = dataLine s := by simp only [dataLine, rowLine, hr, hp]
  have hcnt : LoopCounters t := by simpa only [LoopCounters, hr] using h.stream.counters
  have hclk := h.stream.clocks
  obtain ⟨hw, -⟩ := pass_facts h.render.legal
  refine h.stream.placed he hp hen h1 h2 (dseq_column h hx) hcnt (congrArg (· % _) ?_) ?_
  all_goals
    rcases dseq_columnsDone h he hx with ⟨hd, htr, -, hq, -, hl⟩ | ⟨hd, word, left, q, hf, hq, -, hl, -, htr⟩
  · simp only [bytesPlaced, hline, hp, hd, hq, hl]
  · obtain ⟨hpos, hsum⟩ := hf.count hw
    simp only [bytesPlaced, hline, hp, hd, hq, hl]
    omega
  · rw [htr, hd, hclk]
  · rw [htr, hd, clocksSinceLatch_append, ← hclk]
    rfl

/-- Lines modulo a pass are bytes modulo a frame. -/
theorem lines_modEq {p : Params} {m n : Nat} (h : m ≡ n [MOD passLines p]) :
    m * p.width ≡ n * p.width [MOD p.frameSize] := h.mul_right' p.width

theorem rseq_streamInv {s t : State} (h : CoreInv s) (hx : exec s.rseq.state.instr s = .next t) : StreamInv t := by
  rcases rseq_running h.handshake hx with rfl | he
  · exact h.stream
  obtain ⟨hp, hen, h1, h2, hd, -, hq⟩ := rseq_keeps hx
  have hcol : t.dseq.state = .shiftColumn → t.dseq.col.toNat < s.par.width := by rw [hd]; exact h.stream.column
  have hclk := h.stream.clocks
  refine h.stream.placed he hp hen h1 h2 hcol (rseq_loopCounters h.stream.counters hx) ?_ ?_
  all_goals by_cases hl : s.rseq.state = .latch
  · obtain ⟨hr, -⟩ := latch_next hl hx
    obtain ⟨-, htok, -⟩ := h.handshake.tokens he
    obtain ⟨hline, hdone⟩ := latch_line hl hr hp (hd ▸ (htok.1 (.inl hl)).1)
    refine congrArg (· % _) ?_
    simp only [bytesPlaced, hp, hd, hq, hline, hdone, columnsDone_latch (h.handshake.tokens he) hl]
    ring
  · simp only [bytesPlaced, hp, hd, hq, rseq_columnsDone hl hx]
    exact (((lines_modEq (rseq_dataLine h he hl hx)).add_right _).add_right _).add_right _
  · obtain ⟨hr, htr, -⟩ := latch_next hl hx
    obtain ⟨-, htok, -⟩ := h.handshake.tokens he
    obtain ⟨-, hdone⟩ := latch_line hl hr hp (hd ▸ (htok.1 (.inl hl)).1)
    rw [htr, hdone, clocksSinceLatch_append]
    rfl
  · rw [rseq_columnsDone hl hx, ← hclk]
    rcases rseq_quiet hl hx with ⟨htr, -⟩ | ⟨a, htr, -⟩
    · rw [htr]
    · rw [htr]
      exact clocksSinceLatch_quiet _ _ (by simp)

theorem oseq_ras {s t : State} (hx : exec s.oseq.state.instr s = .next t) : t.flags.ras = s.flags.ras := by
  rcases oseq_next hx with rfl | ⟨-, d, q, -, rfl⟩ | ⟨-, -, rfl⟩ | ⟨-, -, -, rfl⟩ | ⟨-, -, -, es, -, rfl⟩ |
    ⟨-, -, es, -, rfl⟩ | ⟨-, es, -, rfl⟩ <;> rfl

/-- The output-enable sequencer makes no clock or latch pulse (43_sequencers R222, R223). -/
theorem oseq_streamInv {s t : State} (h : CoreInv s) (hx : exec s.oseq.state.instr s = .next t) : StreamInv t := by
  obtain ⟨es, htr, hes, -⟩ := oseq_trace hx
  have hclk : clocksSinceLatch t.trace = clocksSinceLatch s.trace := by
    rw [htr]
    refine clocksSinceLatch_quiet _ _ fun e he => ?_
    rcases hes e he with rfl | ⟨b, rfl⟩ <;> simp
  have hras : t.flags.ras = s.flags.ras := oseq_ras hx
  obtain ⟨q, o, f, p, r, rfl⟩ := oseq_frame hx
  exact h.stream.congr rfl rfl rfl rfl rfl rfl (fun _ => rfl) hras rfl hclk

/-- Settles O56, by the kinds of turn. -/
theorem stepKeepsStreamInv : Obligations.StepKeepsStreamInv := by
  intro s t h hs
  obtain ⟨e, hu, hx⟩ := h.step_turn hs
  obtain ⟨c, -, hx⟩ | ⟨-, hx⟩ | ⟨-, hx⟩ | ⟨-, hx⟩ | ⟨-, hm⟩ := turn_cases hu.render hx
  · exact transfer_streamInv hu hx
  · exact dseq_streamInv hu hx
  · exact rseq_streamInv hu hx
  · exact oseq_streamInv hu hx
  · exact renderMove_streamInv hu hm

end Sys2Proof.Machine
end

section
/-! PROOFS. The delay stream (42_transfer_engine R182, 43_sequencers R220, R231): every step keeps `OQ` the delays of the planes to
come, and the delay loaded the one of the plane at work. -/

namespace Sys2Proof.Machine

/-! ### The planes held (43_sequencers R217 to R223) -/

/-- Until the timing of its plane is done the row sequencer has held the planes before it. -/
theorem holdsDone_of_pending {s : State} (h : s.flags.td = false) (hs : s.rseq.state = .awaitTimingDone) :
    holdsDone s = s.rseq.planeIndex.toNat := by
  simp [holdsDone, hs, h]

theorem delaysTaken_eq {s : State} :
    delaysTaken s = holdsDone s + if s.oseq.state = .off ∨ s.oseq.state = .loadDelay then 0 else 1 := by
  cases hs : s.oseq.state <;> simp [delaysTaken, hs]

/-- A step of the row sequencer leaves the planes held, modulo the planes of a row. -/
theorem rseq_holdsDone {s t : State} (h : CoreInv s) (he : s.engine = .running)
    (hx : exec s.rseq.state.instr s = .next t) : holdsDone t ≡ holdsDone s [MOD s.par.colorBits] := by
  have hcount := row_and_plane h.render h.channels h.stream he
  rcases rseq_next hx with rfl | ⟨hs, rfl⟩ | ⟨hs, rfl⟩ | ⟨hs, rfl⟩ | ⟨hs, -, rfl⟩ | ⟨hs, rfl⟩ | ⟨hs, rfl⟩ | ⟨hs, hf, rfl⟩ |
    ⟨hs, hp, rfl⟩ | ⟨hs, hp, hr, rfl⟩ | ⟨hs, hp, hr, rfl⟩
  case inl => rfl
  case inr.inr.inr.inr.inr.inr.inl =>
    have htd := signalTiming_not_done (h.handshake.tokens he) hs
    simp [holdsDone, RSeq.planeIndex, hs, htd, Nat.ModEq]
  case inr.inr.inr.inr.inr.inr.inr.inl => simp [holdsDone, RSeq.planeIndex, hs, hf, Nat.ModEq]
  all_goals simp only [holdsDone, RSeq.planeIndex, hs, sub_self_toNat]
  iterate 5 rfl
  all_goals
    obtain ⟨hrow, hplane, hrows, hplanes, -, -⟩ := hcount (by simp [hs]) (by simp [hs]) (by simp [hs])
  · rw [(index_pred hp hplane).2]
  all_goals
    rw [hp, sub_zero, hplanes]
    exact (Nat.zero_mod _).trans (Nat.mod_self _).symm

/-! ### Delays read (42_transfer_engine R182) -/

/-- Inside an activation B1 has read as many words as it is words past the start of the table. -/
theorem delaysRead_streaming {s : State} {k : Nat} (hb : s.b2.busy = false)
    (h : Streaming s.b1 s.par.delaysBase 4 s.par.colorBits k) : delaysRead s = k := by
  obtain ⟨hlt, hsum, -⟩ := h
  simp only [delaysRead, hb, Bool.false_eq_true, if_false]
  omega

/-- The word B1 reads is the delay of the plane after those it has read. -/
theorem wordRead_b1 {s : State} (hr : RenderInv s) (h2 : s.b2.busy = false) (h : InDelays s) :
    BitVec.ofNat 32 (memNat s.par s.mem s.b1.readAddr.toNat 4) = BitVec.ofNat 32 (delayWord (delaysRead s)) := by
  obtain ⟨k, hk, hst⟩ := h
  have hk' := delaysRead_streaming h2 hst
  obtain ⟨-, -, haddr⟩ := hst
  rw [hk', ← hr.delays k hk, State.wordAt, haddr, Nat.mul_comm k 4]

/-- A transfer of B1 reads one word; after the last one of an activation nothing is read of the next. -/
theorem delaysRead_b1 {s t : State} (hl : ParamsLegal s.par) (h2 : s.b2.busy = false) (h : InDelays s) (hp : t.par = s.par)
    (h1 : t.b1 = streamed s.b1 4) (h2' : t.b2.busy = decide (s.b1.remain = 1)) :
    delaysRead t ≡ delaysRead s + 1 [MOD s.par.colorBits] := by
  have hin := h
  obtain ⟨k, hk, hst⟩ := h
  rw [delaysRead_streaming h2 hst]
  by_cases hlast : s.b1.remain = 1
  · have ht : delaysRead t = 0 := by simp [delaysRead, h2', hlast]
    have hsum : 1 + k = s.par.colorBits := by
      obtain ⟨-, hsum, -⟩ := hst
      rwa [word_eq_one.1 hlast] at hsum
    rw [ht, Nat.add_comm, hsum]
    exact (Nat.zero_mod _).trans (Nat.mod_self _).symm
  · obtain ⟨-, -, ⟨-, hd⟩, -⟩ := map_facts (mapLegal_of_legal hl)
    obtain ⟨-, hst'⟩ := streaming_next (Nat.le_refl 4) (by omega) hst hlast
    have hb : t.b2.busy = false := h2'.trans (decide_eq_false hlast)
    rw [delaysRead_streaming hb (by rw [h1, hp]; exact hst')]

/-- B2 and ENGINE_SETUP leave B1 at the start of the table. -/
theorem delaysRead_start {s : State} (hl : ParamsLegal s.par) (h : s.b1.remain = b1Count s.par) : delaysRead s = 0 := by
  rw [delaysRead, h, b1Count_toNat hl, Nat.sub_self, ite_self]

/-! ### The invariant under each move -/

/-- `OQ` holds the delays of the planes from the `n`-th on (43_sequencers R231 (c)). -/
abbrev QueuedFrom (p : Params) (q : List Word) (n : Nat) : Prop :=
  ∀ j < q.length, q[j]? = some (BitVec.ofNat 32 (delayWord ((n + j) % p.colorBits)))

theorem QueuedFrom.nil (p : Params) (n : Nat) : QueuedFrom p [] n := nofun

theorem QueuedFrom.modEq {p : Params} {q : List Word} {m n : Nat} (h : QueuedFrom p q n) (hm : m ≡ n [MOD p.colorBits]) :
    QueuedFrom p q m := by
  intro j hj
  rw [h j hj, (hm.add_right j : (m + j) % _ = _)]

theorem QueuedFrom.push {p : Params} {q : List Word} {n : Nat} (h : QueuedFrom p q n) {k : Nat} (hk : k < p.colorBits)
    (hm : k ≡ n + q.length [MOD p.colorBits]) : QueuedFrom p (q ++ [BitVec.ofNat 32 (delayWord k)]) n := by
  intro j hj
  rw [List.length_append, List.length_singleton] at hj
  by_cases hlt : j < q.length
  · rw [List.getElem?_append_left hlt]
    exact h j hlt
  · have hj' : j = q.length := by omega
    have hmod : k = (n + q.length) % p.colorBits := (Nat.mod_eq_of_lt hk).symm.trans hm
    rw [hj', List.getElem?_concat_length, ← hmod]

theorem QueuedFrom.pop {p : Params} {d : Word} {q : List Word} {n : Nat} (h : QueuedFrom p (d :: q) n) :
    d = BitVec.ofNat 32 (delayWord (n % p.colorBits)) ∧ QueuedFrom p q (n + 1) := by
  refine ⟨by simpa using h 0 (by simp), fun j hj => ?_⟩
  have := h (j + 1) (by simpa using hj)
  rw [List.getElem?_cons_succ] at this
  rw [this, Nat.add_assoc, Nat.add_comm 1 j]

/-- The invariant while the engine runs. -/
theorem DelayInv.of_aligned {s : State} (he : s.engine = .running)
    (aligned : delaysRead s ≡ delaysTaken s + s.oq.length [MOD s.par.colorBits])
    (queued : QueuedFrom s.par s.oq (delaysTaken s))
    (loaded : s.oseq.state = .awaitTimingStart → s.oseq.cnt = BitVec.ofNat 32 (delayWord (holdsDone s % s.par.colorBits)))
    (counting : s.oseq.state = .hold → s.oseq.cnt.toNat ≤ delayWord s.rseq.planeIndex.toNat) : DelayInv s :=
  ⟨fun hn => absurd he hn, fun _ => aligned, fun _ => queued, loaded, counting⟩

/-- Until the engine runs nothing is read and nothing is loaded. -/
theorem delayInv_inert {s t : State} (hi : Inert s) (hd : DelayInv s) (he : s.engine ≠ .running)
    (he' : t.engine ≠ .running) (ho : t.oseq = s.oseq) (hq : t.oq = s.oq) : DelayInv t := by
  obtain ⟨-, -, hoff, -⟩ := hi
  refine ⟨fun _ => hq.trans (hd.start he), fun h => absurd h he', fun h => absurd h he', ?_, ?_⟩ <;>
    rw [ho, hoff] <;> exact nofun

/-- ENGINE_START: B1 is at the start of the table, and no delay is taken (42_transfer_engine R174). -/
theorem delayInv_start {s : State} (h : CoreInv s) (he : s.engine = .setup) :
    DelayInv (completeCommand none (startEngine s)) := by
  have hno : s.engine ≠ .running := by rw [he]; decide
  have hoq : s.oq = [] := h.delays.start hno
  obtain ⟨-, rb⟩ := h.channels.armed hno
  obtain ⟨-, -, -, -, -, -, htc, -⟩ := h.channels.fixed (by rw [he]; decide)
  refine .of_aligned rfl ?_ ?_ nofun nofun
  · rw [delaysRead_start (s := completeCommand none (startEngine s)) h.render.legal (rb.trans htc)]
    simp [startEngine, delaysTaken, holdsDone, hoq, Nat.ModEq]
  · rw [show (completeCommand none (startEngine s)).oq = [] from hoq]
    exact .nil _ _

theorem renderMove_delayInv {s t : State} (h : CoreInv s) (hm : RenderMove s t) : DelayInv t := by
  rcases hm with ⟨cfg, r, g, b, act, m, rp, rfl⟩ | ⟨he, x1, x2, y1, y2, rows, planes, en, rp, hen, rfl⟩ | ⟨he, rfl⟩
  · exact h.delays.congr rfl rfl rfl rfl rfl rfl (fun _ => rfl) (fun _ => rfl) rfl rfl
  · have hno : s.engine ≠ .running := by rw [he]; decide
    exact delayInv_inert (h.handshake.inert hno) h.delays hno hen rfl rfl
  · exact delayInv_start h he

/-- A move of pair B that pushes the words `ws` on `OQ`, modulo the words of the table. -/
theorem DelayInv.read {s t : State} (h : DelayInv s) (he : s.engine = .running) (hp : t.par = s.par)
    (hen : t.engine = s.engine) (ho : t.oseq = s.oseq) (hr : t.rseq = s.rseq) (hf : t.flags = s.flags) {ws : List Word}
    (hq : t.oq = s.oq ++ ws) (hread : delaysRead t ≡ delaysRead s + ws.length [MOD s.par.colorBits])
    (hqueued : QueuedFrom s.par (s.oq ++ ws) (delaysTaken s)) : DelayInv t := by
  have hholds : holdsDone t = holdsDone s := by simp only [holdsDone, hr, hf]
  have htaken : delaysTaken t = delaysTaken s := by rw [delaysTaken_eq, delaysTaken_eq, hholds, ho]
  obtain ⟨-, halign, -, hloaded, hcounting⟩ := h
  have hsum : delaysRead s + ws.length ≡ _ [MOD s.par.colorBits] := Nat.ModEq.add_right _ (halign he)
  refine .of_aligned (hen.trans he) ?_ (by rwa [hp, hq, htaken]) (by rwa [ho, hholds, hp]) (by rwa [ho, hr])
  rw [htaken, hq, hp, List.length_append, ← Nat.add_assoc]
  exact hread.trans hsum

theorem transfer_delayInv {c : Chan} {s t : State} (h : CoreInv s) (hx : transfer c (s.chan c).ctrl s = .next t) :
    DelayInv t := by
  rcases channel_next h.render h.channels hx with rfl | ⟨he, hmove⟩
  · exact h.delays
  have hne : s.engine ≠ .off := by rw [he]; decide
  have hl := h.render.legal
  obtain ⟨-, -, -, -, -, -, htc, -⟩ := h.channels.fixed hne
  have halign : delaysRead s ≡ delaysTaken s + s.oq.length [MOD s.par.colorBits] := h.delays.aligned he
  have hqueued : QueuedFrom s.par s.oq (delaysTaken s) := h.delays.queued he
  rcases hmove with ⟨-, -, h2, -, rfl⟩ | ⟨-, h2, -, rfl⟩ | ⟨-, -, h2, -, rfl⟩ | ⟨-, h2, -, rfl⟩
  · exact h.delays.congr rfl rfl rfl rfl rfl rfl (fun _ => rfl) (fun _ => rfl) rfl rfl
  · exact h.delays.congr rfl rfl rfl rfl rfl rfl (fun _ => rfl) (fun _ => rfl) rfl rfl
  · have hin := h.channels.passB hne h2
    have hlt : delaysRead s < s.par.colorBits := by
      obtain ⟨k, hk, hst⟩ := hin
      rw [delaysRead_streaming h2 hst]
      exact hk
    refine h.delays.read he rfl rfl rfl rfl rfl rfl (delaysRead_b1 hl h2 hin rfl rfl rfl) ?_
    rw [wordRead_b1 h.render h2 hin]
    exact hqueued.push hlt halign
  · have hs : delaysRead s = 0 := by simp [delaysRead, h2]
    refine h.delays.read (ws := []) he rfl rfl rfl rfl rfl (List.append_nil _).symm ?_ (by rwa [List.append_nil])
    rw [hs]
    exact congrArg (· % _) (delaysRead_start hl ((h.channels.rearmB h2).trans htc))

/-- A move of a sequencer that leaves the delays taken, modulo the planes of a row. -/
theorem DelayInv.moved {s t : State} (h : DelayInv s) (he : s.engine = .running) (hp : t.par = s.par)
    (hen : t.engine = s.engine) (h1 : t.b1 = s.b1) (h2 : t.b2 = s.b2) (hq : t.oq = s.oq)
    (htaken : delaysTaken t ≡ delaysTaken s [MOD s.par.colorBits])
    (loaded : t.oseq.state = .awaitTimingStart → t.oseq.cnt = BitVec.ofNat 32 (delayWord (holdsDone t % s.par.colorBits)))
    (counting : t.oseq.state = .hold → t.oseq.cnt.toNat ≤ delayWord t.rseq.planeIndex.toNat) : DelayInv t := by
  have hread : delaysRead t = delaysRead s := by simp only [delaysRead, h1, h2, hp]
  have halign : delaysRead s ≡ delaysTaken s + s.oq.length [MOD s.par.colorBits] := h.aligned he
  refine .of_aligned (hen.trans he) ?_ ?_ (by rwa [hp]) counting
  · rw [hread, hq, hp]
    exact halign.trans (htaken.symm.add_right _)
  · rw [hp, hq]
    exact QueuedFrom.modEq (h.queued he) htaken

theorem dseq_delayInv {s t : State} (h : CoreInv s) (hx : exec s.dseq.state.instr s = .next t) : DelayInv t := by
  have htd : t.flags.td = s.flags.td := by
    rcases dseq_next hx with rfl | ⟨-, rfl⟩ | ⟨-, w, l, q, -, ⟨-, rfl⟩ | ⟨-, rfl⟩⟩ | ⟨-, -, rfl⟩ <;> rfl
  obtain ⟨q, d, f, p, r, rfl⟩ := dseq_frame hx
  exact h.delays.congr rfl rfl rfl rfl rfl rfl (fun _ => rfl) (fun _ => rfl) htd rfl

/-- The row sequencer does not move during a hold, so it keeps the plane the hold is for. -/
theorem rseq_waits_for_hold {s t : State} (htok : Tokens s) (hh : holding s) (hx : exec s.rseq.state.instr s = .next t) :
    t = s := by
  obtain ⟨hs, htd⟩ := holding_awaits htok hh
  rw [hs] at hx
  exact (Host.Outcome.next.inj ((rAwaitTimingDone_waits htd).symm.trans hx)).symm

theorem rseq_delayInv {s t : State} (h : CoreInv s) (hx : exec s.rseq.state.instr s = .next t) : DelayInv t := by
  rcases rseq_running h.handshake hx with rfl | he
  · exact h.delays
  have hholds := rseq_holdsDone h he hx
  have hstay := rseq_waits_for_hold (h.handshake.tokens he) (t := t)
  obtain ⟨q, f, p, r, rfl⟩ := rseq_frame hx
  refine h.delays.moved he rfl rfl rfl rfl rfl ?_ (fun ho => ?_) (fun ho => ?_)
  · rw [delaysTaken_eq, delaysTaken_eq]
    exact hholds.add_right _
  · rw [(hholds : _ % _ = _ % _)]
    exact h.delays.loaded ho
  · rw [hstay (.inl ho) hx]
    exact h.delays.counting ho

theorem oseq_delayInv {s t : State} (h : CoreInv s) (hx : exec s.oseq.state.instr s = .next t) : DelayInv t := by
  rcases oseq_running h.handshake hx with rfl | he
  · exact h.delays
  have htok := h.handshake.tokens he
  rcases oseq_next hx with rfl | ⟨hs, d, q, hq, rfl⟩ | ⟨hs, hts, rfl⟩ | ⟨hs, -, -, rfl⟩ | ⟨hs, -, -, es, -, rfl⟩ |
    ⟨hs, hc, es, -, rfl⟩ | ⟨hs, es, -, rfl⟩
  · exact h.delays
  · have hqueued : QueuedFrom s.par (d :: q) (delaysTaken s) := hq ▸ h.delays.queued he
    have halign : delaysRead s ≡ delaysTaken s + (q.length + 1) [MOD s.par.colorBits] := by
      have := h.delays.aligned he
      rwa [hq] at this
    have htaken : delaysTaken s = holdsDone s := by simp only [delaysTaken, hs]
    rw [htaken] at hqueued halign
    obtain ⟨hd, hrest⟩ := hqueued.pop
    refine .of_aligned he ?_ hrest (fun _ => hd) nofun
    rw [Nat.add_comm q.length 1, ← Nat.add_assoc] at halign
    exact halign
  · obtain ⟨hwait, htd⟩ := started_awaits htok hts
    have hplane := holdsDone_of_pending htd hwait
    obtain ⟨-, hlt⟩ := row_and_plane_waiting h he hwait
    obtain ⟨-, hbits⟩ := colorBits_of_legal h.render.legal
    refine h.delays.moved he rfl rfl rfl rfl rfl ?_ nofun (fun _ => ?_)
    · simp [delaysTaken, holdsDone, hs, Nat.ModEq]
    · show s.oseq.cnt.toNat ≤ delayWord s.rseq.planeIndex.toNat
      rw [h.delays.loaded hs, hplane, Nat.mod_eq_of_lt hlt, delayWord_toNat (by omega)]
  · refine h.delays.moved he rfl rfl rfl rfl rfl ?_ nofun nofun
    simp [delaysTaken, holdsDone, hs, Nat.ModEq]
  · refine h.delays.moved he rfl rfl rfl rfl rfl ?_ nofun nofun
    simp [delaysTaken, holdsDone, hs, Nat.ModEq]
  · have hle := h.delays.counting hs
    have hpos : 1 ≤ s.oseq.cnt.toNat := one_le_toNat hc
    refine h.delays.moved he rfl rfl rfl rfl rfl ?_ (fun ho => absurd (hs.symm.trans ho) (by decide)) (fun _ => ?_)
    · simp [delaysTaken, holdsDone, hs, Nat.ModEq]
    · show (s.oseq.cnt - 1).toNat ≤ delayWord s.rseq.planeIndex.toNat
      rw [toNat_sub_one hpos]
      omega
  · obtain ⟨hwait, htd⟩ := holding_awaits htok (.inr hs)
    refine h.delays.moved he rfl rfl rfl rfl rfl ?_ nofun nofun
    simp [delaysTaken, holdsDone, hs, hwait, htd, Nat.ModEq]

/-- Settles O57, by the kinds of turn. -/
theorem stepKeepsDelayInv : Obligations.StepKeepsDelayInv := by
  intro s t h hs
  obtain ⟨e, hu, hx⟩ := h.step_turn hs
  obtain ⟨c, -, hx⟩ | ⟨-, hx⟩ | ⟨-, hx⟩ | ⟨-, hx⟩ | ⟨-, hm⟩ := turn_cases hu.render hx
  · exact transfer_delayInv hu hx
  · exact dseq_delayInv hu hx
  · exact rseq_delayInv hu hx
  · exact oseq_delayInv hu hx
  · exact renderMove_delayInv hu hm

end Sys2Proof.Machine
end

section
/-! PROOFS. What the panel has been shown (42_transfer_engine R183, 43_sequencers R224, R231, R236; general knowledge,
notes/assumptions/19.md): every step keeps it equal to the bytes A1 has read, line by line. -/

namespace Sys2Proof.Machine

/-! ### Bytes of words -/

/-- Byte `j` of a word that has lost its lowest byte. -/
theorem extractByte_shiftRight (w : Word) (j : Nat) : (w >>> 8).extractLsb' (8 * j) 8 = w.extractLsb' (8 * (j + 1)) 8 := by
  refine BitVec.eq_of_getLsbD_eq fun i hi => ?_
  have hidx : 8 + (8 * j + i) = 8 * (j + 1) + i := by omega
  simp only [BitVec.getLsbD_extractLsb', BitVec.getLsbD_ushiftRight, hidx]

/-- The lowest six bits of a word are those of its lowest byte. -/
theorem extractData (w : Word) : w.extractLsb' 0 6 = (w.extractLsb' (8 * 0) 8).extractLsb' 0 6 := by
  rw [extractLsb'_extractLsb' w (by decide)]

/-! ### Lists of bytes -/

/-- The last `w` of the first `n + 1`, from the last `w` of the first `n`. -/
theorem lastOfTake_succ {α : Type} (l : List α) (d : α) {n : Nat} (w : Nat) (hn : n < l.length) :
    (((l.take n).drop (n - w)) ++ [l.getD n d]).drop (((l.take n).drop (n - w)).length + 1 - w) =
      (l.take (n + 1)).drop (n + 1 - w) := by
  have hlen : (l.take n).length = n := by rw [List.length_take]; omega
  have hget : l.getD n d = l[n] := List.getD_eq_getElem _ _ hn
  have happ : (l.take n).drop (n - w) ++ [l[n]] = (l.take (n + 1)).drop (n - w) := by
    rw [← List.take_append_getElem hn, List.drop_append_of_le_length (by omega)]
  rw [hget, happ, List.drop_drop, List.length_drop, hlen]
  congr 1
  omega

/-! ### What the observer makes of appended events -/

/-- Appended events without a tick add no light to a line latched before them. -/
theorem lightOfLine_unlit (p : Params) (x y : Nat) (c : Colour) {k : Nat} {l es : List PinEvent} (h : k < latches l)
    (ht : .tick ∉ es) : lightOfLines p x y c k (k + 1) (l ++ es) = lightOfLines p x y c k (k + 1) l := by
  have hb : .tick ∉ beforeLatch 0 es := by
    obtain ⟨r, hr⟩ := beforeLatch_prefix (Nat.zero_le (latches es)) es
    rw [beforeLatch_of_le (Nat.le_refl _)] at hr
    exact fun hm => ht (hr ▸ List.mem_append_left r hm)
  rw [lightOfLine_append p x y c h, lightFrom_no_tick _ _ _ _ _ hb, ite_self, Nat.add_zero]

/-- A line latched by the last pulse has shed no light yet, if no tick came after it. -/
theorem lightOfLine_latched (p : Params) (x y : Nat) (c : Colour) {l es : List PinEvent} (h0 : beforeLatch 0 es = [])
    (h1 : latches es = 1) (ht : .tick ∉ es) : lightOfLines p x y c (latches l) (latches l + 1) (l ++ es) = 0 := by
  have hb : beforeLatch (latches l) (l ++ es) = l := by
    rw [beforeLatch_append, if_neg (by omega), Nat.sub_self, h0, List.append_nil]
  have hb' : beforeLatch (latches l + 1) (l ++ es) = l ++ es := beforeLatch_of_le (by rw [latches_append, h1])
  rw [lightOfLines, betweenLatches, hb, hb', List.drop_left]
  exact lightFrom_no_tick _ _ _ _ _ ht

/-! ### Ticks of the line latched last (43_sequencers R222, R224) -/

theorem lastLineDone_waiting {s : State} (h : s.rseq.state = .awaitTimingDone) : lastLineDone s = s.flags.td := by
  simp only [lastLineDone, h]

theorem ticksSoFar_done {s : State} (h : lastLineDone s = true) (k : Nat) : ticksSoFar s k = holdTicks s.par k :=
  if_pos h

/-- Before its hold a line has shed no light. -/
theorem ticksSoFar_resting {s : State} (h : lastLineDone s = false) (ho : ¬holding s) (k : Nat) : ticksSoFar s k = 0 := by
  rw [ticksSoFar, h, if_neg (by decide)]
  cases hs : s.oseq.state with
  | off | loadDelay | awaitTimingStart => rfl
  | hold => exact absurd (.inl hs) ho
  | signalDone => exact absurd (.inr hs) ho

theorem ticksSoFar_hold {s : State} (h : lastLineDone s = false) (ho : s.oseq.state = .hold) (k : Nat) :
    ticksSoFar s k = delayWord (k % s.par.colorBits) - s.oseq.cnt.toNat := by
  rw [ticksSoFar, h, if_neg (by decide), ho]

theorem ticksSoFar_signalDone {s : State} (ho : s.oseq.state = .signalDone) (k : Nat) :
    ticksSoFar s k = holdTicks s.par k := by
  rw [ticksSoFar, ho, ite_self]

theorem lastLineDone_congr {s t : State} (hr : t.rseq = s.rseq) (htd : t.flags.td = s.flags.td) :
    lastLineDone t = lastLineDone s := by
  rw [lastLineDone, lastLineDone, hr, htd]

theorem ticksSoFar_congr {s t : State} (hp : t.par = s.par) (hd : lastLineDone t = lastLineDone s)
    (ho : t.oseq = s.oseq) (k : Nat) : ticksSoFar t k = ticksSoFar s k := by
  rw [ticksSoFar, ticksSoFar, hd, ho, hp]

theorem ticksOfLine_congr {s t : State} (hp : t.par = s.par) (hlat : latches t.trace = latches s.trace)
    (hd : lastLineDone t = lastLineDone s) (ho : t.oseq = s.oseq) (k : Nat) : ticksOfLine t k = ticksOfLine s k := by
  rw [ticksOfLine, ticksOfLine, hlat, hp, ticksSoFar_congr hp hd ho]

/-! ### What the history says of a line -/

/-- The LED is lit while line `k` is shown: its row is the line's, and its bit of the line's bytes is 1. -/
abbrev Shows (p : Params) (h : List Byte) (k x y : Nat) (c : Colour) : Prop :=
  k / p.colorBits % p.activeRows = y % p.activeRows ∧ ledBit p y c (h.getD (k * p.width + x) 0) = true

/-- The bytes shifted are among those read, and the lines latched among those shifted. -/
theorem ScanHistory.bounds {s : State} {h : List Byte} (hs : ScanHistory s h) :
    bytesShifted s ≤ h.length ∧ latches s.trace * s.par.width ≤ bytesShifted s := by
  have hlen := hs.length
  unfold bytesShifted at hlen ⊢
  omega

/-- A column of a latched line is one of the bytes read. -/
theorem ScanHistory.column_lt {s : State} {h : List Byte} (hs : ScanHistory s h) {k x : Nat} (hk : k < latches s.trace)
    (hx : x < s.par.width) : k * s.par.width + x < h.length := by
  obtain ⟨h1, h2⟩ := hs.bounds
  have : (k + 1) * s.par.width ≤ latches s.trace * s.par.width := Nat.mul_le_mul_right _ hk
  rw [Nat.add_mul] at this
  omega

/-- A move that leaves the bytes where they are and appends events without a latch pulse: the panel keeps its registers,
and the line latched last sheds the light of those events. -/
theorem ScanHistory.emit {s t : State} {h : List Byte} {es : List PinEvent} (hs : ScanHistory s h) (hl : .lat true ∉ es)
    (hp : t.par = s.par) (htr : t.trace = s.trace ++ es) (hd : t.dseq = s.dseq) (hq : t.dq = s.dq)
    (hcol : columnsDone t = columnsDone s) (hline : dataLine t ≡ dataLine s [MOD passLines s.par])
    (hpanel : panelAfter s.par.width t.trace = { panelAfter s.par.width s.trace with addr := t.pins.addr })
    (hdata : t.pins.data = s.pins.data)
    (hlight : ∀ k, k + 1 = latches s.trace → ∀ x < s.par.width, ∀ y < 2 * s.par.activeRows, ∀ c,
      (if Shows s.par h k x y c then ticksSoFar s k else 0) +
          lightFrom s.par x y c (panelAfter s.par.width s.trace) es =
        if Shows s.par h k x y c then ticksSoFar t k else 0) : ScanHistory t h := by
  have hlat : latches t.trace = latches s.trace := by rw [htr, latches_quiet hl]
  have hb : bytesShifted t = bytesShifted s := by simp only [bytesShifted, hlat, hp, hcol]
  obtain ⟨lines, length, register, queue, pinsShown, shift, latched, light⟩ := hs
  refine ⟨?_, ?_, ?_, ?_, ?_, ?_, ?_, ?_⟩
  · rw [hlat, hp, lines]
    exact hline.symm
  · rw [hb, hd, hp, hq]; exact length
  · rw [hb, hd]; exact register
  · rw [hb, hd, hp, hq]; exact queue
  · rw [hp, hpanel, hdata]; exact ⟨pinsShown.1, rfl⟩
  · rw [hb, hp, hpanel]; exact shift
  · rw [hlat, hp, hpanel]; exact latched
  · rw [hlat, hp, htr]
    intro k hk x hx y hy c
    rw [lightOfLine_append s.par x y c hk, beforeLatch_quiet hl, light k hk x hx y hy c]
    by_cases hlast : k + 1 = latches s.trace
    · rw [if_pos hlast]
      have hsofar : ∀ u : State, u.par = s.par → latches u.trace = latches s.trace → ticksOfLine u k = ticksSoFar u k :=
        fun u _ hu => if_neg (by omega)
      rw [hsofar s rfl rfl, hsofar t hp hlat]
      exact hlight k hlast x hx y hy c
    · have hdone : ticksOfLine t k = ticksOfLine s k := by
        rw [ticksOfLine, ticksOfLine, hlat, hp, if_pos (by omega), if_pos (by omega)]
      rw [if_neg hlast, Nat.add_zero, hdone]

/-! ### The render domain and the channels -/

theorem renderMove_scanHistory {s t : State} {h : List Byte} (hi : CoreInv s) (hs : ScanHistory s h)
    (hm : RenderMove s t) : ScanHistory t h := by
  rcases hm with ⟨cfg, r, g, b, act, m, rp, rfl⟩ | ⟨he, x1, x2, y1, y2, rows, planes, en, rp, -, rfl⟩ | ⟨he, rfl⟩
  · exact hs.congr rfl rfl rfl rfl rfl rfl rfl rfl
  all_goals
    obtain ⟨hd, hr, ho, -⟩ := hi.handshake.inert (by rw [he]; decide)
    refine hs.keep rfl rfl rfl rfl rfl rfl rfl ?_ ?_ fun k _ => ?_
  · simp only [columnsDone, hd]
  · simp only [dataLine, rowLine, hr]
  · exact ticksSoFar_congr rfl rfl rfl k
  · simp only [columnsDone, completeCommand, startEngine, hd]
  · simp only [dataLine, rowLine, completeCommand, startEngine, hr]
  · have hdone : lastLineDone s = true := by simp only [lastLineDone, hr]
    rw [ticksSoFar_done hdone]
    exact ticksSoFar_done rfl k

/-- A transfer of A1 appends the bytes of the word it pushes (42_transfer_engine R180). -/
theorem ScanHistory.read {s t : State} {h bs : List Byte} {w : Word} (hs : ScanHistory s h) (hp : t.par = s.par)
    (htr : t.trace = s.trace) (hpin : t.pins = s.pins) (hd : t.dseq = s.dseq) (hr : t.rseq = s.rseq)
    (ho : t.oseq = s.oseq) (hf : t.flags = s.flags) (hq : t.dq = s.dq ++ [w]) (hbs : bs.length = s.par.wA)
    (hw : ∀ j < s.par.wA, w.extractLsb' (8 * j) 8 = bs.getD j 0) : ScanHistory t (h ++ bs) := by
  have hcol : columnsDone t = columnsDone s := columnsDone_congr hp hd (by rw [hf, hr])
  have hline : dataLine t = dataLine s := by simp only [dataLine, rowLine, hr, hp]
  have hb : bytesShifted t = bytesShifted s := by simp only [bytesShifted, htr, hp, hcol]
  have hticks := ticksOfLine_congr hp (by rw [htr]) (lastLineDone_congr hr (by rw [hf])) ho
  have hcolumn := fun {k x} => hs.column_lt (k := k) (x := x)
  obtain ⟨hle, hlat⟩ := hs.bounds
  obtain ⟨lines, length, register, queue, pinsShown, shift, latched, light⟩ := hs
  refine ⟨?_, ?_, ?_, ?_, ?_, ?_, ?_, ?_⟩
  · rw [htr, hp, hline]; exact lines
  · rw [hb, hd, hp, hq, List.length_append, List.length_append, List.length_singleton, Nat.mul_succ, hbs, length]
    omega
  · rw [hb, hd]
    intro j hj
    rw [register j hj, List.getD_append _ _ _ _ (by omega)]
  · rw [hb, hd, hp, hq, List.length_append, List.length_singleton]
    intro i hi j hj
    by_cases hlt : i < s.dq.length
    · have hmul : s.par.wA * (i + 1) ≤ s.par.wA * s.dq.length := Nat.mul_le_mul_left _ hlt
      rw [Nat.mul_add] at hmul
      rw [List.getD_append _ _ _ _ hlt, queue i hlt j hj, List.getD_append _ _ _ _ (by omega)]
    · have hi' : i = s.dq.length := by omega
      subst hi'
      rw [List.getD_append_right _ _ _ _ (Nat.le_refl _), Nat.sub_self, List.getD_cons_zero, hw j hj,
        List.getD_append_right _ _ _ _ (by omega)]
      congr 1
      omega
  · rw [hp, htr, hpin]; exact pinsShown
  · rw [hb, hp, htr, List.take_append_of_le_length hle]; exact shift
  · rw [htr, hp]
    intro h1
    have hwidth : (latches s.trace - 1) * s.par.width + s.par.width = latches s.trace * s.par.width := by
      rw [← Nat.succ_mul, Nat.succ_eq_add_one, Nat.sub_add_cancel h1]
    rw [latched h1, List.drop_append_of_le_length (by omega),
      List.take_append_of_le_length (by rw [List.length_drop]; omega)]
  · rw [htr, hp]
    intro k hk x hx y hy c
    rw [light k hk x hx y hy c, hticks, List.getD_append _ _ _ _ (hcolumn hk hx)]

/-- The bytes an enabled transfer of A1 reads are those of the word it pushes. -/
theorem bytesTaken_word {s : State} (hl : ParamsLegal s.par) (hen : chanEnabled .a1 s = true) :
    (bytesTaken (.agent (.chan .a1)) s).length = s.par.wA ∧ ∀ j < s.par.wA,
      (BitVec.ofNat 32 (memNat s.par s.mem s.a1.readAddr.toNat s.par.wA)).extractLsb' (8 * j) 8 =
        (bytesTaken (.agent (.chan .a1)) s).getD j 0 := by
  obtain ⟨-, hw, -⟩ := pass_facts hl
  obtain ⟨-, hbytes⟩ := memNat_wordOf s s.a1.readAddr.toNat hw
  have ht : bytesTaken (.agent (.chan .a1)) s =
      (List.range s.par.wA).map fun j => s.byteAt (s.a1.readAddr.toNat + j) := if_pos hen
  rw [ht]
  refine ⟨by simp, fun j hj => ?_⟩
  rw [hbytes j hj, List.getD_eq_getElem _ _ (by simpa using hj)]
  simp

theorem transfer_scanHistory {c : Chan} {s t : State} {h : List Byte} (hi : CoreInv s) (hs : ScanHistory s h)
    (hx : transfer c (s.chan c).ctrl s = .next t) : ScanHistory t (h ++ bytesTaken (.agent (.chan c)) s) := by
  cases hen : chanEnabled c s with
  | false =>
    have hnone : bytesTaken (.agent (.chan c)) s = [] := by
      cases c
      · exact if_neg (by rw [hen]; decide)
      all_goals rfl
    rw [channel_wait hen hx, hnone, List.append_nil]
    exact hs
  | true =>
    obtain ⟨-, hmove⟩ := channel_move hi.render hi.channels hen hx
    rcases hmove with ⟨rfl, -, -, -, rfl⟩ | ⟨rfl, -, -, rfl⟩ | ⟨rfl, -, -, -, rfl⟩ | ⟨rfl, -, -, rfl⟩
    · obtain ⟨hlen, hword⟩ := bytesTaken_word hi.render.legal hen
      exact hs.read rfl rfl rfl rfl rfl rfl rfl rfl hlen hword
    all_goals
      rw [bytesTaken, List.append_nil]
      exact hs.congr rfl rfl rfl rfl rfl rfl rfl rfl

/-! ### The data sequencer (43_sequencers R202) -/

/-- The bytes of the word a column is taken from, and of the words left in `DQ`, are the bytes read next. -/
theorem Fetched.bytes {s : State} {h : List Byte} {word : Word} {left : Nat} {q : List Word} (hs : ScanHistory s h)
    (hf : Fetched s word left q) :
    (∀ j < left, word.extractLsb' (8 * j) 8 = h.getD (bytesShifted s + j) 0) ∧
    ∀ i < q.length, ∀ j < s.par.wA,
      (q.getD i 0).extractLsb' (8 * j) 8 = h.getD (bytesShifted s + left + s.par.wA * i + j) 0 := by
  have hqueue := hs.queue
  rcases hf with ⟨h0, hq, rfl⟩ | ⟨-, rfl, rfl, rfl⟩
  · rw [hq, h0] at hqueue
    refine ⟨fun j hj => ?_, fun i hi j hj => ?_⟩
    · simpa using hqueue 0 (by simp) j hj
    · have := hqueue (i + 1) (by simpa using hi) j hj
      rw [List.getD_cons_succ] at this
      rw [this]
      congr 1
      ring
  · exact ⟨hs.register, hqueue⟩

/-- A column shifted: the panel takes the next byte, and no light is shed (43_sequencers R202, R236). -/
theorem ScanHistory.shiftColumn {s t : State} {h : List Byte} {word : Word} {left : Nat} {q : List Word}
    (hw : 1 ≤ s.par.wA) (hs : ScanHistory s h) (hf : Fetched s word left q) (hp : t.par = s.par) (hq : t.dq = q)
    (hosr : t.dseq.osr = word >>> 8) (hleft : t.dseq.osrLeft = left - 1) (hr : t.rseq = s.rseq) (ho : t.oseq = s.oseq)
    (htd : t.flags.td = s.flags.td) (hpin : t.pins = { s.pins with data := word.extractLsb' 0 6, clk := false })
    (htr : t.trace = s.trace ++ [.data (word.extractLsb' 0 6), .clk true, .clk false])
    (hcol : columnsDone t = columnsDone s + 1) : ScanHistory t h := by
  have hlat : latches t.trace = latches s.trace := by rw [htr, latches_quiet (by simp)]
  have hb : bytesShifted t = bytesShifted s + 1 := by simp only [bytesShifted, hlat, hp, hcol, Nat.add_assoc]
  have hline : dataLine t = dataLine s := by simp only [dataLine, rowLine, hr, hp]
  have hticks := ticksOfLine_congr hp hlat (lastLineDone_congr hr htd) ho
  obtain ⟨hpos, hsum⟩ := hf.count hw
  obtain ⟨hword, hqueue⟩ := hf.bytes hs
  have hlt : bytesShifted s < h.length := by have := hs.length; omega
  have hdata : word.extractLsb' 0 6 = (h.getD (bytesShifted s) 0).extractLsb' 0 6 := by
    rw [extractData, hword 0 hpos, Nat.add_zero]
  obtain ⟨lines, length, -, -, pinsShown, shift, latched, light⟩ := hs
  have hpanel : panelAfter s.par.width t.trace =
      { panelAfter s.par.width s.trace with
        data := word.extractLsb' 0 6
        shift := ((panelAfter s.par.width s.trace).shift ++ [word.extractLsb' 0 6]).drop
          ((panelAfter s.par.width s.trace).shift.length + 1 - s.par.width) } := by
    rw [htr, panelAfter_append]
    rfl
  refine ⟨?_, ?_, ?_, ?_, ?_, ?_, ?_, ?_⟩
  · rw [hlat, hp, hline]; exact lines
  · rw [hb, hp, hq, hleft, length]
    omega
  · rw [hb, hosr, hleft]
    intro j hj
    rw [extractByte_shiftRight, hword (j + 1) (by omega), Nat.add_right_comm, Nat.add_assoc]
  · rw [hb, hp, hq, hleft]
    intro i hi j hj
    rw [hqueue i hi j hj]
    congr 1
    omega
  · rw [hp, hpanel, hpin]
    exact ⟨rfl, pinsShown.2⟩
  · have hlast := congrArg (List.map (BitVec.extractLsb' 0 6)) (lastOfTake_succ h 0 s.par.width hlt)
    rw [List.map_drop, List.map_append, List.map_singleton, ← hdata] at hlast
    rw [hb, hp, hpanel, ← hlast, shift, List.length_map]
  · rw [hlat, hp, hpanel]; exact latched
  · rw [hlat, hp, htr]
    intro k hk x hx y hy c
    rw [lightOfLine_unlit s.par x y c hk (by simp), light k hk x hx y hy c, hticks]

theorem dseq_td {s t : State} (hx : exec s.dseq.state.instr s = .next t) : t.flags.td = s.flags.td := by
  rcases dseq_next hx with rfl | ⟨-, rfl⟩ | ⟨-, w, l, q, -, ⟨-, rfl⟩ | ⟨-, rfl⟩⟩ | ⟨-, -, rfl⟩ <;> rfl

theorem dseq_scanHistory {s t : State} {h : List Byte} (hi : CoreInv s) (hs : ScanHistory s h)
    (hx : exec s.dseq.state.instr s = .next t) : ScanHistory t h := by
  rcases dseq_running hi.handshake hx with rfl | he
  · exact hs
  obtain ⟨hw, -⟩ := pass_facts hi.render.legal
  obtain ⟨hp, -, -, -, hr, ho⟩ := dseq_keeps hx
  have htd := dseq_td hx
  rcases dseq_columnsDone hi he hx with ⟨hd, htr, hpin, hq, hosr, hl⟩ | ⟨hd, word, left, q, hf, hq, hosr, hl, hpin, htr⟩
  · refine hs.keep hp htr (by rw [hpin]) (by rw [hpin]) hosr hl hq hd ?_ fun k _ => ?_
    · simp only [dataLine, rowLine, hr, hp]
    · exact ticksSoFar_congr hp (lastLineDone_congr hr htd) ho k
  · exact hs.shiftColumn hw hf hp hq hosr hl hr ho htd hpin htr hd

/-! ### The row sequencer (43_sequencers R210 to R218) -/

/-- A step of the row sequencer other than the latch leaves the line latched last as far shown as it is. -/
theorem rseq_lastLineDone {s t : State} (htok : Tokens s) (hl : s.rseq.state ≠ .latch)
    (hx : exec s.rseq.state.instr s = .next t) : lastLineDone t = lastLineDone s := by
  rcases rseq_next hx with rfl | ⟨hs, rfl⟩ | ⟨hs, rfl⟩ | ⟨hs, rfl⟩ | ⟨hs, -, rfl⟩ | ⟨hs, rfl⟩ | ⟨hs, rfl⟩ | ⟨hs, hf, rfl⟩ |
    ⟨hs, -, rfl⟩ | ⟨hs, -, -, rfl⟩ | ⟨hs, -, -, rfl⟩
  case inl => rfl
  case inr.inr.inr.inr.inr.inl => exact absurd hs hl
  case inr.inr.inr.inr.inr.inr.inl =>
    have htd := signalTiming_not_done htok hs
    simp only [lastLineDone, hs, htd]
  case inr.inr.inr.inr.inr.inr.inr.inl => simp only [lastLineDone, hs, hf]
  all_goals simp only [lastLineDone, hs]

/-- The latch: the line shifted is the line shown from now on, and has shed no light yet (43_sequencers R215, R236). -/
theorem latch_scanHistory {s t : State} {h : List Byte} (hi : CoreInv s) (he : s.engine = .running)
    (hs : ScanHistory s h) (hl : s.rseq.state = .latch) (hx : exec s.rseq.state.instr s = .next t) :
    ScanHistory t h := by
  have htok := hi.handshake.tokens he
  obtain ⟨hp, -, -, -, hd, ho, hq⟩ := rseq_keeps hx
  obtain ⟨hr, htr, hpin⟩ := latch_next hl hx
  have hfull := columnsDone_latch htok hl
  obtain ⟨-, hlatch, -, -, hwait, -⟩ := htok
  obtain ⟨hline, hcol⟩ := latch_line hl hr hp (hd ▸ (hlatch.1 (.inl hl)).1)
  have hlat : latches t.trace = latches s.trace + 1 := by rw [htr, latches_append]; rfl
  have hb : bytesShifted t = bytesShifted s := by
    simp only [bytesShifted, hlat, hp, hcol, hfull]
    ring
  have hpanel : panelAfter s.par.width t.trace =
      { panelAfter s.par.width s.trace with latched := (panelAfter s.par.width s.trace).shift } := by
    rw [htr, panelAfter_append]
    rfl
  obtain ⟨lines, length, register, queue, pinsShown, shift, -, light⟩ := hs
  refine ⟨?_, ?_, ?_, ?_, ?_, ?_, ?_, ?_⟩
  · rw [hlat, hp, hline]
    exact Nat.ModEq.add_right 1 lines
  · rw [hb, hd, hp, hq]; exact length
  · rw [hb, hd]; exact register
  · rw [hb, hd, hp, hq]; exact queue
  · rw [hp, hpanel, hpin]; exact pinsShown
  · rw [hb, hp, hpanel]; exact shift
  · intro _
    have hend : bytesShifted s = latches s.trace * s.par.width + s.par.width := by rw [bytesShifted, hfull]
    rw [hlat, hp, hpanel, Nat.add_sub_cancel]
    show (panelAfter s.par.width s.trace).shift = _
    rw [shift, hend, Nat.add_sub_cancel, List.drop_take, Nat.add_sub_cancel_left]
  · rw [hlat, hp, htr]
    intro k hk x hx y hy c
    by_cases hnew : k = latches s.trace
    · have hzero : ticksOfLine t k = 0 := by
        have hnot : ¬holding s := fun hh => by
          have := hwait.2 (.inr (.inl hh))
          rw [hl] at this
          cases this
        rw [ticksOfLine, hlat, if_neg (by omega)]
        exact ticksSoFar_resting (by simp only [lastLineDone, hr]) (by simpa only [holding, ho] using hnot) k
      rw [hnew, lightOfLine_latched s.par x y c rfl rfl (by simp), ← hnew, hzero, ite_self]
    · have hsame : ticksOfLine t k = ticksOfLine s k := by
        rw [ticksOfLine, ticksOfLine, hlat, if_pos (by omega), hp, ticksSoFar_done (by simp [lastLineDone, hl]), ite_self]
      rw [lightOfLine_unlit s.par x y c (by omega) (by simp), light k (by omega) x hx y hy c, hsame]

theorem rseq_scanHistory {s t : State} {h : List Byte} (hi : CoreInv s) (hs : ScanHistory s h)
    (hx : exec s.rseq.state.instr s = .next t) : ScanHistory t h := by
  rcases rseq_running hi.handshake hx with rfl | he
  · exact hs
  by_cases hl : s.rseq.state = .latch
  · exact latch_scanHistory hi he hs hl hx
  obtain ⟨hp, -, -, -, hd, ho, hq⟩ := rseq_keeps hx
  have hcol := rseq_columnsDone hl hx
  have hline := rseq_dataLine hi he hl hx
  have hticks := ticksSoFar_congr hp (rseq_lastLineDone (hi.handshake.tokens he) hl hx) ho
  rcases rseq_quiet hl hx with ⟨htr, hpin⟩ | ⟨a, htr, hpin⟩
  · exact hs.keep hp htr (by rw [hpin]) (by rw [hpin]) (by rw [hd]) (by rw [hd]) hq hcol hline fun k _ => hticks k
  · refine hs.emit (es := [.addr a]) (by simp) hp htr hd hq hcol hline ?_ (by rw [hpin]) fun k _ x _ y _ c => ?_
    · rw [htr, hpin, panelAfter_append]
      rfl
    · rw [lightFrom_no_tick _ _ _ _ _ (by simp), Nat.add_zero, hticks]

/-! ### The output-enable sequencer (43_sequencers R220 to R224) -/

/-- While a line is held the LEDs its bytes say are lit (43_sequencers R213, R236). -/
theorem lit_of_holding {s : State} {h : List Byte} (hi : CoreInv s) (he : s.engine = .running) (ha : AddressShown s)
    (hs : ScanHistory s h) (hh : holding s) {k x y : Nat} (hk : k + 1 = latches s.trace) (hx : x < s.par.width)
    (hy : y < 2 * s.par.activeRows) (c : Colour) :
    (panelAfter s.par.width s.trace).lit s.par x y c = true ↔ Shows s.par h k x y c := by
  obtain ⟨hwait, -⟩ := holding_awaits (hi.handshake.tokens he) hh
  obtain ⟨hrow, hplane⟩ := row_and_plane_waiting hi he hwait
  obtain ⟨-, hrowk⟩ := last_line hi.render hs (.inr (.inl hwait)) hrow hplane hk
  have hlegal := hi.render.legal
  have hrows := activeRows_of_legal hlegal
  have haddr : (panelAfter s.par.width s.trace).addr = addrEncode s.par s.rseq.rowIndex := by
    rw [hs.pinsShown.2]
    simpa only [AddressShown, hwait] using ha
  have hcolumn := hs.column_lt (show k < latches s.trace by omega) hx
  have hbit : ((panelAfter s.par.width s.trace).latched.getD x 0).getLsbD (groupPos s.par.chanPerm c + halfShift s.par y) =
      ledBit s.par y c (h.getD (k * s.par.width + x) 0) := by
    have hpos : groupPos s.par.chanPerm c + halfShift s.par y < 6 := by
      have := groupPos_lt s.par.chanPerm c
      unfold halfShift
      split <;> omega
    have hk' : latches s.trace - 1 = k := by omega
    rw [hs.latched (by omega), hk', List.getD_eq_getElem?_getD, List.getElem?_map, List.getElem?_take_of_lt hx,
      List.getElem?_drop, List.getElem?_eq_getElem hcolumn, List.getD_eq_getElem _ _ hcolumn]
    simp [ledBit, hpos]
  have hidx : BitVec.ofNat 32 s.rseq.rowIndex.toNat = s.rseq.rowIndex := by rw [BitVec.ofNat_toNat, BitVec.setWidth_eq]
  rw [lit_iff hlegal _ hx hy, hbit, haddr, Shows, hrowk]
  refine and_congr_left fun _ => ⟨fun e => ?_, fun e => by rw [← e, hidx]⟩
  rw [← hidx] at e
  exact addrEncode_inj (by omega) (Nat.lt_of_lt_of_le (Nat.mod_lt _ hrows.1) hrows.2) e

/-- A step of the output-enable sequencer adds its tick, if it has one, to the line latched last (43_sequencers R222). -/
theorem oseq_ticksSoFar {s t : State} {h : List Byte} (hi : CoreInv s) (he : s.engine = .running) (hs : ScanHistory s h)
    {es : List PinEvent} (htr : t.trace = s.trace ++ es)
    (htick : es.count .tick = if s.oseq.state = .hold ∧ (s.par.holdBias ≠ 0 ∨ s.oseq.cnt ≠ 0) then 1 else 0)
    (hx : exec s.oseq.state.instr s = .next t) {k : Nat} (hk : k + 1 = latches s.trace) :
    ticksSoFar t k = ticksSoFar s k + es.count .tick := by
  have htok := hi.handshake.tokens he
  have hplane (hw : s.rseq.state = .awaitTimingDone) : s.rseq.planeIndex.toNat < s.par.colorBits ∧
      k % s.par.colorBits = s.rseq.planeIndex.toNat := by
    obtain ⟨hrow, hpl⟩ := row_and_plane_waiting hi he hw
    exact ⟨hpl, (last_line hi.render hs (.inr (.inl hw)) hrow hpl hk).1⟩
  have hbias := holdBias_of_legal hi.render.legal
  obtain ⟨-, hbits⟩ := colorBits_of_legal hi.render.legal
  have hopen (hh : holding s) : lastLineDone s = false := by
    obtain ⟨hw, htd⟩ := holding_awaits htok hh
    rw [lastLineDone_waiting hw, htd]
  rcases oseq_next hx with rfl | ⟨ho, d, q, hq, rfl⟩ | ⟨ho, hts, rfl⟩ | ⟨ho, hc, hb, rfl⟩ | ⟨ho, hc, hb, es', -, rfl⟩ |
    ⟨ho, hc, es', -, rfl⟩ | ⟨ho, es', -, rfl⟩
  · rw [List.self_eq_append_right.1 htr]
    rfl
  · rw [htick, if_neg (by simp [ho]), Nat.add_zero]
    cases hd : lastLineDone s with
    | true =>
      rw [ticksSoFar_done hd]
      exact if_pos hd
    | false =>
      rw [ticksSoFar_resting hd (by simp [holding, ho])]
      exact if_neg (by rw [Bool.not_eq_true]; exact hd)
  · obtain ⟨hw, htd⟩ := started_awaits htok hts
    have hd : lastLineDone s = false := by rw [lastLineDone_waiting hw, htd]
    obtain ⟨hlt, hmod⟩ := hplane hw
    rw [htick, if_neg (by simp [ho]), ticksSoFar_resting hd (by simp [holding, ho])]
    refine (ticksSoFar_hold ?_ ?_ k).trans ?_
    · exact hd
    · rfl
    show delayWord (k % s.par.colorBits) - s.oseq.cnt.toNat = 0
    rw [hi.delays.loaded ho, holdsDone_of_pending htd hw, hmod, Nat.mod_eq_of_lt hlt, delayWord_toNat (by omega),
      Nat.sub_self]
  · rw [htick, if_neg (by simp [hc, hb]), ticksSoFar_hold (hopen (.inl ho)) ho, hc]
    refine (ticksSoFar_signalDone rfl k).trans ?_
    show delayWord (k % s.par.colorBits) + s.par.holdBias = delayWord (k % s.par.colorBits)
    rw [hb, Nat.add_zero]
  · rw [htick, if_pos ⟨ho, .inl hb⟩, ticksSoFar_hold (hopen (.inl ho)) ho, hc]
    refine (ticksSoFar_signalDone rfl k).trans ?_
    show delayWord (k % s.par.colorBits) + s.par.holdBias = delayWord (k % s.par.colorBits) + 1
    omega
  · have hd := hopen (.inl ho)
    obtain ⟨hw, -⟩ := holding_awaits htok (.inl ho)
    obtain ⟨-, hmod⟩ := hplane hw
    have hle := hi.delays.counting ho
    have hpos : 1 ≤ s.oseq.cnt.toNat := one_le_toNat hc
    rw [htick, if_pos ⟨ho, .inr hc⟩, ticksSoFar_hold hd ho]
    refine (ticksSoFar_hold ?_ ?_ k).trans ?_
    · exact hd
    · exact ho
    show delayWord (k % s.par.colorBits) - (s.oseq.cnt - 1).toNat = delayWord (k % s.par.colorBits) - s.oseq.cnt.toNat + 1
    rw [toNat_sub_one hpos, hmod]
    omega
  · obtain ⟨hw, -⟩ := holding_awaits htok (.inr ho)
    rw [htick, if_neg (by simp [ho]), ticksSoFar_signalDone ho]
    refine ticksSoFar_done ?_ k
    exact lastLineDone_waiting hw

theorem oseq_keeps {s t : State} (hx : exec s.oseq.state.instr s = .next t) :
    t.par = s.par ∧ t.dseq = s.dseq ∧ t.rseq = s.rseq ∧ t.dq = s.dq ∧ t.pins = { s.pins with oeN := t.pins.oeN } := by
  rcases oseq_next hx with rfl | ⟨-, d, q, -, rfl⟩ | ⟨-, -, rfl⟩ | ⟨-, -, -, rfl⟩ | ⟨-, -, -, es, -, rfl⟩ |
    ⟨-, -, es, -, rfl⟩ | ⟨-, es, -, rfl⟩ <;> exact ⟨rfl, rfl, rfl, rfl, rfl⟩

theorem oseq_scanHistory {s t : State} {h : List Byte} (hi : CoreInv s) (ha : AddressShown s) (hs : ScanHistory s h)
    (hx : exec s.oseq.state.instr s = .next t) : ScanHistory t h := by
  rcases oseq_running hi.handshake hx with rfl | he
  · exact hs
  obtain ⟨hp, hd, hr, hq, hpin⟩ := oseq_keeps hx
  obtain ⟨es, htr, hes, htick⟩ := oseq_trace hx
  have hcol : columnsDone t = columnsDone s := columnsDone_congr hp hd (by rw [oseq_ras hx, hr])
  have hline : dataLine t = dataLine s := by simp only [dataLine, rowLine, hr, hp]
  have hlat : PinEvent.lat true ∉ es := fun hm => by rcases hes _ hm with e | ⟨b, e⟩ <;> cases e
  refine hs.emit hlat hp htr hd hq hcol (congrArg (· % _) hline) ?_ (by rw [hpin]) fun k hk x hx' y hy c => ?_
  · rw [htr, panelAfter_append, see_oe _ _ hes, hpin, ← hs.pinsShown.2]
  · have hlit : es.count .tick ≠ 0 →
        ((panelAfter s.par.width s.trace).lit s.par x y c = true ↔ Shows s.par h k x y c) := fun hne => by
      have hh : s.oseq.state = .hold := by
        by_contra hno
        rw [htick, if_neg fun hc => hno hc.1] at hne
        exact hne rfl
      exact lit_of_holding hi he ha hs (.inl hh) hk hx' hy c
    rw [lightFrom_oe _ _ _ _ _ hes, oseq_ticksSoFar hi he hs htr htick hx hk]
    by_cases hzero : es.count .tick = 0
    · rw [hzero, ite_self, Nat.add_zero, Nat.add_zero]
    · rw [if_congr (hlit hzero) rfl rfl]
      split <;> rfl

/-! ### A step -/

/-- Settles O59, by the kinds of turn. -/
theorem stepKeepsScanHistory : Obligations.StepKeepsScanHistory := by
  intro s t h hi ha hs hx
  obtain ⟨e, hu, hx⟩ := hi.step_turn hx
  have hsu : ScanHistory { s with env := e } h := hs.congr rfl rfl rfl rfl rfl rfl rfl rfl
  have hbytes : bytesTaken (nextTurn s).1 s = bytesTaken (nextTurn s).1 { s with env := e } := rfl
  rw [hbytes]
  obtain ⟨c, hturn, hx⟩ | ⟨hturn, hx⟩ | ⟨hturn, hx⟩ | ⟨hturn, hx⟩ | ⟨hnone, hm⟩ := turn_cases hu.render hx
  · rw [hturn]
    exact transfer_scanHistory hu hsu hx
  · rw [hturn, bytesTaken, List.append_nil]
    exact dseq_scanHistory hu hsu hx
  · rw [hturn, bytesTaken, List.append_nil]
    exact rseq_scanHistory hu hsu hx
  · rw [hturn, bytesTaken, List.append_nil]
    exact oseq_scanHistory hu ha hsu hx
  · rw [hnone, List.append_nil]
    exact renderMove_scanHistory hu hsu hm

end Sys2Proof.Machine
end

section
/-! PROOFS. The handshake of the three sequencers (43_sequencers R200, R204, R230, R232, R235): every step keeps it, and it keeps
events from being lost, the pins quiet while the panel is lit, and the row address on the pins. -/

namespace Sys2Proof.Machine

/-! ### Every step keeps the handshake (43_sequencers R232) -/

theorem HandshakeInv.with_env {s : State} (h : HandshakeInv s) (e : Env) : HandshakeInv { s with env := e } :=
  h.congr rfl rfl rfl rfl rfl rfl h.setup

theorem transfer_handshake {c : Chan} {w : BitVec 16} {s t : State} (h : HandshakeInv s) (hx : transfer c w s = .next t) :
    HandshakeInv t := by
  obtain ⟨x1, x2, y1, y2, q1, q2, rfl⟩ := transfer_frame hx
  exact h.congr rfl rfl rfl rfl rfl rfl h.setup

/-- Settles O45, by the six kinds of turn. -/
theorem stepKeepsHandshake : Obligations.StepKeepsHandshake := by
  intro s t h hs
  obtain ⟨e, u, rfl, hx⟩ := step_next hs
  have hu := h.with_env e
  obtain ⟨i, hc, -, hx⟩ | rfl | ⟨c, hx⟩ | hx | hx | hx := hx
  · exact command_handshake hc hu hx
  · exact renderEvent_handshake hu
  · exact transfer_handshake hu hx
  · exact dseq_handshake hu hx
  · exact rseq_handshake hu hx
  · exact oseq_handshake hu hx

/-! ### The output side under the turns of the others (43_sequencers R200, 60_exceptions R260) -/

/-- What a turn that is no sequencer's leaves of the output side: ENGINE_SETUP's second event sets the row sequencer's
constants, nothing else moves. -/
structure OutputKept (s t : State) : Prop where
  par : t.par = s.par
  dseq : t.dseq = s.dseq
  rstate : t.rseq.state = s.rseq.state
  oseq : t.oseq = s.oseq
  flags : t.flags = s.flags
  pins : t.pins = s.pins
  trace : t.trace = s.trace
  engine : t.rseq = s.rseq ∧ t.engine = s.engine ∨ .setupPairB ∈ s.pending ∧ t.engine = .setup

theorem perform_outputKept {s : State} {e : MemEvent} (h : e = .setupPairB → .setupPairB ∈ s.pending) (act : Bool)
    (rp : RenderPort) : OutputKept s (perform e { s with active := act, render := rp }) := by
  by_cases hb : e = .setupPairB
  · rw [hb]
    exact ⟨rfl, rfl, rfl, rfl, rfl, rfl, rfl, .inr ⟨h hb, rfl⟩⟩
  by_cases ha : e = .setupPairA
  · rw [ha]
    exact ⟨rfl, rfl, rfl, rfl, rfl, rfl, rfl, .inl ⟨rfl, rfl⟩⟩
  obtain ⟨m, r, hf⟩ := perform_frame (s := { s with active := act, render := rp }) ha hb
  rw [hf]
  exact ⟨rfl, rfl, rfl, rfl, rfl, rfl, rfl, .inl ⟨rfl, rfl⟩⟩

theorem renderEvent_outputKept (s : State) : OutputKept s (renderEvent s) := by
  cases hf : s.render.inFlight with
  | none =>
    rw [renderEvent_idle hf]
    exact ⟨rfl, rfl, rfl, rfl, rfl, rfl, rfl, .inl ⟨rfl, rfl⟩⟩
  | some f =>
    rw [renderEvent_busy hf]
    refine perform_outputKept (fun he => ?_) _ _
    simp [State.pending, hf, he]

theorem beginCommand_outputKept (i : Instr) {s : State} {e : MemEvent} {es : List MemEvent} (h : e ≠ .setupPairB)
    (act : Bool) (rp : RenderPort) : OutputKept s (beginCommand i (e :: es) { s with active := act, render := rp }) :=
  perform_outputKept (fun he => absurd he h) act { rp with inFlight := inFlightOf i es, ret := none }

theorem transfer_outputKept {c : Chan} {w : BitVec 16} {s t : State} (h : transfer c w s = .next t) : OutputKept s t := by
  obtain ⟨x1, x2, y1, y2, q1, q2, rfl⟩ := transfer_frame h
  exact ⟨rfl, rfl, rfl, rfl, rfl, rfl, rfl, .inl ⟨rfl, rfl⟩⟩

/-- Of the commands only ENGINE_START moves a sequencer (42_transfer_engine R174). -/
theorem command_output {i : Instr} {s t : State} (hc : isCommand i = true) (h : exec i s = .next t) :
    OutputKept s t ∨ s.engine = .setup ∧ t = completeCommand none (startEngine s) := by
  obtain ⟨-, ⟨r, rfl⟩ | ⟨c, -, rfl⟩ | ⟨he, rfl⟩ | ⟨-, -, rfl⟩ |
    ⟨-, ⟨x, y, color, -, -, rfl⟩ | rfl | rfl | ⟨a, rfl⟩ | ⟨-, rfl⟩⟩⟩ := command_next hc h
  case inl | inr.inl => exact .inl ⟨rfl, rfl, rfl, rfl, rfl, rfl, rfl, .inl ⟨rfl, rfl⟩⟩
  case inr.inr.inl => exact .inr ⟨he, rfl⟩
  all_goals
    left
    refine beginCommand_outputKept _ ?_ _ _
    exact nofun

/-- A step is ENGINE_START, the move of a sequencer, or leaves the output side as it is. -/
theorem step_output {s t : State} (h : step s = .next t) :
    ∃ e u, u = { s with env := e } ∧
      (OutputKept u t ∨ (s.engine = .setup ∧ t = completeCommand none (startEngine u)) ∨
       exec u.dseq.state.instr u = .next t ∨ exec u.rseq.state.instr u = .next t ∨ exec u.oseq.state.instr u = .next t) := by
  obtain ⟨e, u, rfl, hx⟩ := step_next h
  refine ⟨e, _, rfl, ?_⟩
  obtain ⟨i, hc, -, hx⟩ | rfl | ⟨c, hx⟩ | hx | hx | hx := hx
  · exact (command_output hc hx).imp_right .inl
  · exact .inl (renderEvent_outputKept _)
  · exact .inl (transfer_outputKept hx)
  · exact .inr (.inr (.inl hx))
  · exact .inr (.inr (.inr (.inl hx)))
  · exact .inr (.inr (.inr (.inr hx)))

/-! ### The off states (43_sequencers R200, 10_state R42) -/

/-- A sequencer's own step neither enters nor leaves its off state, and leaves the others. -/
theorem dseq_off {s t : State} (h : exec s.dseq.state.instr s = .next t) :
    (t.dseq.state = .off ↔ s.dseq.state = .off) := by
  rcases dseq_next h with rfl | ⟨hs, rfl⟩ | ⟨hs, w, l, q, -, ⟨-, rfl⟩ | ⟨-, rfl⟩⟩ | ⟨hs, -, rfl⟩
  · rfl
  all_goals simp [hs]

theorem rseq_off {s t : State} (h : exec s.rseq.state.instr s = .next t) :
    (t.rseq.state = .off ↔ s.rseq.state = .off) := by
  rcases rseq_next h with rfl | ⟨hs, rfl⟩ | ⟨hs, rfl⟩ | ⟨hs, rfl⟩ | ⟨hs, -, rfl⟩ | ⟨hs, rfl⟩ | ⟨hs, rfl⟩ | ⟨hs, -, rfl⟩ |
    ⟨hs, -, rfl⟩ | ⟨hs, -, -, rfl⟩ | ⟨hs, -, -, rfl⟩
  case inl => rfl
  all_goals simp [hs]

theorem oseq_off {s t : State} (h : exec s.oseq.state.instr s = .next t) :
    (t.oseq.state = .off ↔ s.oseq.state = .off) := by
  rcases oseq_next h with rfl | ⟨hs, d, q, -, rfl⟩ | ⟨hs, -, rfl⟩ | ⟨hs, -, -, rfl⟩ | ⟨hs, -, -, es, -, rfl⟩ |
    ⟨hs, -, es, -, rfl⟩ | ⟨hs, es, -, rfl⟩
  case inl => rfl
  all_goals simp [hs]

/-- The sequencers of two states are off alike. -/
abbrev OffAlike (s t : State) : Prop :=
  (t.dseq.state = .off ↔ s.dseq.state = .off) ∧ (t.rseq.state = .off ↔ s.rseq.state = .off) ∧
  (t.oseq.state = .off ↔ s.oseq.state = .off)

/-- Only ENGINE_START moves a sequencer out of its off state, and nothing moves one into it. -/
theorem step_off {s t : State} (h : step s = .next t) :
    OffAlike s t ∧ (t.engine = s.engine ∨ .setupPairB ∈ s.pending ∧ t.engine = .setup) ∨
    (t.dseq.state ≠ .off ∧ t.rseq.state ≠ .off ∧ t.oseq.state ≠ .off) ∧ s.engine = .setup ∧ t.engine = .running := by
  obtain ⟨e, u, rfl, hk | ⟨he, rfl⟩ | hx | hx | hx⟩ := step_output h
  · exact .inl ⟨⟨by rw [hk.dseq], by rw [hk.rstate], by rw [hk.oseq]⟩, hk.engine.imp_left And.right⟩
  · refine .inr ⟨⟨?_, ?_, ?_⟩, he, rfl⟩ <;> exact nofun
  · have hoff := dseq_off hx
    obtain ⟨q, d, f, p, r, rfl⟩ := dseq_frame hx
    exact .inl ⟨⟨hoff, .rfl, .rfl⟩, .inl rfl⟩
  · have hoff := rseq_off hx
    obtain ⟨q, f, p, r, rfl⟩ := rseq_frame hx
    exact .inl ⟨⟨.rfl, hoff, .rfl⟩, .inl rfl⟩
  · have hoff := oseq_off hx
    obtain ⟨q, o, f, p, r, rfl⟩ := oseq_frame hx
    exact .inl ⟨⟨.rfl, .rfl, hoff⟩, .inl rfl⟩

/-- Settles O33: the off states have no step, and ENGINE advances with ENGINE_SETUP's second event, which is pending only
while it is OFF, and with ENGINE_START. -/
theorem offStatesLeaveByEngineStart : Obligations.OffStatesLeaveByEngineStart := by
  refine fun s => ⟨⟨rfl, rfl, rfl⟩, fun t h => ?_⟩
  obtain ⟨⟨hd, hr, ho⟩, he⟩ | ⟨⟨hd, hr, ho⟩, he, he'⟩ := step_off h
  · refine ⟨hd.1, hr.1, ho.1, ?_, fun hi => he.imp_right fun ⟨hp, he'⟩ => .inl ⟨(hi.setup hp).2, he'⟩⟩
    rintro (⟨h1, h2⟩ | ⟨h1, h2⟩ | ⟨h1, h2⟩)
    · exact absurd (hd.2 h1) h2
    · exact absurd (hr.2 h1) h2
    · exact absurd (ho.2 h1) h2
  · exact ⟨fun h => absurd h hd, fun h => absurd h hr, fun h => absurd h ho, fun _ => ⟨he, he'⟩,
      fun _ => .inr (.inr ⟨he, he'⟩)⟩

/-! ### Where the tokens are (43_sequencers R230, R232) -/

/-- A sequencer that is not off runs. -/
theorem HandshakeInv.running {s : State} (h : HandshakeInv s)
    (hs : s.dseq.state ≠ .off ∨ s.rseq.state ≠ .off ∨ s.oseq.state ≠ .off) : s.engine = .running := by
  by_contra he
  obtain ⟨hd, hr, ho, -⟩ := h.inert he
  rcases hs with hs | hs | hs
  · exact hs hd
  · exact hs hr
  · exact hs ho

/-- While the data sequencer shifts a line, the row sequencer has not been handed it. -/
theorem HandshakeInv.shifting {s : State} (h : HandshakeInv s) (hs : s.dseq.state = .shiftColumn) :
    s.flags.rdr = false ∧ ¬latching s := by
  obtain ⟨-, hlatch, -, hline, -⟩ := h.tokens (h.running (.inl (by simp [hs])))
  refine ⟨?_, fun hl => ?_⟩
  · by_contra hr
    have := hline (.inl (by simpa using hr))
    rw [hs] at this
    cases this
  · obtain ⟨hd, -⟩ := hlatch.1 hl
    rw [hs] at hd
    cases hd

/-- While the row sequencer owns a line, the data sequencer waits for its release. -/
theorem HandshakeInv.awaiting_of_latching {s : State} (h : HandshakeInv s) (hl : latching s) :
    s.dseq.state = .awaitNextRow ∧ s.flags.rdr = false ∧ s.flags.ras = false := by
  obtain ⟨-, hlatch, -⟩ := h.tokens (h.running (.inr (.inl (by rcases hl with hl | hl <;> simp [hl]))))
  exact hlatch.1 hl

/-- While no hold is awaited the panel is dark. -/
theorem HandshakeInv.dark_of_not_awaiting {s : State} (h : HandshakeInv s) (hs : s.rseq.state ≠ .awaitTimingDone) :
    s.pins.oeN = true := by
  by_contra ho
  have hh := h.dark (by simpa using ho)
  have he := h.running (.inr (.inr (by rcases hh with hh | hh <;> simp [hh])))
  exact hs (holding_awaits (h.tokens he) hh).1

/-! ### Flags (43_sequencers R204) -/

/-- The data sequencer raises RDR at the end of a line and clears RAS at the start of one. -/
theorem dseq_flags {s t : State} (h : exec s.dseq.state.instr s = .next t) :
    t.flags = s.flags ∨ (s.dseq.state = .shiftColumn ∧ t.flags = { s.flags with rdr := true }) ∨
    (s.dseq.state = .awaitNextRow ∧ t.flags = { s.flags with ras := false }) := by
  rcases dseq_next h with rfl | ⟨hs, rfl⟩ | ⟨hs, w, l, q, -, ⟨-, rfl⟩ | ⟨-, rfl⟩⟩ | ⟨hs, -, rfl⟩
  · exact .inl rfl
  · exact .inl rfl
  · exact .inr (.inl ⟨hs, rfl⟩)
  · exact .inl rfl
  · exact .inr (.inr ⟨hs, rfl⟩)

/-- The row sequencer clears RDR and TD, and raises TS and RAS together. -/
theorem rseq_flags {s t : State} (h : exec s.rseq.state.instr s = .next t) :
    t.flags = s.flags ∨ (s.rseq.state = .awaitData ∧ t.flags = { s.flags with rdr := false }) ∨
    (s.rseq.state = .signalTiming ∧ t.flags = { s.flags with ts := true, ras := true }) ∨
    (s.rseq.state = .awaitTimingDone ∧ t.flags = { s.flags with td := false }) := by
  rcases rseq_next h with rfl | ⟨hs, rfl⟩ | ⟨hs, rfl⟩ | ⟨hs, rfl⟩ | ⟨hs, -, rfl⟩ | ⟨hs, rfl⟩ | ⟨hs, rfl⟩ | ⟨hs, -, rfl⟩ |
    ⟨hs, -, rfl⟩ | ⟨hs, -, -, rfl⟩ | ⟨hs, -, -, rfl⟩
  case inr.inr.inr.inr.inl => exact .inr (.inl ⟨hs, rfl⟩)
  case inr.inr.inr.inr.inr.inr.inl => exact .inr (.inr (.inl ⟨hs, rfl⟩))
  case inr.inr.inr.inr.inr.inr.inr.inl => exact .inr (.inr (.inr ⟨hs, rfl⟩))
  all_goals exact .inl rfl

/-- The output-enable sequencer clears TS and raises TD. -/
theorem oseq_flags {s t : State} (h : exec s.oseq.state.instr s = .next t) :
    t.flags = s.flags ∨ (s.oseq.state = .awaitTimingStart ∧ t.flags = { s.flags with ts := false }) ∨
    (s.oseq.state = .signalDone ∧ t.flags = { s.flags with td := true }) := by
  rcases oseq_next h with rfl | ⟨-, d, q, -, rfl⟩ | ⟨hs, -, rfl⟩ | ⟨-, -, -, rfl⟩ | ⟨-, -, -, es, -, rfl⟩ |
    ⟨-, -, es, -, rfl⟩ | ⟨hs, es, -, rfl⟩
  case inr.inr.inl => exact .inr (.inl ⟨hs, rfl⟩)
  case inr.inr.inr.inr.inr.inr => exact .inr (.inr ⟨hs, rfl⟩)
  all_goals exact .inl rfl

/-- The flags that are 1 afterwards were 1 before, or `a` has just raised them: each is raised by one micro-operation. -/
abbrev RaisesOwn (a : Agent) (s t : State) : Prop :=
  (t.flags.rdr = true → s.flags.rdr = true ∨ a = .dseq ∧ s.dseq.state = .shiftColumn) ∧
  (t.flags.ras = true → s.flags.ras = true ∨ a = .rseq ∧ s.rseq.state = .signalTiming) ∧
  (t.flags.ts = true → s.flags.ts = true ∨ a = .rseq ∧ s.rseq.state = .signalTiming) ∧
  (t.flags.td = true → s.flags.td = true ∨ a = .oseq ∧ s.oseq.state = .signalDone)

theorem RaisesOwn.of_eq {a : Agent} {s t : State} (h : t.flags = s.flags) : RaisesOwn a s t := by
  rw [RaisesOwn, h]
  exact ⟨.inl, .inl, .inl, .inl⟩

theorem agentStep_raises {a : Agent} {s t : State} (h : agentStep a s = .next t) : RaisesOwn a s t := by
  cases a with
  | render =>
    cases h
    exact .of_eq (renderEvent_outputKept s).flags
  | chan c => exact .of_eq (transfer_outputKept ((channelStep_eq c s).symm.trans h)).flags
  | dseq =>
    rcases dseq_flags h with hf | ⟨hs, hf⟩ | ⟨-, hf⟩
    · exact .of_eq hf
    · rw [RaisesOwn, hf]
      exact ⟨fun _ => .inr ⟨rfl, hs⟩, .inl, .inl, .inl⟩
    · rw [RaisesOwn, hf]
      exact ⟨.inl, nofun, .inl, .inl⟩
  | rseq =>
    rcases rseq_flags h with hf | ⟨-, hf⟩ | ⟨hs, hf⟩ | ⟨-, hf⟩
    · exact .of_eq hf
    · rw [RaisesOwn, hf]
      exact ⟨nofun, .inl, .inl, .inl⟩
    · rw [RaisesOwn, hf]
      exact ⟨.inl, fun _ => .inr ⟨rfl, hs⟩, fun _ => .inr ⟨rfl, hs⟩, .inl⟩
    · rw [RaisesOwn, hf]
      exact ⟨.inl, .inl, .inl, nofun⟩
  | oseq =>
    rcases oseq_flags h with hf | ⟨-, hf⟩ | ⟨hs, hf⟩
    · exact .of_eq hf
    · rw [RaisesOwn, hf]
      exact ⟨.inl, .inl, nofun, .inl⟩
    · rw [RaisesOwn, hf]
      exact ⟨.inl, .inl, .inl, fun _ => .inr ⟨rfl, hs⟩⟩

/-- Settles O46: before a flag is raised its token is with the sequencer that raises it. -/
theorem noEventIsLost : Obligations.NoEventIsLost := by
  intro a s t h ht
  obtain ⟨hrdr, hras, hts, htd⟩ := agentStep_raises ht
  refine ⟨fun ⟨_, hs⟩ => (h.shifting hs).1, fun ⟨_, hs⟩ => ⟨?_, ?_⟩, fun ⟨_, hs⟩ => ?_, fun ⟨hf, hr⟩ => ?_, ?_,
    fun ⟨hf, hr⟩ => ?_⟩
  · have htok := h.tokens (h.running (.inr (.inl (by simp [hs]))))
    by_contra hf
    have := (started_awaits htok (by simpa using hf)).1
    rw [hs] at this
    cases this
  · exact (h.awaiting_of_latching (.inr hs)).2.2
  · exact (holding_awaits (h.tokens (h.running (.inr (.inr (by simp [hs]))))) (.inr hs)).2
  · exact (hrdr hr).resolve_left (by simp [hf])
  · rintro (⟨hf, hr⟩ | ⟨hf, hr⟩)
    · exact (hras hr).resolve_left (by simp [hf])
    · exact (hts hr).resolve_left (by simp [hf])
  · exact (htd hr).resolve_left (by simp [hf])

/-! ### The pins (43_sequencers R235) -/

/-- ADDR changes, LAT pulses and CLK pulses only when R235 lets them. -/
abbrev PinsDisciplined (s t : State) : Prop :=
  (t.pins.addr ≠ s.pins.addr → s.pins.oeN = true ∧ t.pins.oeN = true) ∧
  ∃ es, t.trace = s.trace ++ es ∧
    (.lat true ∈ es → s.pins.oeN = true ∧ t.pins.oeN = true ∧ s.dseq.state = .awaitNextRow) ∧
    (.clk true ∈ es → s.dseq.state = .shiftColumn ∧ s.flags.rdr = false ∧ ¬latching s)

theorem PinsDisciplined.of_kept {s t : State} (hp : t.pins = s.pins) (htr : t.trace = s.trace) : PinsDisciplined s t :=
  ⟨fun h => absurd (congrArg Pins.addr hp) h, [], by rw [htr, List.append_nil], nofun, nofun⟩

theorem dseq_pins {s t : State} (hi : HandshakeInv s) (h : exec s.dseq.state.instr s = .next t) :
    PinsDisciplined s t := by
  rcases dseq_next h with rfl | ⟨hs, rfl⟩ | ⟨hs, w, l, q, -, ⟨-, rfl⟩ | ⟨-, rfl⟩⟩ | ⟨hs, -, rfl⟩
  case inr.inr.inl.inl | inr.inr.inl.inr =>
    exact ⟨fun ha => absurd rfl ha, _, rfl, fun hm => absurd hm (by simp), fun _ => ⟨hs, hi.shifting hs⟩⟩
  all_goals exact .of_kept rfl rfl

theorem rseq_pins {s t : State} (hi : HandshakeInv s) (h : exec s.rseq.state.instr s = .next t) :
    PinsDisciplined s t := by
  have hdark := hi.dark_of_not_awaiting
  rcases rseq_next h with rfl | ⟨hs, rfl⟩ | ⟨hs, rfl⟩ | ⟨hs, rfl⟩ | ⟨hs, -, rfl⟩ | ⟨hs, rfl⟩ | ⟨hs, rfl⟩ | ⟨hs, -, rfl⟩ |
    ⟨hs, -, rfl⟩ | ⟨hs, -, -, rfl⟩ | ⟨hs, -, -, rfl⟩
  case inr.inr.inr.inl =>
    have ho := hdark (by simp [hs])
    exact ⟨fun _ => ⟨ho, ho⟩, _, rfl, fun hm => absurd hm (by simp), fun hm => absurd hm (by simp)⟩
  case inr.inr.inr.inr.inr.inl =>
    have ho := hdark (by simp [hs])
    exact ⟨fun ha => absurd rfl ha, _, rfl, fun _ => ⟨ho, ho, (hi.awaiting_of_latching (.inl hs)).1⟩,
      fun hm => absurd hm (by simp)⟩
  all_goals exact .of_kept rfl rfl

theorem oseq_pins {s t : State} (h : exec s.oseq.state.instr s = .next t) : PinsDisciplined s t := by
  obtain ⟨-, -, -, -, hp⟩ := oseq_keeps h
  obtain ⟨es, htr, hes, -⟩ := oseq_trace h
  refine ⟨fun ha => absurd (by rw [hp]) ha, es, htr, fun hm => ?_, fun hm => ?_⟩
  all_goals rcases hes _ hm with he | ⟨b, he⟩ <;> cases he

/-- Settles O47: the discipline by the kinds of turn, what the pins are afterwards by O45. -/
theorem pinDiscipline : Obligations.PinDiscipline := by
  intro s t hi h
  obtain ⟨-, -, hdark, ⟨hclk, hlat⟩, -⟩ := stepKeepsHandshake s t hi h
  have hpins : PinsDisciplined s t := by
    obtain ⟨e, u, rfl, hk | ⟨-, rfl⟩ | hx | hx | hx⟩ := step_output h
    · exact .of_kept hk.pins hk.trace
    · exact .of_kept rfl rfl
    · exact dseq_pins (s := { s with env := e }) (hi.with_env e) hx
    · exact rseq_pins (s := { s with env := e }) (hi.with_env e) hx
    · exact oseq_pins (s := { s with env := e }) hx
  exact ⟨hclk, hlat, hpins.1, hpins.2, hdark⟩

/-! ### The row address on the pins (43_sequencers R212, R231 (b)) -/

/-- What `AddressShown` reads. -/
theorem AddressShown.congr {s t : State} (h : AddressShown s) (hp : t.par = s.par) (hr : t.rseq = s.rseq)
    (ha : t.pins.addr = s.pins.addr) : AddressShown t := by
  simpa only [AddressShown, hp, hr, ha] using h

/-- R_SET_ADDRESS shows the row, and no step up to R_NEXT changes it. -/
theorem rseq_addressShown {s t : State} (h : AddressShown s) (hx : exec s.rseq.state.instr s = .next t) :
    AddressShown t := by
  rcases rseq_next hx with rfl | ⟨hs, rfl⟩ | ⟨hs, rfl⟩ | ⟨hs, rfl⟩ | ⟨hs, -, rfl⟩ | ⟨hs, rfl⟩ | ⟨hs, rfl⟩ | ⟨hs, -, rfl⟩ |
    ⟨hs, -, rfl⟩ | ⟨hs, -, -, rfl⟩ | ⟨hs, -, -, rfl⟩
  case inl => exact h
  case inr.inr.inr.inl => rfl
  case inr.inr.inr.inr.inl | inr.inr.inr.inr.inr.inl | inr.inr.inr.inr.inr.inr.inl | inr.inr.inr.inr.inr.inr.inr.inl =>
    simp only [AddressShown, hs] at h
    exact h
  all_goals exact trivial

theorem step_addressShown {s t : State} (hi : HandshakeInv s) (ha : AddressShown s) (h : step s = .next t) :
    AddressShown t := by
  obtain ⟨e, u, rfl, hk | ⟨-, rfl⟩ | hx | hx | hx⟩ := step_output h
  · rcases hk.engine with ⟨hr, -⟩ | ⟨hp, -⟩
    · exact ha.congr hk.par hr (by rw [hk.pins])
    · obtain ⟨-, hoff, -⟩ := hi.inert (by rw [(hi.setup hp).2]; decide)
      simp only [AddressShown, hk.rstate, hoff]
  · exact trivial
  · have hpins : t.pins.addr = s.pins.addr := by
      rcases dseq_next hx with rfl | ⟨-, rfl⟩ | ⟨-, w, l, q, -, ⟨-, rfl⟩ | ⟨-, rfl⟩⟩ | ⟨-, -, rfl⟩ <;> rfl
    obtain ⟨hp, -, -, -, hr, -⟩ := dseq_keeps hx
    exact ha.congr hp hr hpins
  · exact rseq_addressShown (s := { s with env := e }) ha hx
  · obtain ⟨hp, -, hr, -, hpins⟩ := oseq_keeps hx
    exact ha.congr hp hr (by rw [hpins])

/-- Settles O48: while the panel is lit the row sequencer waits for the end of the hold, so the pins show its row. -/
theorem addressPinsShowTheRow : Obligations.AddressPinsShowTheRow := by
  refine fun s hi ha => ⟨fun ho => ?_, fun t h => step_addressShown hi ha h⟩
  have hw : s.rseq.state = .awaitTimingDone := by
    by_contra hw
    rw [hi.dark_of_not_awaiting hw] at ho
    cases ho
  simpa only [AddressShown, hw] using ha

end Sys2Proof.Machine
end


section
/-! PROOFS. The micro-operations of the sequencers (43_sequencers R201 to R224): the whole next state of each, and the ticks of
a hold. -/

namespace Sys2Proof.Machine

/-! ### Counters (43_sequencers R201, R210, R211, R218) -/

/-- Settles O34. -/
theorem counterLoads : Obligations.CounterLoads := fun _ =>
  ⟨⟨_, rfl, fun _ => rfl, lastColumn_toNat, rfl⟩, ⟨_, rfl, fun _ => rfl, rfl⟩, ⟨_, rfl, fun _ => rfl, rfl⟩⟩

/-- A counter that is not 0 counts down to the number below it. -/
theorem toNat_pred {x : Word} (h : x ≠ 0) : (x - 1).toNat + 1 = x.toNat := by
  have hpos := one_le_toNat h
  rw [toNat_sub_one hpos]
  omega

/-- Settles O38, by the three cases of the counters. -/
theorem rNextCountsDown : Obligations.RNextCountsDown := by
  intro s
  by_cases hp : s.rseq.plane = 0
  · by_cases hr : s.rseq.row = 0
    · refine ⟨s.rGoto .loadRowCount, (if_neg (not_not_intro hp)).trans (if_neg (not_not_intro hr)), fun _ => rfl, rfl, rfl,
        rfl, fun h => absurd hp h, fun _ h => absurd hr h, fun _ _ => rfl⟩
    · refine ⟨{ s with rseq := { s.rseq with row := s.rseq.row - 1, state := .loadPlaneCount } },
        (if_neg (not_not_intro hp)).trans (if_pos hr), fun _ => rfl, rfl, rfl, rfl, fun h => absurd hp h,
        fun _ _ => ⟨toNat_pred hr, rfl, rfl⟩, fun _ h => absurd h hr⟩
  · refine ⟨{ s with rseq := { s.rseq with plane := s.rseq.plane - 1, state := .setAddress } },
      if_pos hp, fun _ => rfl, rfl, rfl, rfl, fun _ => ⟨toNat_pred hp, rfl, rfl⟩,
      fun h => absurd h hp, fun h => absurd h hp⟩

/-! ### The data sequencer's column (43_sequencers R202) -/

theorem dShiftColumn_fetched {s : State} {word : Word} {left : Nat} {q : List Word} (h : Fetched s word left q) :
    exec .dShiftColumn s = .next (countColumn (shiftByte
      { s with dq := q, dseq := { s.dseq with osr := word, osrLeft := left } })) := by
  simp only [exec, execDShiftColumn, refill_fetched h]

theorem toNat_shiftRight_byte (w : Word) : (w >>> 8).toNat = w.toNat / 256 := by
  rw [BitVec.toNat_ushiftRight, Nat.shiftRight_eq_div_pow]

/-- Settles O35: the byte is fetched, shifted out, and its column counted. -/
theorem shiftColumnMakesThreePinEvents : Obligations.ShiftColumnMakesThreePinEvents := by
  intro s word left q hf
  have hx := dShiftColumn_fetched hf
  by_cases hc : s.dseq.col = 0
  · exact ⟨_, hx.trans (congrArg _ (if_pos hc)), fun _ => rfl, toNat_shiftRight_byte word, rfl, rfl, rfl, rfl,
      fun _ => ⟨hc, rfl, rfl⟩, fun h => absurd hc h, rfl⟩
  · exact ⟨_, hx.trans (congrArg _ (if_neg hc)), fun _ => rfl, toNat_shiftRight_byte word, rfl, rfl, rfl, rfl,
      fun h => absurd h hc, fun _ => ⟨toNat_pred hc, rfl, rfl⟩, rfl⟩

/-! ### Awaits and signals (43_sequencers R203, R214, R216, R217, R221, R223) -/

theorem dAwaitNextRow_goes {s : State} (h : s.flags.ras = true) : exec .dAwaitNextRow s = .next { s with
    flags := { s.flags with ras := false }, dseq := { s.dseq with state := .loadWidth } } := if_pos h

theorem rAwaitData_goes {s : State} (h : s.flags.rdr = true) : exec .rAwaitData s = .next { s with
    flags := { s.flags with rdr := false }, rseq := { s.rseq with state := .latch } } := if_pos h

theorem rAwaitTimingDone_goes {s : State} (h : s.flags.td = true) : exec .rAwaitTimingDone s = .next { s with
    flags := { s.flags with td := false }, rseq := { s.rseq with state := .next } } := if_pos h

theorem oAwaitTimingStart_goes {s : State} (h : s.flags.ts = true) : exec .oAwaitTimingStart s = .next { s with
    flags := { s.flags with ts := false }, oseq := { s.oseq with state := .hold } } := if_pos h

theorem oSignalDone_goes (s : State) : exec .oSignalDone s = .next { s with
    pins := { s.pins with oeN := true }
    trace := if s.pins.oeN = true then s.trace else s.trace ++ [.oe true]
    flags := { s.flags with td := true }
    oseq := { s.oseq with state := .loadDelay } } := by
  have hd : deassertOe s = { s with
      pins := { s.pins with oeN := true }, trace := if s.pins.oeN = true then s.trace else s.trace ++ [.oe true] } := by
    unfold deassertOe
    split
    · next ho => rw [← ho]
    · rfl
  rw [exec, execOSignalDone, hd]
  rfl

/-- Settles O36. -/
theorem awaitsAndSignals : Obligations.AwaitsAndSignals := by
  intro s
  refine ⟨fun h => by simp [enabled, dEnabled, h], fun h => by simp [enabled, rEnabled, h],
    fun h => by simp [enabled, rEnabled, h], fun h => by simp [enabled, oEnabled, h], fun h => by simp [enabled, rEnabled, h],
    fun h => by simp [enabled, oEnabled, h], dAwaitNextRow_goes, rAwaitData_goes, rAwaitTimingDone_goes,
    oAwaitTimingStart_goes, rfl, oSignalDone_goes s, fun i raised hm hr => ?_⟩
  simp only [List.mem_cons, List.not_mem_nil, or_false, Prod.mk.injEq] at hm
  rcases hm with ⟨rfl, rfl⟩ | ⟨rfl, rfl⟩ | ⟨rfl, rfl⟩ | ⟨rfl, rfl⟩ | ⟨rfl, -⟩ | ⟨rfl, -⟩
  · exact ⟨_, dAwaitNextRow_goes hr, fun _ => rfl⟩
  · exact ⟨_, rAwaitData_goes hr, fun _ => rfl⟩
  · exact ⟨_, rAwaitTimingDone_goes hr, fun _ => rfl⟩
  · exact ⟨_, oAwaitTimingStart_goes hr, fun _ => rfl⟩
  · exact ⟨_, rfl, fun _ => rfl⟩
  · exact ⟨_, oSignalDone_goes s, fun _ => rfl⟩

/-! ### The row address and the latch (43_sequencers R212, R213, R215) -/

/-- Each address bit is the row's, inverted if so built. -/
theorem getLsbD_addrEncode (p : Params) (r : Word) {k : Nat} (hk : k < 5) :
    (addrEncode p r).getLsbD k = xor p.addrInvert (r.getLsbD k) := by
  have hones : (0b11111#5).getLsbD k = true := by
    rw [show (0b11111#5) = BitVec.allOnes 5 from rfl, BitVec.getLsbD_allOnes, decide_eq_true hk]
  unfold addrEncode
  cases p.addrInvert
  · simp [hk]
  · rw [if_pos rfl, BitVec.getLsbD_xor, hones, BitVec.getLsbD_setWidth, decide_eq_true hk, Bool.true_and, Bool.xor_comm]

/-- Settles O37. -/
theorem setAddressAndLatch : Obligations.SetAddressAndLatch := fun s =>
  ⟨⟨_, rfl, fun _ => rfl, fun _ hk => getLsbD_addrEncode s.par _ hk, rfl⟩, _, rfl, fun _ => rfl, rfl⟩

/-! ### Delay words and holds (43_sequencers R220, R222, R224) -/

/-- Settles O39. -/
theorem loadDelayPopsOneWord : Obligations.LoadDelayPopsOneWord := by
  refine fun s => ⟨fun d q hq => ⟨{ s with oq := q, oseq := { cnt := d, state := .awaitTimingStart } },
    by simp only [exec, execOLoadDelay, hq], fun _ => rfl, rfl⟩, oLoadDelay_waits⟩

/-- What `k` ticks put on the trace, from a line that is high or low. -/
def tickEvents (high : Bool) (k : Nat) : List PinEvent :=
  (if high = true ∧ 0 < k then [.oe false] else []) ++ List.replicate k .tick

theorem tickEvents_add (high : Bool) (j k : Nat) :
    tickEvents high j ++ tickEvents (high && decide (j = 0)) k = tickEvents high (j + k) := by
  cases j with
  | zero => simp [tickEvents]
  | succ j => cases high <;> simp [tickEvents]

/-- The state after `k` ticks, with the output-enable sequencer at `o`. -/
def afterTicks (s : State) (k : Nat) (o : OSeq) : State :=
  { s with
    oseq := o, pins := { s.pins with oeN := s.pins.oeN && decide (k = 0) }, trace := s.trace ++ tickEvents s.pins.oeN k }

theorem afterTicks_afterTicks (s : State) (j k : Nat) (o o' : OSeq) :
    afterTicks (afterTicks s j o) k o' = afterTicks s (j + k) o' := by
  simp only [afterTicks, List.append_assoc, tickEvents_add, Bool.and_assoc, ← Bool.decide_and, Nat.add_eq_zero_iff]

theorem assertOe_tick (s : State) (o : OSeq) :
    { (assertOe s).emit [.tick] with oseq := o } = afterTicks s 1 o ∧ ((assertOe s).emit [.tick]).oseq = s.oseq := by
  cases hp : s.pins.oeN <;> simp [assertOe, afterTicks, tickEvents, State.emit, hp]
  rw [← hp]

/-- O_HOLD before the last step of a hold. -/
theorem oHold_tick {s : State} (hc : s.oseq.cnt ≠ 0) :
    exec .oHold s = .next (afterTicks s 1 { s.oseq with cnt := s.oseq.cnt - 1 }) := by
  obtain ⟨ht, ho⟩ := assertOe_tick s { s.oseq with cnt := s.oseq.cnt - 1 }
  rw [exec, execOHold, if_neg hc, if_neg hc, ite_self, ← ht, countDown, ho]

/-- The last step of a hold with a bias. -/
theorem oHold_lastTick {s : State} (hb : s.par.holdBias ≠ 0) (hc : s.oseq.cnt = 0) :
    exec .oHold s = .next (afterTicks s 1 { s.oseq with state := .signalDone }) := by
  obtain ⟨ht, ho⟩ := assertOe_tick s { s.oseq with state := .signalDone }
  rw [exec, execOHold, if_neg hb, if_pos hc, ← ht, State.oGoto, ho]

/-- The last step of a hold without a bias. -/
theorem oHold_over {s : State} (hb : s.par.holdBias = 0) (hc : s.oseq.cnt = 0) :
    exec .oHold s = .next (afterTicks s 0 { s.oseq with state := .signalDone }) := by
  simp [exec, execOHold, hb, hc, State.oGoto, afterTicks, tickEvents]

theorem afterTicks_one (s : State) (o : OSeq) :
    (afterTicks s 1 o).trace = s.trace ++ (if s.pins.oeN = true then [.oe false, .tick] else [.tick]) ∧
    afterTicks s 1 o = { s with
      oseq := o, pins := { s.pins with oeN := false }, trace := (afterTicks s 1 o).trace } := by
  cases hp : s.pins.oeN <;> simp [afterTicks, tickEvents, hp]

/-- Settles O40. -/
theorem holdIsOneTick : Obligations.HoldIsOneTick := by
  refine fun s => ⟨fun h => ?_, fun hb hc => ⟨_, oHold_over hb hc, fun _ => rfl, ?_⟩⟩
  · by_cases hc : s.oseq.cnt = 0
    · have hb : s.par.holdBias ≠ 0 := fun hb => by
        rcases h with h | ⟨-, h⟩
        · rw [hb] at h
          cases h
        · exact h hc
      obtain ⟨htr, ht⟩ := afterTicks_one s { s.oseq with state := .signalDone }
      exact ⟨_, oHold_lastTick hb hc, fun _ => rfl, htr, fun _ => rfl, fun h => absurd hc h, ht⟩
    · obtain ⟨htr, ht⟩ := afterTicks_one s { s.oseq with cnt := s.oseq.cnt - 1 }
      exact ⟨_, oHold_tick hc, fun _ => rfl, htr, fun h => absurd h hc, fun _ => ⟨toNat_pred hc, rfl⟩, ht⟩
  · simp [afterTicks, tickEvents]

/-- A hold with `n` in CNT, by induction on `n`: each step before the last is a tick. -/
theorem holdSteps_eq (n : Nat) {s : State} (hs : s.oseq.state = .hold) (hn : s.oseq.cnt.toNat = n)
    (hb : s.par.holdBias ≤ 1) :
    holdSteps (n + 1) s = .next (afterTicks s (n + s.par.holdBias) { state := .signalDone, cnt := 0 }) := by
  induction n generalizing s with
  | zero =>
    have hc : s.oseq.cnt = 0 := BitVec.eq_of_toNat_eq hn
    have hx : execOHold s = .next (afterTicks s s.par.holdBias { s.oseq with state := .signalDone }) := by
      rcases Nat.le_one_iff_eq_zero_or_eq_one.1 hb with h0 | h1
      · rw [h0]
        exact oHold_over h0 hc
      · rw [h1]
        exact oHold_lastTick (by omega) hc
    rw [holdSteps, hx, Nat.zero_add, ← hc]
    rfl
  | succ n ih =>
    have hc : s.oseq.cnt ≠ 0 := fun h => by rw [h] at hn; cases hn
    have hx : execOHold s = .next (afterTicks s 1 { s.oseq with cnt := s.oseq.cnt - 1 }) := oHold_tick hc
    have hpred := toNat_pred hc
    have hrest := ih (s := afterTicks s 1 { s.oseq with cnt := s.oseq.cnt - 1 }) hs (by simp only [afterTicks]; omega) hb
    rw [holdSteps, hx]
    refine hrest.trans ?_
    rw [afterTicks_afterTicks, ← Nat.add_assoc, Nat.add_comm 1 n]
    rfl

/-- Settles O41, by induction over the count (`holdSteps_eq`). -/
theorem holdTickCount : Obligations.HoldTickCount := by
  intro s hs hb
  refine ⟨_, holdSteps_eq _ hs rfl hb, rfl, ?_, ?_, rfl⟩
  · simp only [afterTicks, tickEvents, List.append_assoc]
  · simp only [afterTicks, Bool.and_eq_false_iff, decide_eq_false_iff_not]
    exact or_congr_right Nat.pos_iff_ne_zero.symm

end Sys2Proof.Machine
end


section
/-! PROOFS. Progress (43_sequencers R232, 60_exceptions R256): while the engine runs some channel or sequencer has an enabled
step, and under a weakly fair schedule (00_scope R11) each of them steps infinitely often. -/

namespace Sys2Proof.Machine

/-! ### No stuck state (43_sequencers R232, 42_transfer_engine R177) -/

/-- The channel of pair A that is busy while the engine runs. -/
def feederA (s : State) : Agent := .chan (if s.a2.busy then .a2 else .a1)

/-- The channel of pair B that is busy while the engine runs. -/
def feederB (s : State) : Agent := .chan (if s.b2.busy then .b2 else .b1)

/-- With room in `DQ` the busy channel of pair A has an enabled step. -/
theorem feederA_enabled {s : State} (h : ChannelInv s) (he : s.engine = .running) (hroom : s.dq.length < s.par.qdData) :
    enabled (feederA s) s = true := by
  obtain ⟨hpair, -⟩ := h.pairs he
  cases hb : s.a2.busy with
  | true =>
    rw [feederA, hb]
    exact (chanEnabled_iff h he .a2).2 hb
  | false =>
    rw [feederA, hb]
    exact (chanEnabled_iff h he .a1).2 ⟨by simp [hpair, hb], hroom⟩

theorem feederB_enabled {s : State} (h : ChannelInv s) (he : s.engine = .running) (hroom : s.oq.length < s.par.qdOe) :
    enabled (feederB s) s = true := by
  obtain ⟨-, hpair⟩ := h.pairs he
  cases hb : s.b2.busy with
  | true =>
    rw [feederB, hb]
    exact (chanEnabled_iff h he .b2).2 hb
  | false =>
    rw [feederB, hb]
    exact (chanEnabled_iff h he .b1).2 ⟨by simp [hpair, hb], hroom⟩

theorem queueDepths_of_legal {p : Params} (h : ParamsLegal p) : 1 ≤ p.qdData ∧ 1 ≤ p.qdOe := by
  obtain ⟨-, -, -, -, -, hqd, hqo, -⟩ := h
  exact ⟨hqd, hqo⟩

/-- A data sequencer that waits has an empty `DQ`, or waits for the release of a line. -/
theorem dseq_waiting {s : State} (h : Tokens s) (hd : dEnabled s = false) :
    s.dseq.state = .shiftColumn ∧ s.dseq.osrLeft = 0 ∧ s.dq = [] ∨ s.dseq.state = .awaitNextRow ∧ s.flags.ras = false := by
  obtain ⟨⟨hoff, -⟩, -⟩ := h
  cases hs : s.dseq.state <;> simp only [dEnabled, hs] at hd
  case off => exact absurd hs hoff
  case loadWidth => cases hd
  case shiftColumn =>
    simp only [Bool.or_eq_false_iff, decide_eq_false_iff_not, Bool.not_eq_false', List.isEmpty_iff] at hd
    exact .inl ⟨rfl, by omega, hd.2⟩
  case awaitNextRow => exact .inr ⟨rfl, hd⟩

/-- A row sequencer that waits, waits for a line or for the end of a hold. -/
theorem rseq_waiting {s : State} (h : Tokens s) (hr : rEnabled s = false) :
    s.rseq.state = .awaitData ∧ s.flags.rdr = false ∨ s.rseq.state = .awaitTimingDone ∧ s.flags.td = false := by
  obtain ⟨⟨-, hoff, -⟩, -⟩ := h
  cases hs : s.rseq.state <;> simp only [rEnabled, hs] at hr
  case off => exact absurd hs hoff
  case awaitData => exact .inl ⟨rfl, hr⟩
  case awaitTimingDone => exact .inr ⟨rfl, hr⟩
  all_goals cases hr

/-- An output-enable sequencer that waits has an empty `OQ`, or waits for the start of a hold. -/
theorem oseq_waiting {s : State} (h : Tokens s) (ho : oEnabled s = false) :
    s.oseq.state = .loadDelay ∧ s.oq = [] ∨ s.oseq.state = .awaitTimingStart ∧ s.flags.ts = false := by
  obtain ⟨⟨-, -, hoff⟩, -⟩ := h
  cases hs : s.oseq.state <;> simp only [oEnabled, hs] at ho
  case off => exact absurd hs hoff
  case loadDelay => exact .inl ⟨rfl, by simpa using ho⟩
  case awaitTimingStart => exact .inr ⟨rfl, ho⟩
  all_goals cases ho

/-- While the row sequencer waits for a line, the data sequencer has it to shift. -/
theorem line_with_dseq {s : State} (h : Tokens s) (hs : s.rseq.state = .awaitData) (hf : s.flags.rdr = false) :
    s.dseq.state = .awaitNextRow → s.flags.ras = true := by
  obtain ⟨-, hlatch, -⟩ := h
  intro hd
  by_contra hras
  rcases hlatch.2 ⟨hd, hf, by simpa using hras⟩ with hl | hl <;> rw [hs] at hl <;> cases hl

/-- While the row sequencer waits for the end of a hold, the output-enable sequencer has it to make. -/
theorem hold_with_oseq {s : State} (h : Tokens s) (hs : s.rseq.state = .awaitTimingDone) (hf : s.flags.td = false) :
    s.flags.ts = true ∨ holding s := by
  obtain ⟨-, -, -, -, hwait, -⟩ := h
  rcases hwait.1 hs with hts | hh | htd
  · exact .inl hts
  · exact .inr hh
  · rw [hf] at htd
    cases htd

/-- Settles O55: where the data and output-enable sequencers starve, a channel of the pair that feeds them steps; where
they do not, one of the three sequencers has a token to move. -/
theorem deadlockFree : Obligations.DeadlockFree := by
  intro s h he
  have htok := h.handshake.tokens he
  obtain ⟨hqd, hqo⟩ := queueDepths_of_legal h.render.legal
  by_contra hno
  have hstuck (a : Agent) (ha : a ≠ .render) : ¬enabled a s = true := fun hen => hno ⟨a, ha, hen⟩
  have hnone (a : Agent) (ha : a ≠ .render) : enabled a s = false := by simpa using hstuck a ha
  rcases dseq_waiting htok (hnone .dseq nofun) with ⟨-, -, hq⟩ | ⟨hd, hras⟩
  · exact hstuck (feederA s) nofun (feederA_enabled h.channels he (by rw [hq]; exact hqd))
  rcases oseq_waiting htok (hnone .oseq nofun) with ⟨-, hq⟩ | ⟨ho, hts⟩
  · exact hstuck (feederB s) nofun (feederB_enabled h.channels he (by rw [hq]; exact hqo))
  rcases rseq_waiting htok (hnone .rseq nofun) with ⟨hr, hf⟩ | ⟨hr, hf⟩
  · rw [line_with_dseq htok hr hf hd] at hras
    cases hras
  · rcases hold_with_oseq htok hr hf with hts' | hh | hh
    · rw [hts'] at hts
      cases hts
    · rw [ho] at hh
      cases hh
    · rw [ho] at hh
      cases hh

/-! ### The moves of a running engine -/

/-- The engine runs in good order. -/
abbrev RunningCore (s : State) : Prop := CoreInv s ∧ s.engine = .running

/-- Every step keeps the invariants of the core together. -/
theorem CoreInv.step {s t : State} (h : CoreInv s) (hs : step s = .next t) : CoreInv t where
  render := stepKeepsRenderInv s t h.render hs
  handshake := stepKeepsHandshake s t h.handshake hs
  channels := stepKeepsChannelInv s t h.render h.channels hs
  counters := stepKeepsCounterInv s t h.counters hs
  stream := stepKeepsStreamInv s t h hs
  delays := stepKeepsDelayInv s t h hs

theorem RunningCore.turn {s t : State} {turn : Turn} (h : RunningCore s) (hx : runTurn turn s = .next t) :
    RunningCore t := by
  obtain ⟨hi, he⟩ := h
  have hu : CoreInv (withTurn s turn) := hi.with_env _
  refine ⟨hu.step hx, ?_⟩
  obtain ⟨-, hoff⟩ := offStatesLeaveByEngineStart (withTurn s turn)
  obtain ⟨-, -, -, -, hen⟩ := hoff t hx
  rcases hen hu.handshake with hen | ⟨hoff, -⟩ | ⟨-, hen⟩
  · exact hen.trans he
  · cases he.symm.trans hoff
  · exact hen

/-- What the step of `b` leaves of the engine, for each part the agents that change it. With `b` the render domain that is all
of it. -/
structure EngineKeeps (b : Agent) (s t : State) : Prop where
  par : t.par = s.par
  dseq : b ≠ .dseq → t.dseq = s.dseq
  rseq : b ≠ .rseq → t.rseq = s.rseq
  oseq : b ≠ .oseq → t.oseq = s.oseq
  line : b ≠ .dseq → b ≠ .rseq → t.flags.rdr = s.flags.rdr ∧ t.flags.ras = s.flags.ras
  timing : b ≠ .oseq → b ≠ .rseq → t.flags.ts = s.flags.ts ∧ t.flags.td = s.flags.td
  pairA : b ≠ .chan .a1 → b ≠ .chan .a2 → t.a1 = s.a1 ∧ t.a2 = s.a2
  pairB : b ≠ .chan .b1 → b ≠ .chan .b2 → t.b1 = s.b1 ∧ t.b2 = s.b2
  dq : b ≠ .chan .a1 → b ≠ .dseq → t.dq = s.dq
  oq : b ≠ .chan .b1 → b ≠ .oseq → t.oq = s.oq

/-- The enabled step of agent `b`, or, with `b` the render domain, a turn that leaves the engine as it is. -/
structure EngineMove (b : Agent) (s t : State) : Prop where
  keeps : EngineKeeps b s t
  enabled : b ≠ .render → enabled b s = true
  acts : b ≠ .render → agentStep b s = .next t

theorem chan_move {c : Chan} {s t : State} (h : RunningCore s) (hen : enabled (.chan c) s = true)
    (hx : agentStep (.chan c) s = .next t) :
    (c = .a1 ∧ s.a1.busy = true ∧ s.a2.busy = false ∧ s.dq.length < s.par.qdData ∧
      t = { s with
        dq := s.dq ++ [BitVec.ofNat 32 (memNat s.par s.mem s.a1.readAddr.toNat s.par.wA)]
        a1 := streamed s.a1 s.par.wA, a2 := { s.a2 with busy := decide (s.a1.remain = 1) } }) ∨
    (c = .a2 ∧ s.a2.busy = true ∧ s.a1.busy = false ∧
      t = { s with a1 := { s.a1 with readAddr := s.fbPtr, busy := true }, a2 := { s.a2 with busy := false } }) ∨
    (c = .b1 ∧ s.b1.busy = true ∧ s.b2.busy = false ∧ s.oq.length < s.par.qdOe ∧
      t = { s with
        oq := s.oq ++ [BitVec.ofNat 32 (memNat s.par s.mem s.b1.readAddr.toNat 4)]
        b1 := streamed s.b1 4, b2 := { s.b2 with busy := decide (s.b1.remain = 1) } }) ∨
    (c = .b2 ∧ s.b2.busy = true ∧ s.b1.busy = false ∧
      t = { s with b1 := { s.b1 with readAddr := s.delayPtr, busy := true }, b2 := { s.b2 with busy := false } }) :=
  (channel_move h.1.render h.1.channels hen ((channelStep_eq c s).symm.trans hx)).2

theorem EngineKeeps.refl (b : Agent) (s : State) : EngineKeeps b s s := by
  constructor <;> simp

theorem dseq_engineKeeps {s t : State} (hx : exec s.dseq.state.instr s = .next t) : EngineKeeps .dseq s t := by
  have hf : t.flags.ts = s.flags.ts ∧ t.flags.td = s.flags.td := by
    rcases dseq_flags hx with hf | ⟨-, hf⟩ | ⟨-, hf⟩ <;> simp [hf]
  obtain ⟨q, d, f, p, r, rfl⟩ := dseq_frame hx
  constructor
  case timing => exact fun _ _ => hf
  all_goals simp

theorem rseq_engineKeeps {s t : State} (hx : exec s.rseq.state.instr s = .next t) : EngineKeeps .rseq s t := by
  obtain ⟨q, f, p, r, rfl⟩ := rseq_frame hx
  constructor <;> simp

theorem oseq_engineKeeps {s t : State} (hx : exec s.oseq.state.instr s = .next t) : EngineKeeps .oseq s t := by
  have hf : t.flags.rdr = s.flags.rdr ∧ t.flags.ras = s.flags.ras := by
    rcases oseq_flags hx with hf | ⟨-, hf⟩ | ⟨-, hf⟩ <;> simp [hf]
  obtain ⟨q, o, f, p, r, rfl⟩ := oseq_frame hx
  constructor
  case line => exact fun _ _ => hf
  all_goals simp

theorem chan_engineKeeps {c : Chan} {s t : State} (h : RunningCore s) (hen : enabled (.chan c) s = true)
    (hx : agentStep (.chan c) s = .next t) : EngineKeeps (.chan c) s t := by
  rcases chan_move h hen hx with ⟨rfl, -, -, -, rfl⟩ | ⟨rfl, -, -, rfl⟩ | ⟨rfl, -, -, -, rfl⟩ | ⟨rfl, -, -, rfl⟩
  all_goals constructor <;> simp

/-- A turn without an enabled step of a channel or sequencer leaves the engine as it is. -/
theorem idle_engineKeeps {s t : State} {turn : Turn} (h : RunningCore s) (hx : runTurn turn s = .next t)
    (hno : ∀ a, a ≠ .render → turn = .agent a → enabled a s = false) : EngineKeeps .render s t := by
  have hsame : t = s → EngineKeeps .render s t := by
    rintro rfl
    exact .refl _ _
  rcases turn_next h.1.render h.2 hx with ⟨c, hc, hx⟩ | ⟨hc, hx⟩ | ⟨hc, hx⟩ | ⟨hc, hx⟩ |
    ⟨cfg, r, g, b, act, m, rp, rfl⟩
  · exact hsame (channel_wait (hno (.chan c) nofun hc) hx)
  · exact hsame (Host.Outcome.next.inj (hx.symm.trans (dseq_waits (hno .dseq nofun hc))))
  · exact hsame (Host.Outcome.next.inj (hx.symm.trans (rseq_waits (hno .rseq nofun hc))))
  · exact hsame (Host.Outcome.next.inj (hx.symm.trans (oseq_waits (hno .oseq nofun hc))))
  · constructor <;> simp

/-- The enabled step of an agent is a move of the engine. -/
theorem agent_engineMove {a : Agent} {s t : State} (h : RunningCore s) (ha : a ≠ .render) (hen : enabled a s = true)
    (hx : agentStep a s = .next t) : EngineMove a s t := by
  refine ⟨?_, fun _ => hen, fun _ => hx⟩
  cases a with
  | render => exact absurd rfl ha
  | chan c => exact chan_engineKeeps h hen hx
  | dseq => exact dseq_engineKeeps hx
  | rseq => exact rseq_engineKeeps hx
  | oseq => exact oseq_engineKeeps hx

/-! ### What a move leaves of the flags and queues -/

section
variable {b : Agent} {s t : State} (h : RunningCore s) (hm : EngineMove b s t)
include hm

theorem EngineMove.ras (hb : b ≠ .dseq) (hf : s.flags.ras = true) : t.flags.ras = true := by
  by_cases hr : b = .rseq
  · subst hr
    rcases rseq_flags (hm.acts nofun) with e | ⟨-, e⟩ | ⟨-, e⟩ | ⟨-, e⟩ <;> simp [e, hf]
  · rw [(hm.keeps.line hb hr).2, hf]

theorem EngineMove.rdr (hb : b ≠ .rseq) (hf : s.flags.rdr = true) : t.flags.rdr = true := by
  by_cases hd : b = .dseq
  · subst hd
    rcases dseq_flags (hm.acts nofun) with e | ⟨-, e⟩ | ⟨-, e⟩ <;> simp [e, hf]
  · rw [(hm.keeps.line hd hb).1, hf]

theorem EngineMove.ts (hb : b ≠ .oseq) (hf : s.flags.ts = true) : t.flags.ts = true := by
  by_cases hr : b = .rseq
  · subst hr
    rcases rseq_flags (hm.acts nofun) with e | ⟨-, e⟩ | ⟨-, e⟩ | ⟨-, e⟩ <;> simp [e, hf]
  · rw [(hm.keeps.timing hb hr).1, hf]

theorem EngineMove.td (hb : b ≠ .rseq) (hf : s.flags.td = true) : t.flags.td = true := by
  by_cases ho : b = .oseq
  · subst ho
    rcases oseq_flags (hm.acts nofun) with e | ⟨-, e⟩ | ⟨-, e⟩ <;> simp [e, hf]
  · rw [(hm.keeps.timing ho hb).2, hf]

/-- Only A1 pushes on `DQ`. -/
theorem EngineMove.dq_length_le (hb : b ≠ .chan .a1) : t.dq.length ≤ s.dq.length := by
  by_cases hd : b = .dseq
  · subst hd
    rcases dseq_next (hm.acts nofun) with rfl | ⟨-, rfl⟩ | ⟨-, w, l, q, hf, ⟨-, rfl⟩ | ⟨-, rfl⟩⟩ | ⟨-, -, rfl⟩
    case inr.inr.inl.inl | inr.inr.inl.inr =>
      rcases hf with ⟨-, hq, -⟩ | ⟨-, hq, -⟩ <;> simp [hq]
    all_goals exact Nat.le_refl _
  · rw [hm.keeps.dq hb hd]

/-- Only B1 pushes on `OQ`. -/
theorem EngineMove.oq_length_le (hb : b ≠ .chan .b1) : t.oq.length ≤ s.oq.length := by
  by_cases ho : b = .oseq
  · subst ho
    rcases oseq_next (hm.acts nofun) with rfl | ⟨-, d, q, hq, rfl⟩ | ⟨-, -, rfl⟩ | ⟨-, -, -, rfl⟩ | ⟨-, -, -, es, -, rfl⟩ |
      ⟨-, -, es, -, rfl⟩ | ⟨-, es, -, rfl⟩
    case inr.inl => simp [hq]
    all_goals exact Nat.le_refl _
  · rw [hm.keeps.oq hb ho]

include h

theorem a1_move (hb : b = .chan .a1) : s.a1.busy = true ∧ s.a2.busy = false ∧ t = { s with
    dq := s.dq ++ [BitVec.ofNat 32 (memNat s.par s.mem s.a1.readAddr.toNat s.par.wA)]
    a1 := streamed s.a1 s.par.wA, a2 := { s.a2 with busy := decide (s.a1.remain = 1) } } := by
  subst hb
  rcases chan_move h (hm.enabled nofun) (hm.acts nofun) with ⟨-, h1, h2, -, ht⟩ | ⟨hc, -⟩ | ⟨hc, -⟩ | ⟨hc, -⟩
  · exact ⟨h1, h2, ht⟩
  all_goals cases hc

theorem a2_move (hb : b = .chan .a2) : s.a2.busy = true ∧ s.a1.busy = false ∧ t = { s with
    a1 := { s.a1 with readAddr := s.fbPtr, busy := true }, a2 := { s.a2 with busy := false } } := by
  subst hb
  rcases chan_move h (hm.enabled nofun) (hm.acts nofun) with ⟨hc, -⟩ | ⟨-, h1, h2, ht⟩ | ⟨hc, -⟩ | ⟨hc, -⟩
  case inr.inl => exact ⟨h1, h2, ht⟩
  all_goals cases hc

theorem b1_move (hb : b = .chan .b1) : s.b1.busy = true ∧ s.b2.busy = false ∧ t = { s with
    oq := s.oq ++ [BitVec.ofNat 32 (memNat s.par s.mem s.b1.readAddr.toNat 4)]
    b1 := streamed s.b1 4, b2 := { s.b2 with busy := decide (s.b1.remain = 1) } } := by
  subst hb
  rcases chan_move h (hm.enabled nofun) (hm.acts nofun) with ⟨hc, -⟩ | ⟨hc, -⟩ | ⟨-, h1, h2, -, ht⟩ | ⟨hc, -⟩
  case inr.inr.inl => exact ⟨h1, h2, ht⟩
  all_goals cases hc

theorem b2_move (hb : b = .chan .b2) : s.b2.busy = true ∧ s.b1.busy = false ∧ t = { s with
    b1 := { s.b1 with readAddr := s.delayPtr, busy := true }, b2 := { s.b2 with busy := false } } := by
  subst hb
  rcases chan_move h (hm.enabled nofun) (hm.acts nofun) with ⟨hc, -⟩ | ⟨hc, -⟩ | ⟨hc, -⟩ | ⟨-, h1, h2, ht⟩
  case inr.inr.inr => exact ⟨h1, h2, ht⟩
  all_goals cases hc

theorem EngineMove.dq_ne_nil (hb : b ≠ .dseq) (hq : s.dq ≠ []) : t.dq ≠ [] := by
  by_cases h1 : b = .chan .a1
  · obtain ⟨-, -, rfl⟩ := a1_move h hm h1
    simp
  · rwa [hm.keeps.dq h1 hb]

theorem EngineMove.oq_ne_nil (hb : b ≠ .oseq) (hq : s.oq ≠ []) : t.oq ≠ [] := by
  by_cases h1 : b = .chan .b1
  · obtain ⟨-, -, rfl⟩ := b1_move h hm h1
    simp
  · rwa [hm.keeps.oq h1 hb]

/-- While A1 is busy only its own step changes pair A. -/
theorem EngineMove.pairA_streaming (hb : b ≠ .chan .a1) (h1 : s.a1.busy = true) : t.a1 = s.a1 ∧ t.a2 = s.a2 := by
  refine hm.keeps.pairA hb fun h2 => ?_
  obtain ⟨-, h1', -⟩ := a2_move h hm h2
  rw [h1] at h1'
  cases h1'

theorem EngineMove.pairB_streaming (hb : b ≠ .chan .b1) (h1 : s.b1.busy = true) : t.b1 = s.b1 ∧ t.b2 = s.b2 := by
  refine hm.keeps.pairB hb fun h2 => ?_
  obtain ⟨-, h1', -⟩ := b2_move h hm h2
  rw [h1] at h1'
  cases h1'

/-- While A2 is busy only its own step changes pair A. -/
theorem EngineMove.pairA_rearming (hb : b ≠ .chan .a2) (h2 : s.a2.busy = true) : t.a1 = s.a1 ∧ t.a2 = s.a2 := by
  refine hm.keeps.pairA (fun h1 => ?_) hb
  obtain ⟨-, h2', -⟩ := a1_move h hm h1
  rw [h2] at h2'
  cases h2'

theorem EngineMove.pairB_rearming (hb : b ≠ .chan .b2) (h2 : s.b2.busy = true) : t.b1 = s.b1 ∧ t.b2 = s.b2 := by
  refine hm.keeps.pairB (fun h1 => ?_) hb
  obtain ⟨-, h2', -⟩ := b1_move h hm h1
  rw [h2] at h2'
  cases h2'

end

/-- The enabled step of an agent is disabled only by taking it. -/
theorem enabled_kept {a b : Agent} {s t : State} (h : RunningCore s) (ht : RunningCore t) (hm : EngineMove b s t)
    (ha : a ≠ .render) (hne : b ≠ a) (hen : enabled a s = true) : enabled a t = true := by
  obtain ⟨hi, he⟩ := h
  have hs := chanEnabled_iff hi.channels he
  have hs' := chanEnabled_iff ht.1.channels ht.2
  have h : RunningCore s := ⟨hi, he⟩
  cases a with
  | render => exact absurd rfl ha
  | chan c =>
    cases c
    case a1 =>
      obtain ⟨hb, hroom⟩ := (hs .a1).1 hen
      have hle := hm.dq_length_le hne
      refine (hs' .a1).2 ⟨by rw [(hm.pairA_streaming h hne hb).1, hb], ?_⟩
      rw [hm.keeps.par]
      omega
    case a2 =>
      have hb := (hs .a2).1 hen
      refine (hs' .a2).2 ?_
      rw [(hm.pairA_rearming h hne hb).2, hb]
    case b1 =>
      obtain ⟨hb, hroom⟩ := (hs .b1).1 hen
      have hle := hm.oq_length_le hne
      refine (hs' .b1).2 ⟨by rw [(hm.pairB_streaming h hne hb).1, hb], ?_⟩
      rw [hm.keeps.par]
      omega
    case b2 =>
      have hb := (hs .b2).1 hen
      refine (hs' .b2).2 ?_
      rw [(hm.pairB_rearming h hne hb).2, hb]
  | dseq =>
    simp only [enabled, dEnabled, hm.keeps.dseq hne] at hen ⊢
    split at hen
    · exact hen
    · exact hen
    · simp only [Bool.or_eq_true, decide_eq_true_eq, Bool.not_eq_true', List.isEmpty_eq_false_iff] at hen ⊢
      exact hen.imp_right (hm.dq_ne_nil h hne)
    · exact hm.ras hne hen
  | rseq =>
    simp only [enabled, rEnabled, hm.keeps.rseq hne] at hen ⊢
    split at hen
    · exact hen
    · exact hm.rdr hne hen
    · exact hm.td hne hen
    all_goals exact hen
  | oseq =>
    simp only [enabled, oEnabled, hm.keeps.oseq hne] at hen ⊢
    split at hen
    · exact hen
    · simp only [Bool.not_eq_true', List.isEmpty_eq_false_iff] at hen ⊢
      exact hm.oq_ne_nil h hne hen
    · exact hm.ts hne hen
    all_goals exact hen

/-! ### Runs under a weakly fair schedule (00_scope R11) -/

/-- At turn `n` the channel or sequencer `a` takes an enabled step. -/
abbrev Acts (σ : Nat → Turn) (s : State) (n : Nat) (a : Agent) : Prop :=
  a ≠ .render ∧ σ n = .agent a ∧ enabled a (runUnder σ s n) = true

section
variable {σ : Nat → Turn} {s : State} (hs : RunningCore s)
include hs

theorem run_running (n : Nat) : RunningCore (runUnder σ s n) := by
  induction n with
  | zero => exact hs
  | succ n ih =>
    rw [runUnder_succ]
    cases hx : runTurn (σ n) (runUnder σ s n) with
    | next t => exact ih.turn hx
    | fault e => exact ih
    | refused e => exact ih

/-- A turn of the run is a move of the engine, of the agent that acts. -/
theorem run_move (n : Nat) : ∃ b, EngineMove b (runUnder σ s n) (runUnder σ s (n + 1)) ∧
    ∀ a, a ≠ .render → (Acts σ s n a ↔ b = a) := by
  have hu := run_running hs (σ := σ) n
  by_cases hact : ∃ a, Acts σ s n a
  · obtain ⟨a, ha, hσ, hen⟩ := hact
    obtain ⟨t, ht⟩ := agentStep_goes_on hu.1.render hu.1.channels a
    have hnext : runUnder σ s (n + 1) = t := by rw [runUnder_succ, hσ, runTurn, ht]
    rw [hnext]
    refine ⟨a, agent_engineMove hu ha hen ht, fun a' _ => ⟨fun ⟨_, hσ', _⟩ => ?_, ?_⟩⟩
    · rw [hσ] at hσ'
      injection hσ'
    · rintro rfl
      exact ⟨ha, hσ, hen⟩
  · have hno (a : Agent) (ha : a ≠ .render) (hσ : σ n = .agent a) : enabled a (runUnder σ s n) = false := by
      by_contra hen
      exact hact ⟨a, ha, hσ, by simpa using hen⟩
    refine ⟨.render, ⟨?_, fun h => absurd rfl h, fun h => absurd rfl h⟩, fun a ha =>
      ⟨fun h => absurd ⟨a, h⟩ hact, fun h => absurd h.symm ha⟩⟩
    rw [runUnder_succ]
    cases hx : runTurn (σ n) (runUnder σ s n) with
    | next t => exact idle_engineKeeps hu hx hno
    | fault e => exact .refl _ _
    | refused e => exact .refl _ _

/-- Under a weakly fair schedule an enabled agent acts: until then its step stays enabled. -/
theorem acts_of_enabled (hfair : WeaklyFair σ s) {a : Agent} (ha : a ≠ .render) {n : Nat}
    (hen : enabled a (runUnder σ s n) = true) : ∃ m, n ≤ m ∧ Acts σ s m a := by
  by_contra hno
  have hstay (j : Nat) : enabled a (runUnder σ s (n + j)) = true := by
    induction j with
    | zero => exact hen
    | succ j ih =>
      obtain ⟨b, hm, hb⟩ := run_move hs (σ := σ) (n + j)
      refine enabled_kept (run_running hs _) (run_running hs _) hm ha (fun e => ?_) ih
      exact hno ⟨n + j, by omega, (hb a ha).2 e⟩
  obtain ⟨m, hm, hσ⟩ := hfair a n
  obtain ⟨j, rfl⟩ := Nat.exists_eq_add_of_le hm
  rcases hσ with hσ | hdis
  · exact hno ⟨_, hm, ha, hσ, hstay j⟩
  · rw [hstay j] at hdis
    cases hdis

theorem stepsForever_of_enabled (hfair : WeaklyFair σ s) {a : Agent} (ha : a ≠ .render)
    (h : ∀ n, ∃ m, n ≤ m ∧ enabled a (runUnder σ s m) = true) : StepsForever σ s a := by
  intro n
  obtain ⟨m, hm, hen⟩ := h n
  obtain ⟨m', hm', -, hact⟩ := acts_of_enabled hs hfair ha hen
  exact ⟨m', by omega, hact⟩

/-- The rule of progress: as long as `Q` does not hold, a helper acts after some time; its steps, and no others', bring a
measure down, and the helper stays the same until then. So `Q` holds after some time. -/
theorem leads_to {I Q : State → Prop} (μ : State → Nat) (f : State → Agent)
    (hhelp : ∀ n, I (runUnder σ s n) → ¬Q (runUnder σ s n) → ∃ m, n ≤ m ∧ Acts σ s m (f (runUnder σ s n)))
    (hmove : ∀ {b u t}, RunningCore u → RunningCore t → EngineMove b u t → I u → ¬Q u →
      Q t ∨ I t ∧ (μ t < μ u ∨ b ≠ f u ∧ μ t = μ u ∧ f t = f u))
    (n : Nat) (hn : I (runUnder σ s n)) : ∃ m, n ≤ m ∧ Q (runUnder σ s m) := by
  induction hk : μ (runUnder σ s n) using Nat.strong_induction_on generalizing n with
  | _ k ih =>
  by_contra hno
  have hQ (j : Nat) : ¬Q (runUnder σ s (n + j)) := fun h => hno ⟨_, by omega, h⟩
  have hstep (j : Nat) (hI : I (runUnder σ s (n + j))) (hμ : μ (runUnder σ s (n + j)) = k) :
      I (runUnder σ s (n + j + 1)) ∧ μ (runUnder σ s (n + j + 1)) = k ∧
      f (runUnder σ s (n + j + 1)) = f (runUnder σ s (n + j)) ∧ ¬Acts σ s (n + j) (f (runUnder σ s (n + j))) := by
    obtain ⟨b, hm, hb⟩ := run_move hs (σ := σ) (n + j)
    rcases hmove (run_running hs _) (run_running hs _) hm hI (hQ j) with h | ⟨hI', hlt | ⟨hne, heq, hf⟩⟩
    · exact absurd h (hQ (j + 1))
    · rw [hμ] at hlt
      obtain ⟨m, hle, hq⟩ := ih _ hlt _ hI' rfl
      exact absurd ⟨m, by omega, hq⟩ hno
    · exact ⟨hI', heq.trans hμ, hf, fun hact => hne ((hb _ hact.1).1 hact)⟩
  have hstay (j : Nat) : I (runUnder σ s (n + j)) ∧ μ (runUnder σ s (n + j)) = k ∧
      f (runUnder σ s (n + j)) = f (runUnder σ s n) := by
    induction j with
    | zero => exact ⟨hn, hk, rfl⟩
    | succ j ihj =>
      obtain ⟨hI, hμ, hf⟩ := ihj
      obtain ⟨hI', hμ', hf', -⟩ := hstep j hI hμ
      exact ⟨hI', hμ', hf'.trans hf⟩
  obtain ⟨m, hle, hact⟩ := hhelp n hn (hQ 0)
  obtain ⟨j, rfl⟩ := Nat.exists_eq_add_of_le hle
  obtain ⟨hI, hμ, hf⟩ := hstay j
  obtain ⟨-, -, -, hnot⟩ := hstep j hI hμ
  rw [hf] at hnot
  exact hnot hact

/-- The same for an agent `a` that waits in `I` for a fixed helper `f`: only `a` ends `I`, only `f` changes the measure. -/
theorem enabled_of_helper (a f : Agent) (I : State → Prop) (μ : State → Nat) (ha : a ≠ .render)
    (hhelp : ∀ n, I (runUnder σ s n) → enabled a (runUnder σ s n) = false → ∃ m, n ≤ m ∧ Acts σ s m f)
    (hkeep : ∀ {b u t}, RunningCore u → EngineMove b u t → I u → b ≠ a → I t)
    (hother : ∀ {b u t}, RunningCore u → EngineMove b u t → I u → enabled a u = false → b ≠ f → μ t = μ u)
    (hstep : ∀ {u t}, RunningCore u → RunningCore t → EngineMove f u t → I t → enabled a u = false →
      enabled a t = true ∨ μ t < μ u)
    (n : Nat) (hn : I (runUnder σ s n)) : ∃ m, n ≤ m ∧ enabled a (runUnder σ s m) = true := by
  refine leads_to hs (I := I) (Q := fun u => enabled a u = true) μ (fun _ => f)
    (fun k hI hQ => hhelp k hI (eq_false_of_ne_true hQ)) (fun {b u t} hu ht hm hI hQ => ?_) n hn
  have hdis : enabled a u = false := eq_false_of_ne_true hQ
  have hI' : I t := hkeep hu hm hI (by
    rintro rfl
    exact hQ (hm.enabled ha))
  by_cases hb : b = f
  · subst hb
    exact (hstep hu ht hm hI' hdis).imp_right fun hlt => ⟨hI', .inl hlt⟩
  · exact .inr ⟨hI', .inr ⟨hb, hother hu hm hI hdis hb, rfl⟩⟩

end

end Sys2Proof.Machine
end


section
/-! PROOFS. Liveness (43_sequencers R232, 00_scope R11): under a weakly fair schedule each channel and sequencer is enabled again
and again. The row sequencer is, because the two others bring it its tokens; then the two others are, because the row sequencer
brings them theirs; then the streaming channels are, because the queues are emptied, and the re-arming ones with them. -/

namespace Sys2Proof.Machine

/-! ### An enabled step of a sequencer is one of its moves -/

/-- A step to a state that differs in some part is not a step that changes nothing. -/
theorem ne_of_next {α : Type} {i : Instr} {s t u : State} (hx : exec i s = .next t) (hu : exec i s = .next u) (f : State → α)
    (hf : f u ≠ f s) : t ≠ s := by
  rintro rfl
  exact hf (congrArg f (Host.Outcome.next.inj (hu.symm.trans hx)))

theorem fetched_of_enabled {s : State} (hs : s.dseq.state = .shiftColumn) (hen : dEnabled s = true) :
    ∃ word left q, Fetched s word left q := by
  simp only [dEnabled, hs, Bool.or_eq_true, decide_eq_true_eq, Bool.not_eq_true', List.isEmpty_eq_false_iff] at hen
  by_cases h0 : s.dseq.osrLeft = 0
  · obtain ⟨w, q, hq⟩ := List.exists_cons_of_ne_nil (hen.resolve_left (by omega))
    exact ⟨w, s.par.wA, q, .inl ⟨h0, hq, rfl⟩⟩
  · exact ⟨_, _, _, .inr ⟨h0, rfl, rfl, rfl⟩⟩

theorem dseq_changes {s t : State} (hen : dEnabled s = true) (hx : exec s.dseq.state.instr s = .next t) : t ≠ s := by
  cases hs : s.dseq.state with
  | off => simp [dEnabled, hs] at hen
  | loadWidth =>
    rw [hs] at hx
    exact ne_of_next hx rfl (·.dseq.state) (by simp [hs])
  | shiftColumn =>
    obtain ⟨word, left, q, hf⟩ := fetched_of_enabled hs hen
    obtain ⟨u, hu, -, -, -, -, -, htr, -⟩ := shiftColumnMakesThreePinEvents s word left q hf
    rw [hs] at hx
    exact ne_of_next hx hu State.trace (by simp [htr])
  | awaitNextRow =>
    rw [hs] at hx
    exact ne_of_next hx (dAwaitNextRow_goes (by simpa [dEnabled, hs] using hen)) (·.dseq.state) (by simp [hs])

theorem rseq_changes {s t : State} (hen : rEnabled s = true) (hx : exec s.rseq.state.instr s = .next t) : t ≠ s := by
  cases hs : s.rseq.state <;> rw [hs] at hx <;> simp only [rEnabled, hs] at hen
  case off => cases hen
  case awaitData => exact ne_of_next hx (rAwaitData_goes hen) (·.rseq.state) (by simp [hs])
  case awaitTimingDone => exact ne_of_next hx (rAwaitTimingDone_goes hen) (·.rseq.state) (by simp [hs])
  case next =>
    obtain ⟨u, hu, -, -, -, -, hplane, hrow, hpass⟩ := rNextCountsDown s
    refine ne_of_next hx hu (·.rseq.state) ?_
    by_cases hp : s.rseq.plane = 0
    · by_cases hr : s.rseq.row = 0
      · simp [hs, hpass hp hr]
      · simp [hs, (hrow hp hr).2.2]
    · simp [hs, (hplane hp).2.2]
  all_goals exact ne_of_next hx rfl (·.rseq.state) (by simp [hs])

theorem oseq_changes {s t : State} (hen : oEnabled s = true) (hx : exec s.oseq.state.instr s = .next t) : t ≠ s := by
  cases hs : s.oseq.state <;> rw [hs] at hx <;> simp only [oEnabled, hs] at hen
  case off => cases hen
  case loadDelay =>
    obtain ⟨d, q, hq⟩ := List.exists_cons_of_ne_nil (show s.oq ≠ [] by simpa using hen)
    obtain ⟨u, hu, -, rfl⟩ := (loadDelayPopsOneWord s).1 d q hq
    exact ne_of_next hx hu (·.oseq.state) (by simp [hs])
  case awaitTimingStart => exact ne_of_next hx (oAwaitTimingStart_goes hen) (·.oseq.state) (by simp [hs])
  case hold =>
    by_cases hc : s.oseq.cnt = 0
    · by_cases hb : s.par.holdBias = 0
      · exact ne_of_next hx (oHold_over hb hc) (·.oseq.state) (by simp [afterTicks, hs])
      · exact ne_of_next hx (oHold_lastTick hb hc) (·.oseq.state) (by simp [afterTicks, hs])
    · exact ne_of_next hx (oHold_tick hc) (·.oseq.cnt) (by simp [afterTicks])
  case signalDone => exact ne_of_next hx (oSignalDone_goes s) (·.oseq.state) (by simp [hs])

/-! ### Measures -/

/-- Steps the data sequencer is from handing over its line, at most. -/
def lineRank (s : State) : Nat :=
  match s.dseq.state with
  | .off => 0
  | .shiftColumn => s.dseq.col.toNat
  | .loadWidth => s.par.width
  | .awaitNextRow => s.par.width + 1

/-- Steps the output-enable sequencer is from taking its next delay, at most. -/
def holdRank (s : State) : Nat :=
  match s.oseq.state with
  | .off | .loadDelay => 0
  | .signalDone => 1
  | .hold => s.oseq.cnt.toNat + 2
  | .awaitTimingStart => 2 ^ 32 + 2

/-- Steps the row sequencer is from releasing a line and starting a hold, at most. -/
def loopRank (s : State) : Nat :=
  match s.rseq.state with
  | .off | .signalTiming => 0
  | .latch => 1
  | .awaitData => 2
  | .setAddress => 3
  | .loadPlaneCount => 4
  | .loadRowCount => 5
  | .next => 6
  | .awaitTimingDone => 7

/-- A move of the data sequencer hands over its line, or brings it closer to that. -/
theorem dseq_lineRank {s t : State} (h : RunningCore s) (hm : EngineMove .dseq s t) :
    t.flags.rdr = true ∨ lineRank t < lineRank s ∧ t.flags.rdr = s.flags.rdr := by
  have hx := hm.acts nofun
  have hl := h.1.render.legal
  obtain ⟨hw, -⟩ := width_bounds hl
  rcases (dseq_next hx).resolve_left (dseq_changes (hm.enabled nofun) hx) with
    ⟨hs, rfl⟩ | ⟨hs, w, l, q, -, ⟨-, rfl⟩ | ⟨hc, rfl⟩⟩ | ⟨hs, -, rfl⟩
  · refine .inr ⟨?_, rfl⟩
    simp only [lineRank, hs, lastColumn_toNat hl]
    omega
  · exact .inl rfl
  · have hpred := toNat_pred hc
    refine .inr ⟨?_, rfl⟩
    simp only [lineRank, hs]
    omega
  · refine .inr ⟨?_, rfl⟩
    simp only [lineRank, hs]
    omega

/-- A move of the output-enable sequencer takes a delay or brings it closer to that; or it ends a hold. -/
theorem oseq_holdRank {s t : State} (hm : EngineMove .oseq s t) :
    s.oseq.state = .loadDelay ∧ t.oq.length < s.oq.length ∧ t.oseq.state = .awaitTimingStart ∧ t.flags = s.flags ∨
    holdRank t < holdRank s ∧ s.oseq.state ≠ .loadDelay ∧
      (s.oseq.state = .signalDone ∧ t.flags.td = true ∨ t.oseq.state ≠ .loadDelay ∧ t.flags.td = s.flags.td) := by
  have hx := hm.acts nofun
  rcases (oseq_next hx).resolve_left (oseq_changes (hm.enabled nofun) hx) with
    ⟨hs, d, q, hq, rfl⟩ | ⟨hs, -, rfl⟩ | ⟨hs, -, -, rfl⟩ | ⟨hs, -, -, es, -, rfl⟩ | ⟨hs, hc, es, -, rfl⟩ | ⟨hs, es, -, rfl⟩
  · exact .inl ⟨hs, by simp [hq], rfl, rfl⟩
  case inr.inr.inr.inr.inl =>
    have hpred := toNat_pred hc
    refine .inr ⟨?_, by simp [hs], by simp [hs]⟩
    simp only [holdRank, hs]
    omega
  all_goals
    have hlt := s.oseq.cnt.isLt
    refine .inr ⟨?_, by simp [hs], by simp [hs]⟩
    simp only [holdRank, hs]
    omega

/-- A move of the row sequencer releases its line and starts a hold, or brings it closer to that. -/
theorem rseq_loopRank {s t : State} (hm : EngineMove .rseq s t) :
    t.flags.ras = true ∧ t.flags.ts = true ∨
    loopRank t < loopRank s ∧ t.flags.ras = s.flags.ras ∧ t.flags.ts = s.flags.ts := by
  have hx := hm.acts nofun
  rcases (rseq_next hx).resolve_left (rseq_changes (hm.enabled nofun) hx) with ⟨hs, rfl⟩ | ⟨hs, rfl⟩ | ⟨hs, rfl⟩ |
    ⟨hs, -, rfl⟩ | ⟨hs, rfl⟩ | ⟨hs, rfl⟩ | ⟨hs, -, rfl⟩ | ⟨hs, -, rfl⟩ | ⟨hs, -, -, rfl⟩ | ⟨hs, -, -, rfl⟩
  case inr.inr.inr.inr.inr.inl => exact .inl ⟨rfl, rfl⟩
  all_goals
    refine .inr ⟨?_, rfl, rfl⟩
    simp only [loopRank, hs]
    decide

/-- Steps the output-enable sequencer is from ending its hold, at most; it may have a delay to take before. -/
def doneRank (s : State) : Nat :=
  match s.oseq.state with
  | .loadDelay => 2 ^ 32 + 3
  | .off | .awaitTimingStart | .hold | .signalDone => holdRank s

theorem doneRank_of_ne {s : State} (h : s.oseq.state ≠ .loadDelay) : doneRank s = holdRank s := by
  cases hs : s.oseq.state <;> simp_all [doneRank]

/-- A move of the output-enable sequencer ends a hold, or brings it closer to that. -/
theorem oseq_doneRank {s t : State} (hm : EngineMove .oseq s t) :
    t.flags.td = true ∨ doneRank t < doneRank s ∧ t.flags.td = s.flags.td := by
  rcases oseq_holdRank hm with ⟨hs, -, ht, hf⟩ | ⟨hlt, hs, ⟨-, htd⟩ | ⟨ht, htd⟩⟩
  · exact .inr ⟨by simp [doneRank, holdRank, hs, ht], by rw [hf]⟩
  · exact .inl htd
  · exact .inr ⟨by rwa [doneRank_of_ne hs, doneRank_of_ne ht], htd⟩

/-- Bytes the data sequencer has left in `OSR`, and the steps to its next shift: a step of it that needs no word of `DQ` brings
this down. -/
def wordRank (s : State) : Nat :=
  3 * s.dseq.osrLeft +
    match s.dseq.state with
    | .off | .shiftColumn => 0
    | .loadWidth => 1
    | .awaitNextRow => 2

/-- A move of the data sequencer takes a word of `DQ`, or brings it closer to that. -/
theorem dseq_wordRank {s t : State} (hm : EngineMove .dseq s t) : t.dq.length < s.dq.length ∨ wordRank t < wordRank s := by
  have hx := hm.acts nofun
  rcases (dseq_next hx).resolve_left (dseq_changes (hm.enabled nofun) hx) with
    ⟨hs, rfl⟩ | ⟨hs, w, l, q, hf, ht⟩ | ⟨hs, -, rfl⟩
  · exact .inr (by simp [wordRank, hs])
  · rcases hf with ⟨-, hq, -⟩ | ⟨h0, rfl, rfl, rfl⟩
    · refine .inl ?_
      rcases ht with ⟨-, rfl⟩ | ⟨-, rfl⟩ <;> simp [hq]
    · refine .inr ?_
      rcases ht with ⟨-, rfl⟩ | ⟨-, rfl⟩ <;> simp only [wordRank, hs] <;> omega
  · exact .inr (by simp [wordRank, hs])

/-- An agent that is not enabled does not make the move. -/
theorem EngineMove.ne_of_disabled {a b : Agent} {s t : State} (hm : EngineMove b s t) (ha : a ≠ .render)
    (hdis : ¬Machine.enabled a s = true) : b ≠ a := by
  rintro rfl
  exact hdis (hm.enabled ha)

/-! ### Starved sequencers -/

/-- A data sequencer that shifts waits for a word. -/
theorem dseq_starved {u : State} (hu : RunningCore u) (hst : u.dseq.state = .shiftColumn) (hdis : enabled .dseq u = false) :
    u.dq = [] := by
  rcases dseq_waiting (hu.1.handshake.tokens hu.2) hdis with ⟨-, -, hq⟩ | ⟨hw, -⟩
  · exact hq
  · rw [hst] at hw
    cases hw

/-- A move brings pair A closer to a word in `DQ`, or is not that of its busy channel. -/
theorem feederA_move {b : Agent} {u t : State} (hu : RunningCore u) (hm : EngineMove b u t) :
    t.dq ≠ [] ∨ t.a2.busy.toNat < u.a2.busy.toNat ∨ b ≠ feederA u ∧ t.a2 = u.a2 := by
  by_cases h1 : b = .chan .a1
  · obtain ⟨-, -, rfl⟩ := a1_move hu hm h1
    exact .inl (by simp)
  by_cases h2 : b = .chan .a2
  · obtain ⟨hb2, -, rfl⟩ := a2_move hu hm h2
    exact .inr (.inl (by simp [hb2]))
  obtain ⟨-, hpair⟩ := hm.keeps.pairA h1 h2
  refine .inr (.inr ⟨?_, hpair⟩)
  cases hb : u.a2.busy <;> simpa [feederA, hb]

/-- An output-enable sequencer about to load a delay waits for a word. -/
theorem oseq_starved {u : State} (hu : RunningCore u) (hst : u.oseq.state = .loadDelay) (hdis : enabled .oseq u = false) :
    u.oq = [] := by
  rcases oseq_waiting (hu.1.handshake.tokens hu.2) hdis with ⟨-, hq⟩ | ⟨hw, -⟩
  · exact hq
  · rw [hst] at hw
    cases hw

/-- A move brings pair B closer to a word in `OQ`, or is not that of its busy channel. -/
theorem feederB_move {b : Agent} {u t : State} (hu : RunningCore u) (hm : EngineMove b u t) :
    t.oq ≠ [] ∨ t.b2.busy.toNat < u.b2.busy.toNat ∨ b ≠ feederB u ∧ t.b2 = u.b2 := by
  by_cases h1 : b = .chan .b1
  · obtain ⟨-, -, rfl⟩ := b1_move hu hm h1
    exact .inl (by simp)
  by_cases h2 : b = .chan .b2
  · obtain ⟨hb2, -, rfl⟩ := b2_move hu hm h2
    exact .inr (.inl (by simp [hb2]))
  obtain ⟨-, hpair⟩ := hm.keeps.pairB h1 h2
  refine .inr (.inr ⟨?_, hpair⟩)
  cases hb : u.b2.busy <;> simpa [feederB, hb]

/-! ### Every agent is enabled again -/

theorem acts_of_stepsForever {σ : Nat → Turn} {s : State} {a : Agent} (h : StepsForever σ s a) (ha : a ≠ .render) (n : Nat) :
    ∃ m, n ≤ m ∧ Acts σ s m a :=
  (h n).imp fun _ ⟨hle, hact⟩ => ⟨hle, ha, hact⟩

section
variable {σ : Nat → Turn} {s : State} (hs : RunningCore s) (hfair : WeaklyFair σ s)
include hs

/-- What an agent that acts does. -/
theorem Acts.move {n : Nat} {a : Agent} (h : Acts σ s n a) :
    EngineMove a (runUnder σ s n) (runUnder σ s (n + 1)) := by
  obtain ⟨b, hm, hb⟩ := run_move hs (σ := σ) n
  obtain rfl := (hb a h.1).1 h
  exact hm

include hfair

/-- The data sequencer, starved, gets a word from pair A. -/
theorem dseq_gets_word (n : Nat) (hn : (runUnder σ s n).dseq.state = .shiftColumn) :
    ∃ m, n ≤ m ∧ enabled .dseq (runUnder σ s m) = true := by
  refine leads_to hs (I := fun u => u.dseq.state = .shiftColumn) (Q := fun u => enabled .dseq u = true)
    (fun u => u.a2.busy.toNat) feederA (fun k hst hQ => ?_) (fun {b u t} hu _ hm hst hQ => ?_) n hn
  · have hu := run_running hs (σ := σ) k
    obtain ⟨hqd, hqo⟩ := queueDepths_of_legal hu.1.render.legal
    refine acts_of_enabled hs hfair (a := feederA (runUnder σ s k)) nofun (feederA_enabled hu.1.channels hu.2 ?_)
    rw [dseq_starved hu hst (eq_false_of_ne_true hQ)]
    exact hqd
  · have hst' : t.dseq.state = .shiftColumn := by rw [hm.keeps.dseq (hm.ne_of_disabled (a := .dseq) nofun hQ), hst]
    rcases feederA_move hu hm with hq | hlt | ⟨hb, hpair⟩
    · exact .inl (by simp [enabled, dEnabled, hst', hq])
    · exact .inr ⟨hst', .inl hlt⟩
    · exact .inr ⟨hst', .inr ⟨hb, by rw [hpair], by rw [feederA, feederA, hpair]⟩⟩

/-- The data sequencer, once it has a line to shift, acts. -/
theorem dseq_acts (n : Nat) (hline : (runUnder σ s n).dseq.state = .awaitNextRow → (runUnder σ s n).flags.ras = true) :
    ∃ m, n ≤ m ∧ Acts σ s m .dseq := by
  have hen : ∃ m, n ≤ m ∧ enabled .dseq (runUnder σ s m) = true := by
    by_cases hen : enabled .dseq (runUnder σ s n) = true
    · exact ⟨n, Nat.le_refl n, hen⟩
    have hu := run_running hs (σ := σ) n
    rcases dseq_waiting (hu.1.handshake.tokens hu.2) (eq_false_of_ne_true hen) with ⟨hst, -⟩ | ⟨hw, hf⟩
    · exact dseq_gets_word hs hfair n hst
    · rw [hline hw] at hf
      cases hf
  obtain ⟨m, hle, hen⟩ := hen
  obtain ⟨m', hle', hact⟩ := acts_of_enabled hs hfair (a := .dseq) nofun hen
  exact ⟨m', by omega, hact⟩

/-- The output-enable sequencer, starved, gets a word from pair B. -/
theorem oseq_gets_word (n : Nat) (hn : (runUnder σ s n).oseq.state = .loadDelay) :
    ∃ m, n ≤ m ∧ enabled .oseq (runUnder σ s m) = true := by
  refine leads_to hs (I := fun u => u.oseq.state = .loadDelay) (Q := fun u => enabled .oseq u = true)
    (fun u => u.b2.busy.toNat) feederB (fun k hst hQ => ?_) (fun {b u t} hu _ hm hst hQ => ?_) n hn
  · have hu := run_running hs (σ := σ) k
    obtain ⟨hqd, hqo⟩ := queueDepths_of_legal hu.1.render.legal
    refine acts_of_enabled hs hfair (a := feederB (runUnder σ s k)) nofun (feederB_enabled hu.1.channels hu.2 ?_)
    rw [oseq_starved hu hst (eq_false_of_ne_true hQ)]
    exact hqo
  · have hst' : t.oseq.state = .loadDelay := by rw [hm.keeps.oseq (hm.ne_of_disabled (a := .oseq) nofun hQ), hst]
    rcases feederB_move hu hm with hq | hlt | ⟨hb, hpair⟩
    · exact .inl (by simp [enabled, oEnabled, hst', hq])
    · exact .inr ⟨hst', .inl hlt⟩
    · exact .inr ⟨hst', .inr ⟨hb, by rw [hpair], by rw [feederB, feederB, hpair]⟩⟩

/-- The output-enable sequencer, once it has a hold to make, acts. -/
theorem oseq_acts (n : Nat) (hhold : (runUnder σ s n).oseq.state = .awaitTimingStart → (runUnder σ s n).flags.ts = true) :
    ∃ m, n ≤ m ∧ Acts σ s m .oseq := by
  have hen : ∃ m, n ≤ m ∧ enabled .oseq (runUnder σ s m) = true := by
    by_cases hen : enabled .oseq (runUnder σ s n) = true
    · exact ⟨n, Nat.le_refl n, hen⟩
    have hu := run_running hs (σ := σ) n
    rcases oseq_waiting (hu.1.handshake.tokens hu.2) (eq_false_of_ne_true hen) with ⟨hst, -⟩ | ⟨hw, hf⟩
    · exact oseq_gets_word hs hfair n hst
    · rw [hhold hw] at hf
      cases hf
  obtain ⟨m, hle, hen⟩ := hen
  obtain ⟨m', hle', hact⟩ := acts_of_enabled hs hfair (a := .oseq) nofun hen
  exact ⟨m', by omega, hact⟩

/-- The row sequencer, waiting for a line, gets it from the data sequencer. -/
theorem rseq_gets_line (n : Nat) (hn : (runUnder σ s n).rseq.state = .awaitData) :
    ∃ m, n ≤ m ∧ enabled .rseq (runUnder σ s m) = true := by
  refine enabled_of_helper hs .rseq .dseq (fun u => u.rseq.state = .awaitData) lineRank nofun (fun k hr hdis => ?_)
    (fun _ hm hr hb => ?_) (fun _ hm _ _ hb => ?_) (fun hu _ hm hr _ => ?_) n hn
  · have hf : (runUnder σ s k).flags.rdr = false := by simpa [enabled, rEnabled, hr] using hdis
    have hu := run_running hs (σ := σ) k
    exact dseq_acts hs hfair k (line_with_dseq (hu.1.handshake.tokens hu.2) hr hf)
  · rw [hm.keeps.rseq hb, hr]
  · rw [lineRank, lineRank, hm.keeps.dseq hb, hm.keeps.par]
  · exact (dseq_lineRank hu hm).imp (fun hf => by simpa [enabled, rEnabled, hr] using hf) And.left

/-- The row sequencer, waiting for the end of a hold, gets it from the output-enable sequencer. -/
theorem rseq_gets_hold (n : Nat) (hn : (runUnder σ s n).rseq.state = .awaitTimingDone) :
    ∃ m, n ≤ m ∧ enabled .rseq (runUnder σ s m) = true := by
  refine enabled_of_helper hs .rseq .oseq (fun u => u.rseq.state = .awaitTimingDone) doneRank nofun (fun k hr hdis => ?_)
    (fun _ hm hr hb => ?_) (fun _ hm _ _ hb => ?_) (fun _ _ hm hr _ => ?_) n hn
  · have hf : (runUnder σ s k).flags.td = false := by simpa [enabled, rEnabled, hr] using hdis
    have hu := run_running hs (σ := σ) k
    refine oseq_acts hs hfair k fun ho => ?_
    rcases hold_with_oseq (hu.1.handshake.tokens hu.2) hr hf with hts | hh | hh
    · exact hts
    all_goals
      rw [ho] at hh
      cases hh
  · rw [hm.keeps.rseq hb, hr]
  · rw [doneRank, doneRank, holdRank, holdRank, hm.keeps.oseq hb]
  · exact (oseq_doneRank hm).imp (fun hf => by simpa [enabled, rEnabled, hr] using hf) And.left

theorem rseq_stepsForever : StepsForever σ s .rseq := by
  refine stepsForever_of_enabled hs hfair nofun fun n => ?_
  by_cases hen : enabled .rseq (runUnder σ s n) = true
  · exact ⟨n, Nat.le_refl n, hen⟩
  have hu := run_running hs (σ := σ) n
  rcases rseq_waiting (hu.1.handshake.tokens hu.2) (eq_false_of_ne_true hen) with ⟨hr, -⟩ | ⟨hr, -⟩
  · exact rseq_gets_line hs hfair n hr
  · exact rseq_gets_hold hs hfair n hr

/-- The data sequencer, waiting for the release of a line, gets it from the row sequencer. -/
theorem dseq_stepsForever : StepsForever σ s .dseq := by
  refine stepsForever_of_enabled hs hfair nofun fun n => ?_
  by_cases hd : (runUnder σ s n).dseq.state = .awaitNextRow
  · refine enabled_of_helper hs .dseq .rseq (fun u => u.dseq.state = .awaitNextRow) loopRank nofun
      (fun k _ _ => acts_of_stepsForever (rseq_stepsForever hs hfair) nofun k) (fun _ hm hd hb => ?_) (fun _ hm _ _ hb => ?_)
      (fun _ _ hm hd _ => ?_) n hd
    · rw [hm.keeps.dseq hb, hd]
    · rw [loopRank, loopRank, hm.keeps.rseq hb]
    · exact (rseq_loopRank hm).imp (fun hf => by simpa [enabled, dEnabled, hd] using hf.1) And.left
  · obtain ⟨m, hle, -, -, hen⟩ := dseq_acts hs hfair n fun h => absurd h hd
    exact ⟨m, hle, hen⟩

/-- The output-enable sequencer, waiting for the start of a hold, gets it from the row sequencer. -/
theorem oseq_stepsForever : StepsForever σ s .oseq := by
  refine stepsForever_of_enabled hs hfair nofun fun n => ?_
  by_cases ho : (runUnder σ s n).oseq.state = .awaitTimingStart
  · refine enabled_of_helper hs .oseq .rseq (fun u => u.oseq.state = .awaitTimingStart) loopRank nofun
      (fun k _ _ => acts_of_stepsForever (rseq_stepsForever hs hfair) nofun k) (fun _ hm ho hb => ?_) (fun _ hm _ _ hb => ?_)
      (fun _ _ hm ho _ => ?_) n ho
    · rw [hm.keeps.oseq hb, ho]
    · rw [loopRank, loopRank, hm.keeps.rseq hb]
    · exact (rseq_loopRank hm).imp (fun hf => by simpa [enabled, oEnabled, ho] using hf.2) And.left
  · obtain ⟨m, hle, -, -, hen⟩ := oseq_acts hs hfair n fun h => absurd h ho
    exact ⟨m, hle, hen⟩

/-- A1 is made busy again by A2. -/
theorem a1_busy_again (n : Nat) : ∃ m, n ≤ m ∧ (runUnder σ s m).a1.busy = true := by
  have hu := run_running hs (σ := σ) n
  obtain ⟨hpair, -⟩ := hu.1.channels.pairs hu.2
  cases hb : (runUnder σ s n).a2.busy with
  | false => exact ⟨n, Nat.le_refl n, by simp [hpair, hb]⟩
  | true =>
    obtain ⟨m, hle, hact⟩ := acts_of_enabled hs hfair (a := .chan .a2) nofun ((chanEnabled_iff hu.1.channels hu.2 .a2).2 hb)
    obtain ⟨-, -, ht⟩ := a2_move (run_running hs m) (hact.move hs) rfl
    exact ⟨m + 1, by omega, by rw [ht]⟩

theorem b1_busy_again (n : Nat) : ∃ m, n ≤ m ∧ (runUnder σ s m).b1.busy = true := by
  have hu := run_running hs (σ := σ) n
  obtain ⟨-, hpair⟩ := hu.1.channels.pairs hu.2
  cases hb : (runUnder σ s n).b2.busy with
  | false => exact ⟨n, Nat.le_refl n, by simp [hpair, hb]⟩
  | true =>
    obtain ⟨m, hle, hact⟩ := acts_of_enabled hs hfair (a := .chan .b2) nofun ((chanEnabled_iff hu.1.channels hu.2 .b2).2 hb)
    obtain ⟨-, -, ht⟩ := b2_move (run_running hs m) (hact.move hs) rfl
    exact ⟨m + 1, by omega, by rw [ht]⟩

/-- A1, busy, gets room in `DQ` from the data sequencer. -/
theorem a1_stepsForever : StepsForever σ s (.chan .a1) := by
  refine stepsForever_of_enabled hs hfair nofun fun n => ?_
  obtain ⟨n', hle, hbusy⟩ := a1_busy_again hs hfair n
  obtain ⟨m, hm, hen⟩ := enabled_of_helper hs (.chan .a1) .dseq (fun u => u.a1.busy = true) wordRank nofun
    (fun k _ _ => acts_of_stepsForever (dseq_stepsForever hs hfair) nofun k)
    (fun hu hm hbusy hb => by rw [(hm.pairA_streaming hu hb hbusy).1, hbusy])
    (fun _ hm _ _ hb => by rw [wordRank, wordRank, hm.keeps.dseq hb])
    (fun hu ht hm hbusy _ => (dseq_wordRank hm).imp_left fun hlt => by
      have hbound := hu.1.counters.dqBound
      refine (chanEnabled_iff ht.1.channels ht.2 .a1).2 ⟨hbusy, ?_⟩
      rw [hm.keeps.par]
      omega)
    n' hbusy
  exact ⟨m, by omega, hen⟩

/-- B1, busy, gets room in `OQ` from the output-enable sequencer. -/
theorem b1_stepsForever : StepsForever σ s (.chan .b1) := by
  refine stepsForever_of_enabled hs hfair nofun fun n => ?_
  obtain ⟨n', hle, hbusy⟩ := b1_busy_again hs hfair n
  obtain ⟨m, hm, hen⟩ := enabled_of_helper hs (.chan .b1) .oseq (fun u => u.b1.busy = true) holdRank nofun
    (fun k _ _ => acts_of_stepsForever (oseq_stepsForever hs hfair) nofun k)
    (fun hu hm hbusy hb => by rw [(hm.pairB_streaming hu hb hbusy).1, hbusy])
    (fun _ hm _ _ hb => by rw [holdRank, holdRank, hm.keeps.oseq hb])
    (fun hu ht hm hbusy _ => by
      rcases oseq_holdRank hm with ⟨-, hlt, -⟩ | ⟨hlt, -⟩
      · have hbound := hu.1.counters.oqBound
        refine .inl ((chanEnabled_iff ht.1.channels ht.2 .b1).2 ⟨hbusy, ?_⟩)
        rw [hm.keeps.par]
        omega
      · exact .inr hlt)
    n' hbusy
  exact ⟨m, by omega, hen⟩

/-- A2 is made busy by A1 at the end of each pass. -/
theorem a2_stepsForever : StepsForever σ s (.chan .a2) := by
  refine stepsForever_of_enabled hs hfair nofun fun n => ?_
  have hidle {u : State} (hu : RunningCore u) (hdis : enabled (.chan .a2) u = false) :
      u.a2.busy = false ∧ u.a1.busy = true := by
    have h2 : u.a2.busy = false :=
      eq_false_of_ne_true fun hb => ne_true_of_eq_false hdis ((chanEnabled_iff hu.1.channels hu.2 .a2).2 hb)
    exact ⟨h2, by rw [(hu.1.channels.pairs hu.2).1, h2]; rfl⟩
  refine enabled_of_helper hs (.chan .a2) (.chan .a1) (fun _ => True) (fun u => u.a1.remain.toNat) nofun
    (fun k _ _ => acts_of_stepsForever (a1_stepsForever hs hfair) nofun k) (fun _ _ _ _ => trivial)
    (fun hu hm _ hdis hb => ?_) (fun {u t} hu ht hm _ hdis => ?_) n trivial
  · obtain ⟨-, h1⟩ := hidle hu hdis
    rw [(hm.pairA_streaming hu hb h1).1]
  · obtain ⟨h2, -⟩ := hidle hu hdis
    obtain ⟨-, -, hmove⟩ := a1_move hu hm rfl
    by_cases hlast : u.a1.remain = 1
    · exact .inl ((chanEnabled_iff ht.1.channels ht.2 .a2).2 (by rw [hmove]; exact decide_eq_true hlast))
    · obtain ⟨h0, -⟩ := bytesRead_streaming h2 (hu.1.channels.passA (by rw [hu.2]; decide) h2)
      have hpred := toNat_pred (x := u.a1.remain) (by simpa [BitVec.toNat_eq] using h0)
      refine .inr ?_
      rw [hmove]
      simp only [if_neg hlast]
      omega

/-- B2 is made busy by B1 at the end of each pass over the delays. -/
theorem b2_stepsForever : StepsForever σ s (.chan .b2) := by
  refine stepsForever_of_enabled hs hfair nofun fun n => ?_
  have hidle {u : State} (hu : RunningCore u) (hdis : enabled (.chan .b2) u = false) :
      u.b2.busy = false ∧ u.b1.busy = true := by
    have h2 : u.b2.busy = false :=
      eq_false_of_ne_true fun hb => ne_true_of_eq_false hdis ((chanEnabled_iff hu.1.channels hu.2 .b2).2 hb)
    exact ⟨h2, by rw [(hu.1.channels.pairs hu.2).2, h2]; rfl⟩
  refine enabled_of_helper hs (.chan .b2) (.chan .b1) (fun _ => True) (fun u => u.b1.remain.toNat) nofun
    (fun k _ _ => acts_of_stepsForever (b1_stepsForever hs hfair) nofun k) (fun _ _ _ _ => trivial)
    (fun hu hm _ hdis hb => ?_) (fun {u t} hu ht hm _ hdis => ?_) n trivial
  · obtain ⟨-, h1⟩ := hidle hu hdis
    rw [(hm.pairB_streaming hu hb h1).1]
  · obtain ⟨h2, -⟩ := hidle hu hdis
    obtain ⟨-, -, hmove⟩ := b1_move hu hm rfl
    by_cases hlast : u.b1.remain = 1
    · exact .inl ((chanEnabled_iff ht.1.channels ht.2 .b2).2 (by rw [hmove]; exact decide_eq_true hlast))
    · obtain ⟨k, -, hk, hsum, -⟩ := hu.1.channels.passB (by rw [hu.2]; decide) h2
      have h0 : u.b1.remain.toNat ≠ 0 := by omega
      have hpred := toNat_pred (x := u.b1.remain) (by simpa [BitVec.toNat_eq] using h0)
      refine .inr ?_
      rw [hmove]
      simp only [if_neg hlast]
      omega

end

/-- Settles O6, agent by agent. -/
theorem everyAgentStepsForever : Obligations.EveryAgentStepsForever := by
  intro σ s h he hfair a ha
  have hs : RunningCore s := ⟨h, he⟩
  match a with
  | .render => exact absurd rfl ha
  | .chan .a1 => exact a1_stepsForever hs hfair
  | .chan .a2 => exact a2_stepsForever hs hfair
  | .chan .b1 => exact b1_stepsForever hs hfair
  | .chan .b2 => exact b2_stepsForever hs hfair
  | .dseq => exact dseq_stepsForever hs hfair
  | .rseq => exact rseq_stepsForever hs hfair
  | .oseq => exact oseq_stepsForever hs hfair

end Sys2Proof.Machine
end


section
/-! PROOFS. Alignment of lines and delays, and the light of a pass (43_sequencers R231, R236, R237): when the row sequencer
latches, the line is whole; when a hold begins, its delay is that of the plane; so over a pass a pixel is lit as its buffer says. -/

namespace Sys2Proof.Machine

/-- Settles O58: at the latch all columns are shifted, and at the start of a hold no plane has been held since the delay was
loaded. -/
theorem linesAndDelaysStayAligned : Obligations.LinesAndDelaysStayAligned := by
  intro s h
  refine ⟨fun hs => ?_, fun ho hts => ?_⟩
  · have he := h.handshake.running (.inr (.inl (by simp [hs])))
    obtain ⟨hd, -⟩ := h.handshake.awaiting_of_latching (.inl hs)
    exact ⟨h.stream.clocks.trans (columnsDone_latch (h.handshake.tokens he) hs), hd⟩
  · have he := h.handshake.running (.inr (.inr (by simp [ho])))
    obtain ⟨hwait, htd⟩ := started_awaits (h.handshake.tokens he) hts
    obtain ⟨-, hplane⟩ := row_and_plane_waiting h he hwait
    obtain ⟨-, hbits⟩ := colorBits_of_legal h.render.legal
    refine ⟨hplane, ?_⟩
    rw [h.delays.loaded ho, holdsDone_of_pending htd hwait, Nat.mod_eq_of_lt hplane, delayWord_toNat (by omega), delayWord]

/-! ### The lines of a pass (43_sequencers R230, R237) -/

/-- A line shown to its end has shed its whole light. -/
theorem ticksOfLine_done {s : State} {k : Nat} (hk : k < linesDone s) : ticksOfLine s k = holdTicks s.par k := by
  rw [ticksOfLine]
  split
  · rfl
  · next hlast =>
    cases hd : lastLineDone s with
    | true => exact ticksSoFar_done hd k
    | false =>
      rw [linesDone, hd, if_neg (by decide)] at hk
      omega

theorem linesDone_le (s : State) : linesDone s ≤ latches s.trace := by
  rw [linesDone]
  split <;> omega

/-- The light of a line shown to its end. -/
theorem ScanHistory.lightOfLine {s : State} {h : List Byte} (hs : ScanHistory s h) {k x y : Nat} (hk : k < linesDone s)
    (hx : x < s.par.width) (hy : y < 2 * s.par.activeRows) (c : Colour) :
    lightOfLines s.par x y c k (k + 1) s.trace = if Shows s.par h k x y c then holdTicks s.par k else 0 := by
  rw [hs.light k (Nat.lt_of_lt_of_le hk (linesDone_le s)) x hx y hy c, ticksOfLine_done hk]

/-- Dark lines add up to darkness. -/
theorem lightOfLines_dark {p : Params} {x y j m : Nat} {c : Colour} {es : List PinEvent}
    (h : ∀ i < m, lightOfLines p x y c (j + i) (j + i + 1) es = 0) : lightOfLines p x y c j (j + m) es = 0 := by
  rw [lightOfLines_sum]
  refine List.sum_eq_zero fun v hv => ?_
  obtain ⟨i, hi, rfl⟩ := List.mem_map.1 hv
  exact h i (List.mem_range.1 hi)

/-- The line that shows plane `b` of row `r` in pass `n`. -/
abbrev lineOf (p : Params) (n r b : Nat) : Nat := n * passLines p + r * p.colorBits + b

theorem lineOf_div {p : Params} {n r b : Nat} (hr : r < p.activeRows) (hb : b < p.colorBits) :
    lineOf p n r b / p.colorBits % p.activeRows = r ∧ lineOf p n r b % p.colorBits = b := by
  have hline : lineOf p n r b = b + p.colorBits * (r + p.activeRows * n) := by
    unfold lineOf passLines
    ring
  rw [hline]
  refine ⟨?_, by rw [Nat.add_mul_mod_self_left, Nat.mod_eq_of_lt hb]⟩
  rw [Nat.add_mul_div_left _ _ (Nat.zero_lt_of_lt hb), Nat.div_eq_of_lt hb, Nat.zero_add, Nat.add_mul_mod_self_left,
    Nat.mod_eq_of_lt hr]

/-- Column `x` of that line is the byte of the pixels of that column, row and plane (30_encoding R94). -/
theorem lineOf_column (p : Params) (n x y b : Nat) :
    lineOf p n (y % p.activeRows) b * p.width + x = n * p.frameSize + pixelOffset p x y b := by
  unfold lineOf passLines Params.frameSize pixelOffset
  ring

/-- The lines of a pass before those of row `r`, or after them, show other rows. -/
theorem lightOfLines_other_rows {s : State} {h : List Byte} (hs : ScanHistory s h) {n r₁ r₂ x y : Nat}
    (hle : r₁ ≤ r₂) (hend : r₂ ≤ s.par.activeRows) (hdone : (n + 1) * passLines s.par ≤ linesDone s)
    (hother : y % s.par.activeRows < r₁ ∨ r₂ ≤ y % s.par.activeRows) (hx : x < s.par.width)
    (hy : y < 2 * s.par.activeRows) (c : Colour) :
    lightOfLines s.par x y c (lineOf s.par n r₁ 0) (lineOf s.par n r₂ 0) s.trace = 0 := by
  obtain ⟨m, rfl⟩ := Nat.exists_eq_add_of_le hle
  have hlen : lineOf s.par n (r₁ + m) 0 = lineOf s.par n r₁ 0 + m * s.par.colorBits := by
    unfold lineOf
    ring
  rw [hlen]
  refine lightOfLines_dark fun i hi => ?_
  have hbits : 0 < s.par.colorBits := Nat.pos_of_ne_zero fun h0 => by simp [h0] at hi
  have hrow : i / s.par.colorBits < m := (Nat.div_lt_iff_lt_mul hbits).2 hi
  have hmod : i % s.par.colorBits < s.par.colorBits := Nat.mod_lt _ hbits
  have hline : lineOf s.par n r₁ 0 + i = lineOf s.par n (r₁ + i / s.par.colorBits) (i % s.par.colorBits) := by
    have := Nat.div_add_mod' i s.par.colorBits
    unfold lineOf
    rw [Nat.add_mul]
    omega
  have hlast : lineOf s.par n (r₁ + i / s.par.colorBits) (i % s.par.colorBits) < (n + 1) * passLines s.par := by
    have hmul : (r₁ + i / s.par.colorBits + 1) * s.par.colorBits ≤ s.par.activeRows * s.par.colorBits :=
      Nat.mul_le_mul_right _ (by omega)
    rw [Nat.add_mul, Nat.one_mul] at hmul
    rw [Nat.add_mul n, Nat.one_mul]
    unfold lineOf passLines at *
    omega
  obtain ⟨hdiv, -⟩ := lineOf_div (p := s.par) (n := n) (r := r₁ + i / s.par.colorBits) (by omega) hmod
  rw [hline, hs.lightOfLine (by omega) hx hy c, if_neg]
  rintro ⟨hshown, -⟩
  rw [hdiv] at hshown
  have hge : 0 ≤ i / s.par.colorBits := Nat.zero_le _
  omega

/-- Over a pass a pixel sheds the light of the lines of its row. -/
theorem lightOfPass_eq {s : State} {h : List Byte} (hs : ScanHistory s h) {n x y : Nat}
    (hdone : (n + 1) * passLines s.par ≤ linesDone s) (hx : x < s.par.width) (hy : y < 2 * s.par.activeRows)
    (c : Colour) :
    lightOfPass s.par x y c n s.trace =
      ((List.range s.par.colorBits).map fun b =>
        if ledBit s.par y c (h.getD (n * s.par.frameSize + pixelOffset s.par x y b) 0) then delayWord b + s.par.holdBias
        else 0).sum := by
  have hr : y % s.par.activeRows < s.par.activeRows := Nat.mod_lt _ (by omega)
  have hstart : n * passLines s.par = lineOf s.par n 0 0 := by simp [lineOf]
  have hend : (n + 1) * passLines s.par = lineOf s.par n s.par.activeRows 0 := by simp [lineOf, passLines, Nat.add_mul]
  have hnext : lineOf s.par n (y % s.par.activeRows + 1) 0 = lineOf s.par n (y % s.par.activeRows) 0 + s.par.colorBits := by
    unfold lineOf
    ring
  have hmono {r₁ r₂ : Nat} (hle : r₁ ≤ r₂) : lineOf s.par n r₁ 0 ≤ lineOf s.par n r₂ 0 :=
    Nat.add_le_add_left (Nat.mul_le_mul_right _ hle) _
  rw [lightOfPass, hstart, hend,
    lightOfLines_add _ _ _ _ (hmono (Nat.zero_le (y % s.par.activeRows))) (hmono hr.le),
    lightOfLines_add _ _ _ _ (hmono (Nat.le_succ (y % s.par.activeRows))) (hmono hr),
    lightOfLines_other_rows hs (Nat.zero_le _) hr.le hdone (.inr (Nat.le_refl _)) hx hy,
    lightOfLines_other_rows hs hr (Nat.le_refl _) hdone (.inl (Nat.lt_succ_self _)) hx hy,
    hnext, lightOfLines_sum, Nat.zero_add, Nat.add_zero]
  refine congrArg List.sum (List.map_congr_left fun b hb => ?_)
  have hb : b < s.par.colorBits := List.mem_range.1 hb
  obtain ⟨hdiv, hmod⟩ := lineOf_div (n := n) hr hb
  have hshown : lineOf s.par n (y % s.par.activeRows) b < linesDone s := by
    have hlast : lineOf s.par n (y % s.par.activeRows + 1) 0 ≤ lineOf s.par n s.par.activeRows 0 := hmono hr
    have hline : lineOf s.par n (y % s.par.activeRows) b = lineOf s.par n (y % s.par.activeRows) 0 + b := rfl
    omega
  refine (hs.lightOfLine hshown hx hy c).trans ?_
  simp only [holdTicks, Shows, hmod, hdiv, lineOf_column, true_and]

/-! ### The bytes of a pass (42_transfer_engine R183) -/

/-- Bytes appended to a list whose last bytes are the first `m` of a frame. -/
theorem lastBytes_append {h bs : List Byte} {f : Nat → Byte} {m : Nat} (hm : m ≤ h.length)
    (hh : ∀ o < m, h.getD (h.length - m + o) 0 = f o) (hb : ∀ j < bs.length, bs.getD j 0 = f (m + j)) :
    ∀ o < m + bs.length, (h ++ bs).getD ((h ++ bs).length - (m + bs.length) + o) 0 = f o := by
  intro o ho
  have hidx : (h ++ bs).length - (m + bs.length) + o = h.length - m + o := by
    rw [List.length_append]
    omega
  rw [hidx]
  by_cases hlt : o < m
  · rw [List.getD_append _ _ _ _ (by omega), hh o hlt]
  · rw [List.getD_append_right _ _ _ _ (by omega), hb _ (by omega)]
    congr 1
    omega

/-- The bytes an enabled transfer of A1 reads. -/
theorem bytesTaken_a1 {s : State} (hen : chanEnabled .a1 s = true) :
    (bytesTaken (.agent (.chan .a1)) s).length = s.par.wA ∧ ∀ j < s.par.wA,
      (bytesTaken (.agent (.chan .a1)) s).getD j 0 = s.byteAt (s.a1.readAddr.toNat + j) := by
  have ht : bytesTaken (.agent (.chan .a1)) s =
      (List.range s.par.wA).map fun j => s.byteAt (s.a1.readAddr.toNat + j) := if_pos hen
  rw [ht]
  refine ⟨by simp, fun j hj => ?_⟩
  rw [List.getD_eq_getElem _ _ (by simpa using hj)]
  simp

/-- A pass of A1 is a pass over one of the two framebuffers. -/
theorem pass_base {s : State} {base : Word} {k : Nat} (h : InPass s)
    (hk : Streaming s.a1 base s.par.wA (s.par.frameSize / s.par.wA) k) : base = s.par.fb0Base ∨ base = s.par.fb1Base := by
  obtain ⟨-, hsum, haddr⟩ := hk
  obtain ⟨k', -, ⟨-, hsum', haddr'⟩ | ⟨-, hsum', haddr'⟩⟩ := h
  all_goals
    obtain rfl : k' = k := by omega
  · exact .inl (BitVec.eq_of_toNat_eq (by omega))
  · exact .inr (BitVec.eq_of_toNat_eq (by omega))

/-- A transfer of A1 reads the next word of its pass, or the last one. -/
theorem PassSoFar.read {s t : State} {h : List Byte} {base : Word} {f : Nat → Byte} {k : Nat} (hi : CoreInv s)
    (he : s.engine = .running) (hp : PassSoFar s h base f k)
    (hf : ∀ o < s.par.frameSize, s.byteAt (base.toNat + o) = f o) (hen : chanEnabled .a1 s = true)
    (hpar : t.par = s.par) (h1 : t.a1 = streamed s.a1 s.par.wA) (h2 : t.a2.busy = decide (s.a1.remain = 1)) :
    (∃ j, PassSoFar t (h ++ bytesTaken (.agent (.chan .a1)) s) base f j) ∨
      PassRead t (h ++ bytesTaken (.agent (.chan .a1)) s) f := by
  obtain ⟨hb2, hst, hlen, hlast⟩ := hp
  have hl := hi.render.legal
  obtain ⟨-, hw, hdiv, -⟩ := pass_facts hl
  obtain ⟨hcount, hbytes⟩ := bytesTaken_a1 hen
  have ⟨hlt, hsum, haddr⟩ := hst
  have hbase : base.toNat + s.par.frameSize ≤ 2 ^ 32 := by
    obtain ⟨⟨-, hb0⟩, ⟨-, hb1⟩, -⟩ := map_facts (mapLegal_of_legal hl)
    rcases pass_base (hi.channels.passA (by rw [he]; decide) hb2) hst with rfl | rfl
    · exact hb0
    · exact hb1
  have hmul : (k + 1) * s.par.wA = k * s.par.wA + s.par.wA := Nat.succ_mul ..
  have hin : (k + 1) * s.par.wA ≤ s.par.frameSize := hdiv ▸ Nat.mul_le_mul_right _ hlt
  have hread := lastBytes_append hlen hlast (bs := bytesTaken (.agent (.chan .a1)) s) fun j hj => by
    rw [hcount] at hj
    rw [hbytes j hj, haddr, Nat.add_assoc, hf _ (by omega)]
  rw [hcount, ← hmul] at hread
  have hlen' : (k + 1) * s.par.wA ≤ (h ++ bytesTaken (.agent (.chan .a1)) s).length := by
    rw [List.length_append, hcount]
    omega
  by_cases hend : s.a1.remain = 1
  · have hframe : (k + 1) * s.par.wA = s.par.frameSize := by
      rw [word_eq_one.1 hend, Nat.add_comm] at hsum
      rw [hsum, hdiv]
    rw [hframe] at hread hlen'
    refine .inr ⟨h2.trans (decide_eq_true hend), ?_, ?_⟩ <;> rw [hpar]
    · exact hlen'
    · exact hread
  · obtain ⟨-, hst'⟩ := streaming_next hw (by rw [hdiv]; exact hbase) hst hend
    refine .inl ⟨k + 1, h2.trans (decide_eq_false hend), ?_, ?_, ?_⟩ <;> rw [hpar]
    · rw [h1]
      exact hst'
    · exact hlen'
    · exact hread

/-- A move that leaves pair A as it is, and reads nothing, leaves the pass as it is. -/
theorem PassSoFar.of_keeps {b : Agent} {s t : State} {h : List Byte} {base : Word} {f : Nat → Byte} {k : Nat}
    (hp : PassSoFar s h base f k) (hkeeps : EngineKeeps b s t) (hb1 : b ≠ .chan .a1) (hb2 : b ≠ .chan .a2) :
    PassSoFar t h base f k := by
  obtain ⟨h1, h2⟩ := hkeeps.pairA hb1 hb2
  simpa only [PassSoFar, hkeeps.par, h1, h2] using hp

/-- A channel that waits reads nothing. -/
theorem bytesTaken_disabled {c : Chan} {s : State} (hdis : chanEnabled c s = false) :
    bytesTaken (.agent (.chan c)) s = [] := by
  cases c
  case a1 => exact if_neg (by rw [hdis]; decide)
  all_goals rfl

theorem transfer_pass {c : Chan} {s t : State} {h : List Byte} {base : Word} {f : Nat → Byte} {k : Nat} (hi : CoreInv s)
    (he : s.engine = .running) (hp : PassSoFar s h base f k)
    (hf : ∀ o < s.par.frameSize, s.byteAt (base.toNat + o) = f o) (hx : transfer c (s.chan c).ctrl s = .next t) :
    (∃ j, PassSoFar t (h ++ bytesTaken (.agent (.chan c)) s) base f j) ∨
      PassRead t (h ++ bytesTaken (.agent (.chan c)) s) f := by
  cases hen : chanEnabled c s with
  | false =>
    rw [channel_wait hen hx, bytesTaken_disabled hen, List.append_nil]
    exact .inl ⟨k, hp⟩
  | true =>
    obtain ⟨-, hmove⟩ := channel_move hi.render hi.channels hen hx
    rcases hmove with ⟨rfl, -, -, -, rfl⟩ | ⟨rfl, hb2, -, -⟩ | ⟨rfl, -, -, -, rfl⟩ | ⟨rfl, -, -, rfl⟩
    · exact PassSoFar.read hi he hp hf hen rfl rfl rfl
    · obtain ⟨hb2', -⟩ := hp
      rw [hb2] at hb2'
      cases hb2'
    all_goals
      rw [bytesTaken, List.append_nil]
      exact .inl ⟨k, hp⟩

/-- Settles O60: a pass of lines shows a pass of bytes, and A1 reads a pass of bytes from its buffer. -/
theorem lightOfAPass : Obligations.LightOfAPass := by
  refine ⟨fun s u h base n hl hs hdone hpar hframe x hx y hy c => ?_, fun s h hi hs he => ?_,
    fun s t h base f k hi he hp hf hx => ?_⟩
  · have hlight : lightOfPass s.par x y c n s.trace = ((List.range s.par.colorBits).map fun b =>
        (planeBit u base x y (groupPos s.par.chanPerm c) b).toNat * (delayWord b + s.par.holdBias)).sum := by
      rw [lightOfPass_eq hs hdone hx hy c]
      refine congrArg List.sum (List.map_congr_left fun b hb => ?_)
      have hb : b < s.par.colorBits := List.mem_range.1 hb
      have hoff : pixelOffset s.par x y b < s.par.frameSize := by
        obtain ⟨hcol, -⟩ :=
          pixelOffsetsFillTheFrame s.par (width_bounds hl).1 (activeRows_of_legal hl).1 (colorBits_of_legal hl).1
        exact (hcol x y b hx hy hb).2
      have hbit : ledBit s.par y c (h.getD (n * s.par.frameSize + pixelOffset s.par x y b) 0) =
          planeBit u base x y (groupPos s.par.chanPerm c) b := by
        rw [hframe _ hoff, planeBit, ledBit, hpar]
      rw [hbit]
      cases planeBit u base x y (groupPos s.par.chanPerm c) b <;> simp
    refine ⟨fun hbias => ?_, fun hbias => ?_⟩ <;> rw [hlight, hbias]
    · rw [storedChannel, storedValue, hpar]
      refine congrArg List.sum (List.map_congr_left fun b _ => ?_)
      rw [delayWord, Nat.sub_add_cancel Nat.one_le_two_pow]
    · rw [unbiasedLight, hpar]
      rfl
  · rw [hs.length, hi.stream.aligned he]
    exact (((lines_modEq hs.lines).add_right _).add_right _).add_right _
  · obtain ⟨e, hu, hx⟩ := hi.step_turn hx
    have hbytes : bytesTaken (nextTurn s).1 s = bytesTaken (nextTurn s).1 { s with env := e } := rfl
    have hpu : PassSoFar { s with env := e } h base f k := hp
    rw [hbytes]
    obtain ⟨c, hturn, hx⟩ | ⟨hturn, hx⟩ | ⟨hturn, hx⟩ | ⟨hturn, hx⟩ | ⟨hnone, hm⟩ := turn_cases hu.render hx
    · rw [hturn]
      exact transfer_pass hu he hpu hf hx
    · rw [hturn, bytesTaken, List.append_nil]
      exact .inl ⟨k, hpu.of_keeps (dseq_engineKeeps hx) nofun nofun⟩
    · rw [hturn, bytesTaken, List.append_nil]
      exact .inl ⟨k, hpu.of_keeps (rseq_engineKeeps hx) nofun nofun⟩
    · rw [hturn, bytesTaken, List.append_nil]
      exact .inl ⟨k, hpu.of_keeps (oseq_engineKeeps hx) nofun nofun⟩
    · rw [hnone, List.append_nil]
      rcases hm with ⟨cfg, r, g, b, act, m, rp, rfl⟩ | ⟨hoff, -⟩ | ⟨hsetup, -⟩
      · exact .inl ⟨k, hpu⟩
      · cases he.symm.trans hoff
      · cases he.symm.trans hsetup

end Sys2Proof.Machine
end


section
/-! PROOFS. The state after construction (70_reset R280, R281) meets every invariant of the model, for every legal parameter
set: Display Memory is detached and both framebuffers are zero, and nothing of the output side has moved. -/

namespace Sys2Proof.Machine

/-! ### Each invariant after construction -/

/-- The delay table of Display Memory after construction, as words (10_state R35). -/
theorem initial_delayWord {p : Params} {i : Nat} (hi : i < p.colorBits) (hc : p.colorBits ≤ 8) :
    (State.initial p).wordAt (p.delaysBase.toNat + 4 * i) = BitVec.ofNat 32 (delayWord i) :=
  BitVec.eq_of_toNat_eq ((initial_delay hi hc).trans (delayWord_toNat (by omega)).symm)

theorem resetDepth_of_legal {p : Params} (h : ParamsLegal p) : p.cfgReset.pwmBits.toNat = p.colorBits :=
  h.2.2.2.2.2.2.2.2.2.2.1

theorem topClear_zero : topClear 0 := by decide

/-- After construction Display Memory is detached, and no command is in progress. -/
theorem initial_renderInv {p : Params} (hl : ParamsLegal p) : RenderInv (State.initial p) := by
  have hm := mapLegal_of_legal hl
  obtain ⟨-, hbits⟩ := colorBits_of_legal hl
  obtain ⟨hfb, hdl⟩ := initial_pointers hm
  exact {
    legal := hl
    depth := resetDepth_of_legal hl
    tables := ⟨rfl, rfl, rfl⟩
    unbound := fun _ => ⟨rfl, hdl, rfl⟩
    bound := fun h => absurd hfb h
    delayBound := fun h => absurd hfb h
    delays := fun i hi => initial_delayWord hi hbits
    top0 := fun o ho => (congrArg topClear (initial_framebuffers hm ho).1).mpr topClear_zero
    top1 := fun o ho => (congrArg topClear (initial_framebuffers hm ho).2).mpr topClear_zero
    old := topClear_zero
    command := .inl rfl }

theorem initial_handshakeInv (p : Params) : HandshakeInv (State.initial p) where
  inert _ := ⟨rfl, rfl, rfl, rfl, rfl⟩
  tokens := nofun
  dark := nofun
  idle := ⟨rfl, rfl⟩
  setup := nofun

theorem initial_channelInv (p : Params) : ChannelInv (State.initial p) where
  idle _ := ⟨rfl, rfl, rfl, rfl⟩
  preparing := nofun
  fixed h := absurd rfl h
  pairs := nofun
  passA h := absurd rfl h
  passB h := absurd rfl h
  armed _ := ⟨rfl, rfl⟩
  rearmA := nofun
  rearmB := nofun

/-- The queues and `OSR` are empty; only the word size takes a legal set. -/
theorem initial_counterInv {p : Params} (hl : ParamsLegal p) : CounterInv (State.initial p) where
  wordSize := (pass_facts hl).2.1
  dqBound := Nat.zero_le _
  oqBound := Nat.zero_le _
  dqWords := nofun
  osrLeft := Nat.zero_le _
  osr := Nat.one_pos

theorem initial_streamInv (p : Params) : StreamInv (State.initial p) where
  start _ := ⟨rfl, rfl⟩
  column := nofun
  counters := trivial
  aligned := nofun
  clocks := rfl

theorem initial_delayInv (p : Params) : DelayInv (State.initial p) where
  start _ := rfl
  aligned := nofun
  queued := nofun
  loaded := nofun
  counting := nofun

theorem initial_coreInv {p : Params} (hl : ParamsLegal p) : CoreInv (State.initial p) where
  render := initial_renderInv hl
  handshake := initial_handshakeInv p
  channels := initial_channelInv p
  counters := initial_counterInv hl
  stream := initial_streamInv p
  delays := initial_delayInv p

/-! ### What the panel has been shown, and who can move -/

theorem initial_bytesShifted (p : Params) : bytesShifted (State.initial p) = 0 := Nat.zero_mul p.width

/-- The trace is empty: no byte is shifted, no line is latched, and the panel is dark. -/
theorem initial_scanHistory (p : Params) : ScanHistory (State.initial p) [] where
  lines := rfl
  length := by rw [initial_bytesShifted]; rfl
  register := nofun
  queue := nofun
  pinsShown := ⟨rfl, rfl⟩
  shift := by rw [initial_bytesShifted, List.take_nil, List.drop_nil]; rfl
  latched := nofun
  light := nofun

/-- The render port has no command in flight, no channel is busy, and every sequencer is off (70_reset R281). -/
theorem initial_enabled (p : Params) : ∀ a, enabled a (State.initial p) = false
  | .render => rfl
  | .chan .a1 | .chan .a2 | .chan .b1 | .chan .b2 => rfl
  | .dseq | .rseq | .oseq => rfl

/-- Settles O43: `State.reset` is construction with a legal set, and construction with any legal set meets the invariants. -/
theorem resetMeetsTheInvariants : Obligations.ResetMeetsTheInvariants :=
  ⟨empty_wf _, initial_coreInv test_reset_legal, trivial, initial_scanHistory _, initial_enabled _⟩

end Sys2Proof.Machine
end
